-- ==== Sys2Proof/Word.lean ====
section
/-!
DEFINITION. The machine's value types and the names of its registers (00_scope.md R7 to R9;
10_state.md R20 to R25).
-/

namespace Sys2Proof

/-- An 8-bit value (R8 `u8`). -/
abbrev Byte := BitVec 8

/-- A 16-bit value (R8 `u16`). -/
abbrev Word := BitVec 16

/-- A 20-bit physical address (R60). -/
abbrev Addr := BitVec 20

/-- A signed 32-bit cycle cost, as a bit pattern (R393, R400). -/
abbrev Cost := BitVec 32

/-- A three-bit register index as the `reg` and `rm` fields and opcode bits 2:0 carry it (R23, R24). -/
abbrev RegIx := BitVec 3

/-- A slot of the dispatch table (R6 `DISPATCH`): an opcode byte and, for a group opcode, the ModRM
`reg` field. -/
abbrev Slot := Byte × Option RegIx

/-- The operand width `w` of an instruction: 0 byte, 1 word (R9). -/
inductive Width where
  | byte
  | word
  deriving DecidableEq, Repr

/-- `N_w` of R9: 8 for a byte operand, 16 for a word operand. -/
@[reducible] def Width.bits : Width → Nat
  | .byte => 8
  | .word => 16

/-- The registers of the 16-bit file, in the order of their index (R23). -/
inductive Reg16 where
  | ax | cx | dx | bx | sp | bp | si | di
  deriving DecidableEq, Repr

/-- The byte registers, in the order of their index (R24). -/
inductive Reg8 where
  | al | cl | dl | bl | ah | ch | dh | bh
  deriving DecidableEq, Repr

/-- The segment registers, in the order of their index (R25). -/
inductive Sreg where
  | es | cs | ss | ds
  deriving DecidableEq, Repr

/-- `Reg16[i]` (R23). -/
def Reg16.ofIx (i : RegIx) : Reg16 :=
  match i.toNat with
  | 0 => .ax | 1 => .cx | 2 => .dx | 3 => .bx
  | 4 => .sp | 5 => .bp | 6 => .si | _ => .di

/-- The index of a 16-bit register (R23). -/
def Reg16.ix : Reg16 → RegIx
  | .ax => 0 | .cx => 1 | .dx => 2 | .bx => 3
  | .sp => 4 | .bp => 5 | .si => 6 | .di => 7

/-- `Reg8[i]` (R24). -/
def Reg8.ofIx (i : RegIx) : Reg8 :=
  match i.toNat with
  | 0 => .al | 1 => .cl | 2 => .dl | 3 => .bl
  | 4 => .ah | 5 => .ch | 6 => .dh | _ => .bh

/-- The index of a byte register (R24). -/
def Reg8.ix : Reg8 → RegIx
  | .al => 0 | .cl => 1 | .dl => 2 | .bl => 3
  | .ah => 4 | .ch => 5 | .dh => 6 | .bh => 7

/-- `Sreg[i]` (R25). -/
def Sreg.ofIx (i : BitVec 2) : Sreg :=
  match i.toNat with
  | 0 => .es | 1 => .cs | 2 => .ss | _ => .ds

/-- The index of a segment register (R25). -/
def Sreg.ix : Sreg → BitVec 2
  | .es => 0 | .cs => 1 | .ss => 2 | .ds => 3

/-- The named flags of the flags word (R28). `tf` and `af` are storage only (R30). -/
inductive Flag where
  | cf | pf | af | zf | sf | tf | intf | df | of
  deriving DecidableEq, Repr

/-- A flag's bit position in the flags word (R28). -/
def Flag.pos : Flag → Nat
  | .cf => 0 | .pf => 2 | .af => 4 | .zf => 6 | .sf => 7
  | .tf => 8 | .intf => 9 | .df => 10 | .of => 11

/-- The low half of a word (R20). -/
def lowByte (v : Word) : Byte := v.extractLsb' 0 8

/-- The high half of a word (R20). -/
def highByte (v : Word) : Byte := v.extractLsb' 8 8

/-- `hi : lo`, the word whose halves are given (R20, R66). -/
def wordOf (lo hi : Byte) : Word := hi ++ lo

/-- `sext_16` of a byte (R8). -/
def sext16 (b : Byte) : Word := b.signExtend 16

/-- `zext_16` of a byte (R8). -/
def zext16 (b : Byte) : Word := b.zeroExtend 16

end Sys2Proof
end

