-- ==== Sys2Proof/Syntax.lean ====
section
/-!
DEFINITION. The instructions as data: operand forms and the one inductive `Instr` (30_encoding.md
R104, R105, R107; the rows of opcode_table.json). Each row of the table is one constructor of `Instr`
at one value of its form, width, register-in-opcode or slot argument.
-/

namespace Sys2Proof

/-- The eight base and index combinations, in the order of `rm` (R97). -/
inductive Base where
  | bxSi | bxDi | bpSi | bpDi | si | di | bp | bx
  deriving DecidableEq, Repr

/-- Row `rm` of the table of R97. -/
def Base.ofIx (i : RegIx) : Base :=
  match i.toNat with
  | 0 => .bxSi | 1 => .bxDi | 2 => .bpSi | 3 => .bpDi
  | 4 => .si | 5 => .di | 6 => .bp | _ => .bx

/-- The `rm` value of a row of the table of R97. -/
def Base.ix : Base → RegIx
  | .bxSi => 0 | .bxDi => 1 | .bpSi => 2 | .bpDi => 3
  | .si => 4 | .di => 5 | .bp => 6 | .bx => 7

/-- The register-or-memory operand a ModRM byte and its displacement name (R96 to R98). -/
inductive RM where
  /-- mod = 3: the register of index `rm` at the instruction's width. -/
  | reg (i : RegIx)
  /-- mod = 0, rm = 6: a raw 16-bit offset. -/
  | direct (off : Word)
  /-- mod = 0: base and index with no displacement. -/
  | base (b : Base)
  /-- mod = 1: base and index with a sign-extended byte. -/
  | disp8 (b : Base) (d : Byte)
  /-- mod = 2: base and index with a 16-bit displacement. -/
  | disp16 (b : Base) (d : Word)
  deriving DecidableEq, Repr

/-- Whether the operand is in memory (mod is not 3). -/
def RM.isMem : RM → Bool
  | .reg _ => false
  | _ => true

/-- The operand forms of the eight two-operand ALU operations (R180). -/
inductive AluForm where
  /-- Eb,Gb (opcode 8k+0) and Ev,Gv (8k+1). -/
  | rmReg (w : Width) (m : RM) (r : RegIx)
  /-- Gb,Eb (8k+2) and Gv,Ev (8k+3). -/
  | regRm (w : Width) (r : RegIx) (m : RM)
  /-- AL,Ib (8k+4). -/
  | accImm8 (imm : Byte)
  /-- AX,Iv (8k+5). -/
  | accImm16 (imm : Word)
  /-- Eb,Ib (80 /k). -/
  | rmImm8 (m : RM) (imm : Byte)
  /-- Ev,Iv (81 /k). -/
  | rmImm16 (m : RM) (imm : Word)
  /-- Eb,Ib (82 /k), the same operation as 80 /k (R107). -/
  | rmImm8Dup (m : RM) (imm : Byte)
  /-- Ev,simm8 (83 /k). -/
  | rmSimm8 (m : RM) (imm : Byte)
  deriving DecidableEq, Repr

/-- The operand forms of TEST (R233). -/
inductive TestForm where
  /-- Eb,Gb (84) and Ev,Gv (85). -/
  | rmReg (w : Width) (m : RM) (r : RegIx)
  /-- AL,Ib (A8). -/
  | accImm8 (imm : Byte)
  /-- AX,Iv (A9). -/
  | accImm16 (imm : Word)
  /-- Eb,Ib (F6 /0). -/
  | rmImm8 (m : RM) (imm : Byte)
  /-- Ev,Iv (F7 /0). -/
  | rmImm16 (m : RM) (imm : Word)
  deriving DecidableEq, Repr

/-- The count operand of a shift or rotate: 1 (D0, D1) or CL (D2, D3) (R235). -/
inductive ShiftCount where
  | one
  | cl
  deriving DecidableEq, Repr

/-- The instructions. A prefix byte is an instruction of its own here, as it is a row of the table:
`step` runs a chain of prefixes and the instruction they stand before as one step (R91). -/
inductive Instr where
  -- prefixes (R92)
  | segEs
  | segCs
  | segSs
  | segDs
  | rep
  -- data movement (R140 to R163)
  | movRmReg (w : Width) (m : RM) (r : RegIx)
  | movRegRm (w : Width) (r : RegIx) (m : RM)
  | movRmImm8 (m : RM) (imm : Byte)
  | movRmImm16 (m : RM) (imm : Word)
  | movRegImm8 (r : RegIx) (imm : Byte)
  | movRegImm16 (r : RegIx) (imm : Word)
  | movAccMoffs (w : Width) (off : Word)
  | movMoffsAcc (w : Width) (off : Word)
  | movRmSreg (m : RM) (sr : Sreg)
  | movSregRm (sr : Sreg) (m : RM)
  | pushReg (r : RegIx)
  | pushRm (m : RM)
  | pushSreg (sr : Sreg)
  | popReg (r : RegIx)
  | popRm (m : RM)
  | popSreg (sr : Sreg)
  | xchgRmReg (w : Width) (m : RM) (r : RegIx)
  | xchgAxReg (r : RegIx)
  | nop
  | xlat
  | inImm (w : Width) (port : Byte)
  | inDx (w : Width)
  | outImm (w : Width) (port : Byte)
  | outDx (w : Width)
  | lea (r : RegIx) (m : RM)
  | lds (r : RegIx) (m : RM)
  | les (r : RegIx) (m : RM)
  | lahf
  | sahf
  | pushf
  | popf
  -- arithmetic (R180 to R197)
  | add (f : AluForm)
  | adc (f : AluForm)
  | sub (f : AluForm)
  | sbb (f : AluForm)
  | cmp (f : AluForm)
  | incReg (r : RegIx)
  | incRm (w : Width) (m : RM)
  | decReg (r : RegIx)
  | decRm (w : Width) (m : RM)
  | neg (w : Width) (m : RM)
  | mul (w : Width) (m : RM)
  | imul (w : Width) (m : RM)
  | div (w : Width) (m : RM)
  | idiv (w : Width) (m : RM)
  | cbw
  | cwd
  | aam (imm : Byte)
  | aad (imm : Byte)
  -- logic, shifts and rotates (R230 to R242)
  | and (f : AluForm)
  | or (f : AluForm)
  | xor (f : AluForm)
  | test (f : TestForm)
  | not (w : Width) (m : RM)
  | rol (w : Width) (m : RM) (c : ShiftCount)
  | ror (w : Width) (m : RM) (c : ShiftCount)
  | rcl (w : Width) (m : RM) (c : ShiftCount)
  | rcr (w : Width) (m : RM) (c : ShiftCount)
  | shl (w : Width) (m : RM) (c : ShiftCount)
  | shr (w : Width) (m : RM) (c : ShiftCount)
  | sar (w : Width) (m : RM) (c : ShiftCount)
  -- strings (R260 to R266)
  | movsb
  | movsw
  | cmpsb
  | cmpsw
  | stosb
  | stosw
  | lodsb
  | lodsw
  | scasb
  | scasw
  -- control transfer (R280 to R318)
  | jmpRel8 (d : Byte)
  | jmpRel16 (d : Word)
  | jmpFar (off seg : Word)
  | jmpRm (m : RM)
  | jmpFarRm (m : RM)
  | callRel16 (d : Word)
  | callFar (off seg : Word)
  | callRm (m : RM)
  | callFarRm (m : RM)
  | jo (d : Byte)
  | jno (d : Byte)
  | jb (d : Byte)
  | jae (d : Byte)
  | je (d : Byte)
  | jne (d : Byte)
  | jbe (d : Byte)
  | ja (d : Byte)
  | js (d : Byte)
  | jns (d : Byte)
  | jp (d : Byte)
  | jnp (d : Byte)
  | jl (d : Byte)
  | jge (d : Byte)
  | jle (d : Byte)
  | jg (d : Byte)
  | ret
  | retImm (n : Word)
  | retf
  | retfImm (n : Word)
  | loop (d : Byte)
  | loopz (d : Byte)
  | loopnz (d : Byte)
  | jcxz (d : Byte)
  | int (v : Byte)
  | int3
  | into
  | iret
  -- flag control (R330 to R336)
  | clc
  | stc
  | cmc
  | cld
  | std
  | cli
  | sti
  -- absent rows of the table (R106, R107)
  | absentOpcode (op : Byte)
  | absentSlot (op : Byte) (m : RM) (reg : RegIx)
  deriving DecidableEq, Repr

/-- The rows of format PREFIX (R92). -/
def Instr.isPrefix : Instr → Bool
  | .segEs | .segCs | .segSs | .segDs | .rep => true
  | _ => false

end Sys2Proof
end

