-- ==== Sys2Proof/WellFormed.lean ====
section
/-!
DEFINITION. Which terms of `Instr` stand for an encoding of the table (30_encoding.md R105 to R109).
-/

namespace Sys2Proof

/-- mod = 0 with rm = 6 is the direct form, so BP alone with no displacement has no encoding (R98). -/
def RM.wf : RM → Bool
  | .base .bp => false
  | _ => true

/-- The 39 absent opcode bytes (R106). -/
def absentBytes : List Byte :=
  [0x0F, 0x27, 0x2F, 0x37, 0x3F] ++
  [0x60, 0x61, 0x62, 0x63, 0x64, 0x65, 0x66, 0x67, 0x68, 0x69, 0x6A, 0x6B, 0x6C, 0x6D, 0x6E, 0x6F] ++
  [0x9B, 0xC0, 0xC1, 0xC8, 0xC9, 0xD6] ++
  [0xD8, 0xD9, 0xDA, 0xDB, 0xDC, 0xDD, 0xDE, 0xDF] ++
  [0xF0, 0xF1, 0xF2, 0xF4]

/-- The absent group slots (R107): opcode byte and `reg`. -/
def isAbsentSlot (op : Byte) (reg : RegIx) : Bool :=
  if op = 0x8F ∨ op = 0xC6 ∨ op = 0xC7 then decide (reg ≠ 0)
  else if op = 0xD0 ∨ op = 0xD1 ∨ op = 0xD2 ∨ op = 0xD3 then decide (reg = 6)
  else if op = 0xF6 ∨ op = 0xF7 then decide (reg = 1)
  else if op = 0xFE then decide (2 ≤ reg.toNat)
  else if op = 0xFF then decide (reg = 7)
  else false

def AluForm.wf : AluForm → Bool
  | .rmReg _ m _ | .regRm _ _ m | .rmImm8 m _ | .rmImm16 m _ | .rmImm8Dup m _ | .rmSimm8 m _ => m.wf
  | .accImm8 _ | .accImm16 _ => true

def TestForm.wf : TestForm → Bool
  | .rmReg _ m _ | .rmImm8 m _ | .rmImm16 m _ => m.wf
  | .accImm8 _ | .accImm16 _ => true

/-- The term is an encoding of the table: its r/m operand is encodable, an operand that must be in
memory is (R108), CS is no destination of MOV or POP (R109, R106), XCHG AX,r16 does not name AX
(R152), and an absent row names an absent byte or slot (R106, R107). -/
def Instr.wf : Instr → Bool
  | .movRmReg _ m _ | .movRegRm _ _ m | .movRmImm8 m _ | .movRmImm16 m _ | .movRmSreg m _
  | .pushRm m | .popRm m | .xchgRmReg _ m _
  | .incRm _ m | .decRm _ m | .neg _ m | .mul _ m | .imul _ m | .div _ m | .idiv _ m | .not _ m
  | .rol _ m _ | .ror _ m _ | .rcl _ m _ | .rcr _ m _ | .shl _ m _ | .shr _ m _ | .sar _ m _
  | .jmpRm m | .callRm m => m.wf
  | .movSregRm sr m => decide (sr ≠ .cs) && m.wf
  | .popSreg sr => decide (sr ≠ .cs)
  | .xchgAxReg r => decide (r ≠ 0)
  | .lea _ m | .lds _ m | .les _ m | .jmpFarRm m | .callFarRm m => m.isMem && m.wf
  | .add f | .adc f | .sub f | .sbb f | .cmp f | .and f | .or f | .xor f => f.wf
  | .test f => f.wf
  | .absentOpcode op => absentBytes.contains op
  | .absentSlot op m reg => isAbsentSlot op reg && m.wf
  | .segEs | .segCs | .segSs | .segDs | .rep
  | .movRegImm8 _ _ | .movRegImm16 _ _ | .movAccMoffs _ _ | .movMoffsAcc _ _
  | .pushReg _ | .pushSreg _ | .popReg _ | .nop | .xlat
  | .inImm _ _ | .inDx _ | .outImm _ _ | .outDx _ | .lahf | .sahf | .pushf | .popf
  | .incReg _ | .decReg _ | .cbw | .cwd | .aam _ | .aad _
  | .movsb | .movsw | .cmpsb | .cmpsw | .stosb | .stosw | .lodsb | .lodsw | .scasb | .scasw
  | .jmpRel8 _ | .jmpRel16 _ | .jmpFar _ _ | .callRel16 _ | .callFar _ _
  | .jo _ | .jno _ | .jb _ | .jae _ | .je _ | .jne _ | .jbe _ | .ja _
  | .js _ | .jns _ | .jp _ | .jnp _ | .jl _ | .jge _ | .jle _ | .jg _
  | .ret | .retImm _ | .retf | .retfImm _ | .loop _ | .loopz _ | .loopnz _ | .jcxz _
  | .int _ | .int3 | .into | .iret | .clc | .stc | .cmc | .cld | .std | .cli | .sti => true

/-- The instruction is well formed. -/
abbrev Instr.WellFormed (i : Instr) : Prop := i.wf = true

end Sys2Proof
end

