-- ==== Sys2Proof/Decode.lean ====
section
/-!
DEFINITION. The decoder and the encoder, both written from the opcode map and the ModRM layout of
30_encoding.md (R90 to R112).
-/

namespace Sys2Proof

/-! ## The decoder -/

/-- What the decoder reads from a stream of bytes, prefixes one at a time. -/
inductive Decoded where
  /-- An instruction (or prefix, or absent row of the table) and the number of bytes it takes (R112). -/
  | ok (i : Instr) (len : Nat)
  /-- A form that R108 or R109 refuses: it raises DecodeError, after `len` bytes were fetched (R110).
  `slot` is the `reg` field where a group slot is the cause. -/
  | refusedForm (op : Byte) (slot : Option RegIx) (len : Nat)
  /-- A finite list of bytes ended before the instruction did. -/
  | truncated
  deriving DecidableEq, Repr

/-- A word of the stream, low byte first (R67). -/
def streamWord (b : Nat → Byte) (k : Nat) : Word := wordOf (b k) (b (k + 1))

/-- `DecodeModRM` (R95 to R98, R100) on a stream that starts at the ModRM byte: the `reg` field, the
operand and how many bytes it takes. -/
def decodeModRM (b : Nat → Byte) : RegIx × RM × Nat :=
  let reg : RegIx := (b 0).extractLsb' 3 3
  let rm : RegIx := (b 0).extractLsb' 0 3
  match ((b 0).extractLsb' 6 2 : BitVec 2).toNat with
  | 3 => (reg, .reg rm, 1)
  | 0 => if rm = 6 then (reg, .direct (streamWord b 1), 3) else (reg, .base (Base.ofIx rm), 1)
  | 1 => (reg, .disp8 (Base.ofIx rm) (b 1), 2)
  | _ => (reg, .disp16 (Base.ofIx rm) (streamWord b 1), 3)

/-- The ModRM byte that follows the opcode byte. -/
def modRMAfterOp (b : Nat → Byte) : RegIx × RM × Nat := decodeModRM (fun k => b (k + 1))

/-- The ALU operation of number `k` (R180). -/
def aluInstr (k : Nat) (f : AluForm) : Instr :=
  match k with
  | 0 => .add f | 1 => .or f | 2 => .adc f | 3 => .sbb f
  | 4 => .and f | 5 => .sub f | 6 => .xor f | _ => .cmp f

/-- An OP_MODRM row: `mk` of the operand and the `reg` field (R104). -/
def rowModRM (b : Nat → Byte) (mk : RM → RegIx → Instr) : Decoded :=
  let (reg, m, n) := modRMAfterOp b
  .ok (mk m reg) (1 + n)

/-- An OP_MODRM row whose operand must be in memory (R108). -/
def rowMem (b : Nat → Byte) (mk : RM → RegIx → Instr) : Decoded :=
  let (reg, m, n) := modRMAfterOp b
  if m.isMem then .ok (mk m reg) (1 + n) else .refusedForm (b 0) none (1 + n)

/-- Opcodes 00 to 3F (R105): the ALU forms 8k+0 to 8k+5, PUSH Sreg, POP Sreg, the segment overrides and
the absent bytes among them. -/
def decodeLow (b : Nat → Byte) : Decoded :=
  let op := b 0
  let k := (op.extractLsb' 3 3 : BitVec 3).toNat
  let sr := Sreg.ofIx (op.extractLsb' 3 2)
  match (op.extractLsb' 0 3 : BitVec 3).toNat with
  | 0 => rowModRM b (fun m r => aluInstr k (.rmReg .byte m r))
  | 1 => rowModRM b (fun m r => aluInstr k (.rmReg .word m r))
  | 2 => rowModRM b (fun m r => aluInstr k (.regRm .byte r m))
  | 3 => rowModRM b (fun m r => aluInstr k (.regRm .word r m))
  | 4 => .ok (aluInstr k (.accImm8 (b 1))) 2
  | 5 => .ok (aluInstr k (.accImm16 (streamWord b 1))) 3
  | 6 =>
    if k < 4 then .ok (.pushSreg sr) 1
    else match sr with
      | .es => .ok .segEs 1 | .cs => .ok .segCs 1 | .ss => .ok .segSs 1 | .ds => .ok .segDs 1
  | _ => if k < 4 ∧ sr ≠ .cs then .ok (.popSreg sr) 1 else .ok (.absentOpcode op) 1

/-- Opcodes 40 to 5F: INC, DEC, PUSH and POP of a register in the opcode. -/
def decodeRegOps (b : Nat → Byte) : Decoded :=
  let r : RegIx := (b 0).extractLsb' 0 3
  match ((b 0).extractLsb' 3 2 : BitVec 2).toNat with
  | 0 => .ok (.incReg r) 1
  | 1 => .ok (.decReg r) 1
  | 2 => .ok (.pushReg r) 1
  | _ => .ok (.popReg r) 1

/-- Opcodes 70 to 7F: the conditional jumps (R290). -/
def decodeJcc (b : Nat → Byte) : Decoded :=
  match ((b 0).extractLsb' 0 4 : BitVec 4).toNat with
  | 0 => .ok (.jo (b 1)) 2
  | 1 => .ok (.jno (b 1)) 2
  | 2 => .ok (.jb (b 1)) 2
  | 3 => .ok (.jae (b 1)) 2
  | 4 => .ok (.je (b 1)) 2
  | 5 => .ok (.jne (b 1)) 2
  | 6 => .ok (.jbe (b 1)) 2
  | 7 => .ok (.ja (b 1)) 2
  | 8 => .ok (.js (b 1)) 2
  | 9 => .ok (.jns (b 1)) 2
  | 10 => .ok (.jp (b 1)) 2
  | 11 => .ok (.jnp (b 1)) 2
  | 12 => .ok (.jl (b 1)) 2
  | 13 => .ok (.jge (b 1)) 2
  | 14 => .ok (.jle (b 1)) 2
  | _ => .ok (.jg (b 1)) 2

/-- Opcodes 80 to 8F (R105, R107 to R109). -/
def decodeRow8 (b : Nat → Byte) : Decoded :=
  let (reg, m, n) := modRMAfterOp b
  match ((b 0).extractLsb' 0 4 : BitVec 4).toNat with
  | 0 => .ok (aluInstr reg.toNat (.rmImm8 m (b (1 + n)))) (2 + n)
  | 1 => .ok (aluInstr reg.toNat (.rmImm16 m (streamWord b (1 + n)))) (3 + n)
  | 2 => .ok (aluInstr reg.toNat (.rmImm8Dup m (b (1 + n)))) (2 + n)
  | 3 => .ok (aluInstr reg.toNat (.rmSimm8 m (b (1 + n)))) (2 + n)
  | 4 => .ok (.test (.rmReg .byte m reg)) (1 + n)
  | 5 => .ok (.test (.rmReg .word m reg)) (1 + n)
  | 6 => .ok (.xchgRmReg .byte m reg) (1 + n)
  | 7 => .ok (.xchgRmReg .word m reg) (1 + n)
  | 8 => .ok (.movRmReg .byte m reg) (1 + n)
  | 9 => .ok (.movRmReg .word m reg) (1 + n)
  | 10 => .ok (.movRegRm .byte reg m) (1 + n)
  | 11 => .ok (.movRegRm .word reg m) (1 + n)
  | 12 =>
    if 4 ≤ reg.toNat then .refusedForm (b 0) none (1 + n)
    else .ok (.movRmSreg m (Sreg.ofIx (reg.extractLsb' 0 2))) (1 + n)
  | 13 => rowMem b (fun m reg => .lea reg m)
  | 14 =>
    if 4 ≤ reg.toNat ∨ reg = 1 then .refusedForm (b 0) none (1 + n)
    else .ok (.movSregRm (Sreg.ofIx (reg.extractLsb' 0 2)) m) (1 + n)
  | _ => if reg = 0 then .ok (.popRm m) (1 + n) else .ok (.absentSlot (b 0) m reg) (1 + n)

/-- Opcodes 90 to 9F. -/
def decodeRow9 (b : Nat → Byte) : Decoded :=
  match ((b 0).extractLsb' 0 4 : BitVec 4).toNat with
  | 0 => .ok .nop 1
  | 8 => .ok .cbw 1
  | 9 => .ok .cwd 1
  | 10 => .ok (.callFar (streamWord b 1) (streamWord b 3)) 5
  | 11 => .ok (.absentOpcode (b 0)) 1
  | 12 => .ok .pushf 1
  | 13 => .ok .popf 1
  | 14 => .ok .sahf 1
  | 15 => .ok .lahf 1
  | _ => .ok (.xchgAxReg ((b 0).extractLsb' 0 3)) 1

/-- Opcodes A0 to AF. -/
def decodeRowA (b : Nat → Byte) : Decoded :=
  match ((b 0).extractLsb' 0 4 : BitVec 4).toNat with
  | 0 => .ok (.movAccMoffs .byte (streamWord b 1)) 3
  | 1 => .ok (.movAccMoffs .word (streamWord b 1)) 3
  | 2 => .ok (.movMoffsAcc .byte (streamWord b 1)) 3
  | 3 => .ok (.movMoffsAcc .word (streamWord b 1)) 3
  | 4 => .ok .movsb 1
  | 5 => .ok .movsw 1
  | 6 => .ok .cmpsb 1
  | 7 => .ok .cmpsw 1
  | 8 => .ok (.test (.accImm8 (b 1))) 2
  | 9 => .ok (.test (.accImm16 (streamWord b 1))) 3
  | 10 => .ok .stosb 1
  | 11 => .ok .stosw 1
  | 12 => .ok .lodsb 1
  | 13 => .ok .lodsw 1
  | 14 => .ok .scasb 1
  | _ => .ok .scasw 1

/-- Opcodes B0 to BF: MOV reg,imm (R142). -/
def decodeRowB (b : Nat → Byte) : Decoded :=
  let r : RegIx := (b 0).extractLsb' 0 3
  if (b 0).getLsbD 3 then .ok (.movRegImm16 r (streamWord b 1)) 3 else .ok (.movRegImm8 r (b 1)) 2

/-- Opcodes C0 to CF. -/
def decodeRowC (b : Nat → Byte) : Decoded :=
  let (reg, m, n) := modRMAfterOp b
  match ((b 0).extractLsb' 0 4 : BitVec 4).toNat with
  | 2 => .ok (.retImm (streamWord b 1)) 3
  | 3 => .ok .ret 1
  | 4 => rowMem b (fun m reg => .les reg m)
  | 5 => rowMem b (fun m reg => .lds reg m)
  | 6 =>
    if reg = 0 then .ok (.movRmImm8 m (b (1 + n))) (2 + n)
    else .ok (.absentSlot (b 0) m reg) (1 + n)
  | 7 =>
    if reg = 0 then .ok (.movRmImm16 m (streamWord b (1 + n))) (3 + n)
    else .ok (.absentSlot (b 0) m reg) (1 + n)
  | 10 => .ok (.retfImm (streamWord b 1)) 3
  | 11 => .ok .retf 1
  | 12 => .ok .int3 1
  | 13 => .ok (.int (b 1)) 2
  | 14 => .ok .into 1
  | 15 => .ok .iret 1
  | _ => .ok (.absentOpcode (b 0)) 1

/-- Group 2 (R107, R235). -/
def decodeShift (b : Nat → Byte) (w : Width) (c : ShiftCount) : Decoded :=
  let (reg, m, n) := modRMAfterOp b
  match reg.toNat with
  | 0 => .ok (.rol w m c) (1 + n)
  | 1 => .ok (.ror w m c) (1 + n)
  | 2 => .ok (.rcl w m c) (1 + n)
  | 3 => .ok (.rcr w m c) (1 + n)
  | 4 => .ok (.shl w m c) (1 + n)
  | 5 => .ok (.shr w m c) (1 + n)
  | 6 => .ok (.absentSlot (b 0) m reg) (1 + n)
  | _ => .ok (.sar w m c) (1 + n)

/-- Opcodes D0 to DF. -/
def decodeRowD (b : Nat → Byte) : Decoded :=
  match ((b 0).extractLsb' 0 4 : BitVec 4).toNat with
  | 0 => decodeShift b .byte .one
  | 1 => decodeShift b .word .one
  | 2 => decodeShift b .byte .cl
  | 3 => decodeShift b .word .cl
  | 4 => .ok (.aam (b 1)) 2
  | 5 => .ok (.aad (b 1)) 2
  | 7 => .ok .xlat 1
  | _ => .ok (.absentOpcode (b 0)) 1

/-- Opcodes E0 to EF. -/
def decodeRowE (b : Nat → Byte) : Decoded :=
  match ((b 0).extractLsb' 0 4 : BitVec 4).toNat with
  | 0 => .ok (.loopnz (b 1)) 2
  | 1 => .ok (.loopz (b 1)) 2
  | 2 => .ok (.loop (b 1)) 2
  | 3 => .ok (.jcxz (b 1)) 2
  | 4 => .ok (.inImm .byte (b 1)) 2
  | 5 => .ok (.inImm .word (b 1)) 2
  | 6 => .ok (.outImm .byte (b 1)) 2
  | 7 => .ok (.outImm .word (b 1)) 2
  | 8 => .ok (.callRel16 (streamWord b 1)) 3
  | 9 => .ok (.jmpRel16 (streamWord b 1)) 3
  | 10 => .ok (.jmpFar (streamWord b 1) (streamWord b 3)) 5
  | 11 => .ok (.jmpRel8 (b 1)) 2
  | 12 => .ok (.inDx .byte) 1
  | 13 => .ok (.inDx .word) 1
  | 14 => .ok (.outDx .byte) 1
  | _ => .ok (.outDx .word) 1

/-- Group 3 (R107, R197). -/
def decodeGroup3 (b : Nat → Byte) (w : Width) : Decoded :=
  let (reg, m, n) := modRMAfterOp b
  match reg.toNat with
  | 0 =>
    match w with
    | .byte => .ok (.test (.rmImm8 m (b (1 + n)))) (2 + n)
    | .word => .ok (.test (.rmImm16 m (streamWord b (1 + n)))) (3 + n)
  | 1 => .ok (.absentSlot (b 0) m reg) (1 + n)
  | 2 => .ok (.not w m) (1 + n)
  | 3 => .ok (.neg w m) (1 + n)
  | 4 => .ok (.mul w m) (1 + n)
  | 5 => .ok (.imul w m) (1 + n)
  | 6 => .ok (.div w m) (1 + n)
  | _ => .ok (.idiv w m) (1 + n)

/-- Group 4 (R107). -/
def decodeGroup4 (b : Nat → Byte) : Decoded :=
  let (reg, m, n) := modRMAfterOp b
  match reg.toNat with
  | 0 => .ok (.incRm .byte m) (1 + n)
  | 1 => .ok (.decRm .byte m) (1 + n)
  | _ => .ok (.absentSlot (b 0) m reg) (1 + n)

/-- Group 5 (R107); the far forms need a memory operand (R108). -/
def decodeGroup5 (b : Nat → Byte) : Decoded :=
  let (reg, m, n) := modRMAfterOp b
  match reg.toNat with
  | 0 => .ok (.incRm .word m) (1 + n)
  | 1 => .ok (.decRm .word m) (1 + n)
  | 2 => .ok (.callRm m) (1 + n)
  | 3 => if m.isMem then .ok (.callFarRm m) (1 + n) else .refusedForm (b 0) (some reg) (1 + n)
  | 4 => .ok (.jmpRm m) (1 + n)
  | 5 => if m.isMem then .ok (.jmpFarRm m) (1 + n) else .refusedForm (b 0) (some reg) (1 + n)
  | 6 => .ok (.pushRm m) (1 + n)
  | _ => .ok (.absentSlot (b 0) m reg) (1 + n)

/-- Opcodes F0 to FF. -/
def decodeRowF (b : Nat → Byte) : Decoded :=
  match ((b 0).extractLsb' 0 4 : BitVec 4).toNat with
  | 3 => .ok .rep 1
  | 5 => .ok .cmc 1
  | 6 => decodeGroup3 b .byte
  | 7 => decodeGroup3 b .word
  | 8 => .ok .clc 1
  | 9 => .ok .stc 1
  | 10 => .ok .cli 1
  | 11 => .ok .sti 1
  | 12 => .ok .cld 1
  | 13 => .ok .std 1
  | 14 => decodeGroup4 b
  | 15 => decodeGroup5 b
  | _ => .ok (.absentOpcode (b 0)) 1

/-- The opcode map (R105 to R109), by the high hexadecimal digit of the opcode byte. `b k` is byte `k` of
the instruction. -/
def decodeStream (b : Nat → Byte) : Decoded :=
  match ((b 0).extractLsb' 4 4 : BitVec 4).toNat with
  | 0 | 1 | 2 | 3 => decodeLow b
  | 4 | 5 => decodeRegOps b
  | 6 => .ok (.absentOpcode (b 0)) 1
  | 7 => decodeJcc b
  | 8 => decodeRow8 b
  | 9 => decodeRow9 b
  | 10 => decodeRowA b
  | 11 => decodeRowB b
  | 12 => decodeRowC b
  | 13 => decodeRowD b
  | 14 => decodeRowE b
  | _ => decodeRowF b

/-- The stream a finite list of bytes begins, with zeros after its end. -/
def streamOf (l : List Byte) : Nat → Byte := fun k => l.getD k 0

/-- How many bytes of the stream the decoder reads for what it answers (R110, R112). -/
def Decoded.length : Decoded → Nat
  | .ok _ n => n
  | .refusedForm _ _ n => n
  | .truncated => 0

/-- What the decoder answers where only `n` bytes of the stream are there. -/
def Decoded.within (d : Decoded) (n : Nat) : Decoded := if d.length ≤ n then d else .truncated

/-- The decoder on a finite list of bytes. -/
def decode (l : List Byte) : Decoded := (decodeStream (streamOf l)).within l.length

/-! ## The encoder -/

/-- The two bytes of a word, low byte first (R67, R102). -/
def wordBytes (v : Word) : List Byte := [lowByte v, highByte v]

/-- The ModRM byte (R95). -/
def modRMByte (md : BitVec 2) (reg rm : RegIx) : Byte := (md ++ reg ++ rm : BitVec (2 + 3 + 3))

/-- The ModRM byte and displacement of an operand (R96 to R98). -/
def encodeModRM (reg : RegIx) : RM → List Byte
  | .reg i => [modRMByte 3 reg i]
  | .direct off => modRMByte 0 reg 6 :: wordBytes off
  | .base b => [modRMByte 0 reg b.ix]
  | .disp8 b d => [modRMByte 1 reg b.ix, d]
  | .disp16 b d => modRMByte 2 reg b.ix :: wordBytes d

/-- The `w` bit (R103). -/
def Width.bit : Width → Byte
  | .byte => 0
  | .word => 1

/-- The `v` bit of the shifts, in its place (R103). -/
def ShiftCount.bit : ShiftCount → Byte
  | .one => 0
  | .cl => 2

/-- The bytes of ALU operation `k` in a form (R180). -/
def encodeAlu (k : BitVec 3) : AluForm → List Byte
  | .rmReg w m r => (k.zeroExtend 8 * 8 + w.bit) :: encodeModRM r m
  | .regRm w r m => (k.zeroExtend 8 * 8 + 2 + w.bit) :: encodeModRM r m
  | .accImm8 i => [k.zeroExtend 8 * 8 + 4, i]
  | .accImm16 i => (k.zeroExtend 8 * 8 + 5) :: wordBytes i
  | .rmImm8 m i => 0x80 :: encodeModRM k m ++ [i]
  | .rmImm16 m i => 0x81 :: encodeModRM k m ++ wordBytes i
  | .rmImm8Dup m i => 0x82 :: encodeModRM k m ++ [i]
  | .rmSimm8 m i => 0x83 :: encodeModRM k m ++ [i]

/-- The bytes of TEST in a form (R233). -/
def encodeTest : TestForm → List Byte
  | .rmReg w m r => (0x84 + w.bit) :: encodeModRM r m
  | .accImm8 i => [0xA8, i]
  | .accImm16 i => 0xA9 :: wordBytes i
  | .rmImm8 m i => 0xF6 :: encodeModRM 0 m ++ [i]
  | .rmImm16 m i => 0xF7 :: encodeModRM 0 m ++ wordBytes i

/-- The bytes of a shift or rotate of number `k` in group 2 (R235). -/
def encodeShift (k : RegIx) (w : Width) (m : RM) (c : ShiftCount) : List Byte :=
  (0xD0 + w.bit + c.bit) :: encodeModRM k m

/-- The `reg` field of a segment register operand (R25). -/
def Sreg.reg (sr : Sreg) : RegIx := sr.ix.zeroExtend 3

/-- The bytes of an instruction, from the encoding each rule gives (R105, R107). -/
def encode : Instr → List Byte
  | .segEs => [0x26]
  | .segCs => [0x2E]
  | .segSs => [0x36]
  | .segDs => [0x3E]
  | .rep => [0xF3]
  | .movRmReg w m r => (0x88 + w.bit) :: encodeModRM r m
  | .movRegRm w r m => (0x8A + w.bit) :: encodeModRM r m
  | .movRmImm8 m i => 0xC6 :: encodeModRM 0 m ++ [i]
  | .movRmImm16 m i => 0xC7 :: encodeModRM 0 m ++ wordBytes i
  | .movRegImm8 r i => [0xB0 + r.zeroExtend 8, i]
  | .movRegImm16 r i => (0xB8 + r.zeroExtend 8) :: wordBytes i
  | .movAccMoffs w off => (0xA0 + w.bit) :: wordBytes off
  | .movMoffsAcc w off => (0xA2 + w.bit) :: wordBytes off
  | .movRmSreg m sr => 0x8C :: encodeModRM sr.reg m
  | .movSregRm sr m => 0x8E :: encodeModRM sr.reg m
  | .pushReg r => [0x50 + r.zeroExtend 8]
  | .pushRm m => 0xFF :: encodeModRM 6 m
  | .pushSreg sr => [0x06 + sr.ix.zeroExtend 8 * 8]
  | .popReg r => [0x58 + r.zeroExtend 8]
  | .popRm m => 0x8F :: encodeModRM 0 m
  | .popSreg sr => [0x07 + sr.ix.zeroExtend 8 * 8]
  | .xchgRmReg w m r => (0x86 + w.bit) :: encodeModRM r m
  | .xchgAxReg r => [0x90 + r.zeroExtend 8]
  | .nop => [0x90]
  | .xlat => [0xD7]
  | .inImm w p => [0xE4 + w.bit, p]
  | .inDx w => [0xEC + w.bit]
  | .outImm w p => [0xE6 + w.bit, p]
  | .outDx w => [0xEE + w.bit]
  | .lea r m => 0x8D :: encodeModRM r m
  | .lds r m => 0xC5 :: encodeModRM r m
  | .les r m => 0xC4 :: encodeModRM r m
  | .lahf => [0x9F]
  | .sahf => [0x9E]
  | .pushf => [0x9C]
  | .popf => [0x9D]
  | .add f => encodeAlu 0 f
  | .or f => encodeAlu 1 f
  | .adc f => encodeAlu 2 f
  | .sbb f => encodeAlu 3 f
  | .and f => encodeAlu 4 f
  | .sub f => encodeAlu 5 f
  | .xor f => encodeAlu 6 f
  | .cmp f => encodeAlu 7 f
  | .incReg r => [0x40 + r.zeroExtend 8]
  | .incRm w m => (0xFE + w.bit) :: encodeModRM 0 m
  | .decReg r => [0x48 + r.zeroExtend 8]
  | .decRm w m => (0xFE + w.bit) :: encodeModRM 1 m
  | .neg w m => (0xF6 + w.bit) :: encodeModRM 3 m
  | .mul w m => (0xF6 + w.bit) :: encodeModRM 4 m
  | .imul w m => (0xF6 + w.bit) :: encodeModRM 5 m
  | .div w m => (0xF6 + w.bit) :: encodeModRM 6 m
  | .idiv w m => (0xF6 + w.bit) :: encodeModRM 7 m
  | .cbw => [0x98]
  | .cwd => [0x99]
  | .aam i => [0xD4, i]
  | .aad i => [0xD5, i]
  | .test f => encodeTest f
  | .not w m => (0xF6 + w.bit) :: encodeModRM 2 m
  | .rol w m c => encodeShift 0 w m c
  | .ror w m c => encodeShift 1 w m c
  | .rcl w m c => encodeShift 2 w m c
  | .rcr w m c => encodeShift 3 w m c
  | .shl w m c => encodeShift 4 w m c
  | .shr w m c => encodeShift 5 w m c
  | .sar w m c => encodeShift 7 w m c
  | .movsb => [0xA4]
  | .movsw => [0xA5]
  | .cmpsb => [0xA6]
  | .cmpsw => [0xA7]
  | .stosb => [0xAA]
  | .stosw => [0xAB]
  | .lodsb => [0xAC]
  | .lodsw => [0xAD]
  | .scasb => [0xAE]
  | .scasw => [0xAF]
  | .jmpRel8 d => [0xEB, d]
  | .jmpRel16 d => 0xE9 :: wordBytes d
  | .jmpFar off seg => 0xEA :: wordBytes off ++ wordBytes seg
  | .jmpRm m => 0xFF :: encodeModRM 4 m
  | .jmpFarRm m => 0xFF :: encodeModRM 5 m
  | .callRel16 d => 0xE8 :: wordBytes d
  | .callFar off seg => 0x9A :: wordBytes off ++ wordBytes seg
  | .callRm m => 0xFF :: encodeModRM 2 m
  | .callFarRm m => 0xFF :: encodeModRM 3 m
  | .jo d => [0x70, d]
  | .jno d => [0x71, d]
  | .jb d => [0x72, d]
  | .jae d => [0x73, d]
  | .je d => [0x74, d]
  | .jne d => [0x75, d]
  | .jbe d => [0x76, d]
  | .ja d => [0x77, d]
  | .js d => [0x78, d]
  | .jns d => [0x79, d]
  | .jp d => [0x7A, d]
  | .jnp d => [0x7B, d]
  | .jl d => [0x7C, d]
  | .jge d => [0x7D, d]
  | .jle d => [0x7E, d]
  | .jg d => [0x7F, d]
  | .ret => [0xC3]
  | .retImm n => 0xC2 :: wordBytes n
  | .retf => [0xCB]
  | .retfImm n => 0xCA :: wordBytes n
  | .loop d => [0xE2, d]
  | .loopz d => [0xE1, d]
  | .loopnz d => [0xE0, d]
  | .jcxz d => [0xE3, d]
  | .int v => [0xCD, v]
  | .int3 => [0xCC]
  | .into => [0xCE]
  | .iret => [0xCF]
  | .clc => [0xF8]
  | .stc => [0xF9]
  | .cmc => [0xF5]
  | .cld => [0xFC]
  | .std => [0xFD]
  | .cli => [0xFA]
  | .sti => [0xFB]
  | .absentOpcode op => [op]
  | .absentSlot op m reg => op :: encodeModRM reg m

/-- The opcode byte of an instruction. -/
def Instr.opcode (i : Instr) : Byte := (encode i).headD 0

/-- The group opcodes (R107). -/
def isGroupOpcode (op : Byte) : Bool :=
  [0x80, 0x81, 0x82, 0x83, 0x8F, 0xC6, 0xC7, 0xD0, 0xD1, 0xD2, 0xD3, 0xF6, 0xF7, 0xFE, 0xFF].contains op

/-- The slot of the dispatch table an instruction stands in (R6, R107): its opcode byte and, for a group
opcode, the `reg` field of its ModRM byte. -/
def Instr.slot (i : Instr) : Slot :=
  match encode i with
  | op :: md :: _ => (op, if isGroupOpcode op then some (md.extractLsb' 3 3) else none)
  | op :: [] => (op, none)
  | [] => (0, none)

/-- The r/m operand of an instruction that has one. -/
def Instr.rm? : Instr → Option RM
  | .movRmReg _ m _ | .movRegRm _ _ m | .movRmImm8 m _ | .movRmImm16 m _ | .movRmSreg m _
  | .movSregRm _ m | .pushRm m | .popRm m | .xchgRmReg _ m _ | .lea _ m | .lds _ m | .les _ m
  | .incRm _ m | .decRm _ m | .neg _ m | .mul _ m | .imul _ m | .div _ m | .idiv _ m | .not _ m
  | .rol _ m _ | .ror _ m _ | .rcl _ m _ | .rcr _ m _ | .shl _ m _ | .shr _ m _ | .sar _ m _
  | .jmpRm m | .callRm m | .jmpFarRm m | .callFarRm m | .absentSlot _ m _ => some m
  | .add f | .adc f | .sub f | .sbb f | .cmp f | .and f | .or f | .xor f =>
    match f with
    | .rmReg _ m _ | .regRm _ _ m | .rmImm8 m _ | .rmImm16 m _ | .rmImm8Dup m _ | .rmSimm8 m _ => some m
    | .accImm8 _ | .accImm16 _ => none
  | .test f =>
    match f with
    | .rmReg _ m _ | .rmImm8 m _ | .rmImm16 m _ => some m
    | .accImm8 _ | .accImm16 _ => none
  | _ => none

/-- Whether the instruction has a memory r/m operand (one of the arguments of `Cycles`, R400). -/
def Instr.memOperand (i : Instr) : Bool :=
  match i.rm? with
  | some m => m.isMem
  | none => false

/-! ## The dispatch table -/

/-- The prefix bytes (R92). -/
def prefixBytes : List Byte := [0x26, 0x2E, 0x36, 0x3E, 0xF3]

/-- The slot of the dispatch table that a stream names (R91, R107): its opcode byte and, for a group opcode,
the `reg` field of the ModRM byte. -/
def streamSlot (b : Nat → Byte) : Slot :=
  (b 0, if isGroupOpcode (b 0) then some ((b 1).extractLsb' 3 3) else none)

/-- Whether a stream names a slot that the model has taken out of `DISPATCH` (R6, R106). A prefix is consumed
before the table is looked up (R91). -/
def isRemoved (removed : List Slot) (b : Nat → Byte) : Bool :=
  removed.contains (streamSlot b) && !prefixBytes.contains (b 0)

/-- How many bytes the execute path fetches before it raises DecodeError on a slot that is not in `DISPATCH`
(R110, R349): the opcode byte, and the ModRM byte and displacement of a group opcode. -/
def refusedLength (b : Nat → Byte) : Nat :=
  if isGroupOpcode (b 0) then 1 + (modRMAfterOp b).2.2 else 1

/-- The decoder with `DISPATCH` applied (R6, R91, R106): a slot taken out is refused as an absent one is. -/
def decodeWith (removed : List Slot) (b : Nat → Byte) : Decoded :=
  if isRemoved removed b then .refusedForm (streamSlot b).1 (streamSlot b).2 (refusedLength b)
  else decodeStream b

/-! ## The table's words -/

/-- The bytes of an `nbits`-bit value of the opcode table. The table reads an instruction's first bytes as
one number with the opcode byte in the high bits (R115: "opcode byte : next byte", "opcode byte in the
high byte"), so byte 0 is the most significant of the `nbits` bits. DESIGN CHOICE, log entry 19. -/
def tableBytes (nbits w : Nat) : List Byte :=
  (List.range (nbits / 8)).map (fun j => BitVec.ofNat 8 (w >>> (nbits - 8 * (j + 1))))

/-- The instruction the decoder reads from a word of the opcode table, every bit beyond the table's being
0. A prefix row is read as the prefix itself. -/
def decodeTableWord (nbits w : Nat) : Option Instr :=
  match decodeStream (streamOf (tableBytes nbits w)) with
  | .ok i _ => some i
  | _ => none

end Sys2Proof
end

