-- ==== Sys2Proof/Config.lean ====
section
/-!
DEFINITION. What an implementation fixes, what the host supplies, and the values the spec leaves open
(00_scope.md R6; 93_implementation_defined.md section U). A constant declared `opaque` has no body:
nothing can be proved of its value, so a claim that holds holds whatever the value is.
-/

namespace Sys2Proof

/-- CPU state (R364): the register file, IP, the segment registers and the flags word
(R20, R22, R25, R27, R28). -/
structure Cpu where
  ax : Word
  bx : Word
  cx : Word
  dx : Word
  sp : Word
  bp : Word
  si : Word
  di : Word
  ip : Word
  es : Word
  cs : Word
  ss : Word
  ds : Word
  flags : Word
  deriving DecidableEq, Repr, Inhabited

/-- What a window of the host's memory is (R63, R399): a ROM, which answers what it holds and drops what is
written to it, or a device, which "may answer any byte" and "have device side effects". Memory outside every
window is plain: it answers the last byte written (log entry 1). -/
inductive WindowKind where
  | rom
  | device
  deriving DecidableEq, Repr, Inhabited

/-- A window of physical addresses, both ends included. -/
structure Window where
  first : Addr
  last : Addr
  kind : WindowKind
  deriving DecidableEq, Repr, Inhabited

/-- The host behind the bus, as data (R63, R82, R399). A host may change any of it between steps and inside an
override handler (R83). A device that answers a bus call may change it too, but for the memory map: inside a
step nothing but a handler changes which addresses are memory (R76, U20; log entry 29). -/
structure Devices where
  /-- The windows of memory that are not plain; the first one that holds an address decides. -/
  windows : List Window
  /-- The byte `portIn` returns on a passive port; a port that is not listed answers any byte. -/
  portInputs : List (Word × Byte)
  /-- The passive ports that `portIn` refuses. -/
  refusedIn : List Word
  /-- The (port, value) pairs that `portOut` refuses on passive ports. -/
  refusedOut : List (Word × Byte)
  /-- The ports of a device with side effects: it answers any byte, refuses at will, and may change the
  devices on a read or a write. -/
  activePorts : List Word
  /-- The vectors for which `isInterruptOverride` answers true. -/
  overrides : List Byte
  /-- The vectors for which `isInterruptOverride` answers "differently at different times" (R399). -/
  openVectors : List Byte
  deriving DecidableEq, Repr, Inhabited

/-- A bus call that a device with side effects answers (R63, R399). -/
inductive HostRequest where
  | readByte (a : Addr)
  | writeByte (a : Addr) (v : Byte)
  | portIn (p : Word)
  | portOut (p : Word) (v : Byte)
  deriving DecidableEq, Repr, Inhabited

/-- What such a device does: the byte it answers, whether it refuses (a port call only, R82), and the devices
it leaves. Memory is not its to change: outside an override handler the host "cannot do so at any other time"
than between steps (R76, U20; log entry 29). -/
structure HostReply where
  value : Byte
  refused : Bool
  devices : Devices
  deriving DecidableEq, Repr, Inhabited

/-- What one run of a host override handler leaves (R364): the CPU state, the bytes of memory it wrote in
order, and the devices. -/
structure HostEffect where
  cpu : Cpu
  writes : List (Addr × Byte)
  devices : Devices
  deriving DecidableEq, Repr, Inhabited

/-- The two outcomes of a host override handler (R364): HostProtocolError, with the memory it wrote and the
devices it left before it failed, which stay (R82), or an effect. -/
inductive HostAnswer where
  | fails (writes : List (Addr × Byte)) (devices : Devices)
  | returns (e : HostEffect)
  deriving DecidableEq, Repr, Inhabited

/-- The state the core owns for itself: the CPU state and the decode-time state (R37, R38, R47). -/
structure CoreRegs where
  cpu : Cpu
  segOverride : Option Sreg
  repeatState : Bool
  deriving DecidableEq, Repr, Inhabited

/-- The parameters a model takes (R6). -/
structure Params where
  /-- `FLAGS_ONE_MASK` (R29). -/
  onesMask : Word
  /-- `FLAGS_ZERO_MASK` (R29). -/
  zeroMask : Word
  /-- `FLAGS_INIT` (R44). -/
  flagsInit : Word
  /-- `INT_CLEARS_IF_TF` (R363). -/
  intClearsIfTf : Bool
  /-- `IDIV_SYMMETRIC_MIN` (R192). -/
  idivSymmetricMin : Bool
  /-- The slots taken out of `DISPATCH` (R106: "a model may shrink it"). -/
  removedSlots : List Slot
  deriving DecidableEq, Repr

/-- The defaults of R6. -/
def Params.default : Params :=
  { onesMask := 0x0000, zeroMask := 0x0000, flagsInit := 0x0000
    intClearsIfTf := true, idivSymmetricMin := true, removedSlots := [] }

/-- The boot vector of `State.reset` (R390 makes it an argument of `init`): DESIGN CHOICE, unsafe, log
entry 3; the values are those of the one example the source gives (95_test_vectors.md T6). -/
def Config.bootCs : Word := 0xF000
def Config.bootIp : Word := 0x0100

/-- `draw_1()` (R12; U1 to U4): the n-th free bit of a run. -/
opaque Config.freeBit : Nat → Bool

/-- The byte an attached host answers on a port that the State lists no answer for (U13): a fresh free
value for every call, applied to the draw counter and the port. -/
opaque Config.freePortByte : Nat → Word → Byte

/-- What a device with side effects does on a bus call (R63, R399, U13): an uninterpreted function of the
call, the host's memory and devices, and the draw counter, which no two calls of a run share. -/
opaque Config.hostReply : HostRequest → List Host.Cell → Devices → Nat → HostReply

/-- What `isInterruptOverride` answers for a vector whose answer is left open (R399): "true or false, per
vector, and differently at different times". -/
opaque Config.freeAnswer : Nat → Byte → Bool

/-- The core's own state where the spec leaves it undefined: after an error (R12, R43, R370, R371) and after
`shutdown` (R392). -/
opaque Config.undefinedCore : Nat → CoreRegs

/-- `HostInt` (R364, U12) for a vector that the State lists no answer for: an uninterpreted function of
the vector, the CPU state, the host's memory and devices, and the draw counter. -/
opaque Config.hostInt : Byte → Cpu → List Host.Cell → Devices → Nat → HostAnswer

/-- `Cycles` (R400, U11): uninterpreted, of the instruction form (opcode byte and group slot), whether the
operand is in memory, whether a transfer was taken, and the iteration or shift count. -/
opaque Config.cycles : Slot → Bool → Bool → Nat → Cost

/-- `CYC_INT` (R362, R400). -/
opaque Config.cycInt : Cost

/-- `CYC_INT_OVERRIDE` (R362, R400). -/
opaque Config.cycIntOverride : Cost

end Sys2Proof
end

