-- ==== Sys2Proof/Machine/State.lean ====
section
/-!
DEFINITION. The state of the machine as plain data, its faults and refusals, and the state after reset
(10_state.md R20 to R47; 20_memory.md R60 to R64; 00_scope.md R6).
-/

namespace Sys2Proof.Machine

/-- One call the core makes on the bus (R63), with the host's answer where it gives one. `convertSeg` is
pure and its calls "need not be counted" (R81). -/
inductive BusCall where
  | readByte (a : Addr) (v : Byte)
  | writeByte (a : Addr) (v : Byte)
  | portIn (p : Word) (v : Byte)
  /-- `portIn` ended in the host's error (R82). -/
  | portInRefused (p : Word)
  | portOut (p : Word) (v : Byte)
  /-- `portOut` ended in the host's error (R82). -/
  | portOutRefused (p : Word) (v : Byte)
  | query (v : Byte) (answer : Bool)
  | interruptOverride (v : Byte)
  deriving DecidableEq, Repr

/-- The bus reference and what the host holds behind it (R40, R63, R83). `mem` lists the memory bytes that
differ from `Memory.blank`, addresses strictly rising; `handlers` lists the override handlers whose answer
is given as data. -/
structure Bus where
  attached : Bool
  mem : List Host.Cell
  devices : Devices
  handlers : List (Byte × HostAnswer)
  deriving DecidableEq, Repr

/-- What a step that ends in an error leaves outside the core: the host's memory and devices, the bus calls
made, newest first, and the draw counter. After a failing bus call "whatever the step had already written
stays written" (R82), and the model says the same of DecodeError (DEDUCED, unsafe, log entry 13). -/
structure HostSide where
  bus : Bus
  calls : List BusCall
  draws : Nat
  deriving DecidableEq, Repr

/-- Why a step ends in an error, and what it left at the host. -/
inductive Fault where
  /-- DecodeError (R370), raised by the step for an absent opcode byte, an absent or removed slot, or a
  refused form; it carries the opcode byte and the reg field of a group slot. Safe: the spec's own outcome,
  and of the core's state after it nothing is said. -/
  | decodeError (op : Byte) (slot : Option RegIx) (left : HostSide)
  /-- HostProtocolError (R371), raised by IN and OUT when the host refuses the port and by an interrupt
  whose override handler fails. Safe: the spec's own outcome, and of the core's state after it nothing is
  said. -/
  | hostProtocolError (left : HostSide)
  /-- The prefix loop met 65536 prefix bytes in a row and so never ends (R397, U10), raised by the step.
  Safe: the block hangs inside the call and has no result. -/
  | prefixLoop
  deriving DecidableEq, Repr

/-- Why a step has no meaning. -/
inductive Refusal where
  /-- An instruction without a meaning, refused in its arm of `exec` (no arm does so now). Safe. -/
  | notModelled (mnemonic : String)
  /-- `runInstruction` "is not defined after an error or after `shutdown`" (R393, U17), raised by the step.
  Safe. -/
  | notRunning
  deriving DecidableEq, Repr

/-- The typed error a step ends with (R43, R370, R371). -/
inductive StepError where
  | decodeError (op : Byte) (slot : Option RegIx)
  | hostProtocolError
  deriving DecidableEq, Repr

/-- The error status and lifecycle of the block (R43, R44, R392, R393). -/
inductive Status where
  /-- No error: a step may be made. -/
  | running
  /-- A step ended in this error; only `init` or `reset` gives a defined state again. -/
  | error (e : StepError)
  /-- After `shutdown`; only `init` is defined. -/
  | shutDown
  deriving DecidableEq, Repr

/-- The state of the machine. -/
structure State where
  /-- Registers, IP, segment registers and flags (R20 to R30). -/
  cpu : Cpu
  /-- The segment-override state; none between steps (R37). -/
  segOverride : Option Sreg
  /-- The repeat-prefix state; false between steps (R38). -/
  repeatState : Bool
  /-- The bus reference and the host's memory and devices (R40). -/
  bus : Bus
  /-- The error status (R43). -/
  status : Status
  /-- The parameters; no instruction writes one (R6). -/
  params : Params
  /-- The bus calls of the current step, newest first (R63, R81). The model's own field. -/
  calls : List BusCall
  /-- The cycle cost the last step returned (R393). The model's own field. -/
  cost : Cost
  /-- How many free values have been drawn (R12); no step, `init` or `reset` sets it back. The model's own
  field. -/
  draws : Nat
  deriving DecidableEq, Repr

/-- A host with plain memory alone and no listed port answer, refusal or override. -/
def Devices.plain : Devices :=
  { windows := [], portInputs := [], refusedIn := [], refusedOut := [], activePorts := []
    overrides := [], openVectors := [] }

/-- A bus with a plain memory in which nothing is written. -/
def Bus.plain : Bus := { attached := true, mem := [], devices := Devices.plain, handlers := [] }

/-- The CPU state after `init` and `reset` (R44, R390, R391). -/
def Cpu.initial (cs ip flags : Word) : Cpu :=
  { ax := 0, bx := 0, cx := 0, dx := 0, sp := 0, bp := 0, si := 0, di := 0
    ip := ip, es := 0, cs := cs, ss := 0, ds := 0, flags := flags }

/-- The state after `init(cs, ip)` with the bus the host attaches (R390). `draws` is how many free values
have been drawn before it: that the values drawn after it are fresh ones is the model's choice (R12; DESIGN
CHOICE, safe, log entry 16). -/
def State.init (cs ip : Word) (bus : Bus) (params : Params) (draws : Nat) : State :=
  { cpu := Cpu.initial cs ip params.flagsInit
    segOverride := none, repeatState := false, bus := bus, status := .running, params := params
    calls := [], cost := 0, draws := draws }

/-- The machine right after `init` (R390) at the boot vector of `Config` with a plain bus attached and the
default parameters (log entries 2 to 5). -/
def State.reset : State := State.init Config.bootCs Config.bootIp Bus.plain Params.default 0

end Sys2Proof.Machine
end

