-- ==== Sys2Proof/Machine/Flags.lean ====
section
/-!
DEFINITION. The flags word and the flags engine (10_state.md R28 to R36).
-/

namespace Sys2Proof.Machine

/-- A single flag of the word (R28). -/
def getFlag (fl : Word) (f : Flag) : Bool := fl.getLsbD f.pos

/-- The word with one flag written and every other bit kept (R28). -/
def putFlag (fl : Word) (f : Flag) (b : Bool) : Word :=
  (fl &&& ~~~(1#16 <<< f.pos)) ||| (if b then 1#16 <<< f.pos else 0#16)

/-- `WordToFlags(v)`, what a whole-word write stores (R29). -/
def wordToFlags (p : Params) (v : Word) : Word := (v &&& ~~~p.zeroMask) ||| p.onesMask

/-- Parity of eight bits: true when the number of ones is even (R32). -/
def evenParity (b : Byte) : Bool := ((List.range 8).countP (fun i => b.getLsbD i)) % 2 == 0

/-- `SetSZP_w(r)` (R32): zero and sign at the operand width, parity of the low eight bits. -/
def setSZP {n : Nat} (r : BitVec n) (fl : Word) : Word :=
  putFlag (putFlag (putFlag fl .zf (r.toNat == 0)) .sf r.msb) .pf (evenParity (r.setWidth 8))

/-- `AddFlags_w(a, b, c)` (R33): the result and the new flags word. -/
def addFlags {n : Nat} (a b : BitVec n) (c : Bool) (fl : Word) : BitVec n × Word :=
  let s := a.toNat + b.toNat + c.toNat
  let r := BitVec.ofNat n s
  let cf := decide (2 ^ n ≤ s)
  let ov := ((a ^^^ r) &&& (b ^^^ r)).msb
  (r, setSZP r (putFlag (putFlag fl .cf cf) .of ov))

/-- `SubFlags_w(a, b, c)` (R34): the result and the new flags word. -/
def subFlags {n : Nat} (a b : BitVec n) (c : Bool) (fl : Word) : BitVec n × Word :=
  let d : Int := (a.toNat : Int) - (b.toNat : Int) - (c.toNat : Int)
  let r := BitVec.ofInt n d
  let cf := decide (d < 0)
  let ov := ((a ^^^ b) &&& (a ^^^ r)).msb
  (r, setSZP r (putFlag (putFlag fl .cf cf) .of ov))

/-- `LogicFlags_w(r)` (R35). -/
def logicFlags {n : Nat} (r : BitVec n) (fl : Word) : Word :=
  setSZP r (putFlag (putFlag fl .cf false) .of false)

/-- The composite predicates (R31). -/
def above (fl : Word) : Bool := !getFlag fl .zf && !getFlag fl .cf
def belowOrEqual (fl : Word) : Bool := getFlag fl .cf || getFlag fl .zf
def less (fl : Word) : Bool := getFlag fl .sf != getFlag fl .of
def lessOrEqual (fl : Word) : Bool := (getFlag fl .sf != getFlag fl .of) || getFlag fl .zf

/-- The word SAHF leaves (R161): bits 7, 6, 4, 2 and 0 from AH, every other bit kept. -/
def loadLowFlags (ah : Byte) (fl : Word) : Word :=
  putFlag (putFlag (putFlag (putFlag (putFlag fl .sf (ah.getLsbD 7)) .zf (ah.getLsbD 6))
    .af (ah.getLsbD 4)) .pf (ah.getLsbD 2)) .cf (ah.getLsbD 0)

/-! ## The ALU operations -/

/-- The eight two-operand operations, in the order of R180. -/
inductive AluOp where
  | add | or | adc | sbb | and | sub | xor | cmp
  deriving DecidableEq, Repr

/-- `f_k(a, b)` of R180: the result and the new flags word (R181 to R185, R230 to R232). -/
def aluEval (op : AluOp) {n : Nat} (a b : BitVec n) (fl : Word) : BitVec n × Word :=
  match op with
  | .add => addFlags a b false fl
  | .adc => addFlags a b (getFlag fl .cf) fl
  | .sub => subFlags a b false fl
  | .sbb => subFlags a b (getFlag fl .cf) fl
  | .cmp => subFlags a b false fl
  | .and => (a &&& b, logicFlags (a &&& b) fl)
  | .or => (a ||| b, logicFlags (a ||| b) fl)
  | .xor => (a ^^^ b, logicFlags (a ^^^ b) fl)

/-- INC (R186): the flags of a + 1 with CF kept. -/
def incEval {n : Nat} (a : BitVec n) (fl : Word) : BitVec n × Word :=
  let (r, fl') := addFlags a 1 false fl
  (r, putFlag fl' .cf (getFlag fl .cf))

/-- DEC (R187): the flags of a - 1 with CF kept. -/
def decEval {n : Nat} (a : BitVec n) (fl : Word) : BitVec n × Word :=
  let (r, fl') := subFlags a 1 false fl
  (r, putFlag fl' .cf (getFlag fl .cf))

/-! ## Shifts and rotates -/

/-- The seven operations of group 2 (R235). -/
inductive ShiftOp where
  | rol | ror | rcl | rcr | shl | shr | sar
  deriving DecidableEq, Repr

/-- Whether the operation writes ZF, SF and PF: the shifts do, the rotates do not (R235). -/
def ShiftOp.isShift : ShiftOp → Bool
  | .shl | .shr | .sar => true
  | .rol | .ror | .rcl | .rcr => false

/-- A value whose only set bit, if any, is its top bit. -/
def topBit (n : Nat) (b : Bool) : BitVec n := if b then BitVec.ofNat n (2 ^ (n - 1)) else 0

/-- A value whose only set bit, if any, is bit 0. -/
def lowBit (n : Nat) (b : Bool) : BitVec n := if b then 1 else 0

/-- `one_step_k(a, CF)` (R236 to R242). -/
def shiftStep (op : ShiftOp) {n : Nat} (a : BitVec n) (cf : Bool) : BitVec n × Bool :=
  match op with
  | .rol => ((a <<< 1) ||| lowBit n a.msb, a.msb)
  | .ror => ((a >>> 1) ||| topBit n (a.getLsbD 0), a.getLsbD 0)
  | .rcl => ((a <<< 1) ||| lowBit n cf, a.msb)
  | .rcr => ((a >>> 1) ||| topBit n cf, a.getLsbD 0)
  | .shl => (a <<< 1, a.msb)
  | .shr => (a >>> 1, a.getLsbD 0)
  | .sar => ((a >>> 1) ||| topBit n a.msb, a.getLsbD 0)

/-- The one-bit step applied `count` times (R235). -/
def shiftTimes (op : ShiftOp) {n : Nat} : Nat → BitVec n → Bool → BitVec n × Bool
  | 0, a, cf => (a, cf)
  | k + 1, a, cf => shiftTimes op k (shiftStep op a cf).1 (shiftStep op a cf).2

/-- The overflow of a count of 1, of the operand `a`, the result `r` and the new carry (R236 to R242). -/
def shiftOverflow (op : ShiftOp) {n : Nat} (a r : BitVec n) (cf : Bool) : Bool :=
  match op with
  | .rol | .rcl | .shl => r.msb != cf
  | .ror | .rcr => r.msb != r.getLsbD (n - 2)
  | .shr => a.msb
  | .sar => false

/-- The result and flags word of a shift or rotate (R235). `free` stands for OF where the count is above 1
(U4). -/
def shiftEval (op : ShiftOp) {n : Nat} (a : BitVec n) (count : Nat) (free : Bool) (fl : Word) :
    BitVec n × Word :=
  if count = 0 then (a, fl)
  else
    let (r, cf) := shiftTimes op count a (getFlag fl .cf)
    let ov := if count = 1 then shiftOverflow op a r cf else free
    let fl1 := putFlag (putFlag fl .cf cf) .of ov
    (r, if op.isShift then setSZP r fl1 else fl1)

end Sys2Proof.Machine
end

