-- ==== Sys2Proof/Machine/Ops.lean ====
section
/-!
DEFINITION. The named operations over registers, memory, ports and the stack, and taking and returning from
an interrupt (10_state.md R20 to R26; 20_memory.md R60 to R82; 60_exceptions.md R362 to R367).
-/

namespace Sys2Proof.Machine

/-- What a meaning answers. -/
abbrev Outcome := Host.Outcome State Fault Refusal

/-! ## Registers -/

/-- `Reg16[i]` (R23). -/
def getReg16 (c : Cpu) : Reg16 → Word
  | .ax => c.ax | .cx => c.cx | .dx => c.dx | .bx => c.bx
  | .sp => c.sp | .bp => c.bp | .si => c.si | .di => c.di

/-- `Reg16[i] <- v` (R23). -/
def putReg16 (c : Cpu) (r : Reg16) (v : Word) : Cpu :=
  match r with
  | .ax => { c with ax := v } | .cx => { c with cx := v }
  | .dx => { c with dx := v } | .bx => { c with bx := v }
  | .sp => { c with sp := v } | .bp => { c with bp := v }
  | .si => { c with si := v } | .di => { c with di := v }

/-- The pair a byte register is a half of (R24). -/
def Reg8.pair : Reg8 → Reg16
  | .al | .ah => .ax
  | .cl | .ch => .cx
  | .dl | .dh => .dx
  | .bl | .bh => .bx

/-- Whether a byte register is the high half of its pair (R24). -/
def Reg8.isHigh : Reg8 → Bool
  | .al | .cl | .dl | .bl => false
  | .ah | .ch | .dh | .bh => true

/-- `Reg8[i]` (R21, R24). -/
def getReg8 (c : Cpu) (r : Reg8) : Byte :=
  if Reg8.isHigh r then highByte (getReg16 c (Reg8.pair r)) else lowByte (getReg16 c (Reg8.pair r))

/-- `Reg8[i] <- v`: "Writing one half never disturbs the other" (R21, R24). -/
def putReg8 (c : Cpu) (r : Reg8) (v : Byte) : Cpu :=
  let p := Reg8.pair r
  if Reg8.isHigh r then putReg16 c p (wordOf (lowByte (getReg16 c p)) v)
  else putReg16 c p (wordOf v (highByte (getReg16 c p)))

/-- `Sreg[i]` (R25). -/
def getSreg (c : Cpu) : Sreg → Word
  | .es => c.es | .cs => c.cs | .ss => c.ss | .ds => c.ds

/-- `Sreg[i] <- v` (R25). -/
def putSreg (c : Cpu) (sr : Sreg) (v : Word) : Cpu :=
  match sr with
  | .es => { c with es := v } | .cs => { c with cs := v }
  | .ss => { c with ss := v } | .ds => { c with ds := v }

/-- `Reg_w[i]` (R9). -/
def getReg (c : Cpu) (w : Width) (i : RegIx) : BitVec w.bits :=
  match w with
  | .byte => getReg8 c (Reg8.ofIx i)
  | .word => getReg16 c (Reg16.ofIx i)

/-- `Reg_w[i] <- v` (R9). -/
def putReg (c : Cpu) (w : Width) (i : RegIx) (v : BitVec w.bits) : Cpu :=
  match w, v with
  | .byte, v => putReg8 c (Reg8.ofIx i) v
  | .word, v => putReg16 c (Reg16.ofIx i) v

/-! ## Writes to the state -/

/-- The state with another CPU state. -/
def State.withCpu (s : State) (c : Cpu) : State := { s with cpu := c }

/-- The state with another flags word. -/
def State.withFlags (s : State) (fl : Word) : State := { s with cpu := { s.cpu with flags := fl } }

/-- `IP <- t` (R12). -/
def State.withIp (s : State) (t : Word) : State := { s with cpu := { s.cpu with ip := t } }

/-- `CS:IP <- seg:off` (R12). -/
def State.withCsIp (s : State) (seg off : Word) : State :=
  { s with cpu := { s.cpu with cs := seg, ip := off } }

/-- `SP <- v`. -/
def State.withSp (s : State) (v : Word) : State := { s with cpu := { s.cpu with sp := v } }

/-- `CX <- v`. -/
def State.withCx (s : State) (v : Word) : State := { s with cpu := { s.cpu with cx := v } }

/-- `Sreg <- v`. -/
def State.withSreg (s : State) (sr : Sreg) (v : Word) : State := s.withCpu (putSreg s.cpu sr v)

/-- `Reg_w[i] <- v`. -/
def State.withReg (s : State) (w : Width) (i : RegIx) (v : BitVec w.bits) : State :=
  s.withCpu (putReg s.cpu w i v)

/-- A bus call is made (R81). -/
def State.record (s : State) (c : BusCall) : State := { s with calls := c :: s.calls }

/-- `draw_1()` (R12): the next free bit, and the state in which it has been drawn. -/
def drawBit (s : State) : Bool × State := (Config.freeBit s.draws, { s with draws := s.draws + 1 })

/-- A flag is left undefined and takes a free value (U1 to U4). -/
def drawFlag (f : Flag) (s : State) : State :=
  let (b, s1) := drawBit s
  s1.withFlags (putFlag s1.cpu.flags f b)

/-- Each of several flags takes a free value, in order. -/
def drawFlags (fs : List Flag) (s : State) : State := fs.foldl (fun t f => drawFlag f t) s

/-- `return Cycles(f)` (R12, R400): the value is pinned for MOV r16, imm16 (R401) and free otherwise. -/
def cyclesOf (i : Instr) (taken : Bool) (count : Nat) : Cost :=
  match i with
  | .movRegImm16 _ _ => 4
  | _ => Config.cycles i.slot i.memOperand taken count

/-- A handler ends and returns its cost (R91). -/
def done (i : Instr) (s : State) (taken : Bool := false) (count : Nat := 0) : Outcome :=
  .next { s with cost := cyclesOf i taken count }

/-! ## Memory -/

/-- What a byte of memory that nothing has written reads as: DESIGN CHOICE, unsafe, log entry 2. -/
def Memory.blank : Byte := 0x00

/-- The byte at a physical address. -/
def Memory.read : List Host.Cell → Nat → Byte
  | [], _ => Memory.blank
  | (k, v) :: rest, a => if k = a then v else Memory.read rest a

/-- The cells at other addresses. -/
def Memory.erase (m : List Host.Cell) (a : Nat) : List Host.Cell := m.filter (fun c => c.1 != a)

/-- A cell put in its place in the rising order. -/
def Memory.insert : List Host.Cell → Nat → Byte → List Host.Cell
  | [], a, v => [(a, v)]
  | (k, u) :: rest, a, v =>
    if a < k then (a, v) :: (k, u) :: rest else (k, u) :: Memory.insert rest a v

/-- The memory with a byte written. A byte equal to what an unlisted address reads as is not listed. -/
def Memory.write (m : List Host.Cell) (a : Nat) (v : Byte) : List Host.Cell :=
  if v = Memory.blank then Memory.erase m a else Memory.insert (Memory.erase m a) a v

/-- The addresses of a memory rise strictly above a bound. -/
def Memory.risesFrom : Nat → List Host.Cell → Bool
  | _, [] => true
  | lo, (k, _) :: rest => decide (lo ≤ k) && Memory.risesFrom (k + 1) rest

/-- The canonical form: addresses strictly rising and below 2^20 (R60), no entry equal to what an unlisted
address reads as. -/
def Memory.wf (m : List Host.Cell) : Bool :=
  Memory.risesFrom 0 m && m.all (fun c => decide (c.1 < 2 ^ 20) && c.2 != Memory.blank)

/-- `Phys(seg, off)` (R62). -/
def phys (seg off : Word) : Addr := (seg.zeroExtend 20 <<< 4) + off.zeroExtend 20

/-- The byte that the host's memory holds at a physical address, which a read of plain memory or of ROM
answers (log entry 1): 0 when no bus is attached (R64). -/
def State.peek (s : State) (a : Addr) : Byte :=
  if s.bus.attached then Memory.read s.bus.mem a.toNat else 0

/-! ## The host behind the bus -/

/-- What a step leaves at the host if it ends here. -/
def State.hostSide (s : State) : HostSide := { bus := s.bus, calls := s.calls, draws := s.draws }

/-- The window holds the address. -/
def windowHolds (w : Window) (a : Addr) : Bool := decide (w.first ≤ a) && decide (a ≤ w.last)

/-- What is at a physical address: none for plain memory. -/
def State.kindAt (s : State) (a : Addr) : Option WindowKind :=
  (s.bus.devices.windows.find? (fun w => windowHolds w a)).map (fun w => w.kind)

/-- Bytes that the host writes to its memory, in order. -/
def hostWrites (ws : List (Addr × Byte)) (m : List Host.Cell) : List Host.Cell :=
  ws.foldl (fun m w => Memory.write m w.1.toNat w.2) m

/-- An override handler has acted inside a step: it has written memory, the devices are as it left them, and
one free value has been drawn (R83, R364, R399). -/
def State.hostActs (s : State) (ws : List (Addr × Byte)) (d : Devices) : State :=
  { s with bus := { s.bus with mem := hostWrites ws s.bus.mem, devices := d }, draws := s.draws + 1 }

/-- What a device with side effects does on a bus call (R399). -/
def State.reply (s : State) (r : HostRequest) : HostReply :=
  Config.hostReply r s.bus.mem s.bus.devices s.draws

/-- The state in which it has done so: its side effects are on the devices (R399). Memory and the memory map
are as they were, since the core "holds control from call to return" (R76, U20). -/
def State.react (s : State) (r : HostRequest) : State :=
  { s with
    bus := { s.bus with devices := { (s.reply r).devices with windows := s.bus.devices.windows } }
    draws := s.draws + 1 }

/-- `Bus.readByte(addr)` (R63 to R65). It cannot fail (R82). -/
def readByte (a : Addr) (s : State) : Byte × State :=
  if s.bus.attached then
    match s.kindAt a with
    | some .device =>
      ((s.reply (.readByte a)).value,
        (s.react (.readByte a)).record (.readByte a (s.reply (.readByte a)).value))
    | some .rom | none => (s.peek a, s.record (.readByte a (s.peek a)))
  else (0, s)

/-- `Bus.writeByte(addr, v)` (R63 to R65). It cannot fail (R82). -/
def writeByte (a : Addr) (v : Byte) (s : State) : State :=
  if s.bus.attached then
    match s.kindAt a with
    | some .device => (s.react (.writeByte a v)).record (.writeByte a v)
    | some .rom => s.record (.writeByte a v)
    | none =>
      { s with bus := { s.bus with mem := Memory.write s.bus.mem a.toNat v } }.record (.writeByte a v)
  else s

/-- `Read8(seg, off)` (R65). -/
def read8 (seg off : Word) (s : State) : Byte × State := readByte (phys seg off) s

/-- `Write8(seg, off, v)` (R65). -/
def write8 (seg off : Word) (v : Byte) (s : State) : State := writeByte (phys seg off) v s

/-- `Read16(seg, off)` (R66). -/
def read16 (seg off : Word) (s : State) : Word × State :=
  let (lo, s1) := read8 seg off s
  let (hi, s2) := read8 seg (off + 1) s1
  (wordOf lo hi, s2)

/-- `Write16(seg, off, v)` (R66). -/
def write16 (seg off v : Word) (s : State) : State :=
  write8 seg (off + 1) (highByte v) (write8 seg off (lowByte v) s)

/-- `Read_w` (R66). -/
def readW (w : Width) (seg off : Word) (s : State) : BitVec w.bits × State :=
  match w with
  | .byte => read8 seg off s
  | .word => read16 seg off s

/-- `Write_w` (R66). -/
def writeW (w : Width) (seg off : Word) (v : BitVec w.bits) (s : State) : State :=
  match w, v with
  | .byte, v => write8 seg off v s
  | .word, v => write16 seg off v s

/-- The byte a read of plain memory or ROM at `seg`:`off` would answer. -/
def State.peek8 (s : State) (seg off : Word) : Byte := s.peek (phys seg off)

/-- The word a read at `seg`:`off` would answer (R66). -/
def State.peek16 (s : State) (seg off : Word) : Word :=
  wordOf (s.peek8 seg off) (s.peek8 seg (off + 1))

/-- The value a read of width `w` at `seg`:`off` would answer. -/
def State.peekW (s : State) (w : Width) (seg off : Word) : BitVec w.bits :=
  match w with
  | .byte => s.peek8 seg off
  | .word => s.peek16 seg off

/-- The physical addresses of an operand of width `w` at `seg`:`off` (R65, R66). -/
def bytesAt (w : Width) (seg off : Word) : List Addr :=
  match w with
  | .byte => [phys seg off]
  | .word => [phys seg off, phys seg (off + 1)]

/-! ## Instruction fetch -/

/-- `Fetch8()` (R27, R70). -/
def fetch8 (s : State) : Byte × State :=
  let (b, s1) := read8 s.cpu.cs s.cpu.ip s
  (b, s1.withIp (s1.cpu.ip + 1))

/-- `n` bytes are fetched, in ascending order. -/
def fetchN : Nat → State → State
  | 0, s => s
  | n + 1, s => fetchN n (fetch8 s).2

/-- Byte `k` of the instruction in memory at a segment and offset, the offset wrapping in the segment
(R27, R70, R342). -/
def State.codeAt (s : State) (seg off : Word) : Nat → Byte :=
  fun k => s.peek8 seg (off + BitVec.ofNat 16 k)

/-- The stream of bytes at CS:IP. -/
def State.code (s : State) : Nat → Byte := s.codeAt s.cpu.cs s.cpu.ip

/-- Bytes are fetched one at a time until those in hand decode, or are refused (R70, R91, R110). The first
argument bounds how many more may be fetched. -/
def fetchFrom (removed : List Slot) : Nat → List Byte → State → Decoded × State
  | 0, _, s => (.truncated, s)
  | n + 1, got, s =>
    let (b, s1) := fetch8 s
    let d := decodeWith removed (streamOf (got ++ [b]))
    if d.length ≤ (got ++ [b]).length then (d, s1) else fetchFrom removed n (got ++ [b]) s1

/-- The instruction at CS:IP, or the refused form, with the state in which its bytes have been fetched. No
instruction is longer than 6 bytes (R90), so that the answer is never `truncated`. -/
def fetchInstr (s : State) : Decoded × State := fetchFrom s.params.removedSlots 6 [] s

/-! ## Stack -/

/-- `Push16(v)` (R71). -/
def push16 (v : Word) (s : State) : State :=
  write16 s.cpu.ss (s.cpu.sp - 2) v (s.withSp (s.cpu.sp - 2))

/-- PUSH SP stores the decremented value (R145, R146). -/
def pushSp (s : State) : State := push16 (s.cpu.sp - 2) s

/-- `Pop16()` (R71). -/
def pop16 (s : State) : Word × State :=
  let (v, s1) := read16 s.cpu.ss s.cpu.sp s
  (v, s1.withSp (s1.cpu.sp + 2))

/-! ## Ports -/

/-- The byte the host answers on a passive port: the one the State lists, or a free value (U13, log
entry 8). -/
def portAnswer (s : State) (p : Word) : Byte :=
  match s.bus.devices.portInputs.lookup p with
  | some v => v
  | none => Config.freePortByte s.draws p

/-- `PortIn8(p)` (R64, R72, R82, R399). -/
def portIn8 (p : Word) (s : State) : Except Fault (Byte × State) :=
  if s.bus.attached then
    if s.bus.devices.activePorts.contains p then
      if (s.reply (.portIn p)).refused then
        .error (.hostProtocolError ((s.react (.portIn p)).record (.portInRefused p)).hostSide)
      else
        .ok ((s.reply (.portIn p)).value,
          (s.react (.portIn p)).record (.portIn p (s.reply (.portIn p)).value))
    else if s.bus.devices.refusedIn.contains p then
      .error (.hostProtocolError (s.record (.portInRefused p)).hostSide)
    else
      .ok (portAnswer s p, { s with draws := s.draws + 1 }.record (.portIn p (portAnswer s p)))
  else .ok (0, s)

/-- `PortOut8(p, v)` (R64, R72, R82, R399). -/
def portOut8 (p : Word) (v : Byte) (s : State) : Except Fault State :=
  if s.bus.attached then
    if s.bus.devices.activePorts.contains p then
      if (s.reply (.portOut p v)).refused then
        .error (.hostProtocolError ((s.react (.portOut p v)).record (.portOutRefused p v)).hostSide)
      else .ok ((s.react (.portOut p v)).record (.portOut p v))
    else if s.bus.devices.refusedOut.contains (p, v) then
      .error (.hostProtocolError (s.record (.portOutRefused p v)).hostSide)
    else .ok (s.record (.portOut p v))
  else .ok s

/-- `PortIn16(p)` (R72). -/
def portIn16 (p : Word) (s : State) : Except Fault (Word × State) :=
  match portIn8 p s with
  | .error e => .error e
  | .ok (lo, s1) =>
    match portIn8 (p + 1) s1 with
    | .error e => .error e
    | .ok (hi, s2) => .ok (wordOf lo hi, s2)

/-- `PortOut16(p, v)` (R72). -/
def portOut16 (p v : Word) (s : State) : Except Fault State :=
  match portOut8 p (lowByte v) s with
  | .error e => .error e
  | .ok s1 => portOut8 (p + 1) (highByte v) s1

/-- A port read of width `w`. -/
def portInW (w : Width) (p : Word) (s : State) : Except Fault (BitVec w.bits × State) :=
  match w with
  | .byte => portIn8 p s
  | .word => portIn16 p s

/-- A port write of width `w`. -/
def portOutW (w : Width) (p : Word) (v : BitVec w.bits) (s : State) : Except Fault State :=
  match w, v with
  | .byte, v => portOut8 p v s
  | .word, v => portOut16 p v s

/-! ## Interrupts -/

/-- The interrupt request (R39): "a vector number and whether it is host-overridden". -/
structure IntRequest where
  vector : Byte
  overridden : Bool
  deriving DecidableEq, Repr

/-- What `isInterruptOverride(v)` answers (R63, R64, R399): as the State lists, or, for a vector whose answer
is left open, a free value for every query. -/
def queryAnswer (v : Byte) (s : State) : Bool :=
  if s.bus.devices.openVectors.contains v then Config.freeAnswer s.draws v
  else s.bus.devices.overrides.contains v

/-- `Bus.isInterruptOverride(v)` (R63, R64, R362), "a pure query: no state change" at the host (R399). -/
def queryOverride (v : Byte) (s : State) : IntRequest × State :=
  if s.bus.attached then
    (⟨v, queryAnswer v s⟩, { s with draws := s.draws + 1 }.record (.query v (queryAnswer v s)))
  else (⟨v, false⟩, s)

/-- The offset of the table entry of vector `v` (R74, R363). -/
def vectorOffset (v : Byte) : Word := 4 * v.zeroExtend 16

/-- IF and TF are cleared, if `INT_CLEARS_IF_TF` (R363). -/
def clearIfTf (p : Params) (fl : Word) : Word :=
  if p.intClearsIfTf then putFlag (putFlag fl .intf false) .tf false else fl

/-- `RealPath(v)` (R363). -/
def realPath (v : Byte) (s : State) : State :=
  let s1 := push16 s.cpu.flags s
  let s2 := s1.withFlags (clearIfTf s1.params s1.cpu.flags)
  let s3 := push16 s2.cpu.cs s2
  let s4 := push16 s3.cpu.ip s3
  let (newIp, s5) := read16 0x0000 (vectorOffset v) s4
  let (newCs, s6) := read16 0x0000 (vectorOffset v + 2) s5
  s6.withCsIp newCs newIp

/-- What the host's override handler does (R364): the answer the State lists for the vector, or the
uninterpreted function of the vector, CPU state, memory, devices and draw counter (log entry 10). -/
def handlerAnswer (v : Byte) (s : State) : HostAnswer :=
  match s.bus.handlers.lookup v with
  | some a => a
  | none => Config.hostInt v s.cpu s.bus.mem s.bus.devices s.draws

/-- `OverridePath(v)` (R364): the core itself writes nothing; the segment-override and repeat state are out
of the handler's reach. What a failing handler wrote stays (R82). -/
def overridePath (v : Byte) (s : State) : Except Fault State :=
  let s1 := s.record (.interruptOverride v)
  match handlerAnswer v s with
  | .fails ws d => .error (.hostProtocolError (s1.hostActs ws d).hostSide)
  | .returns e => .ok ((s1.hostActs e.writes e.devices).withCpu e.cpu)

/-- `Interrupt(v)` (R362), the one entry to the interrupt subsystem, with the cost it returns. -/
def interrupt (v : Byte) (s : State) : Outcome :=
  let (request, s1) := queryOverride v s
  if request.overridden then
    match overridePath request.vector s1 with
    | .error e => .fault e
    | .ok s2 => .next { s2 with cost := Config.cycIntOverride }
  else .next { realPath request.vector s1 with cost := Config.cycInt }

/-- The return from the real path (R318, R367): IP, CS and FLAGS are popped. -/
def interruptReturn (s : State) : State :=
  let (ip, s1) := pop16 s
  let (cs, s2) := pop16 s1
  let (fl, s3) := pop16 s2
  (s3.withCsIp cs ip).withFlags (wordToFlags s3.params fl)

end Sys2Proof.Machine
end

