-- ==== Sys2Proof/Machine/Operands.lean ====
section
/-!
DEFINITION. Operand forms: which segment, the effective offset, the resolved r/m operand and its accessors
(20_memory.md R73; 30_encoding.md R96 to R100, R102; 41_arithmetic.md R180; 42_logic_shift.md R233).
-/

namespace Sys2Proof.Machine

/-- `SegFor(default)` (R73). -/
def segFor (d : Sreg) (s : State) : Word :=
  match s.segOverride with
  | some o => getSreg s.cpu o
  | none => getSreg s.cpu d

/-- Base plus index of a row of R97. -/
def baseValue (c : Cpu) : Base → Word
  | .bxSi => c.bx + c.si
  | .bxDi => c.bx + c.di
  | .bpSi => c.bp + c.si
  | .bpDi => c.bp + c.di
  | .si => c.si
  | .di => c.di
  | .bp => c.bp
  | .bx => c.bx

/-- The default segment of a row of R97. -/
def baseSeg : Base → Sreg
  | .bpSi | .bpDi | .bp => .ss
  | .bxSi | .bxDi | .si | .di | .bx => .ds

/-- `EA(m)`, the effective offset of a memory operand (R97, R98); 0 for a register operand, which has
none. -/
def effOffset (c : Cpu) : RM → Word
  | .reg _ => 0
  | .direct off => off
  | .base b => baseValue c b
  | .disp8 b d => baseValue c b + sext16 d
  | .disp16 b d => baseValue c b + d

/-- The default segment of a memory operand (R97, R98). -/
def defaultSeg : RM → Sreg
  | .reg _ | .direct _ => .ds
  | .base b | .disp8 b _ | .disp16 b _ => baseSeg b

/-- A resolved operand (R100: `Register(i)` or `Memory(seg, off)`), or an immediate. -/
inductive Operand where
  | reg (i : RegIx)
  | mem (seg off : Word)
  | imm (v : Word)
  deriving DecidableEq, Repr

/-- The operand of a ModRM byte (R96 to R100). -/
def resolve (m : RM) (s : State) : Operand :=
  match m with
  | .reg i => .reg i
  | _ => .mem (segFor (defaultSeg m) s) (effOffset s.cpu m)

/-- An operand is read at width `w` (R100 `ReadRM_w`). -/
def readOperand (w : Width) (o : Operand) (s : State) : BitVec w.bits × State :=
  match o with
  | .reg i => (getReg s.cpu w i, s)
  | .mem seg off => readW w seg off s
  | .imm v => (v.setWidth w.bits, s)

/-- An operand is written at width `w` (R100 `WriteRM_w`); an immediate is never a destination. -/
def writeOperand (w : Width) (o : Operand) (v : BitVec w.bits) (s : State) : State :=
  match o with
  | .reg i => s.withReg w i v
  | .mem seg off => writeW w seg off v s
  | .imm _ => s

/-- The value an operand holds. -/
def State.value (s : State) (w : Width) (o : Operand) : BitVec w.bits :=
  match o with
  | .reg i => getReg s.cpu w i
  | .mem seg off => s.peekW w seg off
  | .imm v => v.setWidth w.bits

/-- The physical addresses of the bytes an operand occupies in memory. -/
def Operand.bytes (w : Width) : Operand → List Addr
  | .mem seg off => bytesAt w seg off
  | .reg _ | .imm _ => []

/-- The accumulator, AL or AX, as an operand. -/
def accumulator : Operand := .reg 0

/-- The operand width of an ALU form (R180). -/
def aluWidth : AluForm → Width
  | .rmReg w _ _ | .regRm w _ _ => w
  | .accImm8 _ | .rmImm8 _ _ | .rmImm8Dup _ _ => .byte
  | .accImm16 _ | .rmImm16 _ _ | .rmSimm8 _ _ => .word

/-- The destination of an ALU form (R180). -/
def aluDst (f : AluForm) (s : State) : Operand :=
  match f with
  | .rmReg _ m _ | .rmImm8 m _ | .rmImm16 m _ | .rmImm8Dup m _ | .rmSimm8 m _ => resolve m s
  | .regRm _ r _ => .reg r
  | .accImm8 _ | .accImm16 _ => accumulator

/-- The source of an ALU form (R180); 83 sign-extends its byte (R102). -/
def aluSrc (f : AluForm) (s : State) : Operand :=
  match f with
  | .rmReg _ _ r => .reg r
  | .regRm _ _ m => resolve m s
  | .accImm8 i | .rmImm8 _ i | .rmImm8Dup _ i => .imm (zext16 i)
  | .accImm16 i | .rmImm16 _ i => .imm i
  | .rmSimm8 _ i => .imm (sext16 i)

/-- The operand width of a TEST form (R233). -/
def testWidth : TestForm → Width
  | .rmReg w _ _ => w
  | .accImm8 _ | .rmImm8 _ _ => .byte
  | .accImm16 _ | .rmImm16 _ _ => .word

/-- The first operand of a TEST form (R233). -/
def testFst (f : TestForm) (s : State) : Operand :=
  match f with
  | .rmReg _ m _ | .rmImm8 m _ | .rmImm16 m _ => resolve m s
  | .accImm8 _ | .accImm16 _ => accumulator

/-- The second operand of a TEST form (R233). -/
def testSnd (f : TestForm) : Operand :=
  match f with
  | .rmReg _ _ r => .reg r
  | .accImm8 i | .rmImm8 _ i => .imm (zext16 i)
  | .accImm16 i | .rmImm16 _ i => .imm i

/-- The count of a shift or rotate: 1, or all eight bits of CL, not masked (R235). -/
def shiftCount (c : ShiftCount) (s : State) : Nat :=
  match c with
  | .one => 1
  | .cl => (getReg8 s.cpu .cl).toNat

/-- The far pointer of a memory operand: the offset word, then the segment word two bytes above it
(R67, R158, R285, R289). -/
def readFar (m : RM) (s : State) : Word × Word × State :=
  let seg := segFor (defaultSeg m) s
  let off := effOffset s.cpu m
  let (o, s1) := read16 seg off s
  let (g, s2) := read16 seg (off + 2) s1
  (o, g, s2)

end Sys2Proof.Machine
end

