-- ==== Sys2Proof/Machine/PrefixRows.lean ====
section
/-!
DEFINITION. The prefix rows and the absent rows of the table (30_encoding.md R92, R106, R107).
-/

namespace Sys2Proof.Machine

/-- One turn of the prefix loop on a segment override (R91, R92). -/
def setOverride (sr : Sreg) (s : State) : Outcome := .next { s with segOverride := some sr }

def execSegEs (s : State) : Outcome := setOverride .es s
def execSegCs (s : State) : Outcome := setOverride .cs s
def execSegSs (s : State) : Outcome := setOverride .ss s
def execSegDs (s : State) : Outcome := setOverride .ds s

/-- One turn of the prefix loop on the repeat prefix (R91, R92). -/
def execRep (s : State) : Outcome := .next { s with repeatState := true }

/-- `raise DecodeError(op)` (R110, R370). What the step did at the host before it stays (log entry 13). -/
def raiseDecodeError (op : Byte) (slot : Option RegIx) (s : State) : Outcome :=
  .fault (.decodeError op slot s.hostSide)

/-- An absent opcode byte raises DecodeError (R106). -/
def execAbsentOpcode (op : Byte) (s : State) : Outcome := raiseDecodeError op none s

/-- An absent group slot raises DecodeError, carrying the `reg` field (R107, R110). -/
def execAbsentSlot (op : Byte) (reg : RegIx) (s : State) : Outcome := raiseDecodeError op (some reg) s

end Sys2Proof.Machine
end

