-- ==== Sys2Proof/Machine/Control.lean ====
section
/-!
DEFINITION. Control-transfer instructions (44_control_transfer.md R280 to R318). IP already addresses the
byte after the instruction when a meaning runs (R14).
-/

namespace Sys2Proof.Machine

/-- The target of a rel8 form (R280). -/
def relTarget8 (d : Byte) (s : State) : Word := s.cpu.ip + sext16 d

/-- The target of a rel16 form (R280). -/
def relTarget16 (d : Word) (s : State) : Word := s.cpu.ip + d

/-! ## JMP -/

/-- JMP rel8 (EB) (R281). -/
def execJmpRel8 (d : Byte) (s : State) : Outcome := done (.jmpRel8 d) (s.withIp (relTarget8 d s))

/-- JMP rel16 (E9) (R282). -/
def execJmpRel16 (d : Word) (s : State) : Outcome := done (.jmpRel16 d) (s.withIp (relTarget16 d s))

/-- JMP ptr16:16 (EA) (R283). -/
def execJmpFar (off seg : Word) (s : State) : Outcome := done (.jmpFar off seg) (s.withCsIp seg off)

/-- JMP r/m16 (FF /4) (R284). -/
def execJmpRm (m : RM) (s : State) : Outcome :=
  let (t, s1) := readOperand .word (resolve m s) s
  done (.jmpRm m) (s1.withIp t)

/-- JMP m16:16 (FF /5); mod = 3 raises DecodeError (R108, R285). -/
def execJmpFarRm (m : RM) (s : State) : Outcome :=
  if m.isMem then
    let (off, seg, s1) := readFar m s
    done (.jmpFarRm m) (s1.withCsIp seg off)
  else raiseDecodeError 0xFF (some 5) s

/-! ## CALL -/

/-- CALL rel16 (E8) (R286). -/
def execCallRel16 (d : Word) (s : State) : Outcome :=
  done (.callRel16 d) ((push16 s.cpu.ip s).withIp (relTarget16 d s))

/-- The pushes and the transfer of a far call (R287, R289). -/
def farCall (off seg : Word) (s : State) : State :=
  let s1 := push16 s.cpu.cs s
  (push16 s1.cpu.ip s1).withCsIp seg off

/-- CALL ptr16:16 (9A) (R287). -/
def execCallFar (off seg : Word) (s : State) : Outcome := done (.callFar off seg) (farCall off seg s)

/-- CALL r/m16 (FF /2); the target is read before the push (R288). -/
def execCallRm (m : RM) (s : State) : Outcome :=
  let (t, s1) := readOperand .word (resolve m s) s
  done (.callRm m) ((push16 s1.cpu.ip s1).withIp t)

/-- CALL m16:16 (FF /3); mod = 3 raises DecodeError (R108, R289). -/
def execCallFarRm (m : RM) (s : State) : Outcome :=
  if m.isMem then
    let (off, seg, s1) := readFar m s
    done (.callFarRm m) (farCall off seg s1)
  else raiseDecodeError 0xFF (some 3) s

/-! ## Conditional jumps -/

/-- The one shape of the conditional jumps (R290). -/
def jumpIf (i : Instr) (cond : Bool) (d : Byte) (s : State) : Outcome :=
  if cond then done i (s.withIp (relTarget8 d s)) (taken := true) else done i s

/-- The condition of JO: OF = 1 (R291). -/
def condJo (fl : Word) : Bool := getFlag fl .of

/-- JO (R291). -/
def execJo (d : Byte) (s : State) : Outcome := jumpIf (.jo d) (condJo s.cpu.flags) d s

/-- The condition of JNO: OF = 0 (R292). -/
def condJno (fl : Word) : Bool := !getFlag fl .of

/-- JNO (R292). -/
def execJno (d : Byte) (s : State) : Outcome := jumpIf (.jno d) (condJno s.cpu.flags) d s

/-- The condition of JB: CF = 1 (R293). -/
def condJb (fl : Word) : Bool := getFlag fl .cf

/-- JB (R293). -/
def execJb (d : Byte) (s : State) : Outcome := jumpIf (.jb d) (condJb s.cpu.flags) d s

/-- The condition of JAE: CF = 0 (R294). -/
def condJae (fl : Word) : Bool := !getFlag fl .cf

/-- JAE (R294). -/
def execJae (d : Byte) (s : State) : Outcome := jumpIf (.jae d) (condJae s.cpu.flags) d s

/-- The condition of JE: ZF = 1 (R295). -/
def condJe (fl : Word) : Bool := getFlag fl .zf

/-- JE (R295). -/
def execJe (d : Byte) (s : State) : Outcome := jumpIf (.je d) (condJe s.cpu.flags) d s

/-- The condition of JNE: ZF = 0 (R296). -/
def condJne (fl : Word) : Bool := !getFlag fl .zf

/-- JNE (R296). -/
def execJne (d : Byte) (s : State) : Outcome := jumpIf (.jne d) (condJne s.cpu.flags) d s

/-- The condition of JBE: below or equal (R297). -/
def condJbe (fl : Word) : Bool := belowOrEqual fl

/-- JBE (R297). -/
def execJbe (d : Byte) (s : State) : Outcome := jumpIf (.jbe d) (condJbe s.cpu.flags) d s

/-- The condition of JA: above (R298). -/
def condJa (fl : Word) : Bool := above fl

/-- JA (R298). -/
def execJa (d : Byte) (s : State) : Outcome := jumpIf (.ja d) (condJa s.cpu.flags) d s

/-- The condition of JS: SF = 1 (R299). -/
def condJs (fl : Word) : Bool := getFlag fl .sf

/-- JS (R299). -/
def execJs (d : Byte) (s : State) : Outcome := jumpIf (.js d) (condJs s.cpu.flags) d s

/-- The condition of JNS: SF = 0 (R300). -/
def condJns (fl : Word) : Bool := !getFlag fl .sf

/-- JNS (R300). -/
def execJns (d : Byte) (s : State) : Outcome := jumpIf (.jns d) (condJns s.cpu.flags) d s

/-- The condition of JP: PF = 1 (R301). -/
def condJp (fl : Word) : Bool := getFlag fl .pf

/-- JP (R301). -/
def execJp (d : Byte) (s : State) : Outcome := jumpIf (.jp d) (condJp s.cpu.flags) d s

/-- The condition of JNP: PF = 0 (R302). -/
def condJnp (fl : Word) : Bool := !getFlag fl .pf

/-- JNP (R302). -/
def execJnp (d : Byte) (s : State) : Outcome := jumpIf (.jnp d) (condJnp s.cpu.flags) d s

/-- The condition of JL: less (R303). -/
def condJl (fl : Word) : Bool := less fl

/-- JL (R303). -/
def execJl (d : Byte) (s : State) : Outcome := jumpIf (.jl d) (condJl s.cpu.flags) d s

/-- The condition of JGE: not less (R304). -/
def condJge (fl : Word) : Bool := !less fl

/-- JGE (R304). -/
def execJge (d : Byte) (s : State) : Outcome := jumpIf (.jge d) (condJge s.cpu.flags) d s

/-- The condition of JLE: less or equal (R305). -/
def condJle (fl : Word) : Bool := lessOrEqual fl

/-- JLE (R305). -/
def execJle (d : Byte) (s : State) : Outcome := jumpIf (.jle d) (condJle s.cpu.flags) d s

/-- The condition of JG: not less or equal (R306). -/
def condJg (fl : Word) : Bool := !lessOrEqual fl

/-- JG (R306). -/
def execJg (d : Byte) (s : State) : Outcome := jumpIf (.jg d) (condJg s.cpu.flags) d s

/-! ## Returns -/

/-- SP releases `n` more bytes (R308, R310). -/
def release (n : Word) (s : State) : State := s.withSp (s.cpu.sp + n)

/-- IP is popped (R307). -/
def nearReturn (s : State) : State :=
  let (t, s1) := pop16 s
  s1.withIp t

/-- IP, then CS, is popped (R309). -/
def farReturn (s : State) : State :=
  let (off, s1) := pop16 s
  let (seg, s2) := pop16 s1
  s2.withCsIp seg off

/-- RET (C3) (R307). -/
def execRet (s : State) : Outcome := done .ret (nearReturn s)

/-- RET imm16 (C2) (R308). -/
def execRetImm (n : Word) (s : State) : Outcome := done (.retImm n) (release n (nearReturn s))

/-- RETF (CB) (R309). -/
def execRetf (s : State) : Outcome := done .retf (farReturn s)

/-- RETF imm16 (CA) (R310). -/
def execRetfImm (n : Word) (s : State) : Outcome := done (.retfImm n) (release n (farReturn s))

/-! ## Loops -/

/-- CX is decremented and the jump is taken when CX is not 0 and `cond` holds (R311 to R313). -/
def loopIf (i : Instr) (cond : Bool) (d : Byte) (s : State) : Outcome :=
  let s1 := s.withCx (s.cpu.cx - 1)
  jumpIf i (decide (s1.cpu.cx ≠ 0) && cond) d s1

/-- LOOP (E2) (R311). -/
def execLoop (d : Byte) (s : State) : Outcome := loopIf (.loop d) true d s

/-- LOOPZ (E1) (R312). -/
def execLoopz (d : Byte) (s : State) : Outcome := loopIf (.loopz d) (getFlag s.cpu.flags .zf) d s

/-- LOOPNZ (E0) (R313). -/
def execLoopnz (d : Byte) (s : State) : Outcome := loopIf (.loopnz d) (!getFlag s.cpu.flags .zf) d s

/-- JCXZ (E3) (R314). -/
def execJcxz (d : Byte) (s : State) : Outcome := jumpIf (.jcxz d) (decide (s.cpu.cx = 0)) d s

/-! ## Software interrupts -/

/-- INT imm8 (CD) (R315). -/
def execInt (v : Byte) (s : State) : Outcome := interrupt v s

/-- INT3 (CC) (R316). -/
def execInt3 (s : State) : Outcome := interrupt 3 s

/-- INTO (CE) (R317). -/
def execInto (s : State) : Outcome :=
  if getFlag s.cpu.flags .of then interrupt 4 s else done .into s

/-- IRET (CF) (R318). -/
def execIret (s : State) : Outcome := done .iret (interruptReturn s)

end Sys2Proof.Machine
end

