-- ==== Sys2Proof/Machine/DataMove.lean ====
section
/-!
DEFINITION. Data-movement instructions (40_data_movement.md R140 to R163).
-/

namespace Sys2Proof.Machine

/-- MOV r/m,reg (88, 89) (R140). -/
def execMovRmReg (w : Width) (m : RM) (r : RegIx) (s : State) : Outcome :=
  done (.movRmReg w m r) (writeOperand w (resolve m s) (getReg s.cpu w r) s)

/-- MOV reg,r/m (8A, 8B) (R140). -/
def execMovRegRm (w : Width) (r : RegIx) (m : RM) (s : State) : Outcome :=
  let (v, s1) := readOperand w (resolve m s) s
  done (.movRegRm w r m) (s1.withReg w r v)

/-- MOV r/m8,imm8 (C6 /0) (R141). -/
def execMovRmImm8 (m : RM) (imm : Byte) (s : State) : Outcome :=
  done (.movRmImm8 m imm) (writeOperand .byte (resolve m s) imm s)

/-- MOV r/m16,imm16 (C7 /0) (R141). -/
def execMovRmImm16 (m : RM) (imm : Word) (s : State) : Outcome :=
  done (.movRmImm16 m imm) (writeOperand .word (resolve m s) imm s)

/-- MOV r8,imm8 (B0+r) (R142). -/
def execMovRegImm8 (r : RegIx) (imm : Byte) (s : State) : Outcome :=
  done (.movRegImm8 r imm) (s.withReg .byte r imm)

/-- MOV r16,imm16 (B8+r) (R142). -/
def execMovRegImm16 (r : RegIx) (imm : Word) (s : State) : Outcome :=
  done (.movRegImm16 r imm) (s.withReg .word r imm)

/-- MOV AL,[moffs] and MOV AX,[moffs] (A0, A1) (R143). -/
def execMovAccMoffs (w : Width) (off : Word) (s : State) : Outcome :=
  let (v, s1) := readW w (segFor .ds s) off s
  done (.movAccMoffs w off) (s1.withReg w 0 v)

/-- MOV [moffs],AL and MOV [moffs],AX (A2, A3) (R143). -/
def execMovMoffsAcc (w : Width) (off : Word) (s : State) : Outcome :=
  done (.movMoffsAcc w off) (writeW w (segFor .ds s) off (getReg s.cpu w 0) s)

/-- MOV r/m16,Sreg (8C) (R144). -/
def execMovRmSreg (m : RM) (sr : Sreg) (s : State) : Outcome :=
  done (.movRmSreg m sr) (writeOperand .word (resolve m s) (getSreg s.cpu sr) s)

/-- MOV Sreg,r/m16 (8E); a load of CS raises DecodeError (R109, R144). -/
def execMovSregRm (sr : Sreg) (m : RM) (s : State) : Outcome :=
  if sr = .cs then raiseDecodeError 0x8E none s
  else
    let (v, s1) := readOperand .word (resolve m s) s
    done (.movSregRm sr m) (s1.withSreg sr v)

/-- PUSH of a register, SP being pushed as its decremented value (R145). -/
def pushRegister (r : Reg16) (s : State) : State :=
  if r = .sp then pushSp s else push16 (getReg16 s.cpu r) s

/-- PUSH r16 (50+r) (R145). -/
def execPushReg (r : RegIx) (s : State) : Outcome :=
  done (.pushReg r) (pushRegister (Reg16.ofIx r) s)

/-- PUSH r/m16 (FF /6) (R146). -/
def execPushRm (m : RM) (s : State) : Outcome :=
  if m = .reg 4 then done (.pushRm m) (pushSp s)
  else
    let (v, s1) := readOperand .word (resolve m s) s
    done (.pushRm m) (push16 v s1)

/-- PUSH Sreg (06, 0E, 16, 1E) (R147). -/
def execPushSreg (sr : Sreg) (s : State) : Outcome :=
  done (.pushSreg sr) (push16 (getSreg s.cpu sr) s)

/-- POP r16 (58+r) (R148). -/
def execPopReg (r : RegIx) (s : State) : Outcome :=
  let (v, s1) := pop16 s
  done (.popReg r) (s1.withReg .word r v)

/-- POP r/m16 (8F /0); the operand is resolved before the pop (R149). -/
def execPopRm (m : RM) (s : State) : Outcome :=
  let o := resolve m s
  let (v, s1) := pop16 s
  done (.popRm m) (writeOperand .word o v s1)

/-- POP Sreg (07, 17, 1F); POP CS is absent and raises DecodeError (R106, R150). -/
def execPopSreg (sr : Sreg) (s : State) : Outcome :=
  if sr = .cs then raiseDecodeError 0x0F none s
  else
    let (v, s1) := pop16 s
    done (.popSreg sr) (s1.withSreg sr v)

/-- XCHG r/m,reg (86, 87) (R151). -/
def execXchgRmReg (w : Width) (m : RM) (r : RegIx) (s : State) : Outcome :=
  let o := resolve m s
  let (a, s1) := readOperand w o s
  let b := getReg s1.cpu w r
  done (.xchgRmReg w m r) ((writeOperand w o b s1).withReg w r a)

/-- XCHG AX,r16 (91 to 97) (R152). -/
def execXchgAxReg (r : RegIx) (s : State) : Outcome :=
  let t := s.cpu.ax
  let s1 := s.withReg .word 0 (getReg s.cpu .word r)
  done (.xchgAxReg r) (s1.withReg .word r t)

/-- NOP (90) (R153). -/
def execNop (s : State) : Outcome := done .nop s

/-- XLAT (D7) (R154). -/
def execXlat (s : State) : Outcome :=
  let off := s.cpu.bx + zext16 (getReg8 s.cpu .al)
  let (v, s1) := read8 (segFor .ds s) off s
  done .xlat (s1.withReg .byte 0 v)

/-- IN of width `w` from port `p` (R155). -/
def inFrom (i : Instr) (w : Width) (p : Word) (s : State) : Outcome :=
  match portInW w p s with
  | .error e => .fault e
  | .ok (v, s1) => done i (s1.withReg w 0 v)

/-- IN AL,imm8 and IN AX,imm8 (E4, E5) (R155). -/
def execInImm (w : Width) (port : Byte) (s : State) : Outcome := inFrom (.inImm w port) w (zext16 port) s

/-- IN AL,DX and IN AX,DX (EC, ED) (R155). -/
def execInDx (w : Width) (s : State) : Outcome := inFrom (.inDx w) w s.cpu.dx s

/-- OUT of width `w` to port `p` (R156). -/
def outTo (i : Instr) (w : Width) (p : Word) (s : State) : Outcome :=
  match portOutW w p (getReg s.cpu w 0) s with
  | .error e => .fault e
  | .ok s1 => done i s1

/-- OUT imm8,AL and OUT imm8,AX (E6, E7) (R156). -/
def execOutImm (w : Width) (port : Byte) (s : State) : Outcome := outTo (.outImm w port) w (zext16 port) s

/-- OUT DX,AL and OUT DX,AX (EE, EF) (R156). -/
def execOutDx (w : Width) (s : State) : Outcome := outTo (.outDx w) w s.cpu.dx s

/-- LEA reg16,mem (8D); mod = 3 raises DecodeError (R108, R157). -/
def execLea (r : RegIx) (m : RM) (s : State) : Outcome :=
  if m.isMem then done (.lea r m) (s.withReg .word r (effOffset s.cpu m))
  else raiseDecodeError 0x8D none s

/-- LDS reg16,mem (C5); mod = 3 raises DecodeError (R108, R158). -/
def execLds (r : RegIx) (m : RM) (s : State) : Outcome :=
  if m.isMem then
    let (o, g, s1) := readFar m s
    done (.lds r m) ((s1.withReg .word r o).withSreg .ds g)
  else raiseDecodeError 0xC5 none s

/-- LES reg16,mem (C4); mod = 3 raises DecodeError (R108, R159). -/
def execLes (r : RegIx) (m : RM) (s : State) : Outcome :=
  if m.isMem then
    let (o, g, s1) := readFar m s
    done (.les r m) ((s1.withReg .word r o).withSreg .es g)
  else raiseDecodeError 0xC4 none s

/-- LAHF (9F) (R160). -/
def execLahf (s : State) : Outcome := done .lahf (s.withReg .byte 4 (lowByte s.cpu.flags))

/-- SAHF (9E) (R161). -/
def execSahf (s : State) : Outcome :=
  done .sahf (s.withFlags (loadLowFlags (getReg8 s.cpu .ah) s.cpu.flags))

/-- PUSHF (9C) (R162). -/
def execPushf (s : State) : Outcome := done .pushf (push16 s.cpu.flags s)

/-- POPF (9D) (R163). -/
def execPopf (s : State) : Outcome :=
  let (v, s1) := pop16 s
  done .popf (s1.withFlags (wordToFlags s1.params v))

end Sys2Proof.Machine
end

