-- ==== Sys2Proof/Machine/FlagControl.lean ====
section
/-!
DEFINITION. Flag-control instructions (45_flag_control.md R330 to R336).
-/

namespace Sys2Proof.Machine

/-- One flag is written and nothing else. -/
def State.putFlag (s : State) (f : Flag) (b : Bool) : State :=
  s.withFlags (Sys2Proof.Machine.putFlag s.cpu.flags f b)

/-- CLC (R330). -/
def execClc (s : State) : Outcome := done .clc (s.putFlag .cf false)

/-- STC (R331). -/
def execStc (s : State) : Outcome := done .stc (s.putFlag .cf true)

/-- CMC (R332). -/
def execCmc (s : State) : Outcome := done .cmc (s.putFlag .cf (!getFlag s.cpu.flags .cf))

/-- CLD (R333). -/
def execCld (s : State) : Outcome := done .cld (s.putFlag .df false)

/-- STD (R334). -/
def execStd (s : State) : Outcome := done .std (s.putFlag .df true)

/-- CLI (R335). -/
def execCli (s : State) : Outcome := done .cli (s.putFlag .intf false)

/-- STI (R336). -/
def execSti (s : State) : Outcome := done .sti (s.putFlag .intf true)

end Sys2Proof.Machine
end

