-- ==== Sys2Proof/Machine/Arith.lean ====
section
/-!
DEFINITION. Arithmetic instructions (41_arithmetic.md R180 to R197).
-/

namespace Sys2Proof.Machine

/-- The common operation of the two-operand forms (R180): both operands are read, the flags are written, and
the result goes to the destination unless the operation is CMP. -/
def aluRun (op : AluOp) (f : AluForm) (s : State) : State :=
  let w := aluWidth f
  let dst := aluDst f s
  let (a, s1) := readOperand w dst s
  let (b, s2) := readOperand w (aluSrc f s) s1
  let (r, fl) := aluEval op a b s2.cpu.flags
  let s3 := s2.withFlags fl
  if op = .cmp then s3 else writeOperand w dst r s3

/-- ADD (R181). -/
def execAdd (f : AluForm) (s : State) : Outcome := done (.add f) (aluRun .add f s)

/-- ADC (R182). -/
def execAdc (f : AluForm) (s : State) : Outcome := done (.adc f) (aluRun .adc f s)

/-- SUB (R183). -/
def execSub (f : AluForm) (s : State) : Outcome := done (.sub f) (aluRun .sub f s)

/-- SBB (R184). -/
def execSbb (f : AluForm) (s : State) : Outcome := done (.sbb f) (aluRun .sbb f s)

/-- CMP (R185). -/
def execCmp (f : AluForm) (s : State) : Outcome := done (.cmp f) (aluRun .cmp f s)

/-- The frame of INC, DEC, NEG and NOT: the operand is read once, `f` gives the result and the flags word,
and the operand is written. -/
def unaryRun (w : Width) (o : Operand) (f : BitVec w.bits → Word → BitVec w.bits × Word) (s : State) :
    State :=
  let (a, s1) := readOperand w o s
  let (r, fl) := f a s1.cpu.flags
  writeOperand w o r (s1.withFlags fl)

/-- INC r16 (40+r) (R186). -/
def execIncReg (r : RegIx) (s : State) : Outcome := done (.incReg r) (unaryRun .word (.reg r) incEval s)

/-- INC r/m (FE /0, FF /0) (R186). -/
def execIncRm (w : Width) (m : RM) (s : State) : Outcome :=
  done (.incRm w m) (unaryRun w (resolve m s) incEval s)

/-- DEC r16 (48+r) (R187). -/
def execDecReg (r : RegIx) (s : State) : Outcome := done (.decReg r) (unaryRun .word (.reg r) decEval s)

/-- DEC r/m (FE /1, FF /1) (R187). -/
def execDecRm (w : Width) (m : RM) (s : State) : Outcome :=
  done (.decRm w m) (unaryRun w (resolve m s) decEval s)

/-- NEG (F6 /3, F7 /3): 0 - a (R188). -/
def execNeg (w : Width) (m : RM) (s : State) : Outcome :=
  done (.neg w m) (unaryRun w (resolve m s) (fun a fl => subFlags 0 a false fl) s)

/-! ## Multiply -/

/-- The double-width accumulator that a multiply writes and a divide reads: AX, or DX:AX. -/
def putProduct (w : Width) (p : Nat) (c : Cpu) : Cpu :=
  match w with
  | .byte => { c with ax := BitVec.ofNat 16 p }
  | .word => { c with dx := BitVec.ofNat 16 (p / 2 ^ 16), ax := BitVec.ofNat 16 p }

/-- CF and OF of a multiply take one value and SF, ZF and PF are left undefined (U1). -/
def multiplyFlags (upper : Bool) (s : State) : State :=
  drawFlags [.sf, .zf, .pf]
    (s.withFlags (putFlag (putFlag s.cpu.flags .cf upper) .of upper))

/-- MUL (F6 /4, F7 /4) (R189). -/
def execMul (w : Width) (m : RM) (s : State) : Outcome :=
  let (b, s1) := readOperand w (resolve m s) s
  let p := (getReg s1.cpu w 0).toNat * b.toNat
  let hi := p / 2 ^ w.bits
  done (.mul w m) (multiplyFlags (hi != 0) (s1.withCpu (putProduct w p s1.cpu)))

/-- Whether a signed product is the sign extension of its lower half (R190). -/
def fitsSigned (n : Nat) (p : Int) : Bool := decide (-(2 ^ (n - 1)) ≤ p ∧ p ≤ 2 ^ (n - 1) - 1)

/-- IMUL (F6 /5, F7 /5) (R190). -/
def execImul (w : Width) (m : RM) (s : State) : Outcome :=
  let (b, s1) := readOperand w (resolve m s) s
  let p := (getReg s1.cpu w 0).toInt * b.toInt
  done (.imul w m)
    (multiplyFlags (!fitsSigned w.bits p)
      (s1.withCpu (putProduct w (p % 2 ^ (2 * w.bits)).toNat s1.cpu)))

/-! ## Divide -/

/-- The dividend of DIV: AX, or DX:AX (R191). -/
def dividend (w : Width) (c : Cpu) : BitVec (2 * w.bits) :=
  match w with
  | .byte => c.ax
  | .word => c.dx ++ c.ax

/-- The quotient and the remainder of a division are written: AL and AH, or AX and DX (R191, R192). -/
def putQuotient (w : Width) (q r : BitVec w.bits) (c : Cpu) : Cpu :=
  match w, q, r with
  | .byte, q, r => { c with ax := wordOf q r }
  | .word, q, r => { c with ax := q, dx := r }

/-- All five status flags are left undefined (U2). -/
def divideFlags (s : State) : State := drawFlags [.cf, .of, .sf, .zf, .pf] s

/-- The quotient and remainder of DIV, or none where the divide error is taken (R191). -/
def divResult (n : Nat) (num : Nat) (b : BitVec n) : Option (BitVec n × BitVec n) :=
  if b.toNat = 0 then none
  else if num / b.toNat > 2 ^ n - 1 then none
  else some (BitVec.ofNat n (num / b.toNat), BitVec.ofNat n (num % b.toNat))

/-- The quotient and remainder of IDIV, or none where the divide error is taken (R192). -/
def idivResult (n : Nat) (symmetric : Bool) (num : Int) (b : BitVec n) : Option (BitVec n × BitVec n) :=
  let d := b.toInt
  let least : Int := if symmetric then -(2 ^ (n - 1)) + 1 else -(2 ^ (n - 1))
  if d = 0 then none
  else
    let q := num.tdiv d
    let r := num - q * d
    if q > 2 ^ (n - 1) - 1 ∨ q < least then none
    else some (BitVec.ofInt n q, BitVec.ofInt n r)

/-- The end of a division: the divide error is `Interrupt(0)` with the accumulator and flags unchanged
(R191, R192, R361). -/
def divideEnd (i : Instr) (w : Width) (result : Option (BitVec w.bits × BitVec w.bits)) (s : State) :
    Outcome :=
  match result with
  | none => interrupt 0 s
  | some (q, r) => done i (divideFlags (s.withCpu (putQuotient w q r s.cpu)))

/-- DIV (F6 /6, F7 /6) (R191). -/
def execDiv (w : Width) (m : RM) (s : State) : Outcome :=
  let (b, s1) := readOperand w (resolve m s) s
  divideEnd (.div w m) w (divResult w.bits (dividend w s1.cpu).toNat b) s1

/-- IDIV (F6 /7, F7 /7) (R192). -/
def execIdiv (w : Width) (m : RM) (s : State) : Outcome :=
  let (b, s1) := readOperand w (resolve m s) s
  divideEnd (.idiv w m) w
    (idivResult w.bits s1.params.idivSymmetricMin (dividend w s1.cpu).toInt b) s1

/-! ## Sign extension and ASCII adjust -/

/-- CBW (98) (R193). -/
def execCbw (s : State) : Outcome :=
  done .cbw (s.withReg .byte 4 (if (getReg8 s.cpu .al).msb then 0xFF else 0x00))

/-- CWD (99) (R194). -/
def execCwd (s : State) : Outcome :=
  done .cwd (s.withReg .word 2 (if s.cpu.ax.msb then 0xFFFF else 0x0000))

/-- ZF, SF and PF from AL; CF and OF are left undefined (U3) (R195, R196). -/
def adjustFlags (s : State) : State :=
  drawFlags [.cf, .of] (s.withFlags (setSZP (getReg8 s.cpu .al) s.cpu.flags))

/-- AAM (D4 ib); a zero immediate is a divide error (R195). -/
def execAam (imm : Byte) (s : State) : Outcome :=
  let al := (getReg8 s.cpu .al).toNat
  let d := imm.toNat
  if d = 0 then interrupt 0 s
  else
    let s1 := s.withReg .byte 4 (BitVec.ofNat 8 (al / d))
    done (.aam imm) (adjustFlags (s1.withReg .byte 0 (BitVec.ofNat 8 (al % d))))

/-- AAD (D5 ib) (R196). -/
def execAad (imm : Byte) (s : State) : Outcome :=
  let v := (getReg8 s.cpu .al).toNat + (getReg8 s.cpu .ah).toNat * imm.toNat
  let s1 := s.withReg .byte 0 (BitVec.ofNat 8 v)
  done (.aad imm) (adjustFlags (s1.withReg .byte 4 0x00))

end Sys2Proof.Machine
end

