-- ==== Sys2Proof/Machine/Logic.lean ====
section
/-!
DEFINITION. Logic, shift and rotate instructions (42_logic_shift.md R230 to R242).
-/

namespace Sys2Proof.Machine

/-- AND (R230). -/
def execAnd (f : AluForm) (s : State) : Outcome := done (.and f) (aluRun .and f s)

/-- OR (R231). -/
def execOr (f : AluForm) (s : State) : Outcome := done (.or f) (aluRun .or f s)

/-- XOR (R232). -/
def execXor (f : AluForm) (s : State) : Outcome := done (.xor f) (aluRun .xor f s)

/-- TEST: the flags of a AND b and nothing else (R233). -/
def execTest (f : TestForm) (s : State) : Outcome :=
  let w := testWidth f
  let (a, s1) := readOperand w (testFst f s) s
  let (b, s2) := readOperand w (testSnd f) s1
  done (.test f) (s2.withFlags (logicFlags (a &&& b) s2.cpu.flags))

/-- NOT (F6 /2, F7 /2): no flag is written (R234). -/
def execNot (w : Width) (m : RM) (s : State) : Outcome :=
  done (.not w m) (unaryRun w (resolve m s) (fun a fl => (~~~a, fl)) s)

/-- The frame of group 2 (R235): the operand is read, shifted `count` times and written back, also when the
count is 0; OF is a free value when the count is above 1 (U4). -/
def shiftRun (op : ShiftOp) (w : Width) (m : RM) (c : ShiftCount) (s : State) : State :=
  let o := resolve m s
  let count := shiftCount c s
  let (a, s1) := readOperand w o s
  let (free, s2) := if 1 < count then drawBit s1 else (false, s1)
  let (r, fl) := shiftEval op a count free s2.cpu.flags
  writeOperand w o r (s2.withFlags fl)

/-- ROL (R236). -/
def execRol (w : Width) (m : RM) (c : ShiftCount) (s : State) : Outcome :=
  done (.rol w m c) (shiftRun .rol w m c s) (count := shiftCount c s)

/-- ROR (R237). -/
def execRor (w : Width) (m : RM) (c : ShiftCount) (s : State) : Outcome :=
  done (.ror w m c) (shiftRun .ror w m c s) (count := shiftCount c s)

/-- RCL (R238). -/
def execRcl (w : Width) (m : RM) (c : ShiftCount) (s : State) : Outcome :=
  done (.rcl w m c) (shiftRun .rcl w m c s) (count := shiftCount c s)

/-- RCR (R239). -/
def execRcr (w : Width) (m : RM) (c : ShiftCount) (s : State) : Outcome :=
  done (.rcr w m c) (shiftRun .rcr w m c s) (count := shiftCount c s)

/-- SHL (R240). -/
def execShl (w : Width) (m : RM) (c : ShiftCount) (s : State) : Outcome :=
  done (.shl w m c) (shiftRun .shl w m c s) (count := shiftCount c s)

/-- SHR (R241). -/
def execShr (w : Width) (m : RM) (c : ShiftCount) (s : State) : Outcome :=
  done (.shr w m c) (shiftRun .shr w m c s) (count := shiftCount c s)

/-- SAR (R242). -/
def execSar (w : Width) (m : RM) (c : ShiftCount) (s : State) : Outcome :=
  done (.sar w m c) (shiftRun .sar w m c s) (count := shiftCount c s)

end Sys2Proof.Machine
end

