-- ==== Sys2Proof/Machine/Strings.lean ====
section
/-!
DEFINITION. String instructions and the repeat loop (43_string.md R260 to R266).
-/

namespace Sys2Proof.Machine

/-- `delta` (R260). -/
def stringDelta (w : Width) (fl : Word) : Word :=
  let size : Word := match w with
    | .byte => 1
    | .word => 2
  if getFlag fl .df then 0 - size else size

/-- SI is stepped (R260). -/
def stepSi (w : Width) (s : State) : State :=
  s.withCpu { s.cpu with si := s.cpu.si + stringDelta w s.cpu.flags }

/-- DI is stepped (R260). -/
def stepDi (w : Width) (s : State) : State :=
  s.withCpu { s.cpu with di := s.cpu.di + stringDelta w s.cpu.flags }

/-- The iteration of MOVS (R262). -/
def movsIter (w : Width) (s : State) : State :=
  let (v, s1) := readW w (segFor .ds s) s.cpu.si s
  stepDi w (stepSi w (writeW w s1.cpu.es s1.cpu.di v s1))

/-- The iteration of CMPS: source minus destination (R263). -/
def cmpsIter (w : Width) (s : State) : State :=
  let (a, s1) := readW w (segFor .ds s) s.cpu.si s
  let (b, s2) := readW w s1.cpu.es s1.cpu.di s1
  stepDi w (stepSi w (s2.withFlags (subFlags a b false s2.cpu.flags).2))

/-- The iteration of STOS (R264). -/
def stosIter (w : Width) (s : State) : State :=
  stepDi w (writeW w s.cpu.es s.cpu.di (getReg s.cpu w 0) s)

/-- The iteration of LODS (R265). -/
def lodsIter (w : Width) (s : State) : State :=
  let (v, s1) := readW w (segFor .ds s) s.cpu.si s
  stepSi w (s1.withReg w 0 v)

/-- The iteration of SCAS: accumulator minus memory (R266). -/
def scasIter (w : Width) (s : State) : State :=
  let (b, s1) := readW w s.cpu.es s.cpu.di s
  stepDi w (s1.withFlags (subFlags (getReg s1.cpu w 0) b false s1.cpu.flags).2)

/-- The repeat loop (R261), `n` being CX: the state at the end and the number of iterations made.
`untilNe` holds for CMPS and SCAS, whose loop ends when an iteration leaves ZF = 0. -/
def repeatLoop (iter : State → State) (untilNe : Bool) : Nat → State → State × Nat
  | 0, s => (s, 0)
  | n + 1, s =>
    let s1 := iter s
    let s2 := s1.withCx (s1.cpu.cx - 1)
    if untilNe && !getFlag s2.cpu.flags .zf then (s2, 1)
    else
      let (t, k) := repeatLoop iter untilNe n s2
      (t, k + 1)

/-- One iteration, or the loop under the repeat prefix, with the number of iterations made (R261). -/
def stringRun (iter : State → State) (untilNe : Bool) (s : State) : State × Nat :=
  if s.repeatState then repeatLoop iter untilNe s.cpu.cx.toNat s else (iter s, 1)

/-- A string instruction ends; its cost is a function of the number of iterations (R261, R400). -/
def stringDone (i : Instr) (iter : State → State) (untilNe : Bool) (s : State) : Outcome :=
  let (t, k) := stringRun iter untilNe s
  done i t s.repeatState k

/-- MOVSB (A4) (R262). -/
def execMovsb (s : State) : Outcome := stringDone .movsb (movsIter .byte) false s

/-- MOVSW (A5) (R262). -/
def execMovsw (s : State) : Outcome := stringDone .movsw (movsIter .word) false s

/-- CMPSB (A6) (R263). -/
def execCmpsb (s : State) : Outcome := stringDone .cmpsb (cmpsIter .byte) true s

/-- CMPSW (A7) (R263). -/
def execCmpsw (s : State) : Outcome := stringDone .cmpsw (cmpsIter .word) true s

/-- STOSB (AA) (R264). -/
def execStosb (s : State) : Outcome := stringDone .stosb (stosIter .byte) false s

/-- STOSW (AB) (R264). -/
def execStosw (s : State) : Outcome := stringDone .stosw (stosIter .word) false s

/-- LODSB (AC) (R265). -/
def execLodsb (s : State) : Outcome := stringDone .lodsb (lodsIter .byte) false s

/-- LODSW (AD) (R265). -/
def execLodsw (s : State) : Outcome := stringDone .lodsw (lodsIter .word) false s

/-- SCASB (AE) (R266). -/
def execScasb (s : State) : Outcome := stringDone .scasb (scasIter .byte) true s

/-- SCASW (AF) (R266). -/
def execScasw (s : State) : Outcome := stringDone .scasw (scasIter .word) true s

end Sys2Proof.Machine
end

