-- ==== Sys2Proof/Machine/Dispatch.lean ====
section
/-!
DEFINITION. `exec`: one arm per instruction, each a call of its meaning.
-/

namespace Sys2Proof.Machine

-- IP is already past the instruction, as R14 says; the prefix state is set and is cleared by the step.
def exec (i : Instr) (s : State) : Host.Outcome State Fault Refusal :=
  match i with
  -- prefixes (R92)
  | .segEs => Sys2Proof.Machine.execSegEs s
  | .segCs => Sys2Proof.Machine.execSegCs s
  | .segSs => Sys2Proof.Machine.execSegSs s
  | .segDs => Sys2Proof.Machine.execSegDs s
  | .rep => Sys2Proof.Machine.execRep s
  -- data movement (R140 to R163)
  | .movRmReg w m r => Sys2Proof.Machine.execMovRmReg w m r s
  | .movRegRm w r m => Sys2Proof.Machine.execMovRegRm w r m s
  | .movRmImm8 m imm => Sys2Proof.Machine.execMovRmImm8 m imm s
  | .movRmImm16 m imm => Sys2Proof.Machine.execMovRmImm16 m imm s
  | .movRegImm8 r imm => Sys2Proof.Machine.execMovRegImm8 r imm s
  | .movRegImm16 r imm => Sys2Proof.Machine.execMovRegImm16 r imm s
  | .movAccMoffs w off => Sys2Proof.Machine.execMovAccMoffs w off s
  | .movMoffsAcc w off => Sys2Proof.Machine.execMovMoffsAcc w off s
  | .movRmSreg m sr => Sys2Proof.Machine.execMovRmSreg m sr s
  | .movSregRm sr m => Sys2Proof.Machine.execMovSregRm sr m s
  | .pushReg r => Sys2Proof.Machine.execPushReg r s
  | .pushRm m => Sys2Proof.Machine.execPushRm m s
  | .pushSreg sr => Sys2Proof.Machine.execPushSreg sr s
  | .popReg r => Sys2Proof.Machine.execPopReg r s
  | .popRm m => Sys2Proof.Machine.execPopRm m s
  | .popSreg sr => Sys2Proof.Machine.execPopSreg sr s
  | .xchgRmReg w m r => Sys2Proof.Machine.execXchgRmReg w m r s
  | .xchgAxReg r => Sys2Proof.Machine.execXchgAxReg r s
  | .nop => Sys2Proof.Machine.execNop s
  | .xlat => Sys2Proof.Machine.execXlat s
  | .inImm w port => Sys2Proof.Machine.execInImm w port s
  | .inDx w => Sys2Proof.Machine.execInDx w s
  | .outImm w port => Sys2Proof.Machine.execOutImm w port s
  | .outDx w => Sys2Proof.Machine.execOutDx w s
  | .lea r m => Sys2Proof.Machine.execLea r m s
  | .lds r m => Sys2Proof.Machine.execLds r m s
  | .les r m => Sys2Proof.Machine.execLes r m s
  | .lahf => Sys2Proof.Machine.execLahf s
  | .sahf => Sys2Proof.Machine.execSahf s
  | .pushf => Sys2Proof.Machine.execPushf s
  | .popf => Sys2Proof.Machine.execPopf s
  -- arithmetic (R180 to R197)
  | .add f => Sys2Proof.Machine.execAdd f s
  | .adc f => Sys2Proof.Machine.execAdc f s
  | .sub f => Sys2Proof.Machine.execSub f s
  | .sbb f => Sys2Proof.Machine.execSbb f s
  | .cmp f => Sys2Proof.Machine.execCmp f s
  | .incReg r => Sys2Proof.Machine.execIncReg r s
  | .incRm w m => Sys2Proof.Machine.execIncRm w m s
  | .decReg r => Sys2Proof.Machine.execDecReg r s
  | .decRm w m => Sys2Proof.Machine.execDecRm w m s
  | .neg w m => Sys2Proof.Machine.execNeg w m s
  | .mul w m => Sys2Proof.Machine.execMul w m s
  | .imul w m => Sys2Proof.Machine.execImul w m s
  | .div w m => Sys2Proof.Machine.execDiv w m s
  | .idiv w m => Sys2Proof.Machine.execIdiv w m s
  | .cbw => Sys2Proof.Machine.execCbw s
  | .cwd => Sys2Proof.Machine.execCwd s
  | .aam imm => Sys2Proof.Machine.execAam imm s
  | .aad imm => Sys2Proof.Machine.execAad imm s
  -- logic, shifts and rotates (R230 to R242)
  | .and f => Sys2Proof.Machine.execAnd f s
  | .or f => Sys2Proof.Machine.execOr f s
  | .xor f => Sys2Proof.Machine.execXor f s
  | .test f => Sys2Proof.Machine.execTest f s
  | .not w m => Sys2Proof.Machine.execNot w m s
  | .rol w m c => Sys2Proof.Machine.execRol w m c s
  | .ror w m c => Sys2Proof.Machine.execRor w m c s
  | .rcl w m c => Sys2Proof.Machine.execRcl w m c s
  | .rcr w m c => Sys2Proof.Machine.execRcr w m c s
  | .shl w m c => Sys2Proof.Machine.execShl w m c s
  | .shr w m c => Sys2Proof.Machine.execShr w m c s
  | .sar w m c => Sys2Proof.Machine.execSar w m c s
  -- strings (R260 to R266)
  | .movsb => Sys2Proof.Machine.execMovsb s
  | .movsw => Sys2Proof.Machine.execMovsw s
  | .cmpsb => Sys2Proof.Machine.execCmpsb s
  | .cmpsw => Sys2Proof.Machine.execCmpsw s
  | .stosb => Sys2Proof.Machine.execStosb s
  | .stosw => Sys2Proof.Machine.execStosw s
  | .lodsb => Sys2Proof.Machine.execLodsb s
  | .lodsw => Sys2Proof.Machine.execLodsw s
  | .scasb => Sys2Proof.Machine.execScasb s
  | .scasw => Sys2Proof.Machine.execScasw s
  -- control transfer (R280 to R318)
  | .jmpRel8 d => Sys2Proof.Machine.execJmpRel8 d s
  | .jmpRel16 d => Sys2Proof.Machine.execJmpRel16 d s
  | .jmpFar off seg => Sys2Proof.Machine.execJmpFar off seg s
  | .jmpRm m => Sys2Proof.Machine.execJmpRm m s
  | .jmpFarRm m => Sys2Proof.Machine.execJmpFarRm m s
  | .callRel16 d => Sys2Proof.Machine.execCallRel16 d s
  | .callFar off seg => Sys2Proof.Machine.execCallFar off seg s
  | .callRm m => Sys2Proof.Machine.execCallRm m s
  | .callFarRm m => Sys2Proof.Machine.execCallFarRm m s
  | .jo d => Sys2Proof.Machine.execJo d s
  | .jno d => Sys2Proof.Machine.execJno d s
  | .jb d => Sys2Proof.Machine.execJb d s
  | .jae d => Sys2Proof.Machine.execJae d s
  | .je d => Sys2Proof.Machine.execJe d s
  | .jne d => Sys2Proof.Machine.execJne d s
  | .jbe d => Sys2Proof.Machine.execJbe d s
  | .ja d => Sys2Proof.Machine.execJa d s
  | .js d => Sys2Proof.Machine.execJs d s
  | .jns d => Sys2Proof.Machine.execJns d s
  | .jp d => Sys2Proof.Machine.execJp d s
  | .jnp d => Sys2Proof.Machine.execJnp d s
  | .jl d => Sys2Proof.Machine.execJl d s
  | .jge d => Sys2Proof.Machine.execJge d s
  | .jle d => Sys2Proof.Machine.execJle d s
  | .jg d => Sys2Proof.Machine.execJg d s
  | .ret => Sys2Proof.Machine.execRet s
  | .retImm n => Sys2Proof.Machine.execRetImm n s
  | .retf => Sys2Proof.Machine.execRetf s
  | .retfImm n => Sys2Proof.Machine.execRetfImm n s
  | .loop d => Sys2Proof.Machine.execLoop d s
  | .loopz d => Sys2Proof.Machine.execLoopz d s
  | .loopnz d => Sys2Proof.Machine.execLoopnz d s
  | .jcxz d => Sys2Proof.Machine.execJcxz d s
  | .int v => Sys2Proof.Machine.execInt v s
  | .int3 => Sys2Proof.Machine.execInt3 s
  | .into => Sys2Proof.Machine.execInto s
  | .iret => Sys2Proof.Machine.execIret s
  -- flag control (R330 to R336)
  | .clc => Sys2Proof.Machine.execClc s
  | .stc => Sys2Proof.Machine.execStc s
  | .cmc => Sys2Proof.Machine.execCmc s
  | .cld => Sys2Proof.Machine.execCld s
  | .std => Sys2Proof.Machine.execStd s
  | .cli => Sys2Proof.Machine.execCli s
  | .sti => Sys2Proof.Machine.execSti s
  -- absent rows of the table (R106, R107)
  | .absentOpcode op => Sys2Proof.Machine.execAbsentOpcode op s
  | .absentSlot op _ reg => Sys2Proof.Machine.execAbsentSlot op reg s

end Sys2Proof.Machine
end

