-- ==== Sys2Proof/Machine/Run.lean ====
section
/-!
DEFINITION. One step: the prefix loop, fetch, dispatch and the end of an instruction (30_encoding.md R91 to
R94, R106, R110; 70_reset_and_hazards.md R393, R397), and placing an instruction at CS:IP.
-/

namespace Sys2Proof.Machine

/-- The decode-time state when a handler has returned (R94). -/
def endStep (t : State) : State := { t with segOverride := none, repeatState := false }

/-- The prefix loop and the dispatch of R91. Each turn fetches at CS:IP until it has an instruction, and either
takes a prefix and turns again or runs the handler; a byte or form outside `DISPATCH` raises DecodeError
(R106, R110). The first argument bounds the number of turns: a segment of prefix bytes alone never leaves the
loop (R397, log entry 12). -/
def runLoop : Nat → State → Outcome
  | 0, _ => .fault .prefixLoop
  | n + 1, s =>
    match fetchInstr s with
    | (.ok i _, u) =>
      match exec i u with
      | .next t => if i.isPrefix then runLoop n t else .next (endStep t)
      | .fault e => .fault e
      | .refused r => .refused r
    | (.refusedForm op slot _, u) => raiseDecodeError op slot u
    | (.truncated, u) => raiseDecodeError 0x00 none u

/-- The turns the prefix loop may take: one for each offset of the code segment (R397). -/
def prefixBound : Nat := 65536

/-- `runInstruction` on a core that may run (R393). -/
def runStep (s : State) : Outcome :=
  match s.status with
  | .running => runLoop prefixBound { s with calls := [] }
  | .error _ | .shutDown => .refused .notRunning

/-- Bytes are put into memory at successive offsets of a segment, as a host loads a program (R83). -/
def loadCode (seg : Word) : List Byte → Word → List Host.Cell → List Host.Cell
  | [], _, m => m
  | b :: bs, off, m => loadCode seg bs (off + 1) (Memory.write m (phys seg off).toNat b)

/-- The windows that are not a device's. -/
def romOnly (l : List Window) : List Window := l.filter (fun w => w.kind == .rom)

/-- The bytes of a table word, followed by zeros up to the longest instruction (R90: six bytes). -/
def placedBytes (nbits w : Nat) : List Byte := (tableBytes nbits w ++ List.replicate 6 0x00).take 6

end Sys2Proof.Machine
end

