-- ==== Sys2Proof/Machine/Step.lean ====
section
/-!
DEFINITION. The step of the machine (30_encoding.md R91), and the state in which a table word stands where
the next step fetches.
-/

namespace Sys2Proof.Machine

/-- One call of `runInstruction` (R91, R393). -/
def step (s : State) : Host.Outcome State Fault Refusal := runStep s

/-- The state with an instruction of the opcode table stored at CS:IP: the host has loaded it into memory, the
bus is attached, no device answers in the place of memory, and no error stands (log entry 20). -/
def State.withFetchWord (s : State) (nbits w : Nat) : State :=
  { s with
    bus := { s.bus with
             attached := true
             mem := loadCode s.cpu.cs (placedBytes nbits w) s.cpu.ip s.bus.mem
             devices := { s.bus.devices with windows := romOnly s.bus.devices.windows } }
    status := .running }

end Sys2Proof.Machine
end

