-- ==== Sys2Proof/Machine/Disasm.lean ====
section
/-!
DEFINITION. The disassembler, a pure twin of the decode loop over the same `decodeStream`
(46_disassembler.md R340 to R351).
-/

namespace Sys2Proof.Machine

/-! ## Text of the parts -/

/-- One hexadecimal digit, upper case (R344). -/
def hexDigit (n : Nat) : String :=
  match n with
  | 0 => "0" | 1 => "1" | 2 => "2" | 3 => "3" | 4 => "4" | 5 => "5" | 6 => "6" | 7 => "7"
  | 8 => "8" | 9 => "9" | 10 => "A" | 11 => "B" | 12 => "C" | 13 => "D" | 14 => "E" | _ => "F"

/-- `0x` and two digits (R344). -/
def hex2 (b : Byte) : String := "0x" ++ hexDigit (b.toNat / 16) ++ hexDigit (b.toNat % 16)

/-- `0x` and four digits (R344). -/
def hex4 (v : Word) : String :=
  "0x" ++ hexDigit (v.toNat / 4096) ++ hexDigit (v.toNat / 256 % 16) ++ hexDigit (v.toNat / 16 % 16) ++
    hexDigit (v.toNat % 16)

def Reg16.name : Reg16 → String
  | .ax => "AX" | .cx => "CX" | .dx => "DX" | .bx => "BX"
  | .sp => "SP" | .bp => "BP" | .si => "SI" | .di => "DI"

def Reg8.name : Reg8 → String
  | .al => "AL" | .cl => "CL" | .dl => "DL" | .bl => "BL"
  | .ah => "AH" | .ch => "CH" | .dh => "DH" | .bh => "BH"

def Sreg.name : Sreg → String
  | .es => "ES" | .cs => "CS" | .ss => "SS" | .ds => "DS"

/-- The name of `Reg_w[i]`. -/
def regName (w : Width) (i : RegIx) : String :=
  match w with
  | .byte => Reg8.name (Reg8.ofIx i)
  | .word => Reg16.name (Reg16.ofIx i)

/-- The registers of a row of R97, joined with a plus sign. -/
def Base.name : Base → String
  | .bxSi => "BX+SI" | .bxDi => "BX+DI" | .bpSi => "BP+SI" | .bpDi => "BP+DI"
  | .si => "SI" | .di => "DI" | .bp => "BP" | .bx => "BX"

/-- The override inside a bracket (R344). -/
def overrideText : Option Sreg → String
  | none => ""
  | some sr => Sreg.name sr ++ ":"

/-- A direct address in brackets (R344). -/
def directText (o : Option Sreg) (off : Word) : String := "[" ++ overrideText o ++ hex4 off ++ "]"

/-- An r/m operand: a register's name, or the address in brackets (R344, R348). -/
def rmText (o : Option Sreg) (w : Width) : RM → String
  | .reg i => regName w i
  | .direct off => directText o off
  | .base b => "[" ++ overrideText o ++ Base.name b ++ "]"
  | .disp8 b d =>
    "[" ++ overrideText o ++ Base.name b ++ (if d.msb then "-" ++ hex2 (-d) else "+" ++ hex2 d) ++ "]"
  | .disp16 b d => "[" ++ overrideText o ++ Base.name b ++ "+" ++ hex4 d ++ "]"

/-- An r/m operand with its width before the bracket, where no register operand fixes it (R344). -/
def sizedText (o : Option Sreg) (w : Width) (m : RM) : String :=
  if m.isMem then
    (match w with
     | .byte => "BYTE "
     | .word => "WORD ") ++ rmText o w m
  else rmText o w m

/-- Two operands, destination first (R344). -/
def two (name a b : String) : String := name ++ " " ++ a ++ ", " ++ b

/-- One operand. -/
def one (name a : String) : String := name ++ " " ++ a

/-- A far pointer (R344). -/
def farText (off seg : Word) : String := hex4 seg ++ ":" ++ hex4 off

/-- The text of an ALU form (R344, R347). -/
def aluText (name : String) (o : Option Sreg) : AluForm → String
  | .rmReg w m r => two name (rmText o w m) (regName w r)
  | .regRm w r m => two name (regName w r) (rmText o w m)
  | .accImm8 i => two name "AL" (hex2 i)
  | .accImm16 i => two name "AX" (hex4 i)
  | .rmImm8 m i | .rmImm8Dup m i => two name (sizedText o .byte m) (hex2 i)
  | .rmImm16 m i => two name (sizedText o .word m) (hex4 i)
  | .rmSimm8 m i => two name (sizedText o .word m) (hex4 (sext16 i))

/-- The text of TEST (R344, R347). -/
def testText (o : Option Sreg) : TestForm → String
  | .rmReg w m r => two "TEST" (rmText o w m) (regName w r)
  | .accImm8 i => two "TEST" "AL" (hex2 i)
  | .accImm16 i => two "TEST" "AX" (hex4 i)
  | .rmImm8 m i => two "TEST" (sizedText o .byte m) (hex2 i)
  | .rmImm16 m i => two "TEST" (sizedText o .word m) (hex4 i)

/-- The text of a shift or rotate (R344). -/
def shiftText (name : String) (o : Option Sreg) (w : Width) (m : RM) (c : ShiftCount) : String :=
  two name (sizedText o w m)
    (match c with
     | .one => "1"
     | .cl => "CL")

/-- What is printed for bytes outside the dispatch table (R349). -/
def unknownText (op : Byte) : String := "??? " ++ hex2 op

/-- The text of an instruction (R344, R346, R347). `o` is the override printed in a bracket and `next` the
offset of the byte after the instruction, from which a relative target is counted. -/
def instrText (o : Option Sreg) (next : Word) (i : Instr) : String :=
  match i with
  | .segEs => "ES:"
  | .segCs => "CS:"
  | .segSs => "SS:"
  | .segDs => "DS:"
  | .rep => "REP"
  | .movRmReg w m r => two "MOV" (rmText o w m) (regName w r)
  | .movRegRm w r m => two "MOV" (regName w r) (rmText o w m)
  | .movRmImm8 m i => two "MOV" (sizedText o .byte m) (hex2 i)
  | .movRmImm16 m i => two "MOV" (sizedText o .word m) (hex4 i)
  | .movRegImm8 r i => two "MOV" (regName .byte r) (hex2 i)
  | .movRegImm16 r i => two "MOV" (regName .word r) (hex4 i)
  | .movAccMoffs w off => two "MOV" (regName w 0) (directText o off)
  | .movMoffsAcc w off => two "MOV" (directText o off) (regName w 0)
  | .movRmSreg m sr => two "MOV" (rmText o .word m) (Sreg.name sr)
  | .movSregRm sr m => two "MOV" (Sreg.name sr) (rmText o .word m)
  | .pushReg r => one "PUSH" (regName .word r)
  | .pushRm m => one "PUSH" (sizedText o .word m)
  | .pushSreg sr => one "PUSH" (Sreg.name sr)
  | .popReg r => one "POP" (regName .word r)
  | .popRm m => one "POP" (sizedText o .word m)
  | .popSreg sr => one "POP" (Sreg.name sr)
  | .xchgRmReg w m r => two "XCHG" (rmText o w m) (regName w r)
  | .xchgAxReg r => two "XCHG" "AX" (regName .word r)
  | .nop => "NOP"
  | .xlat => "XLAT"
  | .inImm w p => two "IN" (regName w 0) (hex2 p)
  | .inDx w => two "IN" (regName w 0) "DX"
  | .outImm w p => two "OUT" (hex2 p) (regName w 0)
  | .outDx w => two "OUT" "DX" (regName w 0)
  | .lea r m => two "LEA" (regName .word r) (rmText o .word m)
  | .lds r m => two "LDS" (regName .word r) (rmText o .word m)
  | .les r m => two "LES" (regName .word r) (rmText o .word m)
  | .lahf => "LAHF"
  | .sahf => "SAHF"
  | .pushf => "PUSHF"
  | .popf => "POPF"
  | .add f => aluText "ADD" o f
  | .adc f => aluText "ADC" o f
  | .sub f => aluText "SUB" o f
  | .sbb f => aluText "SBB" o f
  | .cmp f => aluText "CMP" o f
  | .incReg r => one "INC" (regName .word r)
  | .incRm w m => one "INC" (sizedText o w m)
  | .decReg r => one "DEC" (regName .word r)
  | .decRm w m => one "DEC" (sizedText o w m)
  | .neg w m => one "NEG" (sizedText o w m)
  | .mul w m => one "MUL" (sizedText o w m)
  | .imul w m => one "IMUL" (sizedText o w m)
  | .div w m => one "DIV" (sizedText o w m)
  | .idiv w m => one "IDIV" (sizedText o w m)
  | .cbw => "CBW"
  | .cwd => "CWD"
  | .aam i => one "AAM" (hex2 i)
  | .aad i => one "AAD" (hex2 i)
  | .and f => aluText "AND" o f
  | .or f => aluText "OR" o f
  | .xor f => aluText "XOR" o f
  | .test f => testText o f
  | .not w m => one "NOT" (sizedText o w m)
  | .rol w m c => shiftText "ROL" o w m c
  | .ror w m c => shiftText "ROR" o w m c
  | .rcl w m c => shiftText "RCL" o w m c
  | .rcr w m c => shiftText "RCR" o w m c
  | .shl w m c => shiftText "SHL" o w m c
  | .shr w m c => shiftText "SHR" o w m c
  | .sar w m c => shiftText "SAR" o w m c
  | .movsb => "MOVSB"
  | .movsw => "MOVSW"
  | .cmpsb => "CMPSB"
  | .cmpsw => "CMPSW"
  | .stosb => "STOSB"
  | .stosw => "STOSW"
  | .lodsb => "LODSB"
  | .lodsw => "LODSW"
  | .scasb => "SCASB"
  | .scasw => "SCASW"
  | .jmpRel8 d => one "JMP" (hex4 (next + sext16 d))
  | .jmpRel16 d => one "JMP" (hex4 (next + d))
  | .jmpFar off seg => one "JMP" (farText off seg)
  | .jmpRm m => one "JMP" (rmText o .word m)
  | .jmpFarRm m => one "JMP FAR" (rmText o .word m)
  | .callRel16 d => one "CALL" (hex4 (next + d))
  | .callFar off seg => one "CALL" (farText off seg)
  | .callRm m => one "CALL" (rmText o .word m)
  | .callFarRm m => one "CALL FAR" (rmText o .word m)
  | .jo d => one "JO" (hex4 (next + sext16 d))
  | .jno d => one "JNO" (hex4 (next + sext16 d))
  | .jb d => one "JB" (hex4 (next + sext16 d))
  | .jae d => one "JAE" (hex4 (next + sext16 d))
  | .je d => one "JE" (hex4 (next + sext16 d))
  | .jne d => one "JNE" (hex4 (next + sext16 d))
  | .jbe d => one "JBE" (hex4 (next + sext16 d))
  | .ja d => one "JA" (hex4 (next + sext16 d))
  | .js d => one "JS" (hex4 (next + sext16 d))
  | .jns d => one "JNS" (hex4 (next + sext16 d))
  | .jp d => one "JP" (hex4 (next + sext16 d))
  | .jnp d => one "JNP" (hex4 (next + sext16 d))
  | .jl d => one "JL" (hex4 (next + sext16 d))
  | .jge d => one "JGE" (hex4 (next + sext16 d))
  | .jle d => one "JLE" (hex4 (next + sext16 d))
  | .jg d => one "JG" (hex4 (next + sext16 d))
  | .ret => "RET"
  | .retImm n => one "RET" (hex4 n)
  | .retf => "RETF"
  | .retfImm n => one "RETF" (hex4 n)
  | .loop d => one "LOOP" (hex4 (next + sext16 d))
  | .loopz d => one "LOOPZ" (hex4 (next + sext16 d))
  | .loopnz d => one "LOOPNZ" (hex4 (next + sext16 d))
  | .jcxz d => one "JCXZ" (hex4 (next + sext16 d))
  | .int v => one "INT" (hex2 v)
  | .int3 => "INT3"
  | .into => "INTO"
  | .iret => "IRET"
  | .clc => "CLC"
  | .stc => "STC"
  | .cmc => "CMC"
  | .cld => "CLD"
  | .std => "STD"
  | .cli => "CLI"
  | .sti => "STI"
  | .absentOpcode op => unknownText op
  | .absentSlot op _ _ => unknownText op

/-- Whether the text has a bracketed operand, in which an override is printed (R345). -/
def hasBracket (i : Instr) : Bool :=
  match i with
  | .movAccMoffs _ _ | .movMoffsAcc _ _ => true
  | _ => i.memOperand

/-- The words printed before the mnemonic (R345). -/
def leadText (rep : Bool) (o : Option Sreg) (i : Instr) : String :=
  (if rep then "REP " else "") ++
    (match o with
     | some sr => if hasBracket i then "" else Sreg.name sr ++ ": "
     | none => "")

/-! ## The disassembler -/

/-- The rows of R106 and R107: an absent byte or slot. -/
def isAbsentRow : Instr → Bool
  | .absentOpcode _ | .absentSlot _ _ _ => true
  | _ => false

/-- The text of what has been decoded behind the prefixes read, `next` being the offset after it (R344, R345,
R349). -/
def decodedText (rep : Bool) (o : Option Sreg) (next : Word) : Decoded → String
  | .ok i _ => if isAbsentRow i then instrText o next i else leadText rep o i ++ instrText o next i
  | .refusedForm op _ _ => unknownText op
  | .truncated => "???"

/-- The prefix loop of the disassembler, over the same fetch as the execute path's (R340, R350): `n` bytes of
prefixes have been read, with the repeat prefix `rep` and the last override `o` among them. It answers the
text, the count and the state whose cursor CS:IP is past the bytes read. The first argument bounds the
loop. -/
def disasmLoop : Nat → Bool → Option Sreg → Nat → State → String × Nat × State
  | 0, _, _, n, u => ("???", n, u)
  | k + 1, rep, o, n, u =>
    match fetchInstr u with
    | (.ok .segEs _, t) => disasmLoop k rep (some .es) (n + 1) t
    | (.ok .segCs _, t) => disasmLoop k rep (some .cs) (n + 1) t
    | (.ok .segSs _, t) => disasmLoop k rep (some .ss) (n + 1) t
    | (.ok .segDs _, t) => disasmLoop k rep (some .ds) (n + 1) t
    | (.ok .rep _, t) => disasmLoop k true o (n + 1) t
    | (d, t) => (decodedText rep o t.cpu.ip d, n + d.length, t)

/-- The state with the disassembler's cursor in the place of CS:IP and no bus call made (R341, R342). -/
def State.atCursor (s : State) (seg off : Word) : State := { s.withCsIp seg off with calls := [] }

/-- The disassembly of one whole instruction with its prefixes, at a cursor (R342). -/
def disasmRun (s : State) (seg off : Word) : String × Nat × State :=
  disasmLoop prefixBound false none 0 (s.atCursor seg off)

/-- `Disasm(seg, off)` (R342): the text and the number of bytes. -/
def disasm (s : State) (seg off : Word) : String × Nat :=
  ((disasmRun s seg off).1, (disasmRun s seg off).2.1)

/-- The bus calls of `Disasm` (R342), oldest first. -/
def disasmCalls (s : State) (seg off : Word) : List BusCall := (disasmRun s seg off).2.2.calls.reverse

/-- The state after `Disasm`: it changes nothing of the core (R340, R399), and what its bus reads do at a
device with side effects stays at the host. -/
def State.disassembled (s : State) (seg off : Word) : State :=
  { s with bus := (disasmRun s seg off).2.2.bus, draws := (disasmRun s seg off).2.2.draws }

end Sys2Proof.Machine
end

