-- ==== Sys2Proof/Machine/HostSurface.lean ====
section
/-!
DEFINITION. The control surface the host drives between steps: the register accessors, `init`, `reset`,
`shutdown` and `runInstruction` with its typed result, the host's own changes of memory and devices, and the
table of what the host may do and when (10_state.md R43, R45, R46; 20_memory.md R82, R83;
70_reset_and_hazards.md R390 to R393, R399).
-/

namespace Sys2Proof.Machine

/-- The 16-bit registers of the public surface (R45). SP, BP, SI, DI, SS and DS have no accessor. -/
inductive HostReg where
  | ax | bx | cx | dx | cs | es | ip
  deriving DecidableEq, Repr

/-- A 16-bit register is read by the host (R45). DX reads as DX (R46). -/
def State.hostGet (s : State) : HostReg → Word
  | .ax => s.cpu.ax | .bx => s.cpu.bx | .cx => s.cpu.cx | .dx => s.cpu.dx
  | .cs => s.cpu.cs | .es => s.cpu.es | .ip => s.cpu.ip

/-- A 16-bit register is written by the host (R45). -/
def State.hostSet (s : State) (r : HostReg) (v : Word) : State :=
  match r with
  | .ax => s.withCpu { s.cpu with ax := v }
  | .bx => s.withCpu { s.cpu with bx := v }
  | .cx => s.withCpu { s.cpu with cx := v }
  | .dx => s.withCpu { s.cpu with dx := v }
  | .cs => s.withCpu { s.cpu with cs := v }
  | .es => s.withCpu { s.cpu with es := v }
  | .ip => s.withCpu { s.cpu with ip := v }

/-- A half of a pair is read by the host (R45). -/
def State.hostGet8 (s : State) (r : Reg8) : Byte := getReg8 s.cpu r

/-- A half of a pair is written by the host (R45, R21). -/
def State.hostSet8 (s : State) (r : Reg8) (v : Byte) : State := s.withCpu (putReg8 s.cpu r v)

/-- "Set carry-flag" writes CF "and touches nothing else" (R45). -/
def State.hostSetCarry (s : State) (b : Bool) : State :=
  s.withFlags (Sys2Proof.Machine.putFlag s.cpu.flags .cf b)

/-- `init(cs, ip)` with a bus (R390), on a core in any state. The spec gives it before the first step (R399),
after an error (R43, R370) and after `shutdown`, from which it is the one way out (R392); that it is defined on
a running core too, and may put another bus in place of the one attached, is the model's choice (DESIGN CHOICE,
unsafe, log entry 33). That free values drawn after it are fresh ones is another (DESIGN CHOICE, safe, log
entry 16). -/
def State.hostInit (s : State) (cs ip : Word) (bus : Bus) : State := State.init cs ip bus s.params s.draws

/-- `reset(cs, ip)` (R391): "`init` applied to a live core", the bus reference kept; memory, ports and the
parameters are not touched. The spec does not say what it does to the free values of U1 to U4, U12 and U13:
that those drawn after it are fresh ones is the model's choice (DESIGN CHOICE, safe, log entry 16). It is not
defined on a shut-down core (R392, U17). -/
def State.hostReset (s : State) (cs ip : Word) : Option State :=
  match s.status with
  | .running | .error _ => some (State.init cs ip s.bus s.params s.draws)
  | .shutDown => none

/-- The state with the core's own registers undefined: each holds a free value, and a new one every time
(R12, R43, R392; log entry 17). -/
def State.undefineCore (s : State) : State :=
  { s with
    cpu := (Config.undefinedCore s.draws).cpu
    segOverride := (Config.undefinedCore s.draws).segOverride
    repeatState := (Config.undefinedCore s.draws).repeatState
    draws := s.draws + 1 }

/-- `shutdown` (R392): "bus reference cleared, no register state preserved", and only `init` is defined after
it. -/
def State.shutdown (s : State) : Option State :=
  match s.status with
  | .running | .error _ =>
    some ({ s with bus := { s.bus with attached := false }, status := .shutDown }).undefineCore
  | .shutDown => none

/-- How one call of `runInstruction` ends, as the host sees it (R43, R393): a cost, or a typed error. -/
inductive RunResult where
  | cost (c : Cost)
  | error (e : StepError)
  deriving DecidableEq, Repr

/-- The state after a step that ended in an error: the host's side is as the step left it (R82; log entry 13),
the core's own registers are undefined (R12, R43), and the error stands. -/
def State.failed (s : State) (e : StepError) (left : HostSide) : State :=
  ({ s with bus := left.bus, calls := left.calls, draws := left.draws, status := .error e }).undefineCore

/-- `runInstruction` (R393): the result and the core after it, or none where the call is not defined (after an
error or `shutdown`) or never returns (R397). -/
def State.runInstruction (s : State) : Option (RunResult × State) :=
  match step s with
  | .next t => some (.cost t.cost, t)
  | .fault (.decodeError op slot left) =>
    some (.error (.decodeError op slot), s.failed (.decodeError op slot) left)
  | .fault (.hostProtocolError left) =>
    some (.error .hostProtocolError, s.failed .hostProtocolError left)
  | .fault .prefixLoop => none
  | .refused _ => none

/-- The host changes its own memory and devices between steps, and which override handlers answer as data
(R83, R399). -/
def State.hostEdit (s : State) (writes : List (Addr × Byte)) (devices : Devices)
    (handlers : List (Byte × HostAnswer)) : State :=
  { s with
    bus := { s.bus with mem := hostWrites writes s.bus.mem, devices := devices, handlers := handlers } }

/-- What the host may do between steps (R399). -/
inductive HostMove where
  | init (cs ip : Word) (bus : Bus)
  | reset (cs ip : Word)
  | shutdown
  | runInstruction
  | get (r : HostReg)
  | set (r : HostReg) (v : Word)
  | getHalf (r : Reg8)
  | setHalf (r : Reg8) (v : Byte)
  | setCarry (b : Bool)
  | edit (writes : List (Addr × Byte)) (devices : Devices) (handlers : List (Byte × HostAnswer))
  | disasm (seg off : Word)
  /-- Its text is not specified (R352); with the flag it disassembles at CS:IP. -/
  | debugOutput (withDisassembly : Bool)
  deriving DecidableEq, Repr

/-- What the core gives back (R399). -/
inductive HostReturn where
  | nothing
  | word (v : Word)
  | half (v : Byte)
  | ran (r : RunResult)
  | text (t : String) (count : Nat)
  deriving DecidableEq, Repr

/-- A move that is defined only while no error stands and the core is not shut down (R43, R392, R393). -/
def State.whileRunning (s : State) (r : HostReturn × State) : Option (HostReturn × State) :=
  match s.status with
  | .running => some r
  | .error _ | .shutDown => none

/-- The table of R399: what a move gives back and the state after it, or none where the spec does not define
the move. One move goes beyond it: `init` in mid-run (DESIGN CHOICE, unsafe, log entry 33). -/
def State.hostMove (s : State) : HostMove → Option (HostReturn × State)
  | .init cs ip bus => some (.nothing, s.hostInit cs ip bus)
  | .reset cs ip => (s.hostReset cs ip).map (fun t => (.nothing, t))
  | .shutdown => s.shutdown.map (fun t => (.nothing, t))
  | .runInstruction => s.runInstruction.map (fun r => (.ran r.1, r.2))
  | .get r => s.whileRunning (.word (s.hostGet r), s)
  | .set r v => s.whileRunning (.nothing, s.hostSet r v)
  | .getHalf r => s.whileRunning (.half (s.hostGet8 r), s)
  | .setHalf r v => s.whileRunning (.nothing, s.hostSet8 r v)
  | .setCarry b => s.whileRunning (.nothing, s.hostSetCarry b)
  | .edit writes devices handlers => some (.nothing, s.hostEdit writes devices handlers)
  | .disasm seg off =>
    s.whileRunning (.text (disasm s seg off).1 (disasm s seg off).2, s.disassembled seg off)
  | .debugOutput dis =>
    s.whileRunning (.nothing, if dis then s.disassembled s.cpu.cs s.cpu.ip else s)

end Sys2Proof.Machine
end

