-- ==== Sys2Proof/Safety.lean ====
section
/-!
DEFINITION. What counts as a sound state, what an instruction may leave unchanged, and the terms the
obligations are written in.
-/

namespace Sys2Proof.Machine

/-- A state between two steps of a run (R27, R37, R38, R43, R60): memory is in its canonical form, no
override or repeat prefix is pending, and no error stands. -/
structure State.Inv (s : State) : Prop where
  memory : Memory.wf s.bus.mem = true
  noOverride : s.segOverride = none
  noRepeat : s.repeatState = false
  running : s.status = .running

/-- The bits of the named flags (R28). -/
def namedFlagBits : Word := 0x0FD5

/-- The masks are disjoint from each other and from the named flags, as R29 requires. -/
structure MasksDisjoint (p : Params) : Prop where
  apart : p.onesMask &&& p.zeroMask = 0
  onesFree : p.onesMask &&& namedFlagBits = 0
  zeroFree : p.zeroMask &&& namedFlagBits = 0

/-- The masked bits of the flags word hold their forced values (R29). -/
def State.FlagsMasked (s : State) : Prop :=
  s.cpu.flags &&& s.params.onesMask = s.params.onesMask ∧ s.cpu.flags &&& s.params.zeroMask = 0

/-! ## Hosts -/

/-- Memory is plain or ROM: no read or write of it has a side effect at a device (R399, log entry 1). An
unattached bus is quiet (R64). -/
def State.QuietMemory (s : State) : Prop :=
  s.bus.attached = true → ∀ w ∈ s.bus.devices.windows, w.kind = .rom

/-- The listed bytes are plain memory on an attached bus, which keeps what is written to it (R67, log
entry 1). -/
def State.Stores (s : State) (l : List Addr) : Prop :=
  s.bus.attached = true ∧ ∀ a ∈ l, s.kindAt a = none

/-- No device with side effects is behind the port (R399). -/
def State.PassivePort (s : State) (p : Word) : Prop :=
  s.bus.attached = true → p ∉ s.bus.devices.activePorts

/-- No device with side effects is behind any port (R399). -/
def State.QuietPorts (s : State) : Prop := s.bus.attached = true → s.bus.devices.activePorts = []

/-- The vector is not overridden: no bus, or the host's query answers false (R64, R362). -/
def State.NotOverridden (s : State) (v : Byte) : Prop :=
  s.bus.attached = true → queryAnswer v s = false

/-- What every instruction leaves unchanged, whatever the host does: the decode-time state, the parameters,
the error status, the bus reference and the override handlers that answer as data. -/
structure SameCore (s t : State) : Prop where
  segOverride : t.segOverride = s.segOverride
  repeatState : t.repeatState = s.repeatState
  params : t.params = s.params
  status : t.status = s.status
  attached : t.bus.attached = s.bus.attached
  handlers : t.bus.handlers = s.bus.handlers

/-- What an instruction at which the host has no side effect leaves unchanged beside registers and memory:
the decode-time state, the parameters, the error status and everything the host holds but memory. -/
structure SameRest (s t : State) : Prop where
  segOverride : t.segOverride = s.segOverride
  repeatState : t.repeatState = s.repeatState
  params : t.params = s.params
  status : t.status = s.status
  attached : t.bus.attached = s.bus.attached
  devices : t.bus.devices = s.bus.devices
  handlers : t.bus.handlers = s.bus.handlers

/-- Every byte of memory outside the listed addresses reads in `t` as it did in `s`. -/
def SameMemoryBut (l : List Addr) (s t : State) : Prop := ∀ a : Addr, a ∉ l → t.peek a = s.peek a

/-- Every byte of memory reads in `t` as it did in `s`. -/
def SameMemory (s t : State) : Prop := ∀ a : Addr, t.peek a = s.peek a

/-- From `s` to `t` the operand `o` has taken the value `v` and the flags word `fl`, and nothing else of the
registers and memory has changed. A write to memory reads back where memory is plain, and is dropped by a ROM
and where no bus is attached (R64; log entry 1). -/
def Assigned (w : Width) (o : Operand) (v : BitVec w.bits) (fl : Word) (s t : State) : Prop :=
  match o with
  | .reg i => t.cpu = { putReg s.cpu w i v with flags := fl } ∧ SameMemory s t
  | .mem seg off =>
    t.cpu = { s.cpu with flags := fl } ∧ (s.Stores (bytesAt w seg off) → t.peekW w seg off = v) ∧
      SameMemoryBut (bytesAt w seg off) s t
  | .imm _ => t.cpu = { s.cpu with flags := fl } ∧ SameMemory s t

/-- From `s` to `t` only the CPU state has changed, to `c`. -/
def OnlyCpu (c : Cpu) (s t : State) : Prop := t.cpu = c ∧ SameMemory s t

/-- From `s` to `t` a word has been pushed: the CPU state is `c`, the word at SS:SP of `s` less 2 reads
back as `v` where memory is plain (log entry 1), and no other byte of memory has changed (R71). -/
def Pushed (v : Word) (c : Cpu) (s t : State) : Prop :=
  t.cpu = c ∧
    (s.Stores (bytesAt .word s.cpu.ss (s.cpu.sp - 2)) → t.peek16 s.cpu.ss (s.cpu.sp - 2) = v) ∧
    SameMemoryBut (bytesAt .word s.cpu.ss (s.cpu.sp - 2)) s t

/-- Every bit of the flags word outside the named flags is in `y` as in `x`. -/
def FlagsBut (l : List Flag) (x y : Word) : Prop :=
  ∀ k : Nat, (∀ f ∈ l, k ≠ f.pos) → y.getLsbD k = x.getLsbD k

/-- ZF, SF and PF are those of the result `r` at its width (R32): `r` is zero, its top bit, and the number
of ones among its low eight bits is even. -/
def ResultFlags {n : Nat} (r : BitVec n) (fl : Word) : Prop :=
  getFlag fl .zf = decide (r.toNat = 0) ∧ getFlag fl .sf = r.msb ∧
    getFlag fl .pf = decide ((List.range 8).countP (fun i => r.getLsbD i) % 2 = 0)

/-- The five status flags are written and no other bit of the word (R30, R33 to R35). -/
def StatusFlags {n : Nat} (cf ov : Bool) (r : BitVec n) (x y : Word) : Prop :=
  getFlag y .cf = cf ∧ getFlag y .of = ov ∧ ResultFlags r y ∧ FlagsBut [.cf, .of, .zf, .sf, .pf] x y

/-- Whether an integer is outside the range of a signed `n`-bit value (R8 `signed_N`). -/
def outOfRange (n : Nat) (x : Int) : Bool := decide (x < -(2 ^ (n - 1)) ∨ 2 ^ (n - 1) ≤ x)

/-- The reads of the listed addresses as bus calls, newest first (R63, R81); none when no bus is attached
(R64). -/
def readCalls (s : State) (l : List Addr) : List BusCall :=
  if s.bus.attached then (l.map (fun a => .readByte a (s.peek a))).reverse else []

/-- The writes of a value's bytes at `seg`:`off` as bus calls, newest first (R66, R81). -/
def writeCalls (s : State) (w : Width) (seg off : Word) (v : BitVec w.bits) : List BusCall :=
  if s.bus.attached then
    match w, v with
    | .byte, v => [.writeByte (phys seg off) v]
    | .word, v =>
      [.writeByte (phys seg (off + 1)) (highByte v), .writeByte (phys seg off) (lowByte v)]
  else []

/-- The reads of a value's bytes at `seg`:`off` as bus calls, newest first, the host answering the bytes of
`x` (R63, R66, R81); none when no bus is attached (R64). -/
def answerCalls (s : State) (w : Width) (seg off : Word) (x : BitVec w.bits) : List BusCall :=
  if s.bus.attached then
    match w, x with
    | .byte, x => [.readByte (phys seg off) x]
    | .word, x =>
      [.readByte (phys seg (off + 1)) (highByte x), .readByte (phys seg off) (lowByte x)]
  else []

/-- The addresses of `n` instruction bytes at `cs`:`ip` (R27, R70). -/
def codeAddrs (cs ip : Word) (n : Nat) : List Addr :=
  (List.range n).map (fun k => phys cs (ip + BitVec.ofNat 16 k))

/-- The state after reads of the listed addresses. -/
def State.noteReads (s : State) (l : List Addr) : State := { s with calls := readCalls s l ++ s.calls }

/-- What has been decoded is a prefix. -/
def Decoded.isPrefix : Decoded → Bool
  | .ok i _ => i.isPrefix
  | .refusedForm _ _ _ | .truncated => false

/-- From `s`, `k` turns of the prefix loop lead to the instruction or refused form `d` at the state `u` in
which its bytes have been fetched, and its handler is about to run or DecodeError to be raised (R91). -/
def Reaches : Nat → State → Decoded → State → Prop
  | 0, s, d, u => fetchInstr s = (d, u) ∧ Decoded.isPrefix d = false
  | k + 1, s, d, u => ∃ p len v t, fetchInstr s = (.ok p len, v) ∧ p.isPrefix = true ∧
      exec p v = .next t ∧ Reaches k t d u

/-! ## Kinds of instruction -/

/-- The instructions that can write CS: the far transfers, IRET, and those that can take an interrupt
(R25, R109, R361). -/
def mayLoadCs : Instr → Bool
  | .jmpFar _ _ | .jmpFarRm _ | .callFar _ _ | .callFarRm _ | .retf | .retfImm _ | .iret
  | .int _ | .int3 | .into | .div _ _ | .idiv _ _ | .aam _ => true
  | _ => false

/-- The instructions of which R36 says that they write no flag: "MOV, PUSH, POP, XCHG, XLAT, IN, OUT, LEA,
LDS, LES, LAHF, PUSHF, CBW, CWD, MOVS, STOS, LODS, every jump, call, return and loop", and NOT and NOP,
whose own rules say so. -/
def writesNoFlag : Instr → Bool
  | .movRmReg _ _ _ | .movRegRm _ _ _ | .movRmImm8 _ _ | .movRmImm16 _ _ | .movRegImm8 _ _
  | .movRegImm16 _ _ | .movAccMoffs _ _ | .movMoffsAcc _ _ | .movRmSreg _ _ | .movSregRm _ _
  | .pushReg _ | .pushRm _ | .pushSreg _ | .popReg _ | .popRm _ | .popSreg _
  | .xchgRmReg _ _ _ | .xchgAxReg _ | .nop | .xlat | .inImm _ _ | .inDx _ | .outImm _ _ | .outDx _
  | .lea _ _ | .lds _ _ | .les _ _ | .lahf | .pushf | .cbw | .cwd | .not _ _
  | .movsb | .movsw | .stosb | .stosw | .lodsb | .lodsw
  | .jmpRel8 _ | .jmpRel16 _ | .jmpFar _ _ | .jmpRm _ | .jmpFarRm _
  | .callRel16 _ | .callFar _ _ | .callRm _ | .callFarRm _
  | .jo _ | .jno _ | .jb _ | .jae _ | .je _ | .jne _ | .jbe _ | .ja _
  | .js _ | .jns _ | .jp _ | .jnp _ | .jl _ | .jge _ | .jle _ | .jg _
  | .ret | .retImm _ | .retf | .retfImm _ | .loop _ | .loopz _ | .loopnz _ | .jcxz _ => true
  | _ => false

/-- The arithmetic, logic, shift and rotate instructions (41_arithmetic.md, 42_logic_shift.md) and the
string compares. -/
def isArithLogic : Instr → Bool
  | .add _ | .adc _ | .sub _ | .sbb _ | .cmp _ | .incReg _ | .incRm _ _ | .decReg _ | .decRm _ _
  | .neg _ _ | .mul _ _ | .imul _ _ | .div _ _ | .idiv _ _ | .cbw | .cwd | .aam _ | .aad _
  | .and _ | .or _ | .xor _ | .test _ | .not _ _
  | .rol _ _ _ | .ror _ _ _ | .rcl _ _ _ | .rcr _ _ _ | .shl _ _ _ | .shr _ _ _ | .sar _ _ _
  | .cmpsb | .cmpsw | .scasb | .scasw => true
  | _ => false

/-- The instructions that may take an interrupt (R361). -/
def mayInterrupt : Instr → Bool
  | .div _ _ | .idiv _ _ | .aam _ | .int _ | .int3 | .into => true
  | _ => false

/-- The instructions that access a port (R72). -/
def accessesPort : Instr → Bool
  | .inImm _ _ | .inDx _ | .outImm _ _ | .outDx _ => true
  | _ => false

/-- The width and the r/m operand of an ALU form whose destination that operand is (R180). -/
def aluRmDst : AluForm → Option (Width × RM)
  | .rmReg w m _ => some (w, m)
  | .rmImm8 m _ | .rmImm8Dup m _ => some (.byte, m)
  | .rmImm16 m _ | .rmSimm8 m _ => some (.word, m)
  | .regRm _ _ _ | .accImm8 _ | .accImm16 _ => none

/-- The width and the r/m operand of an ALU form that only reads that operand (R180). -/
def aluRmSrc : AluForm → Option (Width × RM)
  | .regRm w _ m => some (w, m)
  | _ => none

/-- The instructions that read their r/m operand and then write it (R69), and that operand. -/
def modifiesAt : Instr → Option (Width × RM)
  | .add f | .adc f | .sub f | .sbb f | .and f | .or f | .xor f => aluRmDst f
  | .incRm w m | .decRm w m | .neg w m | .not w m | .xchgRmReg w m _
  | .rol w m _ | .ror w m _ | .rcl w m _ | .rcr w m _ | .shl w m _ | .shr w m _ | .sar w m _ => some (w, m)
  | _ => none

/-- The instructions that read their r/m operand and write registers or flags alone, and that operand. -/
def readsAt : Instr → Option (Width × RM)
  | .cmp f => (aluRmDst f).or (aluRmSrc f)
  | .add f | .adc f | .sub f | .sbb f | .and f | .or f | .xor f => aluRmSrc f
  | .test f =>
    match f with
    | .rmReg w m _ => some (w, m)
    | .rmImm8 m _ => some (.byte, m)
    | .rmImm16 m _ => some (.word, m)
    | .accImm8 _ | .accImm16 _ => none
  | .movRegRm w _ m | .mul w m | .imul w m => some (w, m)
  | _ => none

/-- The last bus call made is one that the host failed (R82, R371): a port it refused or an override handler
that did not return. -/
def HostFailed (calls : List BusCall) : Prop :=
  ∃ rest, (∃ p, calls = .portInRefused p :: rest) ∨ (∃ p v, calls = .portOutRefused p v :: rest) ∨
    ∃ v, calls = .interruptOverride v :: rest

/-- The shift or rotate of each operation of group 2 (R235). -/
def shiftInstr (op : ShiftOp) (w : Width) (m : RM) (c : ShiftCount) : Instr :=
  match op with
  | .rol => .rol w m c | .ror => .ror w m c | .rcl => .rcl w m c | .rcr => .rcr w m c
  | .shl => .shl w m c | .shr => .shr w m c | .sar => .sar w m c

/-- The five string instructions of a width (R262 to R266). -/
def stringInstrs : Width → List Instr
  | .byte => [.movsb, .cmpsb, .stosb, .lodsb, .scasb]
  | .word => [.movsw, .cmpsw, .stosw, .lodsw, .scasw]

/-- The string instructions whose repeat loop tests ZF (R261). -/
def testsZf (i : Instr) : Bool := [Instr.cmpsb, .cmpsw, .scasb, .scasw].contains i

/-- `delta` of R260: plus or minus the element's size, by DF. -/
def elementStep (w : Width) (s : State) : Word :=
  match w, getFlag s.cpu.flags .df with
  | .byte, false => 1
  | .byte, true => 0xFFFF
  | .word, false => 2
  | .word, true => 0xFFFE

/-- An instruction completes with only IP changed: to the target of a rel8 form when the jump is taken, and
not at all otherwise (R280, R290). -/
def Jumps (i : Instr) (taken : Bool) (d : Byte) (s : State) : Prop :=
  ∃ t, exec i s = .next t ∧ SameRest s t ∧
    OnlyCpu { s.cpu with ip := if taken then s.cpu.ip + sext16 d else s.cpu.ip } s t

/-- A run is safe when no step of it ends in an error (R43). -/
def NoError (s : State) : Prop := ∀ e : Fault, step s ≠ .fault e

end Sys2Proof.Machine
end

