-- ==== Sys2Proof/Certificates/Slice0/Obligations.lean ====
section
/-!
DEFINITION. The statements for the provers, each from numbered rules of the spec (OBLIGATIONS.json gives the
rules). A statement about a flag that the spec leaves undefined holds for every value of it.
-/

section

open Sys2Proof Sys2Proof.Machine

/-! ## State, reset and the host's surface -/

/-- What `init` leaves, for every boot vector, bus and parameters (R390, R44); that `reset` is `init` with the
bus kept (R391), and is defined until `shutdown`; and that after `shutdown` no bus is attached and no move of
R399 but `init` is defined (R392): no step, no accessor, no disassembly. What the host does to its own memory
and devices is no call of the core. That `init` is defined on a running core too, and with any bus, is the
model's choice (log entry 33), and so is that free values are drawn on, and not over again (log entry 16). -/
def Obligations.InitState : Prop :=
  ∀ (cs ip : Word) (bus : Bus) (p : Params) (n : Nat) (s : State),
    (State.init cs ip bus p n).cpu =
        { ax := 0, bx := 0, cx := 0, dx := 0, sp := 0, bp := 0, si := 0, di := 0, ip := ip
          es := 0, cs := cs, ss := 0, ds := 0, flags := p.flagsInit } ∧
      (State.init cs ip bus p n).segOverride = none ∧ (State.init cs ip bus p n).repeatState = false ∧
      (State.init cs ip bus p n).status = .running ∧ (State.init cs ip bus p n).bus = bus ∧
      (State.init cs ip bus p n).calls = [] ∧
      s.hostMove (.init cs ip bus) = some (.nothing, State.init cs ip bus s.params s.draws) ∧
      (s.status ≠ .shutDown →
        s.hostMove (.reset cs ip) = some (.nothing, State.init cs ip s.bus s.params s.draws) ∧
          ∃ t, s.hostMove .shutdown = some (.nothing, t) ∧ t.status = .shutDown ∧
            t.bus = { s.bus with attached := false } ∧ t.params = s.params) ∧
      (s.status = .shutDown →
        ∀ m : HostMove, (∀ c i b, m ≠ .init c i b) → (∀ w d h, m ≠ .edit w d h) → s.hostMove m = none)

/-- The invariant holds right after reset. That memory lists nothing is the model's choice (log entry 2);
the rest is R44. -/
def Obligations.ResetInv : Prop := State.reset.Inv

/-- Every step from a state that meets the invariant leads to one that meets it: memory keeps its canonical
form, no override or repeat prefix outlives the step (R37, R38, R94), and no error stands (R43). It holds
also where a host handler runs. -/
def Obligations.StepKeepsInv : Prop := ∀ s t : State, s.Inv → step s = .next t → t.Inv

/-- With masks that are disjoint from each other and from the named flags, every step in which no override
handler runs keeps the masked bits of FLAGS at their forced values (R29), whatever the host does. -/
def Obligations.StepKeepsMaskedFlags : Prop :=
  ∀ s t : State, MasksDisjoint s.params → s.FlagsMasked → step s = .next t →
    (∀ v, BusCall.interruptOverride v ∉ t.calls) → t.params = s.params ∧ t.FlagsMasked

/-- No step changes the parameters or the bus reference (R6, R40), whatever the host does. Nor does anything
but the core change memory while it holds control (R76): a step in which no override handler runs (R83) leaves
every byte as it was that none of its bus calls writes, whatever the devices do on them (R399). -/
def Obligations.StepKeepsBusReference : Prop :=
  ∀ s t : State, step s = .next t →
    t.params = s.params ∧ t.bus.attached = s.bus.attached ∧
      ((∀ v, BusCall.interruptOverride v ∉ t.calls) →
        ∀ a : Addr, (∀ v, BusCall.writeByte a v ∉ t.calls) → t.peek a = s.peek a)

/-- No arithmetic or logic instruction writes bit 4 of FLAGS (R30), where no override handler runs. -/
def Obligations.ArithmeticKeepsBit4 : Prop :=
  ∀ (i : Instr) (s t : State), isArithLogic i = true → exec i s = .next t →
    (∀ v, BusCall.interruptOverride v ∉ t.calls) → t.cpu.flags.getLsbD 4 = s.cpu.flags.getLsbD 4

/-- The instructions that R36 says write no flag write none, and complete with the core's own state beside the
registers unchanged, whatever the host does; where no device has side effects all that the host holds beside
memory is unchanged too. -/
def Obligations.TransfersKeepFlags : Prop :=
  ∀ (i : Instr) (s t : State), writesNoFlag i = true → exec i s = .next t →
    t.cpu.flags = s.cpu.flags ∧ SameCore s t ∧ (s.QuietMemory → s.QuietPorts → SameRest s t)

/-- No instruction but a far transfer, IRET or one that takes an interrupt writes CS (R25, R109),
whatever the host does. -/
def Obligations.CsOnlyByTransfer : Prop :=
  ∀ (i : Instr) (s t : State), mayLoadCs i = false → exec i s = .next t → t.cpu.cs = s.cpu.cs

/-- The register file (R21, R26): a pair reads back what was written; a half reads back what was written and
leaves the other half and every other register alone; writing a pair sets both halves; IP, the segment
registers and FLAGS are apart from it. -/
def Obligations.RegisterFile : Prop :=
  ∀ (c : Cpu) (r : Reg8) (p : Reg16) (v : Byte) (x : Word),
    getReg16 (putReg16 c p x) p = x ∧
      (∀ q, q ≠ p → getReg16 (putReg16 c p x) q = getReg16 c q) ∧
      getReg8 (putReg8 c r v) r = v ∧
      (∀ q, q ≠ r → getReg8 (putReg8 c r v) q = getReg8 c q) ∧
      (∀ q, q ≠ Reg8.pair r → getReg16 (putReg8 c r v) q = getReg16 c q) ∧
      (Reg8.pair r = p →
        getReg8 (putReg16 c p x) r = if Reg8.isHigh r then highByte x else lowByte x) ∧
      (putReg16 c p x).ip = c.ip ∧ (putReg16 c p x).flags = c.flags ∧
      (putReg8 c r v).ip = c.ip ∧ (putReg8 c r v).flags = c.flags ∧
      (∀ sr, getSreg (putReg16 c p x) sr = getSreg c sr ∧ getSreg (putReg8 c r v) sr = getSreg c sr)

/-- The numbering of the registers (R23, R24, R25): the order of the 16-bit, byte and segment registers, and
byte register `i` as the low half of word register `i` or the high half of word register `i - 4`. -/
def Obligations.RegisterNumbers : Prop :=
  (List.range 8).map (fun i => Reg16.ofIx (BitVec.ofNat 3 i)) =
      [.ax, .cx, .dx, .bx, .sp, .bp, .si, .di] ∧
    (List.range 8).map (fun i => Reg8.ofIx (BitVec.ofNat 3 i)) =
      [.al, .cl, .dl, .bl, .ah, .ch, .dh, .bh] ∧
    (List.range 4).map (fun i => Sreg.ofIx (BitVec.ofNat 2 i)) = [.es, .cs, .ss, .ds] ∧
    ∀ (c : Cpu) (i : RegIx),
      getReg c .byte i =
        if i.toNat < 4 then lowByte (getReg c .word i) else highByte (getReg c .word (i - 4))

/-- The host's accessors (R45, R46): a register reads back what was set, DX included; setting one changes that
register alone; setting a half leaves the other half and every other register alone; "set carry-flag" writes
CF and nothing else; none of them touches memory, the devices or the decode-time state; and they are defined
while no error stands and the core is not shut down, and at no other time (R43, R392). -/
def Obligations.HostAccessors : Prop :=
  ∀ (s : State) (r : HostReg) (v : Word) (h : Reg8) (x : Byte) (b : Bool),
    (s.hostSet r v).hostGet r = v ∧
      OnlyCpu (match r with
        | .ax => { s.cpu with ax := v }
        | .bx => { s.cpu with bx := v }
        | .cx => { s.cpu with cx := v }
        | .dx => { s.cpu with dx := v }
        | .cs => { s.cpu with cs := v }
        | .es => { s.cpu with es := v }
        | .ip => { s.cpu with ip := v }) s (s.hostSet r v) ∧
      SameRest s (s.hostSet r v) ∧
      (s.hostSet8 h x).hostGet8 h = x ∧
      (∀ q, q ≠ h → (s.hostSet8 h x).hostGet8 q = s.hostGet8 q) ∧
      (∃ y, OnlyCpu (putReg16 s.cpu (Reg8.pair h) y) s (s.hostSet8 h x)) ∧
      SameRest s (s.hostSet8 h x) ∧
      s.hostGet .dx = s.cpu.dx ∧
      s.hostGet .dx = wordOf (s.hostGet8 .dl) (s.hostGet8 .dh) ∧
      (∃ fl, OnlyCpu { s.cpu with flags := fl } s (s.hostSetCarry b) ∧ getFlag fl .cf = b ∧
        FlagsBut [.cf] s.cpu.flags fl) ∧
      SameRest s (s.hostSetCarry b) ∧
      (s.status = .running →
        s.hostMove (.get r) = some (.word (s.hostGet r), s) ∧
          s.hostMove (.set r v) = some (.nothing, s.hostSet r v) ∧
          s.hostMove (.getHalf h) = some (.half (s.hostGet8 h), s) ∧
          s.hostMove (.setHalf h x) = some (.nothing, s.hostSet8 h x) ∧
          s.hostMove (.setCarry b) = some (.nothing, s.hostSetCarry b)) ∧
      (s.status ≠ .running →
        s.hostMove (.get r) = none ∧ s.hostMove (.set r v) = none ∧ s.hostMove (.getHalf h) = none ∧
          s.hostMove (.setHalf h x) = none ∧ s.hostMove (.setCarry b) = none)

/-! ## Memory, stack and the bus -/

/-- A physical address is 16 times the segment plus the offset, modulo 2^20 (R62). Word access (R66): the low
byte is at the lower offset and is accessed first, and the offset of the high byte wraps in the segment.
Whatever the host does, a read answers the word of the two bytes the host answers, any bytes (R63), neither
changes a register, and a read changes no byte of memory and a write no other than the two (R76). Plain memory
then holds the bytes written (R67; log entry 1); a write to a ROM or a device changes no byte of memory
(R399; log entries 1 and 29). On a host whose devices have no side effects a read answers the bytes of memory
and changes nothing but the list of bus calls, and a write changes memory and the list of bus calls alone.
`Read_w` and `Write_w` are the access of their width. -/
def Obligations.WordAccess : Prop :=
  ∀ (seg off v : Word) (s : State),
    (phys seg off).toNat = (16 * seg.toNat + off.toNat) % 2 ^ 20 ∧
      (∃ x y, (read16 seg off s).1 = wordOf x y ∧
        (s.bus.attached = true → (read16 seg off s).2.calls =
          .readByte (phys seg (off + 1)) y :: .readByte (phys seg off) x :: s.calls)) ∧
      (read16 seg off s).2.cpu = s.cpu ∧ SameCore s (read16 seg off s).2 ∧
      SameMemory s (read16 seg off s).2 ∧
      (write16 seg off v s).cpu = s.cpu ∧ SameCore s (write16 seg off v s) ∧
      (write16 seg off v s).calls = writeCalls s .word seg off v ++ s.calls ∧
      SameMemoryBut [phys seg off, phys seg (off + 1)] s (write16 seg off v s) ∧
      (s.Stores [phys seg off, phys seg (off + 1)] →
        (write16 seg off v s).peek (phys seg off) = lowByte v ∧
          (write16 seg off v s).peek (phys seg (off + 1)) = highByte v) ∧
      (s.kindAt (phys seg off) ≠ none → s.kindAt (phys seg (off + 1)) ≠ none →
        SameMemory s (write16 seg off v s)) ∧
      (s.QuietMemory →
        (read16 seg off s).1 = wordOf (s.peek (phys seg off)) (s.peek (phys seg (off + 1))) ∧
          (read16 seg off s).2 = s.noteReads [phys seg off, phys seg (off + 1)] ∧
          SameRest s (write16 seg off v s)) ∧
      readW .byte seg off s = read8 seg off s ∧ readW .word seg off s = read16 seg off s ∧
      writeW .byte seg off (lowByte v) s = write8 seg off (lowByte v) s ∧
      writeW .word seg off v s = write16 seg off v s

/-- The stack (R71): a push takes 2 from SP, modulo 2^16, and writes the word at SS:SP; a pop reads the word
at SS:SP and adds 2 to SP. Neither depends on the segment override. This is so whatever the host does: a push
changes no other byte of memory and a pop none (R76), and the word popped is the one the host answers. That
the word pushed stands in plain memory is log entry 1. On a host whose devices have no side effects the word
popped is the one in memory, and all that the host holds beside memory is unchanged. -/
def Obligations.StackAccess : Prop :=
  ∀ (v : Word) (s : State),
    Pushed v { s.cpu with sp := s.cpu.sp - 2 } s (push16 v s) ∧ SameCore s (push16 v s) ∧
      (push16 v s).calls = writeCalls s .word s.cpu.ss (s.cpu.sp - 2) v ++ s.calls ∧
      OnlyCpu { s.cpu with sp := s.cpu.sp + 2 } s (pop16 s).2 ∧ SameCore s (pop16 s).2 ∧
      (pop16 s).2.calls = answerCalls s .word s.cpu.ss s.cpu.sp (pop16 s).1 ++ s.calls ∧
      (s.QuietMemory →
        SameRest s (push16 v s) ∧ (pop16 s).1 = s.peek16 s.cpu.ss s.cpu.sp ∧ SameRest s (pop16 s).2 ∧
          (pop16 s).2.calls = readCalls s (bytesAt .word s.cpu.ss s.cpu.sp) ++ s.calls)

/-- With no bus attached reads return 0, writes are dropped, no vector is overridden, and a step executes
`00 00`: IP advances by 2 and the flags are those of AL plus 0 (R64, R372). -/
def Obligations.UnattachedBus : Prop :=
  ∀ s : State, s.bus.attached = false →
    (∀ a, readByte a s = (0, s)) ∧ (∀ a v, writeByte a v s = s) ∧
      (∀ p, portIn8 p s = .ok (0, s)) ∧ (∀ p v, portOut8 p v s = .ok s) ∧
      (∀ v, queryOverride v s = (⟨v, false⟩, s)) ∧
      (s.Inv → isRemoved s.params.removedSlots s.code = false →
        ∃ t fl, step s = .next t ∧ SameRest s t ∧ t.calls = [] ∧
          OnlyCpu { s.cpu with ip := s.cpu.ip + 2, flags := fl } s t ∧
          StatusFlags false false (getReg8 s.cpu .al) s.cpu.flags fl)

/-- The ModRM byte (R95 to R99): its fields, the register or the effective offset it names, the default
segment with the pending override in its place, and the number of bytes. -/
def Obligations.ModRMResolution : Prop :=
  ∀ (b : Nat → Byte) (s : State) (md rm : Nat), md = (b 0).toNat / 64 → rm = (b 0).toNat % 8 →
    (decodeModRM b).1.toNat = (b 0).toNat / 8 % 8 ∧
      (md = 3 → resolve (decodeModRM b).2.1 s = .reg (BitVec.ofNat 3 rm) ∧ (decodeModRM b).2.2 = 1) ∧
      (md = 0 ∧ rm = 6 →
        resolve (decodeModRM b).2.1 s = .mem (segFor .ds s) (wordOf (b 1) (b 2)) ∧
          (decodeModRM b).2.2 = 3) ∧
      (md ≠ 3 → ¬(md = 0 ∧ rm = 6) →
        resolve (decodeModRM b).2.1 s =
            .mem (segFor (if rm = 2 ∨ rm = 3 ∨ rm = 6 then .ss else .ds) s)
              ((match rm with
                | 0 => s.cpu.bx + s.cpu.si
                | 1 => s.cpu.bx + s.cpu.di
                | 2 => s.cpu.bp + s.cpu.si
                | 3 => s.cpu.bp + s.cpu.di
                | 4 => s.cpu.si
                | 5 => s.cpu.di
                | 6 => s.cpu.bp
                | _ => s.cpu.bx) +
               (match md with
                | 0 => 0
                | 1 => (b 1).signExtend 16
                | _ => wordOf (b 1) (b 2))) ∧
          (decodeModRM b).2.2 = 1 + md) ∧
      (∀ d, s.segOverride = none → segFor d s = getSreg s.cpu d) ∧
      (∀ d o, s.segOverride = some o → segFor d s = getSreg s.cpu o)

/-- The order of the bus calls at an r/m operand in memory (R69, R81), whatever the host answers and whatever
side effects its devices have. The read-modify-write instructions, in every form with such an operand as
destination (ADD, ADC, SUB, SBB, AND, OR, XOR with a register and with each immediate, INC, DEC, NEG, NOT, the
seven of group 2 with any count, 0 included, and XCHG), read the operand once, low byte first, and then write
it once, low byte first, and change no other byte of memory (R76). CMP and TEST in every form, the forms with
a register as destination, MUL and IMUL read it once and write no memory. On plain memory the value read is
the one that stood there and the one written stands there after; where no device has side effects on memory
accesses the value read is the one in memory (log entry 1). -/
def Obligations.ReadModifyWriteOrder : Prop :=
  ∀ (i : Instr) (w : Width) (m : RM) (seg off : Word) (s : State), resolve m s = .mem seg off →
    (modifiesAt i = some (w, m) → ∃ t x v, exec i s = .next t ∧ SameCore s t ∧
      t.calls = writeCalls s w seg off v ++ (answerCalls s w seg off x ++ s.calls) ∧
      SameMemoryBut (bytesAt w seg off) s t ∧
      (s.QuietMemory → x = s.peekW w seg off) ∧
      (s.Stores (bytesAt w seg off) → x = s.peekW w seg off ∧ t.peekW w seg off = v)) ∧
    (readsAt i = some (w, m) → ∃ t x, exec i s = .next t ∧ SameCore s t ∧
      t.calls = answerCalls s w seg off x ++ s.calls ∧ SameMemory s t ∧
      (s.QuietMemory ∨ s.Stores (bytesAt w seg off) → x = s.peekW w seg off))

/-! ## The flags engine -/

/-- `SetSZP` (R32): ZF, SF and PF are those of the result and no other bit changes. `AddFlags`, `SubFlags` and
`LogicFlags` (R33 to R35), at both widths: the result
reduced modulo 2^N, carry and borrow from the unbounded value, overflow by the spec's formula, ZF, SF and PF
from the result, and every other bit of the word unchanged. -/
def Obligations.FlagsEngine : Prop :=
  ∀ (w : Width) (a b : BitVec w.bits) (c : Bool) (fl : Word),
    ((addFlags a b c fl).1.toNat = (a.toNat + b.toNat + c.toNat) % 2 ^ w.bits ∧
      StatusFlags (decide (2 ^ w.bits ≤ a.toNat + b.toNat + c.toNat))
        ((a ^^^ (addFlags a b c fl).1) &&& (b ^^^ (addFlags a b c fl).1)).msb
        (addFlags a b c fl).1 fl (addFlags a b c fl).2) ∧
    ((((subFlags a b c fl).1.toNat : Nat) : Int) =
        ((a.toNat : Int) - b.toNat - c.toNat) % 2 ^ w.bits ∧
      StatusFlags (decide ((a.toNat : Int) - b.toNat - c.toNat < 0))
        ((a ^^^ b) &&& (a ^^^ (subFlags a b c fl).1)).msb
        (subFlags a b c fl).1 fl (subFlags a b c fl).2) ∧
    StatusFlags false false a fl (logicFlags a fl) ∧
    (ResultFlags a (setSZP a fl) ∧ FlagsBut [.zf, .sf, .pf] fl (setSZP a fl))

/-- After a comparison of `a` with `b` the predicates read as orders (R31, R185): carry as below, `above`,
`below_or_equal`, `less` and `less_or_equal`, and ZF as equality. -/
def Obligations.ComparePredicates : Prop :=
  ∀ (w : Width) (a b : BitVec w.bits) (fl : Word),
    getFlag (subFlags a b false fl).2 .cf = decide (a.toNat < b.toNat) ∧
      above (subFlags a b false fl).2 = decide (b.toNat < a.toNat) ∧
      belowOrEqual (subFlags a b false fl).2 = decide (a.toNat ≤ b.toNat) ∧
      less (subFlags a b false fl).2 = decide (a.toInt < b.toInt) ∧
      lessOrEqual (subFlags a b false fl).2 = decide (a.toInt ≤ b.toInt) ∧
      getFlag (subFlags a b false fl).2 .zf = decide (a = b)

/-! ## Encoding -/

/-- Decoding the encoding of any well-formed instruction, whatever bytes follow, gives the instruction back
with its length (R105, R107, R112). -/
def Obligations.DecodeEncode : Prop :=
  ∀ (i : Instr) (rest : List Byte), i.WellFormed →
    decode (encode i ++ rest) = .ok i (encode i).length

/-- What is decoded is well formed and is 1 to 6 bytes long, and its encoding is those very bytes, so that
no two byte streams mean one instruction (R90, R111, R112). -/
def Obligations.EncodeDecode : Prop :=
  ∀ (b : Nat → Byte) (i : Instr) (n : Nat), decodeStream b = .ok i n →
    i.WellFormed ∧ 1 ≤ n ∧ n ≤ 6 ∧ encode i = (List.range n).map b

/-- Some words of the spec's own examples decode to what they stand for (R140, R141, R142, R180, R188,
R240, R262, R281, R315, R330). -/
def Obligations.DecodeWords : Prop :=
  decode [0xB8, 0x34, 0x12] = .ok (.movRegImm16 0 0x1234) 3 ∧
    decode [0x8A, 0x07] = .ok (.movRegRm .byte 0 (.base .bx)) 2 ∧
    decode [0xC7, 0x06, 0x00, 0x20, 0x34, 0x12] = .ok (.movRmImm16 (.direct 0x2000) 0x1234) 6 ∧
    decode [0x83, 0xC3, 0xFF] = .ok (.add (.rmSimm8 (.reg 3) 0xFF)) 3 ∧
    decode [0xF6, 0xD8] = .ok (.neg .byte (.reg 0)) 2 ∧
    decode [0xD2, 0xE0] = .ok (.shl .byte (.reg 0) .cl) 2 ∧
    decode [0xA4] = .ok .movsb 1 ∧
    decode [0xEB, 0xFE] = .ok (.jmpRel8 0xFE) 2 ∧
    decode [0xCD, 0x13] = .ok (.int 0x13) 2 ∧
    decode [0xF8] = .ok .clc 1 ∧
    decode [0x2E] = .ok .segCs 1

/-- An absent opcode byte or group slot raises DecodeError, which carries the opcode byte and the slot's
`reg` field (R106, R107, R370); so does the absent byte that the prefix loop fetches, at its first turn or
after any prefixes, when that byte alone has been fetched (R110). That the fault carries what the step has
done at the host, and that this stays, is the model's choice (log entry 13, DEDUCED): R82 says it of a failing
bus call. -/
def Obligations.AbsentRows : Prop :=
  (∀ (op : Byte) (s : State), exec (.absentOpcode op) s = .fault (.decodeError op none s.hostSide)) ∧
    (∀ (op : Byte) (m : RM) (reg : RegIx) (s : State),
      exec (.absentSlot op m reg) s = .fault (.decodeError op (some reg) s.hostSide)) ∧
    ∀ (n : Nat) (s u : State) (op : Byte), fetch8 s = (op, u) →
      op ∈ ([0x0F, 0x27, 0x2F, 0x37, 0x3F, 0x60, 0x61, 0x62, 0x63, 0x64, 0x65, 0x66, 0x67, 0x68,
        0x69, 0x6A, 0x6B, 0x6C, 0x6D, 0x6E, 0x6F, 0x9B, 0xC0, 0xC1, 0xC8, 0xC9, 0xD6, 0xD8, 0xD9, 0xDA,
        0xDB, 0xDC, 0xDD, 0xDE, 0xDF, 0xF0, 0xF1, 0xF2, 0xF4] : List Byte) →
      runLoop (n + 1) s = .fault (.decodeError op none u.hostSide)

/-- The forms refused by `mod` (R108) and by the Sreg field (R109) raise DecodeError: LEA, LES, LDS, far CALL
and far JMP with a register operand, 8C and 8E with a field of 4 to 7, and a load of CS; POP CS is absent
(R106). So do the terms of `Instr` that name such a form. Of a refused form the step has made nothing but
fetches (R110), whatever the host answers. That the fault carries what these have done at the host is the
model's choice (log entry 13). -/
def Obligations.RefusedForms : Prop :=
  (∀ (r i : RegIx) (m : RM) (s : State),
    exec (.lea r (.reg i)) s = .fault (.decodeError 0x8D none s.hostSide) ∧
      exec (.les r (.reg i)) s = .fault (.decodeError 0xC4 none s.hostSide) ∧
      exec (.lds r (.reg i)) s = .fault (.decodeError 0xC5 none s.hostSide) ∧
      exec (.callFarRm (.reg i)) s = .fault (.decodeError 0xFF (some 3) s.hostSide) ∧
      exec (.jmpFarRm (.reg i)) s = .fault (.decodeError 0xFF (some 5) s.hostSide) ∧
      exec (.movSregRm .cs m) s = .fault (.decodeError 0x8E none s.hostSide) ∧
      exec (.popSreg .cs) s = .fault (.decodeError 0x0F none s.hostSide)) ∧
  ∀ (n : Nat) (s u v : State) (op x : Byte) (md reg : Nat), fetch8 s = (op, u) → fetch8 u = (x, v) →
    md = x.toNat / 64 → reg = x.toNat / 8 % 8 →
    (op ∈ ([0x8D, 0xC4, 0xC5] : List Byte) ∧ md = 3 →
      ∃ k, runLoop (n + 1) s = .fault (.decodeError op none (fetchN k s).hostSide)) ∧
    (op = 0xFF ∧ (reg = 3 ∨ reg = 5) ∧ md = 3 →
      ∃ k, runLoop (n + 1) s =
        .fault (.decodeError 0xFF (some (BitVec.ofNat 3 reg)) (fetchN k s).hostSide)) ∧
    (op = 0x8C ∧ 4 ≤ reg → ∃ k, runLoop (n + 1) s = .fault (.decodeError 0x8C none (fetchN k s).hostSide)) ∧
    (op = 0x8E ∧ (4 ≤ reg ∨ reg = 1) →
      ∃ k, runLoop (n + 1) s = .fault (.decodeError 0x8E none (fetchN k s).hostSide)) ∧
    (op = 0x0F → ∃ k, runLoop (n + 1) s = .fault (.decodeError 0x0F none (fetchN k s).hostSide))

/-! ## The step -/

/-- Where the bytes that the step fetches at CS:IP decode to an instruction that is no prefix, the step is that
instruction run where its bytes have been fetched: IP is past them, and the decode-time state is cleared when
it ends (R91, R94, R112). On a host whose devices have no side effects they are the bytes of memory at CS:IP:
where those decode to an instruction that has not been taken out of `DISPATCH`, the step fetches it, its reads
are the first bus calls, and nothing else has changed; where they name a slot that has been taken out, the step
raises DecodeError (R106). What that fault carries of the host is the model's choice (log entry 13). -/
def Obligations.StepRunsInstruction : Prop :=
  ∀ (s : State) (i : Instr) (len : Nat), s.status = .running → i.isPrefix = false →
    (∀ u, fetchInstr { s with calls := [] } = (.ok i len, u) →
      u.cpu = { s.cpu with ip := s.cpu.ip + BitVec.ofNat 16 len } ∧ SameCore s u ∧
        step s =
          match exec i u with
          | .next t => .next { t with segOverride := none, repeatState := false }
          | .fault e => .fault e
          | .refused r => .refused r) ∧
    (s.QuietMemory → decodeStream s.code = .ok i len → isRemoved s.params.removedSlots s.code = false →
      ∃ u, fetchInstr { s with calls := [] } = (.ok i len, u) ∧
        u.calls = readCalls s (codeAddrs s.cpu.cs s.cpu.ip len) ∧ u.bus = s.bus ∧ SameRest s u) ∧
    (s.QuietMemory → isRemoved s.params.removedSlots s.code = true →
      ∃ left, step s = .fault (.decodeError (s.code 0) (streamSlot s.code).2 left) ∧ left.bus = s.bus)

/-- A chain of fewer than 65536 prefix bytes and the instruction after it are one step: each prefix sets its
part of the decode-time state and adds 1 to IP, and the instruction runs with what they set (R91 to R94). A
refused form, or a slot taken out of `DISPATCH`, behind them raises DecodeError (R106, R110); what that fault
carries of the host is the model's choice (log entry 13). This is so whatever the host does; where its devices
have no side effects nothing at it has changed. -/
def Obligations.PrefixChain : Prop :=
  ∀ (k : Nat) (s u : State) (d : Decoded), s.status = .running → k < prefixBound →
    Reaches k { s with calls := [] } d u →
    u.cpu = { s.cpu with ip := s.cpu.ip + BitVec.ofNat 16 (k + d.length) } ∧ u.params = s.params ∧
      u.bus.attached = s.bus.attached ∧ (s.QuietMemory → u.bus = s.bus) ∧
      (∀ i n, d = .ok i n → n = (encode i).length ∧
        (∀ t, exec i u = .next t → step s = .next { t with segOverride := none, repeatState := false }) ∧
        (∀ e, exec i u = .fault e → step s = .fault e)) ∧
      (∀ op slot n, d = .refusedForm op slot n → step s = .fault (.decodeError op slot u.hostSide))

/-- A code segment in which every byte is a prefix byte gives no step a normal return (R397). The named fault
in its place is the model's choice (log entry 12). Stated for a host whose devices have no side effects on
memory accesses (log entry 1). -/
def Obligations.PrefixHang : Prop :=
  ∀ s : State, s.status = .running → s.QuietMemory →
    (∀ off : Word, s.peek8 s.cpu.cs off ∈ ([0x26, 0x2E, 0x36, 0x3E, 0xF3] : List Byte)) →
    step s = .fault .prefixLoop

/-- A step is refused after an error or after `shutdown` and at no other time (R392, R393), and
`runInstruction` is undefined there and where the step never ends (R397), and at no other time. It gives back
the step's cost or its typed error (R43, R393). After an error the error status stands and no step is made;
what the step did at the host stays after HostProtocolError (R82) and, by the model's choice, after DecodeError
(log entry 13); the core's own registers hold free values (log entry 17).
HostProtocolError comes from the host alone (R371): an attached bus failed the last bus call. An instruction
of the table that accesses no port and takes no interrupt completes whatever the state and the host. -/
def Obligations.StepOutcomes : Prop :=
  (∀ s : State,
    ((∃ r, step s = .refused r) ↔ s.status ≠ .running) ∧
      (s.runInstruction = none ↔ s.status ≠ .running ∨ step s = .fault .prefixLoop) ∧
      (∀ t, step s = .next t → s.runInstruction = some (.cost t.cost, t)) ∧
      (∀ op slot left, step s = .fault (.decodeError op slot left) →
        ∃ t, s.runInstruction = some (.error (.decodeError op slot), t) ∧
          t.status = .error (.decodeError op slot) ∧ t.bus = left.bus ∧ t.calls = left.calls ∧
          t.params = s.params ∧ t.runInstruction = none) ∧
      (∀ left, step s = .fault (.hostProtocolError left) →
        left.bus.attached = true ∧ HostFailed left.calls ∧
          ∃ t, s.runInstruction = some (.error .hostProtocolError, t) ∧
            t.status = .error .hostProtocolError ∧ t.bus = left.bus ∧ t.calls = left.calls ∧
            t.params = s.params ∧ t.runInstruction = none)) ∧
  ∀ (i : Instr) (s : State), i.WellFormed → isAbsentRow i = false → accessesPort i = false →
    mayInterrupt i = false → ∃ t, exec i s = .next t

/-- The prefix rows complete: each sets its part of the decode-time state and nothing else (R92). -/
def Obligations.PrefixRows : Prop :=
  ∀ s : State,
    exec .segEs s = .next { s with segOverride := some .es } ∧
      exec .segCs s = .next { s with segOverride := some .cs } ∧
      exec .segSs s = .next { s with segOverride := some .ss } ∧
      exec .segDs s = .next { s with segOverride := some .ds } ∧
      exec .rep s = .next { s with repeatState := true }

/-! ## Data movement -/

/-- MOV between r/m and a register (R140), and of an immediate to r/m and to a register (R141, R142); MOV
r16, imm16 costs 4 (R401). Stated for a host whose devices have no side effects on memory accesses; that what
is written to plain memory reads back is log entry 1. -/
def Obligations.MovForms : Prop :=
  ∀ (w : Width) (m : RM) (r : RegIx) (b : Byte) (v : Word) (s : State), s.QuietMemory →
    (∃ t, exec (.movRmReg w m r) s = .next t ∧ SameRest s t ∧
      Assigned w (resolve m s) (getReg s.cpu w r) s.cpu.flags s t) ∧
    (∃ t, exec (.movRegRm w r m) s = .next t ∧ SameRest s t ∧
      Assigned w (.reg r) (s.value w (resolve m s)) s.cpu.flags s t) ∧
    (∃ t, exec (.movRmImm8 m b) s = .next t ∧ SameRest s t ∧
      Assigned .byte (resolve m s) b s.cpu.flags s t) ∧
    (∃ t, exec (.movRmImm16 m v) s = .next t ∧ SameRest s t ∧
      Assigned .word (resolve m s) v s.cpu.flags s t) ∧
    (∃ t, exec (.movRegImm8 r b) s = .next t ∧ SameRest s t ∧
      OnlyCpu (putReg8 s.cpu (Reg8.ofIx r) b) s t) ∧
    (∃ t, exec (.movRegImm16 r v) s = .next t ∧ SameRest s t ∧
      OnlyCpu (putReg16 s.cpu (Reg16.ofIx r) v) s t ∧ t.cost = 4)

/-- MOV between the accumulator and a direct address in DS or the override (R143), and between r/m16 and a
segment register other than a load of CS (R144). Stated for a host whose devices have no side effects on
memory accesses; that what is written to plain memory reads back is log entry 1. -/
def Obligations.MovAccumulatorSegment : Prop :=
  ∀ (w : Width) (off : Word) (m : RM) (sr : Sreg) (s : State), s.QuietMemory →
    (∃ t, exec (.movAccMoffs w off) s = .next t ∧ SameRest s t ∧
      OnlyCpu (putReg s.cpu w 0 (s.peekW w (segFor .ds s) off)) s t) ∧
    (∃ t, exec (.movMoffsAcc w off) s = .next t ∧ SameRest s t ∧
      Assigned w (.mem (segFor .ds s) off) (getReg s.cpu w 0) s.cpu.flags s t) ∧
    (∃ t, exec (.movRmSreg m sr) s = .next t ∧ SameRest s t ∧
      Assigned .word (resolve m s) (getSreg s.cpu sr) s.cpu.flags s t) ∧
    (sr ≠ .cs → ∃ t, exec (.movSregRm sr m) s = .next t ∧ SameRest s t ∧
      OnlyCpu (putSreg s.cpu sr (s.value .word (resolve m s))) s t)

/-- PUSH of a register, of r/m16 and of a segment register, and PUSHF (R145, R146, R147, R162). PUSH SP
pushes the decremented value. Stated for a host whose devices have no side effects on memory accesses; that
what is written to plain memory reads back is log entry 1. -/
def Obligations.PushForms : Prop :=
  ∀ (r : RegIx) (m : RM) (sr : Sreg) (s : State), s.QuietMemory →
    (∃ t, exec (.pushReg r) s = .next t ∧ SameRest s t ∧
      Pushed (if r = 4 then s.cpu.sp - 2 else getReg s.cpu .word r) { s.cpu with sp := s.cpu.sp - 2 } s t) ∧
    (∃ t, exec (.pushRm m) s = .next t ∧ SameRest s t ∧
      Pushed (if m = .reg 4 then s.cpu.sp - 2 else s.value .word (resolve m s))
        { s.cpu with sp := s.cpu.sp - 2 } s t) ∧
    (∃ t, exec (.pushSreg sr) s = .next t ∧ SameRest s t ∧
      Pushed (getSreg s.cpu sr) { s.cpu with sp := s.cpu.sp - 2 } s t) ∧
    (∃ t, exec .pushf s = .next t ∧ SameRest s t ∧
      Pushed s.cpu.flags { s.cpu with sp := s.cpu.sp - 2 } s t)

/-- POP of a register, of r/m16, of a segment register other than CS, and POPF (R148, R149, R150, R163). POP
SP leaves the word read; the operand of POP r/m16 is resolved before the pop; POPF applies the masks of R29.
Stated for a host whose devices have no side effects on memory accesses; that what is written to plain memory
reads back is log entry 1. -/
def Obligations.PopForms : Prop :=
  ∀ (r : RegIx) (m : RM) (sr : Sreg) (s : State) (v : Word), s.QuietMemory →
    v = s.peek16 s.cpu.ss s.cpu.sp →
    (∃ t, exec (.popReg r) s = .next t ∧ SameRest s t ∧
      OnlyCpu (putReg16 { s.cpu with sp := s.cpu.sp + 2 } (Reg16.ofIx r) v) s t) ∧
    (∃ t, exec (.popRm m) s = .next t ∧ SameRest s t ∧
      Assigned .word (resolve m s) v s.cpu.flags (s.withSp (s.cpu.sp + 2)) t) ∧
    (sr ≠ .cs → ∃ t, exec (.popSreg sr) s = .next t ∧ SameRest s t ∧
      OnlyCpu (putSreg { s.cpu with sp := s.cpu.sp + 2 } sr v) s t) ∧
    (∃ t, exec .popf s = .next t ∧ SameRest s t ∧
      OnlyCpu { s.cpu with sp := s.cpu.sp + 2
                           flags := (v &&& ~~~s.params.zeroMask) ||| s.params.onesMask } s t)

/-- XCHG, NOP and XLAT (R151 to R154). Stated for a host whose devices have no side effects on memory
accesses; that what is written to plain memory reads back is log entry 1. -/
def Obligations.XchgNopXlat : Prop :=
  ∀ (w : Width) (i r : RegIx) (m : RM) (seg off : Word) (s : State), s.QuietMemory →
    (∃ t, exec (.xchgRmReg w (.reg i) r) s = .next t ∧ SameRest s t ∧
      OnlyCpu (putReg (putReg s.cpu w i (getReg s.cpu w r)) w r (getReg s.cpu w i)) s t) ∧
    (resolve m s = .mem seg off → ∃ t, exec (.xchgRmReg w m r) s = .next t ∧ SameRest s t ∧
      t.cpu = putReg s.cpu w r (s.peekW w seg off) ∧
      (s.Stores (bytesAt w seg off) → t.peekW w seg off = getReg s.cpu w r) ∧
      SameMemoryBut (bytesAt w seg off) s t) ∧
    (∃ t, exec (.xchgAxReg r) s = .next t ∧ SameRest s t ∧
      OnlyCpu (putReg16 { s.cpu with ax := getReg16 s.cpu (Reg16.ofIx r) } (Reg16.ofIx r) s.cpu.ax) s t) ∧
    (∃ t, exec .nop s = .next t ∧ SameRest s t ∧ OnlyCpu s.cpu s t) ∧
    (∃ t, exec .xlat s = .next t ∧ SameRest s t ∧
      OnlyCpu (putReg8 s.cpu .al (s.peek8 (segFor .ds s)
        (s.cpu.bx + (getReg8 s.cpu .al).zeroExtend 16))) s t)

/-- IN (R155, R72, R82) from an immediate port or DX. It completes where no bus is attached, with 0, and
where the host refuses none of its ports, with the bytes the host answers (any byte where the state lists
none, log entry 8), the low byte from the lower port and read first. It ends in HostProtocolError where the
host refuses the first of its ports, and in the word form, after the first port has been read, where the host
refuses the second; nothing at the host has then changed but the calls made. At a port with a device that has
side effects it does one or the other (R399), in the word form at either port: it completes with the bytes
answered, or the last call made is the one that was refused. -/
def Obligations.InPort : Prop :=
  ∀ (i : Instr) (w : Width) (b : Byte) (p : Word) (s : State),
    (i = .inImm w b ∧ p = b.zeroExtend 16) ∨ (i = .inDx w ∧ p = s.cpu.dx) →
    (s.bus.attached = false → ∃ t, exec i s = .next t ∧ SameRest s t ∧ t.calls = s.calls ∧
      OnlyCpu (putReg s.cpu w 0 0) s t) ∧
    (w = .byte → s.bus.attached = true → s.PassivePort p → p ∉ s.bus.devices.refusedIn →
      ∃ t x, exec i s = .next t ∧ SameRest s t ∧ OnlyCpu (putReg8 s.cpu .al x) s t ∧
        t.calls = .portIn p x :: s.calls ∧
        (∀ y, s.bus.devices.portInputs.lookup p = some y → x = y)) ∧
    (w = .word → s.bus.attached = true → s.PassivePort p → s.PassivePort (p + 1) →
      p ∉ s.bus.devices.refusedIn → p + 1 ∉ s.bus.devices.refusedIn →
      ∃ t lo hi, exec i s = .next t ∧ SameRest s t ∧ OnlyCpu { s.cpu with ax := wordOf lo hi } s t ∧
        t.calls = .portIn (p + 1) hi :: .portIn p lo :: s.calls ∧
        (∀ y, s.bus.devices.portInputs.lookup p = some y → lo = y) ∧
        (∀ y, s.bus.devices.portInputs.lookup (p + 1) = some y → hi = y)) ∧
    (s.bus.attached = true → s.PassivePort p → p ∈ s.bus.devices.refusedIn →
      ∃ left, exec i s = .fault (.hostProtocolError left) ∧ left.bus = s.bus ∧
        left.calls = .portInRefused p :: s.calls) ∧
    (w = .word → s.bus.attached = true → s.PassivePort p → s.PassivePort (p + 1) →
      p ∉ s.bus.devices.refusedIn → p + 1 ∈ s.bus.devices.refusedIn →
      ∃ left lo, exec i s = .fault (.hostProtocolError left) ∧ left.bus = s.bus ∧
        left.calls = .portInRefused (p + 1) :: .portIn p lo :: s.calls ∧
        (∀ y, s.bus.devices.portInputs.lookup p = some y → lo = y)) ∧
    (w = .byte → s.bus.attached = true → p ∈ s.bus.devices.activePorts →
      (∃ t x, exec i s = .next t ∧ SameCore s t ∧ OnlyCpu (putReg8 s.cpu .al x) s t ∧
        t.calls = .portIn p x :: s.calls) ∨
      ∃ left, exec i s = .fault (.hostProtocolError left) ∧ left.bus.mem = s.bus.mem ∧
        left.calls = .portInRefused p :: s.calls) ∧
    (w = .word → s.bus.attached = true → p ∈ s.bus.devices.activePorts →
      (∃ t lo hi, exec i s = .next t ∧ SameCore s t ∧ OnlyCpu { s.cpu with ax := wordOf lo hi } s t ∧
        t.calls = .portIn (p + 1) hi :: .portIn p lo :: s.calls) ∨
      (∃ left lo, exec i s = .fault (.hostProtocolError left) ∧ left.bus.mem = s.bus.mem ∧
        left.calls = .portInRefused (p + 1) :: .portIn p lo :: s.calls) ∨
      ∃ left, exec i s = .fault (.hostProtocolError left) ∧ left.bus.mem = s.bus.mem ∧
        left.calls = .portInRefused p :: s.calls) ∧
    (w = .word → s.bus.attached = true → s.PassivePort p → p ∉ s.bus.devices.refusedIn →
      p + 1 ∈ s.bus.devices.activePorts →
      ∃ lo, (∀ y, s.bus.devices.portInputs.lookup p = some y → lo = y) ∧
        ((∃ t hi, exec i s = .next t ∧ SameCore s t ∧ OnlyCpu { s.cpu with ax := wordOf lo hi } s t ∧
          t.calls = .portIn (p + 1) hi :: .portIn p lo :: s.calls) ∨
        ∃ left, exec i s = .fault (.hostProtocolError left) ∧ left.bus.mem = s.bus.mem ∧
          left.calls = .portInRefused (p + 1) :: .portIn p lo :: s.calls))

/-- OUT (R156, R72, R82) to an immediate port or DX. It completes with no register or memory changed where
no bus is attached or the host refuses none of its writes, the low byte going to the lower port first. It ends
in HostProtocolError where the host refuses the first of them, and in the word form, after the first byte has
been written, where the host refuses the second; nothing at the host has then changed but the calls made. At a
port with a device that has side effects it does one or the other (R399), in the word form at either port: it
completes, or the last call made is the one that was refused. -/
def Obligations.OutPort : Prop :=
  ∀ (i : Instr) (w : Width) (b : Byte) (p : Word) (s : State),
    (i = .outImm w b ∧ p = b.zeroExtend 16) ∨ (i = .outDx w ∧ p = s.cpu.dx) →
    (s.bus.attached = false → ∃ t, exec i s = .next t ∧ SameRest s t ∧ t.calls = s.calls ∧
      OnlyCpu s.cpu s t) ∧
    (w = .byte → s.bus.attached = true → s.PassivePort p →
      (p, getReg8 s.cpu .al) ∉ s.bus.devices.refusedOut →
      ∃ t, exec i s = .next t ∧ SameRest s t ∧ OnlyCpu s.cpu s t ∧
        t.calls = .portOut p (getReg8 s.cpu .al) :: s.calls) ∧
    (w = .word → s.bus.attached = true → s.PassivePort p → s.PassivePort (p + 1) →
      (p, getReg8 s.cpu .al) ∉ s.bus.devices.refusedOut →
      (p + 1, getReg8 s.cpu .ah) ∉ s.bus.devices.refusedOut →
      ∃ t, exec i s = .next t ∧ SameRest s t ∧ OnlyCpu s.cpu s t ∧
        t.calls = .portOut (p + 1) (getReg8 s.cpu .ah) :: .portOut p (getReg8 s.cpu .al) :: s.calls) ∧
    (s.bus.attached = true → s.PassivePort p → (p, getReg8 s.cpu .al) ∈ s.bus.devices.refusedOut →
      ∃ left, exec i s = .fault (.hostProtocolError left) ∧ left.bus = s.bus ∧
        left.calls = .portOutRefused p (getReg8 s.cpu .al) :: s.calls) ∧
    (w = .word → s.bus.attached = true → s.PassivePort p → s.PassivePort (p + 1) →
      (p, getReg8 s.cpu .al) ∉ s.bus.devices.refusedOut →
      (p + 1, getReg8 s.cpu .ah) ∈ s.bus.devices.refusedOut →
      ∃ left, exec i s = .fault (.hostProtocolError left) ∧ left.bus = s.bus ∧
        left.calls = .portOutRefused (p + 1) (getReg8 s.cpu .ah) :: .portOut p (getReg8 s.cpu .al) ::
          s.calls) ∧
    (w = .byte → s.bus.attached = true → p ∈ s.bus.devices.activePorts →
      (∃ t, exec i s = .next t ∧ SameCore s t ∧ OnlyCpu s.cpu s t ∧
        t.calls = .portOut p (getReg8 s.cpu .al) :: s.calls) ∨
      ∃ left, exec i s = .fault (.hostProtocolError left) ∧ left.bus.mem = s.bus.mem ∧
        left.calls = .portOutRefused p (getReg8 s.cpu .al) :: s.calls) ∧
    (w = .word → s.bus.attached = true →
      p ∈ s.bus.devices.activePorts ∨
        (s.PassivePort p ∧ (p, getReg8 s.cpu .al) ∉ s.bus.devices.refusedOut ∧
          p + 1 ∈ s.bus.devices.activePorts) →
      (∃ t, exec i s = .next t ∧ SameCore s t ∧ OnlyCpu s.cpu s t ∧
        t.calls = .portOut (p + 1) (getReg8 s.cpu .ah) :: .portOut p (getReg8 s.cpu .al) :: s.calls) ∨
      (∃ left, exec i s = .fault (.hostProtocolError left) ∧ left.bus.mem = s.bus.mem ∧
        left.calls = .portOutRefused (p + 1) (getReg8 s.cpu .ah) :: .portOut p (getReg8 s.cpu .al) ::
          s.calls) ∨
      (p ∈ s.bus.devices.activePorts ∧ ∃ left, exec i s = .fault (.hostProtocolError left) ∧
        left.bus.mem = s.bus.mem ∧ left.calls = .portOutRefused p (getReg8 s.cpu .al) :: s.calls))

/-- LEA loads the effective offset and reads no memory; LDS and LES load a register and DS or ES from the two
words of a far pointer, both read through the old registers (R157 to R159). Stated for a host whose devices
have no side effects on memory accesses (log entry 1). -/
def Obligations.AddressLoads : Prop :=
  ∀ (r : RegIx) (m : RM) (seg off : Word) (s : State), s.QuietMemory →
    resolve m s = .mem seg off →
    (∃ t, exec (.lea r m) s = .next t ∧ SameRest s t ∧ t.calls = s.calls ∧
      OnlyCpu (putReg16 s.cpu (Reg16.ofIx r) off) s t) ∧
    (∃ t, exec (.lds r m) s = .next t ∧ SameRest s t ∧
      OnlyCpu { putReg16 s.cpu (Reg16.ofIx r) (s.peek16 seg off) with ds := s.peek16 seg (off + 2) } s t) ∧
    (∃ t, exec (.les r m) s = .next t ∧ SameRest s t ∧
      OnlyCpu { putReg16 s.cpu (Reg16.ofIx r) (s.peek16 seg off) with es := s.peek16 seg (off + 2) } s t)

/-- LAHF copies the low byte of FLAGS to AH; SAHF loads SF, ZF, bit 4, PF and CF from AH and keeps every
other bit (R160, R161). -/
def Obligations.FlagTransfers : Prop :=
  ∀ s : State,
    (∃ t, exec .lahf s = .next t ∧ SameRest s t ∧
      OnlyCpu (putReg8 s.cpu .ah (lowByte s.cpu.flags)) s t) ∧
    (∃ t fl, exec .sahf s = .next t ∧ SameRest s t ∧ OnlyCpu { s.cpu with flags := fl } s t ∧
      getFlag fl .sf = (getReg8 s.cpu .ah).getLsbD 7 ∧ getFlag fl .zf = (getReg8 s.cpu .ah).getLsbD 6 ∧
      getFlag fl .af = (getReg8 s.cpu .ah).getLsbD 4 ∧ getFlag fl .pf = (getReg8 s.cpu .ah).getLsbD 2 ∧
      getFlag fl .cf = (getReg8 s.cpu .ah).getLsbD 0 ∧
      FlagsBut [.sf, .zf, .af, .pf, .cf] s.cpu.flags fl)

/-! ## Arithmetic -/

/-- ADD and ADC in every form (R180 to R182): the destination takes the sum, with the old carry for ADC; CF
is the carry out of the width and OF holds where the signed sum is out of range. Stated for a host whose
devices have no side effects on memory accesses; that what is written to plain memory reads back is log entry
1. -/
def Obligations.AddAdc : Prop :=
  ∀ (f : AluForm) (s : State) (i : Instr) (c : Bool), s.QuietMemory →
    (i = .add f ∧ c = false) ∨ (i = .adc f ∧ c = getFlag s.cpu.flags .cf) →
    ∃ t r fl, exec i s = .next t ∧ SameRest s t ∧
      r.toNat = ((s.value (aluWidth f) (aluDst f s)).toNat + (s.value (aluWidth f) (aluSrc f s)).toNat +
        c.toNat) % 2 ^ (aluWidth f).bits ∧
      StatusFlags
        (decide (2 ^ (aluWidth f).bits ≤ (s.value (aluWidth f) (aluDst f s)).toNat +
          (s.value (aluWidth f) (aluSrc f s)).toNat + c.toNat))
        (outOfRange (aluWidth f).bits ((s.value (aluWidth f) (aluDst f s)).toInt +
          (s.value (aluWidth f) (aluSrc f s)).toInt + c.toNat))
        r s.cpu.flags fl ∧
      Assigned (aluWidth f) (aluDst f s) r fl s t

/-- SUB and SBB in every form, and CMP, which writes the flags of SUB and nothing else (R180, R183 to R185):
CF is the borrow and OF holds where the signed difference is out of range. Stated for a host whose devices
have no side effects on memory accesses; that what is written to plain memory reads back is log entry 1. -/
def Obligations.SubSbbCmp : Prop :=
  ∀ (f : AluForm) (s : State) (i : Instr) (c : Bool), s.QuietMemory →
    (i = .sub f ∧ c = false) ∨ (i = .sbb f ∧ c = getFlag s.cpu.flags .cf) ∨ (i = .cmp f ∧ c = false) →
    ∃ t r fl, exec i s = .next t ∧ SameRest s t ∧
      ((r.toNat : Nat) : Int) = (((s.value (aluWidth f) (aluDst f s)).toNat : Int) -
        (s.value (aluWidth f) (aluSrc f s)).toNat - c.toNat) % 2 ^ (aluWidth f).bits ∧
      StatusFlags
        (decide ((s.value (aluWidth f) (aluDst f s)).toNat <
          (s.value (aluWidth f) (aluSrc f s)).toNat + c.toNat))
        (outOfRange (aluWidth f).bits ((s.value (aluWidth f) (aluDst f s)).toInt -
          (s.value (aluWidth f) (aluSrc f s)).toInt - c.toNat))
        r s.cpu.flags fl ∧
      (i = .cmp f → OnlyCpu { s.cpu with flags := fl } s t) ∧
      (i ≠ .cmp f → Assigned (aluWidth f) (aluDst f s) r fl s t)

/-- AND, OR and XOR in every form (R230 to R232), and TEST, which writes the flags of AND and nothing else
(R233): CF and OF are cleared. Stated for a host whose devices have no side effects on memory accesses; that
what is written to plain memory reads back is log entry 1. -/
def Obligations.AndOrXorTest : Prop :=
  (∀ (f : AluForm) (s : State) (i : Instr) (r : BitVec (aluWidth f).bits), s.QuietMemory →
    (i = .and f ∧ r = s.value (aluWidth f) (aluDst f s) &&& s.value (aluWidth f) (aluSrc f s)) ∨
    (i = .or f ∧ r = s.value (aluWidth f) (aluDst f s) ||| s.value (aluWidth f) (aluSrc f s)) ∨
    (i = .xor f ∧ r = s.value (aluWidth f) (aluDst f s) ^^^ s.value (aluWidth f) (aluSrc f s)) →
    ∃ t fl, exec i s = .next t ∧ SameRest s t ∧ StatusFlags false false r s.cpu.flags fl ∧
      Assigned (aluWidth f) (aluDst f s) r fl s t) ∧
  (∀ (f : TestForm) (s : State), s.QuietMemory →
    ∃ t fl, exec (.test f) s = .next t ∧ SameRest s t ∧
      StatusFlags false false
        (s.value (testWidth f) (testFst f s) &&& s.value (testWidth f) (testSnd f)) s.cpu.flags fl ∧
      OnlyCpu { s.cpu with flags := fl } s t)

/-- INC and DEC of a register and of r/m (R186, R187) keep CF; NEG subtracts from 0 (R188); NOT inverts and
writes no flag (R234). Stated for a host whose devices have no side effects on memory accesses; that what is
written to plain memory reads back is log entry 1. -/
def Obligations.IncDecNegNot : Prop :=
  ∀ (w : Width) (m : RM) (s : State) (i : Instr) (o : Operand), s.QuietMemory →
    ((i = .incRm w m ∧ o = resolve m s) ∨ (∃ r, i = .incReg r ∧ w = .word ∧ o = .reg r) →
      ∃ t fl, exec i s = .next t ∧ SameRest s t ∧
        StatusFlags (getFlag s.cpu.flags .cf) (outOfRange w.bits ((s.value w o).toInt + 1))
          (s.value w o + 1) s.cpu.flags fl ∧
        Assigned w o (s.value w o + 1) fl s t) ∧
    ((i = .decRm w m ∧ o = resolve m s) ∨ (∃ r, i = .decReg r ∧ w = .word ∧ o = .reg r) →
      ∃ t fl, exec i s = .next t ∧ SameRest s t ∧
        StatusFlags (getFlag s.cpu.flags .cf) (outOfRange w.bits ((s.value w o).toInt - 1))
          (s.value w o - 1) s.cpu.flags fl ∧
        Assigned w o (s.value w o - 1) fl s t) ∧
    (∃ t fl, exec (.neg w m) s = .next t ∧ SameRest s t ∧
      StatusFlags (decide (s.value w (resolve m s) ≠ 0))
        (decide (s.value w (resolve m s) = BitVec.ofNat w.bits (2 ^ (w.bits - 1))))
        (-(s.value w (resolve m s))) s.cpu.flags fl ∧
      Assigned w (resolve m s) (-(s.value w (resolve m s))) fl s t) ∧
    (∃ t, exec (.not w m) s = .next t ∧ SameRest s t ∧
      Assigned w (resolve m s) (~~~(s.value w (resolve m s))) s.cpu.flags s t)

/-- MUL and IMUL (R189, R190): AX, or DX:AX, takes the product; CF and OF both say whether the upper half
matters; SF, ZF and PF may be anything and the other bits of FLAGS are unchanged. Stated for a host whose
devices have no side effects on memory accesses (log entry 1). -/
def Obligations.MulImul : Prop :=
  ∀ (m : RM) (s : State), s.QuietMemory →
    (∀ p, p = (getReg8 s.cpu .al).toNat * (s.value .byte (resolve m s)).toNat →
      ∃ t fl, exec (.mul .byte m) s = .next t ∧ SameRest s t ∧
        OnlyCpu { s.cpu with ax := BitVec.ofNat 16 p, flags := fl } s t ∧
        getFlag fl .cf = decide (256 ≤ p) ∧ getFlag fl .of = decide (256 ≤ p) ∧
        FlagsBut [.cf, .of, .sf, .zf, .pf] s.cpu.flags fl) ∧
    (∀ p, p = s.cpu.ax.toNat * (s.value .word (resolve m s)).toNat →
      ∃ t fl, exec (.mul .word m) s = .next t ∧ SameRest s t ∧
        OnlyCpu { s.cpu with dx := BitVec.ofNat 16 (p / 65536), ax := BitVec.ofNat 16 p, flags := fl } s t ∧
        getFlag fl .cf = decide (65536 ≤ p) ∧ getFlag fl .of = decide (65536 ≤ p) ∧
        FlagsBut [.cf, .of, .sf, .zf, .pf] s.cpu.flags fl) ∧
    (∀ p, p = (getReg8 s.cpu .al).toInt * (s.value .byte (resolve m s)).toInt →
      ∃ t fl, exec (.imul .byte m) s = .next t ∧ SameRest s t ∧
        OnlyCpu { s.cpu with ax := BitVec.ofInt 16 p, flags := fl } s t ∧
        getFlag fl .cf = outOfRange 8 p ∧ getFlag fl .of = outOfRange 8 p ∧
        FlagsBut [.cf, .of, .sf, .zf, .pf] s.cpu.flags fl) ∧
    (∀ p, p = s.cpu.ax.toInt * (s.value .word (resolve m s)).toInt →
      ∃ t fl, exec (.imul .word m) s = .next t ∧ SameRest s t ∧
        OnlyCpu { s.cpu with dx := BitVec.ofInt 16 (p / 65536), ax := BitVec.ofInt 16 p, flags := fl } s t ∧
        getFlag fl .cf = outOfRange 16 p ∧ getFlag fl .of = outOfRange 16 p ∧
        FlagsBut [.cf, .of, .sf, .zf, .pf] s.cpu.flags fl)

/-- DIV and IDIV where the divisor is not 0 and the quotient fits (R191, R192): quotient and remainder go to
AL and AH, or AX and DX; IDIV truncates toward zero; the five status flags may be anything and the other bits
of FLAGS are unchanged. Stated for a host whose devices have no side effects on memory accesses (log entry
1). -/
def Obligations.DivIdiv : Prop :=
  ∀ (m : RM) (s : State), s.QuietMemory →
    (∀ n d, n = s.cpu.ax.toNat → d = (s.value .byte (resolve m s)).toNat → d ≠ 0 → n / d ≤ 0xFF →
      ∃ t fl, exec (.div .byte m) s = .next t ∧ SameRest s t ∧
        OnlyCpu { s.cpu with ax := wordOf (BitVec.ofNat 8 (n / d)) (BitVec.ofNat 8 (n % d))
                             flags := fl } s t ∧
        FlagsBut [.cf, .of, .sf, .zf, .pf] s.cpu.flags fl) ∧
    (∀ n d, n = s.cpu.dx.toNat * 65536 + s.cpu.ax.toNat → d = (s.value .word (resolve m s)).toNat →
      d ≠ 0 → n / d ≤ 0xFFFF →
      ∃ t fl, exec (.div .word m) s = .next t ∧ SameRest s t ∧
        OnlyCpu { s.cpu with ax := BitVec.ofNat 16 (n / d), dx := BitVec.ofNat 16 (n % d)
                             flags := fl } s t ∧
        FlagsBut [.cf, .of, .sf, .zf, .pf] s.cpu.flags fl) ∧
    (∀ n d : Int, n = s.cpu.ax.toInt → d = (s.value .byte (resolve m s)).toInt → d ≠ 0 →
      n.tdiv d ≤ 127 → (if s.params.idivSymmetricMin then -127 else -128) ≤ n.tdiv d →
      ∃ t fl, exec (.idiv .byte m) s = .next t ∧ SameRest s t ∧
        OnlyCpu { s.cpu with ax := wordOf (BitVec.ofInt 8 (n.tdiv d)) (BitVec.ofInt 8 (n.tmod d))
                             flags := fl } s t ∧
        FlagsBut [.cf, .of, .sf, .zf, .pf] s.cpu.flags fl) ∧
    (∀ n d : Int, n = s.cpu.dx.toInt * 65536 + s.cpu.ax.toNat → d = (s.value .word (resolve m s)).toInt →
      d ≠ 0 → n.tdiv d ≤ 32767 → (if s.params.idivSymmetricMin then -32767 else -32768) ≤ n.tdiv d →
      ∃ t fl, exec (.idiv .word m) s = .next t ∧ SameRest s t ∧
        OnlyCpu { s.cpu with ax := BitVec.ofInt 16 (n.tdiv d), dx := BitVec.ofInt 16 (n.tmod d)
                             flags := fl } s t ∧
        FlagsBut [.cf, .of, .sf, .zf, .pf] s.cpu.flags fl)

/-- The divide error (R191, R192, R195, R361): a zero divisor or a quotient that does not fit is
`Interrupt(0)`, taken after the operand has been read and with no register or flag written before it. Stated
for a host whose devices have no side effects on memory accesses (log entry 1). -/
def Obligations.DivideError : Prop :=
  ∀ (m : RM) (s : State), s.QuietMemory →
    (s.value .byte (resolve m s) = 0 ∨ 0xFF < s.cpu.ax.toNat / (s.value .byte (resolve m s)).toNat →
      exec (.div .byte m) s = interrupt 0 (s.noteReads ((resolve m s).bytes .byte))) ∧
    (s.value .word (resolve m s) = 0 ∨
      0xFFFF < (s.cpu.dx.toNat * 65536 + s.cpu.ax.toNat) / (s.value .word (resolve m s)).toNat →
      exec (.div .word m) s = interrupt 0 (s.noteReads ((resolve m s).bytes .word))) ∧
    (∀ q, q = s.cpu.ax.toInt.tdiv (s.value .byte (resolve m s)).toInt →
      s.value .byte (resolve m s) = 0 ∨ 127 < q ∨
        q < (if s.params.idivSymmetricMin then -127 else -128) →
      exec (.idiv .byte m) s = interrupt 0 (s.noteReads ((resolve m s).bytes .byte))) ∧
    (∀ q, q = (s.cpu.dx.toInt * 65536 + s.cpu.ax.toNat).tdiv (s.value .word (resolve m s)).toInt →
      s.value .word (resolve m s) = 0 ∨ 32767 < q ∨
        q < (if s.params.idivSymmetricMin then -32767 else -32768) →
      exec (.idiv .word m) s = interrupt 0 (s.noteReads ((resolve m s).bytes .word))) ∧
    exec (.aam 0) s = interrupt 0 s

/-- CBW and CWD extend the sign and write no flag (R193, R194); AAM divides AL and AAD recombines AH and AL,
with ZF, SF and PF from the new AL, CF and OF anything, and the other bits of FLAGS unchanged (R195, R196). -/
def Obligations.ExtendAndAdjust : Prop :=
  ∀ (imm : Byte) (s : State),
    (∃ t, exec .cbw s = .next t ∧ SameRest s t ∧
      OnlyCpu { s.cpu with ax := (getReg8 s.cpu .al).signExtend 16 } s t) ∧
    (∃ t, exec .cwd s = .next t ∧ SameRest s t ∧
      OnlyCpu { s.cpu with dx := if s.cpu.ax.msb then 0xFFFF else 0x0000 } s t) ∧
    (∀ q r : Byte, imm ≠ 0 → q = (getReg8 s.cpu .al) / imm → r = (getReg8 s.cpu .al) % imm →
      ∃ t fl, exec (.aam imm) s = .next t ∧ SameRest s t ∧
        OnlyCpu { s.cpu with ax := wordOf r q, flags := fl } s t ∧ ResultFlags r fl ∧
        FlagsBut [.cf, .of, .zf, .sf, .pf] s.cpu.flags fl) ∧
    (∀ v : Byte, v = getReg8 s.cpu .al + getReg8 s.cpu .ah * imm →
      ∃ t fl, exec (.aad imm) s = .next t ∧ SameRest s t ∧
        OnlyCpu { s.cpu with ax := wordOf v 0, flags := fl } s t ∧ ResultFlags v fl ∧
        FlagsBut [.cf, .of, .zf, .sf, .pf] s.cpu.flags fl)

/-! ## Shifts and rotates -/

/-- The frame of group 2 (R235 to R242): the operand takes the one-bit step applied `count` times, the count
being 1 or all of CL; a count of 0 changes no flag and writes the operand back; CF is the last bit out; OF is
the operation's for a count of 1 and anything above; the shifts write ZF, SF and PF and the rotates do not;
no other bit of FLAGS changes. Stated for a host whose devices have no side effects on memory accesses; that
what is written to plain memory reads back is log entry 1. -/
def Obligations.ShiftRotate : Prop :=
  ∀ (op : ShiftOp) (w : Width) (m : RM) (c : ShiftCount) (s : State) (n : Nat)
    (a r : BitVec w.bits) (cf : Bool), s.QuietMemory →
    n = (match c with
         | .one => 1
         | .cl => s.cpu.cx.toNat % 256) →
    a = s.value w (resolve m s) →
    (r, cf) = (fun x : BitVec w.bits × Bool => shiftStep op x.1 x.2)^[n] (a, getFlag s.cpu.flags .cf) →
    ∃ t fl, exec (shiftInstr op w m c) s = .next t ∧ SameRest s t ∧ Assigned w (resolve m s) r fl s t ∧
      (n = 0 → fl = s.cpu.flags) ∧
      (1 ≤ n → getFlag fl .cf = cf ∧
        (op.isShift = true → ResultFlags r fl ∧ FlagsBut [.cf, .of, .zf, .sf, .pf] s.cpu.flags fl) ∧
        (op.isShift = false → FlagsBut [.cf, .of] s.cpu.flags fl)) ∧
      (n = 1 → getFlag fl .of =
        match op with
        | .rol | .rcl | .shl => r.msb != cf
        | .ror | .rcr => r.msb != r.getLsbD (w.bits - 2)
        | .shr => a.msb
        | .sar => false)

/-- The one-bit steps in closed form, for every count from 1 (R236 to R242): SHL and SHR multiply and divide
by 2 to the count, SAR divides rounding down, ROL and ROR rotate over N bits, and RCL and RCR over the N + 1
bits of the carry and the operand; and the carry that each leaves. -/
def Obligations.ShiftClosedForms : Prop :=
  ∀ (w : Width) (a : BitVec w.bits) (cf : Bool) (n : Nat), 1 ≤ n →
    (fun x : BitVec w.bits × Bool => shiftStep .shl x.1 x.2)^[n] (a, cf) =
        (a <<< n, decide (n ≤ w.bits) && a.getLsbD (w.bits - n)) ∧
      (fun x : BitVec w.bits × Bool => shiftStep .shr x.1 x.2)^[n] (a, cf) =
        (a >>> n, a.getLsbD (n - 1)) ∧
      (fun x : BitVec w.bits × Bool => shiftStep .sar x.1 x.2)^[n] (a, cf) =
        (a.sshiftRight n, (a.sshiftRight (n - 1)).getLsbD 0) ∧
      (fun x : BitVec w.bits × Bool => shiftStep .rol x.1 x.2)^[n] (a, cf) =
        (a.rotateLeft n, (a.rotateLeft n).getLsbD 0) ∧
      (fun x : BitVec w.bits × Bool => shiftStep .ror x.1 x.2)^[n] (a, cf) =
        (a.rotateRight n, (a.rotateRight n).msb) ∧
      (∀ x : BitVec (w.bits + 1), x = (BitVec.cons cf a).rotateLeft n →
        (fun x : BitVec w.bits × Bool => shiftStep .rcl x.1 x.2)^[n] (a, cf) =
          (x.setWidth w.bits, x.msb)) ∧
      (∀ x : BitVec (w.bits + 1), x = (BitVec.cons cf a).rotateRight n →
        (fun x : BitVec w.bits × Bool => shiftStep .rcr x.1 x.2)^[n] (a, cf) =
          (x.setWidth w.bits, x.msb))

/-! ## Strings -/

/-- One iteration of each string instruction, without a repeat prefix (R260, R262 to R266): the source is at
DS:SI or the override, the destination at ES:DI, and the index registers step by the element's size, up or
down by DF. Stated for a host whose devices have no side effects on memory accesses; that what is written to
plain memory reads back is log entry 1. -/
def Obligations.StringOnce : Prop :=
  ∀ (w : Width) (s : State), s.QuietMemory → s.repeatState = false →
    (∃ t, exec (match w with | .byte => .movsb | .word => .movsw) s = .next t ∧ SameRest s t ∧
      t.cpu = { s.cpu with si := s.cpu.si + elementStep w s, di := s.cpu.di + elementStep w s } ∧
      (s.Stores (bytesAt w s.cpu.es s.cpu.di) →
        t.peekW w s.cpu.es s.cpu.di = s.peekW w (segFor .ds s) s.cpu.si) ∧
      SameMemoryBut (bytesAt w s.cpu.es s.cpu.di) s t) ∧
    (∃ t fl, exec (match w with | .byte => .cmpsb | .word => .cmpsw) s = .next t ∧ SameRest s t ∧
      OnlyCpu { s.cpu with si := s.cpu.si + elementStep w s, di := s.cpu.di + elementStep w s
                           flags := fl } s t ∧
      StatusFlags
        (decide ((s.peekW w (segFor .ds s) s.cpu.si).toNat < (s.peekW w s.cpu.es s.cpu.di).toNat))
        (outOfRange w.bits
          ((s.peekW w (segFor .ds s) s.cpu.si).toInt - (s.peekW w s.cpu.es s.cpu.di).toInt))
        (s.peekW w (segFor .ds s) s.cpu.si - s.peekW w s.cpu.es s.cpu.di) s.cpu.flags fl) ∧
    (∃ t, exec (match w with | .byte => .stosb | .word => .stosw) s = .next t ∧ SameRest s t ∧
      t.cpu = { s.cpu with di := s.cpu.di + elementStep w s } ∧
      (s.Stores (bytesAt w s.cpu.es s.cpu.di) → t.peekW w s.cpu.es s.cpu.di = getReg s.cpu w 0) ∧
      SameMemoryBut (bytesAt w s.cpu.es s.cpu.di) s t) ∧
    (∃ t, exec (match w with | .byte => .lodsb | .word => .lodsw) s = .next t ∧ SameRest s t ∧
      OnlyCpu { putReg s.cpu w 0 (s.peekW w (segFor .ds s) s.cpu.si) with
                si := s.cpu.si + elementStep w s } s t) ∧
    (∃ t fl, exec (match w with | .byte => .scasb | .word => .scasw) s = .next t ∧ SameRest s t ∧
      OnlyCpu { s.cpu with di := s.cpu.di + elementStep w s, flags := fl } s t ∧
      StatusFlags (decide ((getReg s.cpu w 0).toNat < (s.peekW w s.cpu.es s.cpu.di).toNat))
        (outOfRange w.bits ((getReg s.cpu w 0).toInt - (s.peekW w s.cpu.es s.cpu.di).toInt))
        (getReg s.cpu w 0 - s.peekW w s.cpu.es s.cpu.di) s.cpu.flags fl)

/-- The repeat loop (R261). With CX = 0 nothing happens. Otherwise the instruction makes one iteration, takes
1 from CX, and ends where it is CMPS or SCAS and ZF is 0, and else goes on as the same instruction at the
state that leaves, all in one step. This is so whatever the host does. -/
def Obligations.StringRepeat : Prop :=
  ∀ (w : Width) (i : Instr) (s : State), i ∈ stringInstrs w → s.repeatState = true →
    (s.cpu.cx = 0 → ∃ t, exec i s = .next t ∧ SameRest s t ∧ OnlyCpu s.cpu s t ∧ t.calls = s.calls) ∧
    (s.cpu.cx ≠ 0 → ∃ u v t, exec i { s with repeatState := false } = .next u ∧
      v = { u with repeatState := true, cpu := { u.cpu with cx := s.cpu.cx - 1 } } ∧
      exec i s = .next t ∧ SameCore s t ∧ (s.QuietMemory → SameRest s t) ∧
      (testsZf i = true ∧ getFlag u.cpu.flags .zf = false →
        t.cpu = v.cpu ∧ t.bus = v.bus ∧ t.calls = v.calls) ∧
      (¬(testsZf i = true ∧ getFlag u.cpu.flags .zf = false) →
        ∃ t', exec i v = .next t' ∧ t.cpu = t'.cpu ∧ t.bus = t'.bus ∧ t.calls = t'.calls))

/-- REP STOSB with DF clear fills CX bytes from ES:DI with AL, the offsets wrapping in the segment, and
changes no other byte; CX ends at 0 and DI past the last byte (R261, R264). The bytes are plain memory, and
that they read back is log entry 1. -/
def Obligations.RepStosbFills : Prop :=
  ∀ (s : State) (l : List Addr), s.repeatState = true → s.QuietMemory → getFlag s.cpu.flags .df = false →
    l = (List.range s.cpu.cx.toNat).map (fun k => phys s.cpu.es (s.cpu.di + BitVec.ofNat 16 k)) →
    s.Stores l →
    ∃ t, exec .stosb s = .next t ∧ SameRest s t ∧
      t.cpu = { s.cpu with cx := 0, di := s.cpu.di + s.cpu.cx } ∧
      (∀ a ∈ l, t.peek a = getReg8 s.cpu .al) ∧ SameMemoryBut l s t

/-! ## Control transfer -/

/-- The five forms of JMP (R280 to R285). IP already addresses the next instruction. Stated for a host whose
devices have no side effects on memory accesses (log entry 1). -/
def Obligations.JmpForms : Prop :=
  ∀ (d : Byte) (e off seg : Word) (m : RM) (g o : Word) (s : State), s.QuietMemory →
    (∃ t, exec (.jmpRel8 d) s = .next t ∧ SameRest s t ∧
      OnlyCpu { s.cpu with ip := s.cpu.ip + d.signExtend 16 } s t) ∧
    (∃ t, exec (.jmpRel16 e) s = .next t ∧ SameRest s t ∧
      OnlyCpu { s.cpu with ip := s.cpu.ip + e } s t) ∧
    (∃ t, exec (.jmpFar off seg) s = .next t ∧ SameRest s t ∧
      OnlyCpu { s.cpu with cs := seg, ip := off } s t) ∧
    (∃ t, exec (.jmpRm m) s = .next t ∧ SameRest s t ∧
      OnlyCpu { s.cpu with ip := s.value .word (resolve m s) } s t) ∧
    (resolve m s = .mem g o → ∃ t, exec (.jmpFarRm m) s = .next t ∧ SameRest s t ∧
      OnlyCpu { s.cpu with ip := s.peek16 g o, cs := s.peek16 g (o + 2) } s t)

/-- The four forms of CALL (R286 to R289): the near forms push IP, the far forms CS and then IP; the target
is read before the push. Stated for a host whose devices have no side effects on memory accesses; that what
is written to plain memory reads back is log entry 1. -/
def Obligations.CallForms : Prop :=
  ∀ (e off seg : Word) (m : RM) (g o : Word) (s : State), s.QuietMemory →
    (∃ t, exec (.callRel16 e) s = .next t ∧ SameRest s t ∧
      Pushed s.cpu.ip { s.cpu with sp := s.cpu.sp - 2, ip := s.cpu.ip + e } s t) ∧
    (∃ t, exec (.callRm m) s = .next t ∧ SameRest s t ∧
      Pushed s.cpu.ip { s.cpu with sp := s.cpu.sp - 2, ip := s.value .word (resolve m s) } s t) ∧
    (∀ (i : Instr) (x y : Word),
      (i = .callFar off seg ∧ x = off ∧ y = seg) ∨
      (i = .callFarRm m ∧ resolve m s = .mem g o ∧ x = s.peek16 g o ∧ y = s.peek16 g (o + 2)) →
      ∃ t, exec i s = .next t ∧ SameRest s t ∧
        t.cpu = { s.cpu with sp := s.cpu.sp - 4, cs := y, ip := x } ∧
        (s.Stores (bytesAt .word s.cpu.ss (s.cpu.sp - 2) ++ bytesAt .word s.cpu.ss (s.cpu.sp - 4)) →
          t.peek16 s.cpu.ss (s.cpu.sp - 2) = s.cpu.cs ∧ t.peek16 s.cpu.ss (s.cpu.sp - 4) = s.cpu.ip) ∧
        SameMemoryBut (bytesAt .word s.cpu.ss (s.cpu.sp - 2) ++ bytesAt .word s.cpu.ss (s.cpu.sp - 4)) s t)

/-- The sixteen conditional jumps (R290 to R306): each jumps on its condition over the stored flags, and
changes IP alone. -/
def Obligations.ConditionalJumps : Prop :=
  ∀ (d : Byte) (s : State) (cf pf zf sf ov : Bool),
    cf = getFlag s.cpu.flags .cf → pf = getFlag s.cpu.flags .pf → zf = getFlag s.cpu.flags .zf →
    sf = getFlag s.cpu.flags .sf → ov = getFlag s.cpu.flags .of →
    Jumps (.jo d) ov d s ∧ Jumps (.jno d) (!ov) d s ∧
      Jumps (.jb d) cf d s ∧ Jumps (.jae d) (!cf) d s ∧
      Jumps (.je d) zf d s ∧ Jumps (.jne d) (!zf) d s ∧
      Jumps (.jbe d) (cf || zf) d s ∧ Jumps (.ja d) (!cf && !zf) d s ∧
      Jumps (.js d) sf d s ∧ Jumps (.jns d) (!sf) d s ∧
      Jumps (.jp d) pf d s ∧ Jumps (.jnp d) (!pf) d s ∧
      Jumps (.jl d) (sf != ov) d s ∧ Jumps (.jge d) (sf == ov) d s ∧
      Jumps (.jle d) (zf || sf != ov) d s ∧ Jumps (.jg d) (!zf && sf == ov) d s

/-- RET, RET imm16, RETF, RETF imm16 and IRET (R307 to R310, R318): the words popped and the bytes released.
Stated for a host whose devices have no side effects on memory accesses (log entry 1). -/
def Obligations.Returns : Prop :=
  ∀ (n : Word) (s : State), s.QuietMemory →
    (∃ t, exec .ret s = .next t ∧ SameRest s t ∧
      OnlyCpu { s.cpu with ip := s.peek16 s.cpu.ss s.cpu.sp, sp := s.cpu.sp + 2 } s t) ∧
    (∃ t, exec (.retImm n) s = .next t ∧ SameRest s t ∧
      OnlyCpu { s.cpu with ip := s.peek16 s.cpu.ss s.cpu.sp, sp := s.cpu.sp + 2 + n } s t) ∧
    (∃ t, exec .retf s = .next t ∧ SameRest s t ∧
      OnlyCpu { s.cpu with ip := s.peek16 s.cpu.ss s.cpu.sp
                           cs := s.peek16 s.cpu.ss (s.cpu.sp + 2), sp := s.cpu.sp + 4 } s t) ∧
    (∃ t, exec (.retfImm n) s = .next t ∧ SameRest s t ∧
      OnlyCpu { s.cpu with ip := s.peek16 s.cpu.ss s.cpu.sp
                           cs := s.peek16 s.cpu.ss (s.cpu.sp + 2), sp := s.cpu.sp + 4 + n } s t) ∧
    (∃ t, exec .iret s = .next t ∧ SameRest s t ∧
      OnlyCpu { s.cpu with ip := s.peek16 s.cpu.ss s.cpu.sp
                           cs := s.peek16 s.cpu.ss (s.cpu.sp + 2)
                           flags := (s.peek16 s.cpu.ss (s.cpu.sp + 4) &&& ~~~s.params.zeroMask) |||
                             s.params.onesMask
                           sp := s.cpu.sp + 6 } s t)

/-- LOOP, LOOPZ and LOOPNZ take 1 from CX and jump while it is not 0 and their condition on ZF holds; JCXZ
jumps where CX is 0 and changes nothing (R311 to R314). No flag is written. -/
def Obligations.Loops : Prop :=
  ∀ (d : Byte) (s : State) (zf : Bool), zf = getFlag s.cpu.flags .zf →
    (∀ (i : Instr) (cond : Bool),
      (i = .loop d ∧ cond = true) ∨ (i = .loopz d ∧ cond = zf) ∨ (i = .loopnz d ∧ cond = !zf) →
      ∃ t, exec i s = .next t ∧ SameRest s t ∧
        OnlyCpu { s.cpu with
                  cx := s.cpu.cx - 1
                  ip := if s.cpu.cx - 1 ≠ 0 ∧ cond = true then s.cpu.ip + d.signExtend 16
                        else s.cpu.ip } s t) ∧
    Jumps (.jcxz d) (decide (s.cpu.cx = 0)) d s

/-! ## Interrupts -/

/-- The real path (R362, R363, R375), for INT, INT3 and INTO with OF set where the vector is not overridden:
FLAGS, CS and IP are pushed in that order, IF and TF are cleared if `INT_CLEARS_IF_TF`, and IP and CS are
loaded from the table entry at 4v; nothing else changes of the core, whatever the host does. On a host whose
devices have no side effects IP and CS are the words of the table entry as it stands after the pushes, the
pushed words read back on plain memory (log entry 1), no other byte changes, and the bus calls are the query,
six byte writes and four byte reads in that order (none where no bus is attached, R64). INTO with OF clear does
nothing (R317). -/
def Obligations.InterruptRealPath : Prop :=
  ∀ (i : Instr) (v : Byte) (s : State),
    (i = .int v ∨ (i = .int3 ∧ v = 3) ∨ (i = .into ∧ v = 4 ∧ getFlag s.cpu.flags .of = true) →
      s.NotOverridden v →
      ∃ t fl, exec i s = .next t ∧ SameCore s t ∧
        t.cpu = { s.cpu with sp := s.cpu.sp - 6, flags := fl, ip := t.cpu.ip, cs := t.cpu.cs } ∧
        getFlag fl .intf = (getFlag s.cpu.flags .intf && !s.params.intClearsIfTf) ∧
        getFlag fl .tf = (getFlag s.cpu.flags .tf && !s.params.intClearsIfTf) ∧
        FlagsBut [.intf, .tf] s.cpu.flags fl ∧
        (s.QuietMemory →
          SameRest s t ∧
          t.cpu.ip = t.peek16 0 (4 * v.zeroExtend 16) ∧ t.cpu.cs = t.peek16 0 (4 * v.zeroExtend 16 + 2) ∧
          (s.Stores (bytesAt .word s.cpu.ss (s.cpu.sp - 2) ++ bytesAt .word s.cpu.ss (s.cpu.sp - 4) ++
              bytesAt .word s.cpu.ss (s.cpu.sp - 6)) →
            t.peek16 s.cpu.ss (s.cpu.sp - 2) = s.cpu.flags ∧
              t.peek16 s.cpu.ss (s.cpu.sp - 4) = s.cpu.cs ∧
              t.peek16 s.cpu.ss (s.cpu.sp - 6) = s.cpu.ip) ∧
          SameMemoryBut (bytesAt .word s.cpu.ss (s.cpu.sp - 2) ++ bytesAt .word s.cpu.ss (s.cpu.sp - 4) ++
            bytesAt .word s.cpu.ss (s.cpu.sp - 6)) s t ∧
          t.calls = readCalls t (bytesAt .word 0 (4 * v.zeroExtend 16) ++
              bytesAt .word 0 (4 * v.zeroExtend 16 + 2)) ++
            (writeCalls s .word s.cpu.ss (s.cpu.sp - 6) s.cpu.ip ++
            (writeCalls s .word s.cpu.ss (s.cpu.sp - 4) s.cpu.cs ++
            (writeCalls s .word s.cpu.ss (s.cpu.sp - 2) s.cpu.flags ++
              ((if s.bus.attached then [.query v false] else []) ++ s.calls)))))) ∧
    (getFlag s.cpu.flags .of = false →
      ∃ t, exec .into s = .next t ∧ SameRest s t ∧ OnlyCpu s.cpu s t ∧ t.calls = s.calls)

/-- The override path (R362, R364): where the host's query answers that the vector is overridden the host's
handler runs, and registers, flags, CS:IP, memory and devices are as it left them; the core makes no other bus
call than the query and the handler's, writes nothing itself, and leaves the decode-time state alone. Where the
handler fails the step ends in HostProtocolError (R371), and what the handler wrote stays (R82). The handler's
answer is the host's. -/
def Obligations.InterruptOverridePath : Prop :=
  ∀ (i : Instr) (v : Byte) (s : State),
    i = .int v ∨ (i = .int3 ∧ v = 3) ∨ (i = .into ∧ v = 4 ∧ getFlag s.cpu.flags .of = true) →
    s.bus.attached = true → queryAnswer v s = true →
    (∀ e, handlerAnswer v { s with draws := s.draws + 1 } = .returns e →
      ∃ t, exec i s = .next t ∧ t.cpu = e.cpu ∧ t.bus.mem = hostWrites e.writes s.bus.mem ∧
        t.bus.devices = e.devices ∧ SameCore s t ∧
        t.calls = .interruptOverride v :: .query v true :: s.calls) ∧
    (∀ ws d, handlerAnswer v { s with draws := s.draws + 1 } = .fails ws d →
      ∃ left, exec i s = .fault (.hostProtocolError left) ∧ left.bus.mem = hostWrites ws s.bus.mem ∧
        left.bus.devices = d ∧ left.calls = .interruptOverride v :: .query v true :: s.calls)

/-- IRET undoes the real path (R318, R367): from the handler's entry it restores IP, CS, SP and the whole of
FLAGS, through the masks of R29, IF and TF included, and leaves memory as the pushes left it. The stack is
plain memory on a host whose devices have no side effects, and that the pushed words read back is log
entry 1. -/
def Obligations.InterruptReturn : Prop :=
  ∀ (v : Byte) (s : State), s.QuietMemory → s.NotOverridden v →
    s.Stores (bytesAt .word s.cpu.ss (s.cpu.sp - 2) ++ bytesAt .word s.cpu.ss (s.cpu.sp - 4) ++
      bytesAt .word s.cpu.ss (s.cpu.sp - 6)) →
    ∃ t u, exec (.int v) s = .next t ∧ exec .iret t = .next u ∧
      u.cpu = { s.cpu with
                flags := (s.cpu.flags &&& ~~~s.params.zeroMask) ||| s.params.onesMask } ∧
      SameMemory t u ∧ SameRest s u

/-! ## Flag control -/

/-- CLC, STC, CMC, CLD, STD, CLI and STI (R330 to R336): each writes the one flag it names and touches
nothing else. -/
def Obligations.FlagControl : Prop :=
  ∀ (i : Instr) (f : Flag) (b : Bool) (s : State),
    (i, f, b) ∈ ([(.clc, .cf, false), (.stc, .cf, true), (.cmc, .cf, !getFlag s.cpu.flags .cf),
      (.cld, .df, false), (.std, .df, true), (.cli, .intf, false), (.sti, .intf, true)] :
        List (Instr × Flag × Bool)) →
    ∃ t fl, exec i s = .next t ∧ SameRest s t ∧ t.calls = s.calls ∧
      OnlyCpu { s.cpu with flags := fl } s t ∧ getFlag fl f = b ∧ FlagsBut [f] s.cpu.flags fl

/-! ## The disassembler -/

/-- Length parity (R343, R112): for every stream that the prefix loop leads to an instruction in `DISPATCH`,
the disassembler counts the prefixes and the instruction's bytes, which is the advance of IP that fetching
them makes, and makes the bus reads that the fetch makes (R342). For an absent byte or slot, a slot taken out
of `DISPATCH` or a refused form it prints `???` with the opcode byte and counts the prefixes and the bytes that
the execute path fetches before it raises DecodeError (R349). And "text; no state change" (R399): on a running
core the moves `Disasm` (R340), at any segment and offset, and `debugOutput` (R352), with a disassembly at CS:IP
or without, are defined, and change nothing of the core, of memory or of the record of bus calls; where no
device has side effects on memory accesses they change nothing at all (that at a device the disassembler's
reads act as any other is log entry 32). -/
def Obligations.DisassemblerParity : Prop :=
  (∀ (s : State) (seg off : Word),
    (s.status = .running →
      s.hostMove (.disasm seg off) =
          some (.text (disasm s seg off).1 (disasm s seg off).2, s.disassembled seg off) ∧
        s.hostMove (.debugOutput true) = some (.nothing, s.disassembled s.cpu.cs s.cpu.ip) ∧
        s.hostMove (.debugOutput false) = some (.nothing, s)) ∧
      SameCore s (s.disassembled seg off) ∧ OnlyCpu s.cpu s (s.disassembled seg off) ∧
      (s.disassembled seg off).bus.mem = s.bus.mem ∧ (s.disassembled seg off).calls = s.calls ∧
      (s.disassembled seg off).cost = s.cost ∧
      (s.QuietMemory → s.disassembled seg off = s)) ∧
  ∀ (k : Nat) (s u : State) (d : Decoded), k < prefixBound → Reaches k { s with calls := [] } d u →
    (disasm s s.cpu.cs s.cpu.ip).2 = k + d.length ∧
      u.cpu.ip = s.cpu.ip + BitVec.ofNat 16 (disasm s s.cpu.cs s.cpu.ip).2 ∧
      disasmCalls s s.cpu.cs s.cpu.ip = u.calls.reverse ∧
      (∀ i n, d = .ok i n → isAbsentRow i = false → (disasm s s.cpu.cs s.cpu.ip).2 = k + (encode i).length) ∧
      (∀ i n, d = .ok i n → isAbsentRow i = true →
        (disasm s s.cpu.cs s.cpu.ip).1 = "??? " ++ hex2 i.opcode) ∧
      (∀ op slot n, d = .refusedForm op slot n → (disasm s s.cpu.cs s.cpu.ip).1 = "??? " ++ hex2 op)

end
end

