-- ==== Sys2Proof/Laws/State.lean ====
section
/-!
SUPPORT. One lemma for each field of the state under each named update of it, and the register file.
-/

namespace Sys2Proof.Machine

@[simp] theorem State.withCpu_cpu (s : State) (c : Cpu) : (s.withCpu c).cpu = c := rfl
@[simp] theorem State.withCpu_segOverride (s : State) (c : Cpu) : (s.withCpu c).segOverride = s.segOverride :=
  rfl
@[simp] theorem State.withCpu_repeatState (s : State) (c : Cpu) : (s.withCpu c).repeatState = s.repeatState :=
  rfl
@[simp] theorem State.withCpu_bus (s : State) (c : Cpu) : (s.withCpu c).bus = s.bus := rfl
@[simp] theorem State.withCpu_status (s : State) (c : Cpu) : (s.withCpu c).status = s.status := rfl
@[simp] theorem State.withCpu_params (s : State) (c : Cpu) : (s.withCpu c).params = s.params := rfl
@[simp] theorem State.withCpu_calls (s : State) (c : Cpu) : (s.withCpu c).calls = s.calls := rfl
@[simp] theorem State.withCpu_cost (s : State) (c : Cpu) : (s.withCpu c).cost = s.cost := rfl
@[simp] theorem State.withCpu_draws (s : State) (c : Cpu) : (s.withCpu c).draws = s.draws := rfl

@[simp] theorem State.withFlags_cpu (s : State) (fl : Word) : (s.withFlags fl).cpu = { s.cpu with flags := fl } := rfl
@[simp] theorem State.withFlags_segOverride (s : State) (fl : Word) : (s.withFlags fl).segOverride = s.segOverride := rfl
@[simp] theorem State.withFlags_repeatState (s : State) (fl : Word) : (s.withFlags fl).repeatState = s.repeatState := rfl
@[simp] theorem State.withFlags_bus (s : State) (fl : Word) : (s.withFlags fl).bus = s.bus := rfl
@[simp] theorem State.withFlags_status (s : State) (fl : Word) : (s.withFlags fl).status = s.status := rfl
@[simp] theorem State.withFlags_params (s : State) (fl : Word) : (s.withFlags fl).params = s.params := rfl
@[simp] theorem State.withFlags_calls (s : State) (fl : Word) : (s.withFlags fl).calls = s.calls := rfl
@[simp] theorem State.withFlags_cost (s : State) (fl : Word) : (s.withFlags fl).cost = s.cost := rfl
@[simp] theorem State.withFlags_draws (s : State) (fl : Word) : (s.withFlags fl).draws = s.draws := rfl

@[simp] theorem State.withIp_cpu (s : State) (t : Word) : (s.withIp t).cpu = { s.cpu with ip := t } := rfl
@[simp] theorem State.withIp_segOverride (s : State) (t : Word) : (s.withIp t).segOverride = s.segOverride :=
  rfl
@[simp] theorem State.withIp_repeatState (s : State) (t : Word) : (s.withIp t).repeatState = s.repeatState :=
  rfl
@[simp] theorem State.withIp_bus (s : State) (t : Word) : (s.withIp t).bus = s.bus := rfl
@[simp] theorem State.withIp_status (s : State) (t : Word) : (s.withIp t).status = s.status := rfl
@[simp] theorem State.withIp_params (s : State) (t : Word) : (s.withIp t).params = s.params := rfl
@[simp] theorem State.withIp_calls (s : State) (t : Word) : (s.withIp t).calls = s.calls := rfl
@[simp] theorem State.withIp_cost (s : State) (t : Word) : (s.withIp t).cost = s.cost := rfl
@[simp] theorem State.withIp_draws (s : State) (t : Word) : (s.withIp t).draws = s.draws := rfl

@[simp] theorem State.withCsIp_cpu (s : State) (g o : Word) : (s.withCsIp g o).cpu = { s.cpu with cs := g, ip := o } := rfl
@[simp] theorem State.withCsIp_segOverride (s : State) (g o : Word) : (s.withCsIp g o).segOverride = s.segOverride := rfl
@[simp] theorem State.withCsIp_repeatState (s : State) (g o : Word) : (s.withCsIp g o).repeatState = s.repeatState := rfl
@[simp] theorem State.withCsIp_bus (s : State) (g o : Word) : (s.withCsIp g o).bus = s.bus := rfl
@[simp] theorem State.withCsIp_status (s : State) (g o : Word) : (s.withCsIp g o).status = s.status := rfl
@[simp] theorem State.withCsIp_params (s : State) (g o : Word) : (s.withCsIp g o).params = s.params := rfl
@[simp] theorem State.withCsIp_calls (s : State) (g o : Word) : (s.withCsIp g o).calls = s.calls := rfl
@[simp] theorem State.withCsIp_cost (s : State) (g o : Word) : (s.withCsIp g o).cost = s.cost := rfl
@[simp] theorem State.withCsIp_draws (s : State) (g o : Word) : (s.withCsIp g o).draws = s.draws := rfl

@[simp] theorem State.withSp_cpu (s : State) (v : Word) : (s.withSp v).cpu = { s.cpu with sp := v } := rfl
@[simp] theorem State.withSp_segOverride (s : State) (v : Word) : (s.withSp v).segOverride = s.segOverride :=
  rfl
@[simp] theorem State.withSp_repeatState (s : State) (v : Word) : (s.withSp v).repeatState = s.repeatState :=
  rfl
@[simp] theorem State.withSp_bus (s : State) (v : Word) : (s.withSp v).bus = s.bus := rfl
@[simp] theorem State.withSp_status (s : State) (v : Word) : (s.withSp v).status = s.status := rfl
@[simp] theorem State.withSp_params (s : State) (v : Word) : (s.withSp v).params = s.params := rfl
@[simp] theorem State.withSp_calls (s : State) (v : Word) : (s.withSp v).calls = s.calls := rfl
@[simp] theorem State.withSp_cost (s : State) (v : Word) : (s.withSp v).cost = s.cost := rfl
@[simp] theorem State.withSp_draws (s : State) (v : Word) : (s.withSp v).draws = s.draws := rfl

@[simp] theorem State.withCx_cpu (s : State) (v : Word) : (s.withCx v).cpu = { s.cpu with cx := v } := rfl
@[simp] theorem State.withCx_segOverride (s : State) (v : Word) : (s.withCx v).segOverride = s.segOverride :=
  rfl
@[simp] theorem State.withCx_repeatState (s : State) (v : Word) : (s.withCx v).repeatState = s.repeatState :=
  rfl
@[simp] theorem State.withCx_bus (s : State) (v : Word) : (s.withCx v).bus = s.bus := rfl
@[simp] theorem State.withCx_status (s : State) (v : Word) : (s.withCx v).status = s.status := rfl
@[simp] theorem State.withCx_params (s : State) (v : Word) : (s.withCx v).params = s.params := rfl
@[simp] theorem State.withCx_calls (s : State) (v : Word) : (s.withCx v).calls = s.calls := rfl
@[simp] theorem State.withCx_cost (s : State) (v : Word) : (s.withCx v).cost = s.cost := rfl
@[simp] theorem State.withCx_draws (s : State) (v : Word) : (s.withCx v).draws = s.draws := rfl

@[simp] theorem State.withSreg_cpu (s : State) (sr : Sreg) (v : Word) : (s.withSreg sr v).cpu = putSreg s.cpu sr v := rfl
@[simp] theorem State.withSreg_segOverride (s : State) (sr : Sreg) (v : Word) : (s.withSreg sr v).segOverride = s.segOverride := rfl
@[simp] theorem State.withSreg_repeatState (s : State) (sr : Sreg) (v : Word) : (s.withSreg sr v).repeatState = s.repeatState := rfl
@[simp] theorem State.withSreg_bus (s : State) (sr : Sreg) (v : Word) : (s.withSreg sr v).bus = s.bus := rfl
@[simp] theorem State.withSreg_status (s : State) (sr : Sreg) (v : Word) : (s.withSreg sr v).status = s.status := rfl
@[simp] theorem State.withSreg_params (s : State) (sr : Sreg) (v : Word) : (s.withSreg sr v).params = s.params := rfl
@[simp] theorem State.withSreg_calls (s : State) (sr : Sreg) (v : Word) : (s.withSreg sr v).calls = s.calls :=
  rfl
@[simp] theorem State.withSreg_cost (s : State) (sr : Sreg) (v : Word) : (s.withSreg sr v).cost = s.cost := rfl
@[simp] theorem State.withSreg_draws (s : State) (sr : Sreg) (v : Word) : (s.withSreg sr v).draws = s.draws :=
  rfl

@[simp] theorem State.withReg_cpu (s : State) (w : Width) (i : RegIx) (v : BitVec w.bits) : (s.withReg w i v).cpu = putReg s.cpu w i v := rfl
@[simp] theorem State.withReg_segOverride (s : State) (w : Width) (i : RegIx) (v : BitVec w.bits) : (s.withReg w i v).segOverride = s.segOverride := rfl
@[simp] theorem State.withReg_repeatState (s : State) (w : Width) (i : RegIx) (v : BitVec w.bits) : (s.withReg w i v).repeatState = s.repeatState := rfl
@[simp] theorem State.withReg_bus (s : State) (w : Width) (i : RegIx) (v : BitVec w.bits) : (s.withReg w i v).bus = s.bus := rfl
@[simp] theorem State.withReg_status (s : State) (w : Width) (i : RegIx) (v : BitVec w.bits) : (s.withReg w i v).status = s.status := rfl
@[simp] theorem State.withReg_params (s : State) (w : Width) (i : RegIx) (v : BitVec w.bits) : (s.withReg w i v).params = s.params := rfl
@[simp] theorem State.withReg_calls (s : State) (w : Width) (i : RegIx) (v : BitVec w.bits) : (s.withReg w i v).calls = s.calls := rfl
@[simp] theorem State.withReg_cost (s : State) (w : Width) (i : RegIx) (v : BitVec w.bits) : (s.withReg w i v).cost = s.cost := rfl
@[simp] theorem State.withReg_draws (s : State) (w : Width) (i : RegIx) (v : BitVec w.bits) : (s.withReg w i v).draws = s.draws := rfl

@[simp] theorem State.record_cpu (s : State) (c : BusCall) : (s.record c).cpu = s.cpu := rfl
@[simp] theorem State.record_segOverride (s : State) (c : BusCall) : (s.record c).segOverride = s.segOverride :=
  rfl
@[simp] theorem State.record_repeatState (s : State) (c : BusCall) : (s.record c).repeatState = s.repeatState :=
  rfl
@[simp] theorem State.record_bus (s : State) (c : BusCall) : (s.record c).bus = s.bus := rfl
@[simp] theorem State.record_status (s : State) (c : BusCall) : (s.record c).status = s.status := rfl
@[simp] theorem State.record_params (s : State) (c : BusCall) : (s.record c).params = s.params := rfl
@[simp] theorem State.record_calls (s : State) (c : BusCall) : (s.record c).calls = c :: s.calls := rfl
@[simp] theorem State.record_cost (s : State) (c : BusCall) : (s.record c).cost = s.cost := rfl
@[simp] theorem State.record_draws (s : State) (c : BusCall) : (s.record c).draws = s.draws := rfl

/-! ## What the host does inside a step -/

@[simp] theorem State.hostActs_cpu (s : State) (ws : List (Addr × Byte)) (d : Devices) :
    (s.hostActs ws d).cpu = s.cpu := rfl
@[simp] theorem State.hostActs_segOverride (s : State) (ws : List (Addr × Byte)) (d : Devices) :
    (s.hostActs ws d).segOverride = s.segOverride := rfl
@[simp] theorem State.hostActs_repeatState (s : State) (ws : List (Addr × Byte)) (d : Devices) :
    (s.hostActs ws d).repeatState = s.repeatState := rfl
@[simp] theorem State.hostActs_status (s : State) (ws : List (Addr × Byte)) (d : Devices) :
    (s.hostActs ws d).status = s.status := rfl
@[simp] theorem State.hostActs_params (s : State) (ws : List (Addr × Byte)) (d : Devices) :
    (s.hostActs ws d).params = s.params := rfl
@[simp] theorem State.hostActs_calls (s : State) (ws : List (Addr × Byte)) (d : Devices) :
    (s.hostActs ws d).calls = s.calls := rfl
@[simp] theorem State.hostActs_cost (s : State) (ws : List (Addr × Byte)) (d : Devices) :
    (s.hostActs ws d).cost = s.cost := rfl
@[simp] theorem State.hostActs_draws (s : State) (ws : List (Addr × Byte)) (d : Devices) :
    (s.hostActs ws d).draws = s.draws + 1 := rfl
@[simp] theorem State.hostActs_bus (s : State) (ws : List (Addr × Byte)) (d : Devices) :
    (s.hostActs ws d).bus = { s.bus with mem := hostWrites ws s.bus.mem, devices := d } := rfl
@[simp] theorem State.react_cpu (s : State) (r : HostRequest) : (s.react r).cpu = s.cpu := rfl
@[simp] theorem State.react_segOverride (s : State) (r : HostRequest) : (s.react r).segOverride = s.segOverride := rfl
@[simp] theorem State.react_repeatState (s : State) (r : HostRequest) : (s.react r).repeatState = s.repeatState := rfl
@[simp] theorem State.react_status (s : State) (r : HostRequest) : (s.react r).status = s.status := rfl
@[simp] theorem State.react_params (s : State) (r : HostRequest) : (s.react r).params = s.params := rfl
@[simp] theorem State.react_calls (s : State) (r : HostRequest) : (s.react r).calls = s.calls := rfl
@[simp] theorem State.react_cost (s : State) (r : HostRequest) : (s.react r).cost = s.cost := rfl
@[simp] theorem State.react_draws (s : State) (r : HostRequest) : (s.react r).draws = s.draws + 1 := rfl
@[simp] theorem State.react_bus (s : State) (r : HostRequest) :
    (s.react r).bus =
      { s.bus with devices := { (s.reply r).devices with windows := s.bus.devices.windows } } := rfl

/-! ## One flag -/

@[simp] theorem State.putFlag_cpu (s : State) (f : Flag) (b : Bool) : (s.putFlag f b).cpu = { s.cpu with flags := Sys2Proof.Machine.putFlag s.cpu.flags f b } := rfl
@[simp] theorem State.putFlag_segOverride (s : State) (f : Flag) (b : Bool) : (s.putFlag f b).segOverride = s.segOverride := rfl
@[simp] theorem State.putFlag_repeatState (s : State) (f : Flag) (b : Bool) : (s.putFlag f b).repeatState = s.repeatState := rfl
@[simp] theorem State.putFlag_bus (s : State) (f : Flag) (b : Bool) : (s.putFlag f b).bus = s.bus := rfl
@[simp] theorem State.putFlag_status (s : State) (f : Flag) (b : Bool) : (s.putFlag f b).status = s.status :=
  rfl
@[simp] theorem State.putFlag_params (s : State) (f : Flag) (b : Bool) : (s.putFlag f b).params = s.params :=
  rfl
@[simp] theorem State.putFlag_calls (s : State) (f : Flag) (b : Bool) : (s.putFlag f b).calls = s.calls := rfl
@[simp] theorem State.putFlag_cost (s : State) (f : Flag) (b : Bool) : (s.putFlag f b).cost = s.cost := rfl
@[simp] theorem State.putFlag_draws (s : State) (f : Flag) (b : Bool) : (s.putFlag f b).draws = s.draws := rfl

/-! ## What the end of an instruction and of a step keep -/

@[simp] theorem endStep_cpu (s : State) : (endStep s).cpu = s.cpu := rfl
@[simp] theorem endStep_segOverride (s : State) : (endStep s).segOverride = none := rfl
@[simp] theorem endStep_repeatState (s : State) : (endStep s).repeatState = false := rfl
@[simp] theorem endStep_bus (s : State) : (endStep s).bus = s.bus := rfl
@[simp] theorem endStep_status (s : State) : (endStep s).status = s.status := rfl
@[simp] theorem endStep_params (s : State) : (endStep s).params = s.params := rfl
@[simp] theorem endStep_calls (s : State) : (endStep s).calls = s.calls := rfl
@[simp] theorem endStep_cost (s : State) : (endStep s).cost = s.cost := rfl
@[simp] theorem endStep_draws (s : State) : (endStep s).draws = s.draws := rfl

/-- A handler that ends gives a next state which differs from its last one in the cost alone. -/
theorem done_eq (i : Instr) (s : State) (taken : Bool) (count : Nat) :
    done i s taken count = .next { s with cost := cyclesOf i taken count } := rfl

@[simp] theorem hostSide_bus (s : State) : s.hostSide.bus = s.bus := rfl
@[simp] theorem hostSide_calls (s : State) : s.hostSide.calls = s.calls := rfl
@[simp] theorem hostSide_draws (s : State) : s.hostSide.draws = s.draws := rfl

/-- What stands at an address depends on the memory map alone. -/
theorem State.kindAt_congr {s t : State} (h : t.bus.devices.windows = s.bus.devices.windows) (a : Addr) :
    t.kindAt a = s.kindAt a := by
  simp [State.kindAt, h]

/-! ## What a read of memory or of an operand depends on -/

/-- A read depends on the memory and on whether a bus is attached, and on nothing else. -/
theorem State.peek_congr {s t : State} (h : t.bus = s.bus) (a : Addr) : t.peek a = s.peek a := by
  simp [State.peek, h]

@[simp] theorem State.peek_withCpu (s : State) (c : Cpu) (a : Addr) : (s.withCpu c).peek a = s.peek a := rfl
@[simp] theorem State.peek_withFlags (s : State) (fl : Word) (a : Addr) :
    (s.withFlags fl).peek a = s.peek a := rfl
@[simp] theorem State.peek_withIp (s : State) (t : Word) (a : Addr) : (s.withIp t).peek a = s.peek a := rfl
@[simp] theorem State.peek_withCsIp (s : State) (g o : Word) (a : Addr) :
    (s.withCsIp g o).peek a = s.peek a := rfl
@[simp] theorem State.peek_withSp (s : State) (v : Word) (a : Addr) : (s.withSp v).peek a = s.peek a := rfl
@[simp] theorem State.peek_withCx (s : State) (v : Word) (a : Addr) : (s.withCx v).peek a = s.peek a := rfl
@[simp] theorem State.peek_withSreg (s : State) (sr : Sreg) (v : Word) (a : Addr) :
    (s.withSreg sr v).peek a = s.peek a := rfl
@[simp] theorem State.peek_withReg (s : State) (w : Width) (i : RegIx) (v : BitVec w.bits) (a : Addr) :
    (s.withReg w i v).peek a = s.peek a := rfl
@[simp] theorem State.peek_record (s : State) (c : BusCall) (a : Addr) : (s.record c).peek a = s.peek a := rfl
@[simp] theorem endStep_peek (s : State) (a : Addr) : (endStep s).peek a = s.peek a := rfl

end Sys2Proof.Machine
end

