-- ==== Sys2Proof/Laws/Memory.lean ====
section
/-!
SUPPORT. The list of memory cells: a read after a write, and the canonical form that every write keeps.
-/

namespace Sys2Proof.Machine

theorem Memory.read_erase_same (m : List Host.Cell) (a : Nat) :
    Memory.read (Memory.erase m a) a = Memory.blank := by
  induction m with
  | nil => rfl
  | cons c m ih =>
    obtain ⟨k, v⟩ := c
    by_cases h : k = a
    · simp only [Memory.erase] at ih; simp [Memory.erase, h, ih]
    · simp only [Memory.erase] at ih; simp [Memory.erase, h, Memory.read, ih]

theorem Memory.read_erase_other (m : List Host.Cell) {a b : Nat} (h : b ≠ a) :
    Memory.read (Memory.erase m a) b = Memory.read m b := by
  induction m with
  | nil => rfl
  | cons c m ih =>
    obtain ⟨k, v⟩ := c
    simp only [Memory.erase] at ih
    by_cases hk : k = a
    · simp [Memory.erase, hk, ih, Memory.read, Ne.symm h]
    · simp [Memory.erase, hk, Memory.read, ih]

theorem Memory.read_insert_same (m : List Host.Cell) (a : Nat) (v : Byte)
    (h : ∀ c ∈ m, c.1 ≠ a) : Memory.read (Memory.insert m a v) a = v := by
  induction m with
  | nil => simp [Memory.insert, Memory.read]
  | cons c m ih =>
    obtain ⟨k, u⟩ := c
    have hk : k ≠ a := h (k, u) (by simp)
    by_cases hlt : a < k
    · simp [Memory.insert, hlt, Memory.read]
    · simp [Memory.insert, hlt, Memory.read, hk, ih (fun c hc => h c (by simp [hc]))]

theorem Memory.read_insert_other (m : List Host.Cell) {a b : Nat} (v : Byte) (h : b ≠ a) :
    Memory.read (Memory.insert m a v) b = Memory.read m b := by
  induction m with
  | nil => simp [Memory.insert, Memory.read, Ne.symm h]
  | cons c m ih =>
    obtain ⟨k, u⟩ := c
    by_cases hlt : a < k
    · simp [Memory.insert, hlt, Memory.read, Ne.symm h]
    · simp [Memory.insert, hlt, Memory.read, ih]

theorem Memory.erase_ne (m : List Host.Cell) (a : Nat) : ∀ c ∈ Memory.erase m a, c.1 ≠ a := by
  intro c hc
  simp [Memory.erase] at hc
  exact hc.2

/-- A read after a write to the same address gives the byte written. -/
theorem Memory.read_write_same (m : List Host.Cell) (a : Nat) (v : Byte) :
    Memory.read (Memory.write m a v) a = v := by
  unfold Memory.write
  split
  · rw [Memory.read_erase_same, ‹v = _›]
  · exact Memory.read_insert_same _ _ _ (Memory.erase_ne m a)

/-- A write leaves every other address alone. -/
theorem Memory.read_write_other (m : List Host.Cell) {a b : Nat} (v : Byte) (h : b ≠ a) :
    Memory.read (Memory.write m a v) b = Memory.read m b := by
  unfold Memory.write
  split
  · exact Memory.read_erase_other m h
  · rw [Memory.read_insert_other _ _ h, Memory.read_erase_other m h]

/-! ## The canonical form -/

theorem Memory.risesFrom_le {m : List Host.Cell} {lo hi : Nat} (h : hi ≤ lo)
    (hm : Memory.risesFrom lo m = true) : Memory.risesFrom hi m = true := by
  cases m with
  | nil => rfl
  | cons c m =>
    obtain ⟨k, v⟩ := c
    simp only [Memory.risesFrom, Bool.and_eq_true, decide_eq_true_eq] at hm ⊢
    exact ⟨by omega, hm.2⟩

theorem Memory.risesFrom_erase {m : List Host.Cell} {lo : Nat} (a : Nat)
    (hm : Memory.risesFrom lo m = true) : Memory.risesFrom lo (Memory.erase m a) = true := by
  induction m generalizing lo with
  | nil => rfl
  | cons c m ih =>
    obtain ⟨k, v⟩ := c
    simp only [Memory.risesFrom, Bool.and_eq_true, decide_eq_true_eq] at hm
    by_cases hk : k = a
    · simpa [Memory.erase, hk] using
        Memory.risesFrom_le (by omega : lo ≤ k + 1) (ih hm.2)
    · have h2 := ih hm.2
      simp only [Memory.erase] at h2
      simp [Memory.erase, hk, Memory.risesFrom, hm.1, h2]

theorem Memory.risesFrom_insert {m : List Host.Cell} {lo a : Nat} (v : Byte)
    (hm : Memory.risesFrom lo m = true) (hlo : lo ≤ a) (hne : ∀ c ∈ m, c.1 ≠ a) :
    Memory.risesFrom lo (Memory.insert m a v) = true := by
  induction m generalizing lo with
  | nil => simp [Memory.insert, Memory.risesFrom, hlo]
  | cons c m ih =>
    obtain ⟨k, u⟩ := c
    have hk : k ≠ a := hne (k, u) (by simp)
    simp only [Memory.risesFrom, Bool.and_eq_true, decide_eq_true_eq] at hm
    by_cases hlt : a < k
    · have h3 : a + 1 ≤ k := hlt
      simp [Memory.insert, hlt, Memory.risesFrom, hlo, h3, hm.2]
    · have h4 := ih hm.2 (by omega) (fun c hc => hne c (by simp [hc]))
      simp [Memory.insert, hlt, Memory.risesFrom, hm.1, h4]

theorem Memory.mem_insert {m : List Host.Cell} {a : Nat} {v : Byte} {c : Host.Cell}
    (h : c ∈ Memory.insert m a v) : c = (a, v) ∨ c ∈ m := by
  induction m with
  | nil => simpa [Memory.insert] using h
  | cons d m ih =>
    obtain ⟨k, u⟩ := d
    by_cases hlt : a < k
    · simpa [Memory.insert, hlt] using h
    · simp [Memory.insert, hlt] at h
      rcases h with h | h
      · exact .inr (by simp [h])
      · rcases ih h with h | h
        · exact .inl h
        · exact .inr (by simp [h])

/-- A write inside the address space keeps the canonical form. -/
theorem Memory.wf_write {m : List Host.Cell} {a : Nat} (v : Byte) (ha : a < 2 ^ 20)
    (hm : Memory.wf m = true) : Memory.wf (Memory.write m a v) = true := by
  simp only [Memory.wf, Bool.and_eq_true, List.all_eq_true, decide_eq_true_eq] at hm ⊢
  obtain ⟨hr, hall⟩ := hm
  have he : ∀ c ∈ Memory.erase m a, c ∈ m := fun c hc => by
    simp [Memory.erase] at hc; exact hc.1
  unfold Memory.write
  split
  · exact ⟨Memory.risesFrom_erase a hr, fun c hc => hall c (he c hc)⟩
  · refine ⟨Memory.risesFrom_insert v (Memory.risesFrom_erase a hr) (Nat.zero_le _)
      (Memory.erase_ne m a), fun c hc => ?_⟩
    rcases Memory.mem_insert hc with rfl | hc
    · exact ⟨ha, by simpa [bne_iff_ne] using ‹¬ v = _›⟩
    · exact hall c (he c hc)

/-- The bytes a host handler writes keep the canonical form. -/
theorem Memory.wf_hostWrites (ws : List (Addr × Byte)) {m : List Host.Cell} (hm : Memory.wf m = true) :
    Memory.wf (hostWrites ws m) = true := by
  induction ws generalizing m with
  | nil => exact hm
  | cons w ws ih => exact ih (Memory.wf_write _ w.1.isLt hm)

/-- Loading a program keeps the canonical form. -/
theorem Memory.wf_loadCode (seg : Word) (l : List Byte) (off : Word) {m : List Host.Cell}
    (hm : Memory.wf m = true) : Memory.wf (loadCode seg l off m) = true := by
  induction l generalizing off m with
  | nil => exact hm
  | cons b l ih => exact ih _ (Memory.wf_write _ (phys seg off).isLt hm)

/-- The memory right after reset is in its canonical form. -/
theorem Memory.wf_reset : Memory.wf State.reset.bus.mem = true := rfl

end Sys2Proof.Machine
end

