-- ==== Sys2Proof/Laws/Access.lean ====
section
/-!
SUPPORT. What the access primitives do: a read is a value and a list of bus calls, a write changes the bytes
it names and nothing else (20_memory.md R65, R66, R70, R71; 30_encoding.md R100).
-/

namespace Sys2Proof.Machine

/-! ## Reads -/

@[simp] theorem State.noteReads_cpu (s : State) (l : List Addr) : (s.noteReads l).cpu = s.cpu := rfl
@[simp] theorem State.noteReads_segOverride (s : State) (l : List Addr) :
    (s.noteReads l).segOverride = s.segOverride := rfl
@[simp] theorem State.noteReads_repeatState (s : State) (l : List Addr) :
    (s.noteReads l).repeatState = s.repeatState := rfl
@[simp] theorem State.noteReads_bus (s : State) (l : List Addr) : (s.noteReads l).bus = s.bus := rfl
@[simp] theorem State.noteReads_status (s : State) (l : List Addr) : (s.noteReads l).status = s.status := rfl
@[simp] theorem State.noteReads_params (s : State) (l : List Addr) : (s.noteReads l).params = s.params := rfl
@[simp] theorem State.noteReads_calls (s : State) (l : List Addr) :
    (s.noteReads l).calls = readCalls s l ++ s.calls := rfl
@[simp] theorem State.noteReads_cost (s : State) (l : List Addr) : (s.noteReads l).cost = s.cost := rfl
@[simp] theorem State.noteReads_draws (s : State) (l : List Addr) : (s.noteReads l).draws = s.draws := rfl
@[simp] theorem State.peek_noteReads (s : State) (l : List Addr) (a : Addr) :
    (s.noteReads l).peek a = s.peek a := rfl
@[simp] theorem State.peek8_noteReads (s : State) (l : List Addr) (g o : Word) :
    (s.noteReads l).peek8 g o = s.peek8 g o := rfl
@[simp] theorem State.peek16_noteReads (s : State) (l : List Addr) (g o : Word) :
    (s.noteReads l).peek16 g o = s.peek16 g o := rfl
@[simp] theorem State.peekW_noteReads (s : State) (l : List Addr) (w : Width) (g o : Word) :
    (s.noteReads l).peekW w g o = s.peekW w g o := by cases w <;> rfl
@[simp] theorem State.value_noteReads (s : State) (l : List Addr) (w : Width) (o : Operand) :
    (s.noteReads l).value w o = s.value w o := by cases o <;> simp [State.value]

theorem readCalls_append (s : State) (l k : List Addr) :
    readCalls s (l ++ k) = readCalls s k ++ readCalls s l := by
  unfold readCalls; split <;> simp

/-- Two reads one after the other are the reads of both lists in order. -/
@[simp] theorem State.noteReads_noteReads (s : State) (l k : List Addr) :
    (s.noteReads l).noteReads k = s.noteReads (l ++ k) := by
  have h : readCalls s k ++ (readCalls s l ++ s.calls) = readCalls s (l ++ k) ++ s.calls := by
    rw [readCalls_append, List.append_assoc]
  exact congrArg (fun c => { s with calls := c }) h

@[simp] theorem State.noteReads_nil (s : State) : s.noteReads [] = s := by
  have h : readCalls s [] ++ s.calls = s.calls := by simp [readCalls]
  exact congrArg (fun c => { s with calls := c }) h

/-! ## Hosts -/

theorem State.QuietMemory.congr {s t : State} (h : s.QuietMemory) (ha : t.bus.attached = s.bus.attached)
    (hd : t.bus.devices.windows = s.bus.devices.windows) : t.QuietMemory := by
  intro h1
  rw [hd]
  exact h (ha ▸ h1)

theorem State.Stores.congr {s t : State} {l : List Addr} (h : s.Stores l)
    (ha : t.bus.attached = s.bus.attached) (hd : t.bus.devices.windows = s.bus.devices.windows) : t.Stores l :=
  ⟨ha.trans h.1, fun a hm => (State.kindAt_congr hd a).trans (h.2 a hm)⟩

theorem State.Stores.mono {s : State} {l k : List Addr} (h : s.Stores l) (hk : ∀ a ∈ k, a ∈ l) : s.Stores k :=
  ⟨h.1, fun a ha => h.2 a (hk a ha)⟩

@[simp] theorem State.QuietMemory.noteReads {s : State} (h : s.QuietMemory) (l : List Addr) :
    (s.noteReads l).QuietMemory := h
@[simp] theorem State.QuietMemory.withCpu {s : State} (h : s.QuietMemory) (c : Cpu) :
    (s.withCpu c).QuietMemory := h
@[simp] theorem State.QuietMemory.withFlags {s : State} (h : s.QuietMemory) (fl : Word) :
    (s.withFlags fl).QuietMemory := h
@[simp] theorem State.QuietMemory.withIp {s : State} (h : s.QuietMemory) (v : Word) :
    (s.withIp v).QuietMemory := h
@[simp] theorem State.QuietMemory.withCsIp {s : State} (h : s.QuietMemory) (g o : Word) :
    (s.withCsIp g o).QuietMemory := h
@[simp] theorem State.QuietMemory.withSp {s : State} (h : s.QuietMemory) (v : Word) :
    (s.withSp v).QuietMemory := h
@[simp] theorem State.QuietMemory.withCx {s : State} (h : s.QuietMemory) (v : Word) :
    (s.withCx v).QuietMemory := h
@[simp] theorem State.QuietMemory.withReg {s : State} (h : s.QuietMemory) (w : Width) (i : RegIx) (v : BitVec w.bits) :
    (s.withReg w i v).QuietMemory := h
@[simp] theorem State.QuietMemory.withSreg {s : State} (h : s.QuietMemory) (sr : Sreg) (v : Word) :
    (s.withSreg sr v).QuietMemory := h
@[simp] theorem State.QuietMemory.record {s : State} (h : s.QuietMemory) (c : BusCall) :
    (s.record c).QuietMemory := h

/-- With quiet memory no address is a device's. -/
theorem State.QuietMemory.kindAt {s : State} (h : s.QuietMemory) (ha : s.bus.attached = true) (a : Addr) :
    s.kindAt a = none ∨ s.kindAt a = some .rom := by
  unfold State.kindAt
  cases hf : s.bus.devices.windows.find? (fun w => windowHolds w a) with
  | none => exact .inl rfl
  | some w => exact .inr (congrArg some (h ha w (List.mem_of_find?_eq_some hf)))

/-! ## Reads of quiet memory -/

/-- A byte read of quiet memory answers the byte there and changes the call list alone (R65). -/
theorem readByte_eq {s : State} (hq : s.QuietMemory) (a : Addr) :
    readByte a s = (s.peek a, s.noteReads [a]) := by
  unfold readByte
  by_cases h : s.bus.attached = true
  · rw [if_pos h]
    obtain hk | hk := hq.kindAt h a <;> rw [hk] <;> simp [h, State.noteReads, readCalls, State.record]
  · simp [h, State.noteReads, readCalls, State.peek]

theorem read8_eq {s : State} (hq : s.QuietMemory) (g o : Word) :
    read8 g o s = (s.peek8 g o, s.noteReads [phys g o]) :=
  readByte_eq hq _

/-- A word read answers low byte first, the second offset wrapping in the segment (R66). -/
theorem read16_eq {s : State} (hq : s.QuietMemory) (g o : Word) :
    read16 g o s = (s.peek16 g o, s.noteReads [phys g o, phys g (o + 1)]) := by
  simp [read16, read8_eq, State.peek16, hq]

theorem readW_eq {s : State} (hq : s.QuietMemory) (w : Width) (g o : Word) :
    readW w g o s = (s.peekW w g o, s.noteReads (bytesAt w g o)) := by
  cases w
  · exact read8_eq hq g o
  · exact read16_eq hq g o

/-- An operand read answers its value; a register operand makes no bus call (R100). -/
theorem readOperand_eq {s : State} (hq : s.QuietMemory) (w : Width) (o : Operand) :
    readOperand w o s = (s.value w o, s.noteReads (o.bytes w)) := by
  cases o with
  | reg i => simp [readOperand, State.value, Operand.bytes]
  | mem g off => exact readW_eq hq w g off
  | imm v => simp [readOperand, State.value, Operand.bytes]

/-- The far pointer of an operand (R67). -/
theorem readFar_eq {s : State} (hq : s.QuietMemory) (m : RM) :
    readFar m s =
      (s.peek16 (segFor (defaultSeg m) s) (effOffset s.cpu m),
       s.peek16 (segFor (defaultSeg m) s) (effOffset s.cpu m + 2),
       s.noteReads (bytesAt .word (segFor (defaultSeg m) s) (effOffset s.cpu m) ++
         bytesAt .word (segFor (defaultSeg m) s) (effOffset s.cpu m + 2))) := by
  simp [readFar, read16_eq, bytesAt, hq]

/-- A pop answers the word at SS:SP and adds 2 to SP (R71). -/
theorem pop16_eq {s : State} (hq : s.QuietMemory) :
    pop16 s = (s.peek16 s.cpu.ss s.cpu.sp,
      (s.noteReads (bytesAt .word s.cpu.ss s.cpu.sp)).withSp (s.cpu.sp + 2)) := by
  simp [pop16, read16_eq, bytesAt, hq]

theorem fetch8_eq {s : State} (hq : s.QuietMemory) :
    fetch8 s = (s.peek8 s.cpu.cs s.cpu.ip, (s.noteReads [phys s.cpu.cs s.cpu.ip]).withIp (s.cpu.ip + 1)) := by
  simp [fetch8, read8_eq, hq]

theorem codeAddrs_succ (cs ip : Word) (n : Nat) :
    codeAddrs cs ip (n + 1) = phys cs ip :: codeAddrs cs (ip + 1) n := by
  simp only [codeAddrs, List.range_succ_eq_map, List.map_cons, List.map_map]
  congr 1
  · simp
  · apply List.map_congr_left
    intro k _
    simp only [Function.comp]
    congr 1
    apply BitVec.eq_of_toNat_eq
    simp [BitVec.toNat_add]
    omega

/-- Fetching `n` bytes adds `n` to IP and reads the bytes at CS:IP in ascending order (R27, R70). -/
theorem fetchN_eq (n : Nat) {s : State} (hq : s.QuietMemory) :
    fetchN n s = (s.noteReads (codeAddrs s.cpu.cs s.cpu.ip n)).withIp (s.cpu.ip + BitVec.ofNat 16 n) := by
  induction n generalizing s with
  | zero => simp [fetchN, codeAddrs, State.withIp]
  | succ n ih =>
    rw [fetchN, fetch8_eq hq, ih ((hq.noteReads _).withIp _), codeAddrs_succ]
    have h : s.cpu.ip + 1 + BitVec.ofNat 16 n = s.cpu.ip + BitVec.ofNat 16 (n + 1) := by
      apply BitVec.eq_of_toNat_eq
      simp [BitVec.toNat_add]
      omega
    have h2 : readCalls s (codeAddrs s.cpu.cs (s.cpu.ip + 1) n) ++
        (readCalls s [phys s.cpu.cs s.cpu.ip] ++ s.calls) =
        readCalls s (phys s.cpu.cs s.cpu.ip :: codeAddrs s.cpu.cs (s.cpu.ip + 1) n) ++ s.calls := by
      rw [← List.append_assoc, ← readCalls_append, List.singleton_append]
    exact congrArg₂ (fun c i => { s with cpu := { s.cpu with ip := i }, calls := c }) h2 h

/-! ## Writes -/

/-- A byte write changes that byte of a plain memory and no other, whatever the host does (R63, R64, R76). -/
theorem peek_writeByte (a : Addr) (v : Byte) (s : State) (b : Addr) :
    (writeByte a v s).peek b =
      if (s.bus.attached = true ∧ s.kindAt a = none) ∧ b = a then v else s.peek b := by
  unfold writeByte
  by_cases h : s.bus.attached = true
  · rw [if_pos h]
    cases hk : s.kindAt a with
    | none =>
      by_cases hb : b = a
      · simp [h, hb, State.peek, State.record, Memory.read_write_same]
      · have hb' : b.toNat ≠ a.toNat := fun e => hb (BitVec.eq_of_toNat_eq e)
        simp [h, hb, State.peek, State.record, Memory.read_write_other _ _ hb']
    | some k => cases k <;> simp [h, State.peek, State.record]
  · simp [h]

@[simp] theorem cpu_writeByte (a : Addr) (v : Byte) (s : State) : (writeByte a v s).cpu = s.cpu := by
  unfold writeByte
  split
  · split <;> rfl
  · rfl

@[simp] theorem attached_writeByte (a : Addr) (v : Byte) (s : State) :
    (writeByte a v s).bus.attached = s.bus.attached := by
  unfold writeByte
  split
  · split <;> rfl
  · rfl

/-- The memory map is kept, whatever the host does (R76). -/
@[simp] theorem windows_writeByte (a : Addr) (v : Byte) (s : State) :
    (writeByte a v s).bus.devices.windows = s.bus.devices.windows := by
  unfold writeByte
  split
  · split <;> rfl
  · rfl

/-- A byte write is one bus call (R81), and none where no bus is attached (R64). -/
theorem calls_writeByte (a : Addr) (v : Byte) (s : State) :
    (writeByte a v s).calls = (if s.bus.attached then [.writeByte a v] else []) ++ s.calls := by
  unfold writeByte
  split
  · split <;> simp [State.record]
  · simp

/-- A byte read changes no byte of memory, whatever the host does (R76). -/
@[simp] theorem mem_readByte (a : Addr) (s : State) : (readByte a s).2.bus.mem = s.bus.mem := by
  unfold readByte
  split
  · split <;> rfl
  · rfl

@[simp] theorem attached_readByte (a : Addr) (s : State) :
    (readByte a s).2.bus.attached = s.bus.attached := by
  unfold readByte
  split
  · split <;> rfl
  · rfl

@[simp] theorem windows_readByte (a : Addr) (s : State) :
    (readByte a s).2.bus.devices.windows = s.bus.devices.windows := by
  unfold readByte
  split
  · split <;> rfl
  · rfl

@[simp] theorem peek_readByte (a : Addr) (s : State) (b : Addr) : (readByte a s).2.peek b = s.peek b := by
  simp [State.peek]

/-- A byte read is one bus call, with the byte the host answers (R81), and none where no bus is attached
(R64). -/
theorem calls_readByte (a : Addr) (s : State) :
    (readByte a s).2.calls =
      (if s.bus.attached then [.readByte a (readByte a s).1] else []) ++ s.calls := by
  unfold readByte
  split
  · split <;> simp [State.record]
  · simp

/-- A write to quiet memory keeps all of the state but memory and the call list. -/
structure WroteMemory (s t : State) : Prop where
  cpu : t.cpu = s.cpu
  rest : SameRest s t
  cost : t.cost = s.cost
  draws : t.draws = s.draws
  wf : Memory.wf s.bus.mem = true → Memory.wf t.bus.mem = true

theorem WroteMemory.trans {s t u : State} (h : WroteMemory s t) (k : WroteMemory t u) : WroteMemory s u :=
  ⟨k.cpu.trans h.cpu,
   ⟨k.rest.segOverride.trans h.rest.segOverride, k.rest.repeatState.trans h.rest.repeatState,
    k.rest.params.trans h.rest.params, k.rest.status.trans h.rest.status,
    k.rest.attached.trans h.rest.attached, k.rest.devices.trans h.rest.devices,
    k.rest.handlers.trans h.rest.handlers⟩,
   k.cost.trans h.cost, k.draws.trans h.draws, fun w => k.wf (h.wf w)⟩

theorem wrote_writeByte {s : State} (hq : s.QuietMemory) (a : Addr) (v : Byte) :
    WroteMemory s (writeByte a v s) := by
  unfold writeByte
  by_cases h : s.bus.attached = true
  · rw [if_pos h]
    obtain hk | hk := hq.kindAt h a <;> rw [hk]
    · exact ⟨rfl, ⟨rfl, rfl, rfl, rfl, rfl, rfl, rfl⟩, rfl, rfl, Memory.wf_write v a.isLt⟩
    · exact ⟨rfl, ⟨rfl, rfl, rfl, rfl, rfl, rfl, rfl⟩, rfl, rfl, id⟩
  · rw [if_neg h]
    exact ⟨rfl, ⟨rfl, rfl, rfl, rfl, rfl, rfl, rfl⟩, rfl, rfl, id⟩

theorem WroteMemory.quiet {s t : State} (h : WroteMemory s t) (hq : s.QuietMemory) : t.QuietMemory :=
  hq.congr h.rest.attached (congrArg Devices.windows h.rest.devices)

theorem wrote_write16 {s : State} (hq : s.QuietMemory) (g o v : Word) : WroteMemory s (write16 g o v s) :=
  (wrote_writeByte hq _ _).trans (wrote_writeByte ((wrote_writeByte hq _ _).quiet hq) _ _)

theorem wrote_writeW {s : State} (hq : s.QuietMemory) (w : Width) (g o : Word) (v : BitVec w.bits) :
    WroteMemory s (writeW w g o v s) := by
  cases w
  · exact wrote_writeByte hq _ _
  · exact wrote_write16 hq _ _ _

/-- The two bytes of a word lie at different physical addresses, also where the offset wraps (R66). -/
theorem phys_succ_ne (g o : Word) : phys g (o + 1#16) ≠ phys g o := by
  intro h
  have h1 := congrArg BitVec.toNat h
  simp [phys, BitVec.toNat_add, BitVec.toNat_shiftLeft] at h1
  have := o.isLt
  omega

@[simp] theorem wordOf_halves (v : Word) : wordOf (lowByte v) (highByte v) = v := by
  apply BitVec.eq_of_getLsbD_eq
  intro i hi
  simp only [wordOf, lowByte, highByte, BitVec.getLsbD_append, BitVec.getLsbD_extractLsb']
  by_cases h : i < 8
  · simp [h]
  · have h1 : i - 8 < 8 := by omega
    have h2 : 8 + (i - 8) = i := by omega
    simp [h, h1, h2]

@[simp] theorem lowByte_wordOf (lo hi : Byte) : lowByte (wordOf lo hi) = lo := by
  apply BitVec.eq_of_getLsbD_eq
  intro i h
  simp only [wordOf, lowByte, BitVec.getLsbD_append, BitVec.getLsbD_extractLsb']
  simp [h]

@[simp] theorem highByte_wordOf (lo hi : Byte) : highByte (wordOf lo hi) = hi := by
  apply BitVec.eq_of_getLsbD_eq
  intro i h
  simp only [wordOf, highByte, BitVec.getLsbD_append, BitVec.getLsbD_extractLsb']
  simp [h]

/-- What stands in plain memory after a write of width `w`: the value written (R67). -/
theorem peekW_writeW (w : Width) (g o : Word) (v : BitVec w.bits) {s : State}
    (h : s.Stores (bytesAt w g o)) : (writeW w g o v s).peekW w g o = v := by
  obtain ⟨ha, hk⟩ := h
  cases w with
  | byte =>
    have h0 := hk (phys g o) (by simp [bytesAt])
    simp [writeW, write8, State.peekW, State.peek8, peek_writeByte, ha, h0]
  | word =>
    have h0 := hk (phys g o) (by simp [bytesAt])
    have h1 : s.kindAt (phys g (o + 1#16)) = none := hk (phys g (o + 1)) (by simp [bytesAt])
    have h2 := State.kindAt_congr (windows_writeByte (phys g o) (lowByte v) s) (phys g (o + 1#16))
    simp [writeW, write16, write8, State.peekW, State.peek16, State.peek8, peek_writeByte, ha, h0, h1, h2,
      Ne.symm (phys_succ_ne g o)]

/-- A write leaves every byte outside the place written as it was, whatever the host does (R76). -/
theorem sameMemoryBut_writeW (w : Width) (g o : Word) (v : BitVec w.bits) (s : State) :
    SameMemoryBut (bytesAt w g o) s (writeW w g o v s) := by
  intro a ha
  cases w with
  | byte =>
    simp only [bytesAt, List.mem_singleton] at ha
    simp [writeW, write8, peek_writeByte, ha]
  | word =>
    simp only [bytesAt, List.mem_cons, List.not_mem_nil, or_false, not_or] at ha
    simp only [writeW, write16, write8, peek_writeByte, ha, and_false, if_false]

/-! ## Accesses of a width, whatever the host does -/

/-- A byte read of plain memory answers the byte there (R76; log entry 1). -/
theorem readByte_plain {a : Addr} {s : State} (h : s.Stores [a]) : (readByte a s).1 = s.peek a := by
  have hk := h.2 a (by simp)
  simp [readByte, h.1, hk]

/-- A read changes no byte of memory, whatever the host does (R76). -/
@[simp] theorem peek_readW (w : Width) (g o : Word) (s : State) (b : Addr) :
    (readW w g o s).2.peek b = s.peek b := by
  cases w <;> simp [readW, read16, read8]

/-- The bus calls of a read, with the bytes the host answers (R66, R81). -/
theorem calls_readW (w : Width) (g o : Word) (s : State) :
    (readW w g o s).2.calls = answerCalls s w g o (readW w g o s).1 ++ s.calls := by
  cases w <;> simp only [readW, read16, read8, calls_readByte, attached_readByte, answerCalls]
  split <;> simp

/-- A read of plain memory answers what stands there (R76; log entry 1). -/
theorem readW_plain (w : Width) (g o : Word) {s : State} (h : s.Stores (bytesAt w g o)) :
    (readW w g o s).1 = s.peekW w g o := by
  cases w with
  | byte => exact readByte_plain h
  | word =>
    have h0 : s.Stores [phys g o] := h.mono (by simp [bytesAt])
    have h1 : (readByte (phys g o) s).2.Stores [phys g (o + 1)] :=
      State.Stores.congr (h.mono (by simp [bytesAt])) (attached_readByte _ _) (windows_readByte _ _)
    show wordOf (readByte (phys g o) s).1 (readByte (phys g (o + 1)) (readByte (phys g o) s).2).1 = _
    rw [readByte_plain h0, readByte_plain h1, peek_readByte]
    rfl

/-- The reads of quiet memory are those of the bytes that stand there. -/
theorem answerCalls_peekW (s : State) (w : Width) (g o : Word) :
    answerCalls s w g o (s.peekW w g o) = readCalls s (bytesAt w g o) := by
  cases w <;>
    simp [answerCalls, readCalls, State.peekW, State.peek16, State.peek8, bytesAt]

theorem cpu_writeW (w : Width) (g o : Word) (v : BitVec w.bits) (s : State) : (writeW w g o v s).cpu = s.cpu := by
  cases w <;> simp [writeW, write16, write8]

/-- The bus calls of a write (R66, R81). -/
theorem calls_writeW (w : Width) (g o : Word) (v : BitVec w.bits) (s : State) :
    (writeW w g o v s).calls = writeCalls s w g o v ++ s.calls := by
  cases w <;> simp only [writeW, write16, write8, calls_writeByte, attached_writeByte, writeCalls]
  split <;> simp

end Sys2Proof.Machine
end

