-- ==== Sys2Proof/Laws/Decode.lean ====
section
/-!
SUPPORT. The decoder looks at the bytes of the instruction alone: how many there are, and that streams which
agree on them decode alike (30_encoding.md R90, R112).
-/

namespace Sys2Proof

/-- Streams that agree on their first `n` bytes. -/
def Agree (n : Nat) (b c : Nat → Byte) : Prop := ∀ j, j < n → c j = b j

theorem Agree.mono {m n : Nat} {b c : Nat → Byte} (h : Agree n b c) (hm : m ≤ n) : Agree m b c :=
  fun j hj => h j (by omega)

theorem Agree.word {n k : Nat} {b c : Nat → Byte} (h : Agree n b c) (hk : k + 2 ≤ n) :
    streamWord c k = streamWord b k := by
  simp only [streamWord, h k (by omega), h (k + 1) (by omega)]

/-! ## The ModRM byte -/

theorem decodeModRM_length (b : Nat → Byte) : 1 ≤ (decodeModRM b).2.2 ∧ (decodeModRM b).2.2 ≤ 3 := by
  unfold decodeModRM
  dsimp only
  repeat' split
  all_goals simp

theorem decodeModRM_local {b c : Nat → Byte} (h : Agree (decodeModRM b).2.2 b c) :
    decodeModRM c = decodeModRM b := by
  have h0 : c 0 = b 0 := h 0 (decodeModRM_length b).1
  unfold decodeModRM at h ⊢
  rw [h0]
  dsimp only at h ⊢
  generalize (BitVec.extractLsb' 6 2 (b 0)).toNat = d at h ⊢
  split at h
  · rfl
  · split at h
    · rw [h.word (k := 1) (Nat.le_refl _)]
    · next hr => simp only [if_neg hr]
  · rw [h 1 (Nat.le_refl 2)]
  · rw [h.word (k := 1) (Nat.le_refl _)]

theorem modRMAfterOp_length (b : Nat → Byte) : 1 ≤ (modRMAfterOp b).2.2 ∧ (modRMAfterOp b).2.2 ≤ 3 :=
  decodeModRM_length _

theorem modRMAfterOp_local {b c : Nat → Byte} (h : Agree (1 + (modRMAfterOp b).2.2) b c) :
    modRMAfterOp c = modRMAfterOp b :=
  decodeModRM_local (fun j hj => h (j + 1) (by unfold modRMAfterOp; omega))

/-! ## The rows of the opcode map -/

theorem rowModRM_local {b c : Nat → Byte} {mk : RM → RegIx → Instr} (h : Agree (rowModRM b mk).length b c) :
    rowModRM c mk = rowModRM b mk := by
  have hm := modRMAfterOp_local (h.mono (Nat.le_refl _))
  simp only [rowModRM, hm]

theorem decodeLow_local {b c : Nat → Byte} (h : Agree (decodeLow b).length b c) (h0 : c 0 = b 0) :
    decodeLow c = decodeLow b := by
  unfold decodeLow at h ⊢
  rw [h0]
  dsimp only at h ⊢
  generalize (BitVec.extractLsb' 0 3 (b 0)).toNat = d at h ⊢
  split at h
  · exact rowModRM_local h
  · exact rowModRM_local h
  · exact rowModRM_local h
  · exact rowModRM_local h
  · rw [h 1 (Nat.le_refl 2)]
  · rw [h.word (k := 1) (Nat.le_refl 3)]
  all_goals rfl

theorem decodeJcc_local {b c : Nat → Byte} (h : Agree (decodeJcc b).length b c) (h0 : c 0 = b 0) :
    decodeJcc c = decodeJcc b := by
  have h1 : c 1 = b 1 := h 1 (by unfold decodeJcc; split <;> exact Nat.le_refl 2)
  simp only [decodeJcc, h0, h1]

theorem decodeRow8_local {b c : Nat → Byte} (h : Agree (decodeRow8 b).length b c) (h0 : c 0 = b 0) :
    decodeRow8 c = decodeRow8 b := by
  have hl : 1 + (modRMAfterOp b).2.2 ≤ (decodeRow8 b).length := by
    unfold decodeRow8 rowMem
    generalize modRMAfterOp b = x
    obtain ⟨reg, m, n⟩ := x
    dsimp only
    repeat' split
    all_goals simp only [Decoded.length]; omega
  have hm := modRMAfterOp_local (h.mono hl)
  clear hl
  unfold decodeRow8 rowMem at h ⊢
  rw [hm, h0]
  generalize modRMAfterOp b = x at h ⊢
  obtain ⟨reg, m, n⟩ := x
  dsimp only at h ⊢
  generalize (BitVec.extractLsb' 0 4 (b 0)).toNat = d at h ⊢
  split at h
  all_goals simp only [Decoded.length] at h
  · rw [h (1 + n) (by omega)]
  · rw [h.word (by omega)]
  · rw [h (1 + n) (by omega)]
  · rw [h (1 + n) (by omega)]
  all_goals rfl

theorem decodeRow9_local {b c : Nat → Byte} (h : Agree (decodeRow9 b).length b c) (h0 : c 0 = b 0) :
    decodeRow9 c = decodeRow9 b := by
  unfold decodeRow9 at h ⊢
  rw [h0]
  generalize (BitVec.extractLsb' 0 4 (b 0)).toNat = d at h ⊢
  split at h
  case h_4 => rw [h.word (k := 1) (Nat.le_add_right 3 2), h.word (k := 3) (Nat.le_refl 5)]
  all_goals rfl

theorem decodeRowA_local {b c : Nat → Byte} (h : Agree (decodeRowA b).length b c) (h0 : c 0 = b 0) :
    decodeRowA c = decodeRowA b := by
  unfold decodeRowA at h ⊢
  rw [h0]
  generalize (BitVec.extractLsb' 0 4 (b 0)).toNat = d at h ⊢
  split at h
  all_goals first
    | rfl
    | rw [h.word (k := 1) (Nat.le_refl 3)]
    | rw [h 1 (Nat.le_refl 2)]

theorem decodeRowB_local {b c : Nat → Byte} (h : Agree (decodeRowB b).length b c) (h0 : c 0 = b 0) :
    decodeRowB c = decodeRowB b := by
  unfold decodeRowB at h ⊢
  rw [h0]
  dsimp only at h ⊢
  split at h
  · next hr => simp only [if_pos hr, h.word (k := 1) (Nat.le_refl 3)]
  · next hr => simp only [if_neg hr, h 1 (Nat.le_refl 2)]

theorem decodeShift_local {b c : Nat → Byte} {w : Width} {k : ShiftCount}
    (h : Agree (decodeShift b w k).length b c) (h0 : c 0 = b 0) :
    decodeShift c w k = decodeShift b w k := by
  have hl : 1 + (modRMAfterOp b).2.2 ≤ (decodeShift b w k).length := by
    unfold decodeShift
    generalize modRMAfterOp b = x
    obtain ⟨reg, m, n⟩ := x
    dsimp only
    split <;> exact Nat.le_refl _
  simp only [decodeShift, modRMAfterOp_local (h.mono hl), h0]

theorem decodeGroup3_local {b c : Nat → Byte} {w : Width} (h : Agree (decodeGroup3 b w).length b c)
    (h0 : c 0 = b 0) : decodeGroup3 c w = decodeGroup3 b w := by
  have hl : 1 + (modRMAfterOp b).2.2 ≤ (decodeGroup3 b w).length := by
    unfold decodeGroup3
    generalize modRMAfterOp b = x
    obtain ⟨reg, m, n⟩ := x
    dsimp only
    repeat' split
    all_goals simp only [Decoded.length]; omega
  have hm := modRMAfterOp_local (h.mono hl)
  clear hl
  unfold decodeGroup3 at h ⊢
  rw [hm, h0]
  generalize modRMAfterOp b = x at h ⊢
  obtain ⟨reg, m, n⟩ := x
  dsimp only at h ⊢
  generalize reg.toNat = d at h ⊢
  split at h
  · cases w
    · simp only [Decoded.length] at h
      dsimp only
      rw [h (1 + n) (by omega)]
    · simp only [Decoded.length] at h
      dsimp only
      rw [h.word (by omega)]
  all_goals rfl

theorem decodeGroup4_local {b c : Nat → Byte} (h : Agree (decodeGroup4 b).length b c) (h0 : c 0 = b 0) :
    decodeGroup4 c = decodeGroup4 b := by
  have hl : 1 + (modRMAfterOp b).2.2 ≤ (decodeGroup4 b).length := by
    unfold decodeGroup4
    generalize modRMAfterOp b = x
    obtain ⟨reg, m, n⟩ := x
    dsimp only
    split <;> exact Nat.le_refl _
  simp only [decodeGroup4, modRMAfterOp_local (h.mono hl), h0]

theorem decodeGroup5_local {b c : Nat → Byte} (h : Agree (decodeGroup5 b).length b c) (h0 : c 0 = b 0) :
    decodeGroup5 c = decodeGroup5 b := by
  have hl : 1 + (modRMAfterOp b).2.2 ≤ (decodeGroup5 b).length := by
    unfold decodeGroup5
    generalize modRMAfterOp b = x
    obtain ⟨reg, m, n⟩ := x
    dsimp only
    repeat' split
    all_goals exact Nat.le_refl _
  simp only [decodeGroup5, modRMAfterOp_local (h.mono hl), h0]

theorem decodeRowC_local {b c : Nat → Byte} (h : Agree (decodeRowC b).length b c) (h0 : c 0 = b 0) :
    decodeRowC c = decodeRowC b := by
  have hm : ∀ d : Decoded, 1 + (modRMAfterOp b).2.2 ≤ d.length → Agree d.length b c →
      modRMAfterOp c = modRMAfterOp b := fun d hd ha => modRMAfterOp_local (ha.mono hd)
  unfold decodeRowC rowMem at h ⊢
  rw [h0]
  generalize (BitVec.extractLsb' 0 4 (b 0)).toNat = d at h ⊢
  dsimp only at h ⊢
  split at h
  · rw [h.word (k := 1) (Nat.le_refl 3)]
  · rfl
  · rw [hm _ (by split <;> exact Nat.le_refl _) h]
  · rw [hm _ (by split <;> exact Nat.le_refl _) h]
  · rw [hm _ (by
      generalize modRMAfterOp b = x
      obtain ⟨reg, m, n⟩ := x
      dsimp only
      split <;> (simp only [Decoded.length]; omega)) h]
    split at h
    · next hr => rw [if_pos hr, if_pos hr, h _ (by simp only [Decoded.length]; omega)]
    · next hr => rw [if_neg hr, if_neg hr]
  · rw [hm _ (by
      generalize modRMAfterOp b = x
      obtain ⟨reg, m, n⟩ := x
      dsimp only
      split <;> (simp only [Decoded.length]; omega)) h]
    split at h
    · next hr => rw [if_pos hr, if_pos hr, h.word (by simp only [Decoded.length]; omega)]
    · next hr => rw [if_neg hr, if_neg hr]
  · rw [h.word (k := 1) (Nat.le_refl 3)]
  · rfl
  · rfl
  · rw [h 1 (Nat.le_refl 2)]
  · rfl
  · rfl
  · rfl

theorem decodeRowD_local {b c : Nat → Byte} (h : Agree (decodeRowD b).length b c) (h0 : c 0 = b 0) :
    decodeRowD c = decodeRowD b := by
  unfold decodeRowD at h ⊢
  rw [h0]
  generalize (BitVec.extractLsb' 0 4 (b 0)).toNat = d at h ⊢
  split at h
  all_goals first
    | rfl
    | exact decodeShift_local h h0
    | rw [h 1 (Nat.le_refl 2)]

theorem decodeRowE_local {b c : Nat → Byte} (h : Agree (decodeRowE b).length b c) (h0 : c 0 = b 0) :
    decodeRowE c = decodeRowE b := by
  unfold decodeRowE at h ⊢
  rw [h0]
  generalize (BitVec.extractLsb' 0 4 (b 0)).toNat = d at h ⊢
  split at h
  all_goals first
    | rfl
    | rw [h.word (k := 1) (Nat.le_add_right 3 2), h.word (k := 3) (Nat.le_refl 5)]
    | rw [h.word (k := 1) (Nat.le_refl 3)]
    | rw [h 1 (Nat.le_refl 2)]

theorem decodeRowF_local {b c : Nat → Byte} (h : Agree (decodeRowF b).length b c) (h0 : c 0 = b 0) :
    decodeRowF c = decodeRowF b := by
  unfold decodeRowF at h ⊢
  rw [h0]
  generalize (BitVec.extractLsb' 0 4 (b 0)).toNat = d at h ⊢
  split at h
  all_goals first
    | rfl
    | exact decodeGroup3_local h h0
    | exact decodeGroup4_local h h0
    | exact decodeGroup5_local h h0

/-! ## The whole map -/

/-- A decoded instruction or refused form is 1 to 6 bytes long (R90). -/
theorem decodeStream_length (b : Nat → Byte) :
    1 ≤ (decodeStream b).length ∧ (decodeStream b).length ≤ 6 := by
  have hm := modRMAfterOp_length b
  unfold decodeStream decodeLow decodeRegOps decodeJcc decodeRow8 decodeRow9 decodeRowA decodeRowB
    decodeRowC decodeRowD decodeRowE decodeRowF decodeShift decodeGroup3 decodeGroup4 decodeGroup5
    rowModRM rowMem
  generalize modRMAfterOp b = x at hm ⊢
  obtain ⟨reg, m, n⟩ := x
  dsimp only at hm ⊢
  repeat' split
  all_goals (simp only [Decoded.length]; omega)

/-- Streams that agree on the bytes of what one of them begins with decode alike. -/
theorem decodeStream_local {b c : Nat → Byte} (h : Agree (decodeStream b).length b c) :
    decodeStream c = decodeStream b := by
  have h0 : c 0 = b 0 := h 0 (decodeStream_length b).1
  unfold decodeStream at h ⊢
  rw [h0]
  generalize (BitVec.extractLsb' 4 4 (b 0)).toNat = d at h ⊢
  split at h
  all_goals first
    | rfl
    | exact decodeLow_local h h0
    | exact decodeJcc_local h h0
    | exact decodeRow8_local h h0
    | exact decodeRow9_local h h0
    | exact decodeRowA_local h h0
    | exact decodeRowB_local h h0
    | exact decodeRowC_local h h0
    | exact decodeRowD_local h h0
    | exact decodeRowE_local h h0
    | exact decodeRowF_local h h0
    | simp only [decodeRegOps, h0]

/-! ## With the dispatch table -/

/-- A group opcode is followed by a ModRM byte (R107). -/
theorem group_length {b : Nat → Byte} (h : isGroupOpcode (b 0) = true) : 2 ≤ (decodeStream b).length := by
  have hm := modRMAfterOp_length b
  have hb : b 0 ∈ ([0x80, 0x81, 0x82, 0x83, 0x8F, 0xC6, 0xC7, 0xD0, 0xD1, 0xD2, 0xD3, 0xF6, 0xF7, 0xFE,
      0xFF] : List Byte) := by simpa [isGroupOpcode] using h
  generalize hx : modRMAfterOp b = x at hm
  obtain ⟨reg, m, n⟩ := x
  simp only [List.mem_cons, List.not_mem_nil, or_false] at hb
  dsimp only at hm
  rcases hb with h | h | h | h | h | h | h | h | h | h | h | h | h | h | h <;>
    simp [decodeStream, decodeRow8, decodeRowC, decodeRowD, decodeRowF, decodeShift, decodeGroup3,
      decodeGroup4, decodeGroup5, h, hx] <;>
    (repeat' split) <;> simp only [Decoded.length] <;> omega

theorem refusedLength_bounds (b : Nat → Byte) : 1 ≤ refusedLength b ∧ refusedLength b ≤ 6 := by
  have hm := modRMAfterOp_length b
  unfold refusedLength
  split <;> omega

/-- What is decoded is 1 to 6 bytes long, whatever slots have been taken out (R90). -/
theorem decodeWith_length (r : List Slot) (b : Nat → Byte) :
    1 ≤ (decodeWith r b).length ∧ (decodeWith r b).length ≤ 6 := by
  unfold decodeWith
  split
  · exact refusedLength_bounds b
  · exact decodeStream_length b

/-- A group opcode is never decided on its opcode byte alone. -/
theorem decodeWith_group {r : List Slot} {b : Nat → Byte} (h : isGroupOpcode (b 0) = true) :
    2 ≤ (decodeWith r b).length := by
  unfold decodeWith
  split
  · have hm := modRMAfterOp_length b
    simp only [Decoded.length, refusedLength, h, if_true]
    omega
  · exact group_length h

/-- Streams that agree on the bytes of what one of them begins with decode alike. -/
theorem decodeWith_local {r : List Slot} {b c : Nat → Byte} (h : Agree (decodeWith r b).length b c) :
    decodeWith r c = decodeWith r b := by
  have h0 : c 0 = b 0 := h 0 (decodeWith_length r b).1
  have hs : streamSlot c = streamSlot b := by
    unfold streamSlot
    rw [h0]
    by_cases hg : isGroupOpcode (b 0) = true
    · rw [h 1 (decodeWith_group hg)]
    · rw [if_neg hg, if_neg hg]
  have hr : isRemoved r c = isRemoved r b := by simp only [isRemoved, hs, h0]
  unfold decodeWith at h ⊢
  rw [hr]
  split at h
  · next hb =>
    rw [if_pos hb, if_pos hb, hs]
    congr 1
    unfold refusedLength
    rw [h0]
    by_cases hg : isGroupOpcode (b 0) = true
    · rw [if_pos hg, if_pos hg, modRMAfterOp_local (by simpa [Decoded.length, refusedLength, hg] using h)]
    · rw [if_neg hg, if_neg hg]
  · next hb => rw [if_neg hb, if_neg hb, decodeStream_local h]

/-- With no slot taken out the decoder is the opcode map. -/
theorem decodeWith_of_not_removed {r : List Slot} {b : Nat → Byte} (h : isRemoved r b = false) :
    decodeWith r b = decodeStream b := by
  simp only [decodeWith, h, Bool.false_eq_true, if_false]

end Sys2Proof
end

