-- ==== Sys2Proof/Laws/Flags.lean ====
section
/-!
SUPPORT. The flags word and the flags engine: what each operation writes and what it keeps
(10_state.md R28 to R35).
-/

namespace Sys2Proof.Machine

theorem flag_pos_lt (f : Flag) : f.pos < 16 := by cases f <;> decide

theorem flag_pos_injective {f g : Flag} (h : f.pos = g.pos) : f = g := by
  cases f <;> cases g <;> first | rfl | exact absurd h (by decide)

/-- A flag write changes the bit of that flag and no other. -/
theorem getLsbD_putFlag (fl : Word) (f : Flag) (b : Bool) (k : Nat) :
    (putFlag fl f b).getLsbD k = if k = f.pos then b else fl.getLsbD k := by
  have hp := flag_pos_lt f
  have h1 : (1#16 <<< f.pos).getLsbD k = decide (k = f.pos) := by
    rw [BitVec.getLsbD_shiftLeft, BitVec.getLsbD_one]
    by_cases h : k = f.pos
    · subst h; simp [hp]
    · have : ¬(k < 16 ∧ ¬k < f.pos ∧ k - f.pos = 0) := by omega
      simp only [h, decide_false]
      simp
      intro a b c
      omega
  unfold putFlag
  rw [BitVec.getLsbD_or, BitVec.getLsbD_and, BitVec.getLsbD_not, h1]
  by_cases h : k = f.pos
  · subst h; cases b
    · simp
    · simp [hp]
  · cases b
    · by_cases hk : k < 16
      · simp [h, hk]
      · simp [h, hk, BitVec.getLsbD_of_ge fl k (by omega)]
    · by_cases hk : k < 16
      · rw [if_pos rfl, h1]; simp [h, hk]
      · rw [if_pos rfl, h1]; simp [h, hk, BitVec.getLsbD_of_ge fl k (by omega)]

@[simp] theorem getFlag_putFlag (fl : Word) (f g : Flag) (b : Bool) :
    getFlag (putFlag fl f b) g = if g = f then b else getFlag fl g := by
  unfold getFlag
  rw [getLsbD_putFlag]
  by_cases h : g = f
  · simp [h]
  · have : g.pos ≠ f.pos := fun e => h (flag_pos_injective e)
    simp [h, this]

theorem FlagsBut.refl (l : List Flag) (x : Word) : FlagsBut l x x := fun _ _ => rfl

theorem FlagsBut.trans {l : List Flag} {x y z : Word} (h : FlagsBut l x y) (k : FlagsBut l y z) :
    FlagsBut l x z := fun i hi => (k i hi).trans (h i hi)

theorem FlagsBut.mono {l m : List Flag} {x y : Word} (h : FlagsBut l x y) (hm : ∀ f ∈ l, f ∈ m) :
    FlagsBut m x y := fun i hi => h i (fun f hf => hi f (hm f hf))

/-- A write of one of the named flags keeps the rest. -/
theorem FlagsBut.putFlag {l : List Flag} {x y : Word} (h : FlagsBut l x y) {f : Flag} (hf : f ∈ l)
    (b : Bool) : FlagsBut l x (putFlag y f b) := fun i hi => by
  rw [getLsbD_putFlag, if_neg (hi f hf)]
  exact h i hi

/-- A flag outside the named ones is kept. -/
theorem FlagsBut.getFlag {l : List Flag} {x y : Word} (h : FlagsBut l x y) {f : Flag} (hf : f ∉ l) :
    getFlag y f = getFlag x f :=
  h f.pos (fun _ hg e => hf (flag_pos_injective e ▸ hg))

theorem evenParity_eq (b : Byte) :
    evenParity b = decide ((List.range 8).countP (fun i => b.getLsbD i) % 2 = 0) := by
  simp [evenParity, BEq.beq]

/-- `SetSZP` writes ZF, SF and PF of its result and keeps the rest (R32). -/
theorem resultFlags_setSZP {n : Nat} (r : BitVec n) (fl : Word) :
    ResultFlags r (setSZP r fl) := by
  have h : evenParity (r.setWidth 8) =
      decide ((List.range 8).countP (fun i => r.getLsbD i) % 2 = 0) := by
    rw [evenParity_eq]
    congr 3
    apply List.countP_congr
    intro i hi
    simp at hi
    simp [hi]
  simp [ResultFlags, setSZP, h, BEq.beq]

theorem flagsBut_setSZP {n : Nat} {l : List Flag} {x y : Word} (r : BitVec n) (h : FlagsBut l x y)
    (hz : .zf ∈ l) (hs : .sf ∈ l) (hp : .pf ∈ l) : FlagsBut l x (setSZP r y) :=
  ((h.putFlag hz _).putFlag hs _).putFlag hp _

theorem getFlag_setSZP {n : Nat} (r : BitVec n) (fl : Word) {f : Flag} (hz : f ≠ .zf) (hs : f ≠ .sf)
    (hp : f ≠ .pf) : getFlag (setSZP r fl) f = getFlag fl f := by
  simp [setSZP, hz, hs, hp]

/-- The shape of the three flag functions: carry and overflow, then `SetSZP`. -/
theorem statusFlags_of {n : Nat} (cf ov : Bool) (r : BitVec n) (fl : Word) :
    StatusFlags cf ov r fl (setSZP r (putFlag (putFlag fl .cf cf) .of ov)) :=
  ⟨by rw [getFlag_setSZP] <;> simp, by rw [getFlag_setSZP] <;> simp, resultFlags_setSZP _ _,
   flagsBut_setSZP _ (((FlagsBut.refl _ _).putFlag (by simp) _).putFlag (by simp) _)
     (by simp) (by simp) (by simp)⟩

/-- Keeping CF after a flag function changes its carry alone. -/
theorem StatusFlags.keepCarry {n : Nat} {cf ov : Bool} {r : BitVec n} {x y : Word} (c : Bool)
    (h : StatusFlags cf ov r x y) : StatusFlags c ov r x (putFlag y .cf c) := by
  obtain ⟨_, h2, ⟨h3, h4, h5⟩, h6⟩ := h
  exact ⟨by simp, by simpa using h2, ⟨by simpa using h3, by simpa using h4, by simpa using h5⟩,
    h6.putFlag (by simp) c⟩

/-! ## The results -/

theorem addFlags_toNat {n : Nat} (a b : BitVec n) (c : Bool) (fl : Word) :
    (addFlags a b c fl).1.toNat = (a.toNat + b.toNat + c.toNat) % 2 ^ n := by
  simp [addFlags]

theorem addFlags_status {n : Nat} (a b : BitVec n) (c : Bool) (fl : Word) :
    StatusFlags (decide (2 ^ n ≤ a.toNat + b.toNat + c.toNat))
      ((a ^^^ (addFlags a b c fl).1) &&& (b ^^^ (addFlags a b c fl).1)).msb
      (addFlags a b c fl).1 fl (addFlags a b c fl).2 :=
  statusFlags_of _ _ _ _

theorem subFlags_toInt {n : Nat} (a b : BitVec n) (c : Bool) (fl : Word) :
    (((subFlags a b c fl).1.toNat : Nat) : Int) =
      ((a.toNat : Int) - b.toNat - c.toNat) % 2 ^ n := by
  simp [subFlags, BitVec.toNat_ofInt]
  omega

theorem subFlags_status {n : Nat} (a b : BitVec n) (c : Bool) (fl : Word) :
    StatusFlags (decide ((a.toNat : Int) - b.toNat - c.toNat < 0))
      ((a ^^^ b) &&& (a ^^^ (subFlags a b c fl).1)).msb
      (subFlags a b c fl).1 fl (subFlags a b c fl).2 :=
  statusFlags_of _ _ _ _

theorem logicFlags_status {n : Nat} (r : BitVec n) (fl : Word) :
    StatusFlags false false r fl (logicFlags r fl) :=
  statusFlags_of _ _ _ _

/-- The spec's overflow formula for an addition says that the signed sum is out of range. -/
theorem addFlags_overflow (w : Width) (a b : BitVec w.bits) (c : Bool) (fl : Word) :
    ((a ^^^ (addFlags a b c fl).1) &&& (b ^^^ (addFlags a b c fl).1)).msb =
      outOfRange w.bits (a.toInt + b.toInt + c.toNat) := by
  have hr := addFlags_toNat a b c fl
  have hc : c.toNat ≤ 1 := by cases c <;> decide
  generalize (addFlags a b c fl).1 = r at *
  rw [BitVec.msb_and, BitVec.msb_xor, BitVec.msb_xor, Bool.eq_iff_iff]
  have ha := a.isLt; have hb := b.isLt
  simp only [BitVec.msb_eq_decide, outOfRange, BitVec.toInt_eq_toNat_cond, hr]
  cases w <;> simp only [Width.bits] at * <;> simp <;>
    (constructor <;> intro h <;> (repeat' split at *) <;> omega)

/-- The spec's overflow formula for a subtraction says that the signed difference is out of range. -/
theorem subFlags_overflow (w : Width) (a b : BitVec w.bits) (c : Bool) (fl : Word) :
    ((a ^^^ b) &&& (a ^^^ (subFlags a b c fl).1)).msb =
      outOfRange w.bits (a.toInt - b.toInt - c.toNat) := by
  have hr := subFlags_toInt a b c fl
  have hc : c.toNat ≤ 1 := by cases c <;> decide
  generalize (subFlags a b c fl).1 = r at *
  rw [BitVec.msb_and, BitVec.msb_xor, BitVec.msb_xor, Bool.eq_iff_iff]
  have ha := a.isLt; have hb := b.isLt; have hk := r.isLt
  simp only [BitVec.msb_eq_decide, outOfRange, BitVec.toInt_eq_toNat_cond]
  cases w <;> simp only [Width.bits] at * <;> simp <;>
    (constructor <;> intro h <;> (repeat' split at *) <;> omega)

end Sys2Proof.Machine
end

