-- ==== Sys2Proof/Laws/Frame.lean ====
section
/-!
SUPPORT. What the shared operations over operands, the stack and the registers leave, in the terms of
Safety.lean: one lemma for each, which a proof about an instruction cites.
-/

namespace Sys2Proof.Machine

/-! ## SameRest -/

theorem SameRest.refl (s : State) : SameRest s s := ⟨rfl, rfl, rfl, rfl, rfl, rfl, rfl⟩

theorem SameRest.trans {s t u : State} (h : SameRest s t) (k : SameRest t u) : SameRest s u :=
  ⟨k.segOverride.trans h.segOverride, k.repeatState.trans h.repeatState, k.params.trans h.params,
   k.status.trans h.status, k.attached.trans h.attached, k.devices.trans h.devices,
   k.handlers.trans h.handlers⟩

theorem SameRest.noteReads {s t : State} (h : SameRest s t) (l : List Addr) : SameRest s (t.noteReads l) :=
  h.trans ⟨rfl, rfl, rfl, rfl, rfl, rfl, rfl⟩

theorem SameRest.withCpu {s t : State} (h : SameRest s t) (c : Cpu) : SameRest s (t.withCpu c) :=
  h.trans ⟨rfl, rfl, rfl, rfl, rfl, rfl, rfl⟩

theorem SameRest.withFlags {s t : State} (h : SameRest s t) (fl : Word) : SameRest s (t.withFlags fl) :=
  h.trans ⟨rfl, rfl, rfl, rfl, rfl, rfl, rfl⟩

theorem SameRest.withIp {s t : State} (h : SameRest s t) (v : Word) : SameRest s (t.withIp v) :=
  h.trans ⟨rfl, rfl, rfl, rfl, rfl, rfl, rfl⟩

theorem SameRest.withCsIp {s t : State} (h : SameRest s t) (g o : Word) : SameRest s (t.withCsIp g o) :=
  h.trans ⟨rfl, rfl, rfl, rfl, rfl, rfl, rfl⟩

theorem SameRest.withSp {s t : State} (h : SameRest s t) (v : Word) : SameRest s (t.withSp v) :=
  h.trans ⟨rfl, rfl, rfl, rfl, rfl, rfl, rfl⟩

theorem SameRest.withCx {s t : State} (h : SameRest s t) (v : Word) : SameRest s (t.withCx v) :=
  h.trans ⟨rfl, rfl, rfl, rfl, rfl, rfl, rfl⟩

theorem SameRest.withSreg {s t : State} (h : SameRest s t) (sr : Sreg) (v : Word) :
    SameRest s (t.withSreg sr v) :=
  h.trans ⟨rfl, rfl, rfl, rfl, rfl, rfl, rfl⟩

theorem SameRest.withReg {s t : State} (h : SameRest s t) (w : Width) (i : RegIx) (v : BitVec w.bits) :
    SameRest s (t.withReg w i v) :=
  h.trans ⟨rfl, rfl, rfl, rfl, rfl, rfl, rfl⟩

theorem SameRest.withCost {s t : State} (h : SameRest s t) (c : Cost) : SameRest s { t with cost := c } :=
  h.trans ⟨rfl, rfl, rfl, rfl, rfl, rfl, rfl⟩

theorem SameRest.withDraws {s t : State} (h : SameRest s t) (n : Nat) : SameRest s { t with draws := n } :=
  h.trans ⟨rfl, rfl, rfl, rfl, rfl, rfl, rfl⟩

theorem SameRest.withCalls {s t : State} (h : SameRest s t) (l : List BusCall) :
    SameRest s { t with calls := l } :=
  h.trans ⟨rfl, rfl, rfl, rfl, rfl, rfl, rfl⟩

theorem SameRest.record {s t : State} (h : SameRest s t) (c : BusCall) : SameRest s (t.record c) :=
  h.trans ⟨rfl, rfl, rfl, rfl, rfl, rfl, rfl⟩

/-- Quiet memory stays quiet where the devices do not change. -/
theorem SameRest.quiet {s t : State} (h : SameRest s t) (hq : s.QuietMemory) : t.QuietMemory :=
  hq.congr h.attached (congrArg Devices.windows h.devices)

/-- Plain memory stays plain where the devices do not change. -/
theorem SameRest.stores {s t : State} (h : SameRest s t) {l : List Addr} (hs : s.Stores l) : t.Stores l :=
  hs.congr h.attached (congrArg Devices.windows h.devices)

theorem SameRest.writeW {s t : State} (h : SameRest s t) (hq : s.QuietMemory) (w : Width) (g o : Word)
    (v : BitVec w.bits) : SameRest s (writeW w g o v t) :=
  h.trans (wrote_writeW (h.quiet hq) w g o v).rest

theorem SameRest.push16 {s t : State} (h : SameRest s t) (hq : s.QuietMemory) (v : Word) :
    SameRest s (push16 v t) :=
  (h.withSp _).trans (wrote_write16 ((h.quiet hq).withSp _) _ _ _).rest

theorem SameRest.writeOperand {s t : State} (h : SameRest s t) (hq : s.QuietMemory) (w : Width) (o : Operand)
    (v : BitVec w.bits) : SameRest s (writeOperand w o v t) := by
  cases o with
  | reg i => exact h.withReg w i v
  | mem g off => exact h.writeW hq w g off v
  | imm _ => exact h

@[simp] theorem quiet_push16 {s : State} (hq : s.QuietMemory) (v : Word) : (push16 v s).QuietMemory :=
  ((SameRest.refl s).push16 hq v).quiet hq

/-! ## The register file -/

/-- Registers written by index leave FLAGS alone, so a write of FLAGS may be taken out of one. -/
theorem putReg_withFlags (c : Cpu) (w : Width) (i : RegIx) (v : BitVec w.bits) (fl : Word) :
    putReg { c with flags := fl } w i v = { putReg c w i v with flags := fl } := by
  have h16 : ∀ (p : Reg16) (x : Word), putReg16 { c with flags := fl } p x =
      { putReg16 c p x with flags := fl } := by intro p x; cases p <;> rfl
  have hg : ∀ p : Reg16, getReg16 { c with flags := fl } p = getReg16 c p := by intro p; cases p <;> rfl
  cases w with
  | byte =>
    show putReg8 _ _ _ = { putReg8 _ _ _ with flags := fl }
    unfold putReg8
    simp only [hg]
    split <;> exact h16 _ _
  | word => exact h16 _ _

/-! ## Operands -/

/-- A write of an operand assigns it and, with the flags word of the state it is made in, nothing else. -/
theorem assigned_writeOperand {w : Width} {o : Operand} {v : BitVec w.bits} {fl : Word} {s u : State}
    (hb : u.bus = s.bus) (hc : u.cpu = { s.cpu with flags := fl }) :
    Assigned w o v fl s (writeOperand w o v u) := by
  have hp : ∀ a, u.peek a = s.peek a := State.peek_congr hb
  cases o with
  | reg i =>
    refine ⟨?_, hp⟩
    show putReg u.cpu w i v = _
    rw [hc, putReg_withFlags]
  | mem g off =>
    refine ⟨?_, ?_, ?_⟩
    · exact (cpu_writeW w g off v u).trans hc
    · intro h
      exact peekW_writeW w g off v (h.congr (by rw [hb]) (by rw [hb]))
    · intro a ha
      exact (sameMemoryBut_writeW w g off v u a ha).trans (hp a)
  | imm _ => exact ⟨hc, hp⟩

/-- The cost a handler returns is no part of what it assigns. -/
theorem Assigned.withCost {w : Width} {o : Operand} {v : BitVec w.bits} {fl : Word} {s t : State}
    (h : Assigned w o v fl s t) (c : Cost) : Assigned w o v fl s { t with cost := c } := by
  cases o <;> exact h

/-- A handler whose last act is a write of an operand completes with that operand assigned. -/
theorem done_writeOperand (i : Instr) {w : Width} {o : Operand} {v : BitVec w.bits} {fl : Word}
    {s u : State} (hq : s.QuietMemory) (hr : SameRest s u) (hb : u.bus = s.bus)
    (hc : u.cpu = { s.cpu with flags := fl }) (taken : Bool) (count : Nat) :
    ∃ t, done i (writeOperand w o v u) taken count = .next t ∧ SameRest s t ∧ Assigned w o v fl s t :=
  ⟨_, rfl, (hr.writeOperand hq w o v).withCost _, (assigned_writeOperand hb hc).withCost _⟩

/-- A handler that writes no memory completes with the CPU state it leaves. -/
theorem done_onlyCpu (i : Instr) {c : Cpu} {s u : State} (hr : SameRest s u)
    (hb : u.bus = s.bus) (hc : u.cpu = c) (taken : Bool) (count : Nat) :
    ∃ t, done i u taken count = .next t ∧ SameRest s t ∧ OnlyCpu c s t :=
  ⟨_, rfl, hr.withCost _, hc, State.peek_congr hb⟩

/-! ## The stack -/

theorem cpu_push16 (v : Word) (s : State) : (push16 v s).cpu = { s.cpu with sp := s.cpu.sp - 2 } :=
  cpu_writeW .word s.cpu.ss (s.cpu.sp - 2) v (s.withSp (s.cpu.sp - 2))

/-- A push writes the word at SS:SP and changes no other byte (R71). -/
theorem pushed_push16 (v : Word) (s : State) :
    Pushed v { s.cpu with sp := s.cpu.sp - 2 } s (push16 v s) :=
  ⟨cpu_push16 v s,
   fun h => peekW_writeW .word s.cpu.ss (s.cpu.sp - 2) v
     (State.Stores.congr (t := s.withSp (s.cpu.sp - 2)) h rfl rfl),
   sameMemoryBut_writeW .word s.cpu.ss (s.cpu.sp - 2) v (s.withSp (s.cpu.sp - 2))⟩

theorem Pushed.withCost {v : Word} {c : Cpu} {s t : State} (h : Pushed v c s t) (k : Cost) :
    Pushed v c s { t with cost := k } := h

/-- The bus calls of a push (R66, R71). -/
theorem calls_push16 (v : Word) (s : State) :
    (push16 v s).calls = writeCalls s .word s.cpu.ss (s.cpu.sp - 2) v ++ s.calls :=
  calls_writeW .word s.cpu.ss (s.cpu.sp - 2) v (s.withSp (s.cpu.sp - 2))

/-! ## Free values -/

/-- The flags a draw leaves: every flag that is not drawn is as it was, and nothing but FLAGS and the draw
counter has changed. -/
theorem drawFlags_spec (fs : List Flag) (s : State) :
    ∃ fl, (drawFlags fs s).cpu = { s.cpu with flags := fl } ∧ (drawFlags fs s).bus = s.bus ∧
      SameRest s (drawFlags fs s) ∧ (drawFlags fs s).calls = s.calls ∧ FlagsBut fs s.cpu.flags fl := by
  induction fs generalizing s with
  | nil => exact ⟨s.cpu.flags, rfl, rfl, SameRest.refl s, rfl, fun _ _ => rfl⟩
  | cons f fs ih =>
    obtain ⟨fl, hc, hb, hr, hk, hf⟩ := ih (drawFlag f s)
    have h0 : SameRest s (drawFlag f s) := ⟨rfl, rfl, rfl, rfl, rfl, rfl, rfl⟩
    refine ⟨fl, hc, hb, h0.trans hr, hk, ?_⟩
    have h1 : FlagsBut (f :: fs) s.cpu.flags (drawFlag f s).cpu.flags :=
      (FlagsBut.refl _ _).putFlag (by simp) _
    exact h1.trans (hf.mono (fun g hg => by simp [hg]))

end Sys2Proof.Machine
end

