-- ==== Sys2Proof/Laws/Host.lean ====
section
/-!
SUPPORT. What every access keeps whatever the host does: the core's own state, the bus reference and the
canonical form of memory (20_memory.md R63, R82, R83; 70_reset_and_hazards.md R399).
-/

namespace Sys2Proof.Machine

theorem SameCore.refl (s : State) : SameCore s s := ⟨rfl, rfl, rfl, rfl, rfl, rfl⟩

theorem SameCore.trans {s t u : State} (h : SameCore s t) (k : SameCore t u) : SameCore s u :=
  ⟨k.segOverride.trans h.segOverride, k.repeatState.trans h.repeatState, k.params.trans h.params,
   k.status.trans h.status, k.attached.trans h.attached, k.handlers.trans h.handlers⟩

theorem SameRest.core {s t : State} (h : SameRest s t) : SameCore s t :=
  ⟨h.segOverride, h.repeatState, h.params, h.status, h.attached, h.handlers⟩

theorem SameCore.rest {s t : State} (h : SameCore s t) (hd : t.bus.devices = s.bus.devices) : SameRest s t :=
  ⟨h.segOverride, h.repeatState, h.params, h.status, h.attached, hd, h.handlers⟩

/-- From `s` to `t` no override handler has run: the core's own state beside the registers, the bus reference
and the memory map are kept, the bus calls are added to, no byte of memory changes that no call wrote, memory
keeps its canonical form, and the devices are kept where none of them has side effects. -/
structure Runs (s t : State) : Prop where
  core : SameCore s t
  windows : t.bus.devices.windows = s.bus.devices.windows
  calls : s.calls <:+ t.calls
  memory : ∀ a, (∀ v, BusCall.writeByte a v ∉ t.calls) → t.peek a = s.peek a
  wf : Memory.wf s.bus.mem = true → Memory.wf t.bus.mem = true
  devices : s.QuietMemory → s.QuietPorts → t.bus.devices = s.bus.devices

theorem Runs.refl (s : State) : Runs s s :=
  ⟨SameCore.refl s, rfl, List.suffix_refl _, fun _ _ => rfl, id, fun _ _ => rfl⟩

/-- Quiet memory stays quiet. -/
theorem Runs.quiet {s t : State} (h : Runs s t) (hq : s.QuietMemory) : t.QuietMemory :=
  hq.congr h.core.attached h.windows

/-- Plain memory stays plain. -/
theorem Runs.stores {s t : State} (h : Runs s t) {l : List Addr} (hs : s.Stores l) : t.Stores l :=
  hs.congr h.core.attached h.windows

theorem Runs.trans {s t u : State} (h : Runs s t) (k : Runs t u) : Runs s u := by
  refine ⟨h.core.trans k.core, k.windows.trans h.windows, h.calls.trans k.calls, fun a ha => ?_,
    fun hm => k.wf (h.wf hm), fun hq hp => ?_⟩
  · exact (k.memory a ha).trans (h.memory a (fun v hv => ha v (k.calls.subset hv)))
  · have hd := h.devices hq hp
    rw [k.devices (h.quiet hq) ?_, hd]
    intro ha
    rw [hd]
    exact hp (h.core.attached ▸ ha)

theorem Runs.of_bus {s t : State} (h : SameCore s t) (hb : t.bus = s.bus) (hc : s.calls <:+ t.calls) :
    Runs s t :=
  ⟨h, by rw [hb], hc, fun a _ => State.peek_congr hb a, fun hm => by rw [hb]; exact hm, fun _ _ => by rw [hb]⟩

/-- Where no device has side effects everything that the host holds but memory is kept. -/
theorem Runs.rest {s t : State} (h : Runs s t) (hq : s.QuietMemory) (hp : s.QuietPorts) : SameRest s t :=
  h.core.rest (h.devices hq hp)

/-- Changes of registers and of the model's own fields alone. -/
theorem Runs.then {s t u : State} (h : Runs s t) (hr : SameCore t u) (hb : u.bus = t.bus)
    (hc : t.calls <:+ u.calls) : Runs s u :=
  h.trans (Runs.of_bus hr hb hc)

theorem Runs.withCpu {s t : State} (h : Runs s t) (c : Cpu) : Runs s (t.withCpu c) :=
  h.then ⟨rfl, rfl, rfl, rfl, rfl, rfl⟩ rfl (List.suffix_refl _)
theorem Runs.withFlags {s t : State} (h : Runs s t) (fl : Word) : Runs s (t.withFlags fl) :=
  h.then ⟨rfl, rfl, rfl, rfl, rfl, rfl⟩ rfl (List.suffix_refl _)
theorem Runs.withIp {s t : State} (h : Runs s t) (v : Word) : Runs s (t.withIp v) :=
  h.then ⟨rfl, rfl, rfl, rfl, rfl, rfl⟩ rfl (List.suffix_refl _)
theorem Runs.withCsIp {s t : State} (h : Runs s t) (g o : Word) : Runs s (t.withCsIp g o) :=
  h.then ⟨rfl, rfl, rfl, rfl, rfl, rfl⟩ rfl (List.suffix_refl _)
theorem Runs.withSp {s t : State} (h : Runs s t) (v : Word) : Runs s (t.withSp v) :=
  h.then ⟨rfl, rfl, rfl, rfl, rfl, rfl⟩ rfl (List.suffix_refl _)
theorem Runs.withCx {s t : State} (h : Runs s t) (v : Word) : Runs s (t.withCx v) :=
  h.then ⟨rfl, rfl, rfl, rfl, rfl, rfl⟩ rfl (List.suffix_refl _)
theorem Runs.withSreg {s t : State} (h : Runs s t) (sr : Sreg) (v : Word) : Runs s (t.withSreg sr v) :=
  h.then ⟨rfl, rfl, rfl, rfl, rfl, rfl⟩ rfl (List.suffix_refl _)
theorem Runs.withReg {s t : State} (h : Runs s t) (w : Width) (i : RegIx) (v : BitVec w.bits) :
    Runs s (t.withReg w i v) := h.then ⟨rfl, rfl, rfl, rfl, rfl, rfl⟩ rfl (List.suffix_refl _)
theorem Runs.record {s t : State} (h : Runs s t) (c : BusCall) : Runs s (t.record c) :=
  h.then ⟨rfl, rfl, rfl, rfl, rfl, rfl⟩ rfl (List.suffix_cons _ _)
theorem Runs.withDraws {s t : State} (h : Runs s t) (n : Nat) : Runs s { t with draws := n } :=
  h.then ⟨rfl, rfl, rfl, rfl, rfl, rfl⟩ rfl (List.suffix_refl _)
theorem Runs.withCost {s t : State} (h : Runs s t) (c : Cost) : Runs s { t with cost := c } :=
  h.then ⟨rfl, rfl, rfl, rfl, rfl, rfl⟩ rfl (List.suffix_refl _)

/-- A device acts (R399): it keeps the core's own state, memory and the memory map (R76). -/
theorem Runs.react {s t : State} (h : Runs s t) (r : HostRequest) (hn : ¬(t.QuietMemory ∧ t.QuietPorts)) :
    Runs s (t.react r) :=
  h.trans ⟨⟨rfl, rfl, rfl, rfl, rfl, rfl⟩, rfl, List.suffix_refl _, fun _ _ => rfl, id,
    fun hq hp => absurd ⟨hq, hp⟩ hn⟩

/-- A device at an address, on an attached bus, is no quiet memory. -/
theorem not_quiet_of_device {s : State} {a : Addr} (ha : s.bus.attached = true)
    (hk : s.kindAt a = some .device) : ¬s.QuietMemory := by
  intro hq
  obtain h | h := hq.kindAt ha a <;> rw [h] at hk <;> cases hk

/-- From `s` to `t` the registers are kept as well. -/
structure Touches (s t : State) : Prop where
  cpu : t.cpu = s.cpu
  runs : Runs s t

theorem Touches.refl (s : State) : Touches s s := ⟨rfl, Runs.refl s⟩

theorem Touches.trans {s t u : State} (h : Touches s t) (k : Touches t u) : Touches s u :=
  ⟨k.cpu.trans h.cpu, h.runs.trans k.runs⟩

/-! ## Memory -/

theorem touches_readByte (a : Addr) (s : State) : Touches s (readByte a s).2 := by
  unfold readByte
  split
  · next ha =>
    split
    · next hk => exact ⟨rfl, ((Runs.refl s).react _ (fun h => not_quiet_of_device ha hk h.1)).record _⟩
    · exact ⟨rfl, (Runs.refl s).record _⟩
    · exact ⟨rfl, (Runs.refl s).record _⟩
  · exact Touches.refl s

theorem touches_writeByte (a : Addr) (v : Byte) (s : State) : Touches s (writeByte a v s) := by
  unfold writeByte
  split
  · next ha =>
    split
    · next hk => exact ⟨rfl, ((Runs.refl s).react _ (fun h => not_quiet_of_device ha hk h.1)).record _⟩
    · exact ⟨rfl, (Runs.refl s).record _⟩
    · next hk =>
      refine ⟨rfl, ⟨rfl, rfl, rfl, rfl, rfl, rfl⟩, rfl, List.suffix_cons _ _, fun b hb => ?_,
        Memory.wf_write v a.isLt, fun _ _ => rfl⟩
      have h := peek_writeByte a v s b
      unfold writeByte at h
      rw [if_pos ha, hk] at h
      refine h.trans (if_neg fun h => hb v ?_)
      rw [h.2]
      exact List.mem_cons_self
  · exact Touches.refl s

theorem touches_read16 (g o : Word) (s : State) : Touches s (read16 g o s).2 :=
  (touches_readByte (phys g o) s).trans (touches_readByte (phys g (o + 1)) _)

theorem touches_write16 (g o v : Word) (s : State) : Touches s (write16 g o v s) :=
  (touches_writeByte _ _ s).trans (touches_writeByte _ _ _)

theorem touches_readW (w : Width) (g o : Word) (s : State) : Touches s (readW w g o s).2 := by
  cases w
  · exact touches_readByte _ s
  · exact touches_read16 g o s

theorem touches_writeW (w : Width) (g o : Word) (v : BitVec w.bits) (s : State) :
    Touches s (writeW w g o v s) := by
  cases w
  · exact touches_writeByte _ _ s
  · exact touches_write16 _ _ _ s

/-- An operand read answers a value, and the registers are kept (R100). -/
theorem readOperand_touches (w : Width) (o : Operand) (s : State) :
    ∃ v u, readOperand w o s = (v, u) ∧ Touches s u := by
  refine ⟨_, _, rfl, ?_⟩
  cases o with
  | reg i => exact Touches.refl s
  | mem g off => exact touches_readW w g off s
  | imm v => exact Touches.refl s

theorem readW_touches (w : Width) (g o : Word) (s : State) : ∃ v u, readW w g o s = (v, u) ∧ Touches s u :=
  ⟨_, _, rfl, touches_readW w g o s⟩

theorem read8_touches (g o : Word) (s : State) : ∃ v u, read8 g o s = (v, u) ∧ Touches s u :=
  ⟨_, _, rfl, touches_readByte _ s⟩

theorem readFar_touches (m : RM) (s : State) : ∃ o g u, readFar m s = (o, g, u) ∧ Touches s u :=
  ⟨_, _, _, rfl, (touches_read16 _ _ s).trans (touches_read16 _ _ _)⟩

/-- A pop answers a word and moves SP (R71). -/
theorem pop16_touches (s : State) :
    ∃ v u, pop16 s = (v, u) ∧ Runs s u ∧ u.cpu = { s.cpu with sp := s.cpu.sp + 2 } := by
  have h := touches_read16 s.cpu.ss s.cpu.sp s
  refine ⟨_, _, rfl, h.runs.withSp _, ?_⟩
  show { (read16 s.cpu.ss s.cpu.sp s).2.cpu with sp := (read16 s.cpu.ss s.cpu.sp s).2.cpu.sp + 2 } = _
  rw [h.cpu]

theorem Runs.writeW {s t : State} (h : Runs s t) (w : Width) (g o : Word) (v : BitVec w.bits) :
    Runs s (writeW w g o v t) := h.trans (touches_writeW w g o v t).runs

theorem runs_push16 (v : Word) (s : State) : Runs s (push16 v s) :=
  ((Runs.refl s).withSp _).trans (touches_write16 _ _ _ _).runs

theorem Runs.push16 {s t : State} (h : Runs s t) (v : Word) : Runs s (push16 v t) := h.trans (runs_push16 v t)

theorem Runs.writeOperand {s t : State} (h : Runs s t) (w : Width) (o : Operand) (v : BitVec w.bits) :
    Runs s (writeOperand w o v t) := by
  cases o with
  | reg i => exact h.withReg w i v
  | mem g off => exact h.writeW w g off v
  | imm _ => exact h

/-! ## Instruction fetch -/

/-- A fetch adds 1 to IP and keeps the other registers (R27, R70). -/
theorem fetch8_spec (s : State) :
    ∃ b u, fetch8 s = (b, u) ∧ Runs s u ∧ u.cpu = { s.cpu with ip := s.cpu.ip + 1 } := by
  have h := touches_readByte (phys s.cpu.cs s.cpu.ip) s
  refine ⟨_, _, rfl, h.runs.withIp _, ?_⟩
  show { (read8 s.cpu.cs s.cpu.ip s).2.cpu with ip := (read8 s.cpu.cs s.cpu.ip s).2.cpu.ip + 1 } = _
  rw [show (read8 s.cpu.cs s.cpu.ip s).2.cpu = s.cpu from h.cpu]

/-! ## Ports -/

/-- A port read answers, or the host refuses it (R72, R82). -/
theorem portIn8_cases (p : Word) (s : State) :
    (∃ v t, portIn8 p s = .ok (v, t) ∧ Touches s t) ∨
      ∃ left, portIn8 p s = .error (.hostProtocolError left) ∧ left.bus.attached = true ∧
        HostFailed left.calls := by
  unfold portIn8
  by_cases h : s.bus.attached = true
  · rw [if_pos h]
    split
    · next hp =>
      split
      · exact .inr ⟨_, rfl, h, _, .inl ⟨p, rfl⟩⟩
      · refine .inl ⟨_, _, rfl, rfl, ((Runs.refl s).react _ (fun hq => ?_)).record _⟩
        simp [hq.2 h] at hp
    · split
      · exact .inr ⟨_, rfl, h, _, .inl ⟨p, rfl⟩⟩
      · exact .inl ⟨_, _, rfl, rfl, ((Runs.refl s).withDraws _).record _⟩
  · rw [if_neg h]
    exact .inl ⟨_, _, rfl, Touches.refl s⟩

/-- A port write is taken, or the host refuses it (R72, R82). -/
theorem portOut8_cases (p : Word) (v : Byte) (s : State) :
    (∃ t, portOut8 p v s = .ok t ∧ Touches s t) ∨
      ∃ left, portOut8 p v s = .error (.hostProtocolError left) ∧ left.bus.attached = true ∧
        HostFailed left.calls := by
  unfold portOut8
  by_cases h : s.bus.attached = true
  · rw [if_pos h]
    split
    · next hp =>
      split
      · exact .inr ⟨_, rfl, h, _, .inr (.inl ⟨p, v, rfl⟩)⟩
      · refine .inl ⟨_, rfl, rfl, ((Runs.refl s).react _ (fun hq => ?_)).record _⟩
        simp [hq.2 h] at hp
    · split
      · exact .inr ⟨_, rfl, h, _, .inr (.inl ⟨p, v, rfl⟩)⟩
      · exact .inl ⟨_, rfl, rfl, (Runs.refl s).record _⟩
  · rw [if_neg h]
    exact .inl ⟨_, rfl, Touches.refl s⟩

theorem portInW_cases (w : Width) (p : Word) (s : State) :
    (∃ v t, portInW w p s = .ok (v, t) ∧ Touches s t) ∨
      ∃ left, portInW w p s = .error (.hostProtocolError left) ∧ left.bus.attached = true ∧
        HostFailed left.calls := by
  cases w with
  | byte => exact portIn8_cases p s
  | word =>
    show (∃ v t, portIn16 p s = .ok (v, t) ∧ Touches s t) ∨
      ∃ left, portIn16 p s = .error (.hostProtocolError left) ∧ _
    unfold portIn16
    obtain ⟨v, t, h1, h2⟩ | ⟨l, h1, h2⟩ := portIn8_cases p s
    · obtain ⟨v', t', k1, k2⟩ | ⟨l, k1, k2⟩ := portIn8_cases (p + 1) t
      · exact .inl ⟨wordOf v v', t', by simp only [h1, k1], h2.trans k2⟩
      · exact .inr ⟨l, by simp only [h1, k1], k2⟩
    · exact .inr ⟨l, by simp only [h1], h2⟩

theorem portOutW_cases (w : Width) (p : Word) (v : BitVec w.bits) (s : State) :
    (∃ t, portOutW w p v s = .ok t ∧ Touches s t) ∨
      ∃ left, portOutW w p v s = .error (.hostProtocolError left) ∧ left.bus.attached = true ∧
        HostFailed left.calls := by
  cases w with
  | byte => exact portOut8_cases p v s
  | word =>
    show (∃ t, portOut16 p v s = .ok t ∧ Touches s t) ∨
      ∃ left, portOut16 p v s = .error (.hostProtocolError left) ∧ _
    unfold portOut16
    obtain ⟨t, h1, h2⟩ | ⟨l, h1, h2⟩ := portOut8_cases p (lowByte v) s
    · obtain ⟨t', k1, k2⟩ | ⟨l, k1, k2⟩ := portOut8_cases (p + 1) (highByte v) t
      · exact .inl ⟨t', by simp only [h1, k1], h2.trans k2⟩
      · exact .inr ⟨l, by simp only [h1, k1], k2⟩
    · exact .inr ⟨l, by simp only [h1], h2⟩

end Sys2Proof.Machine
end

