-- ==== Sys2Proof/Laws/Interrupt.lean ====
section
/-!
SUPPORT. Taking an interrupt: the real path of a vector that is not overridden, and what every outcome of
`interrupt` keeps (60_exceptions.md R362 to R364).
-/

namespace Sys2Proof.Machine

/-- The state in which the override query has been made (R362): a bus call, at an attached bus alone. -/
def State.queried (s : State) (v : Byte) (a : Bool) : State :=
  if s.bus.attached then { s with draws := s.draws + 1 }.record (.query v a) else s

theorem queryOverride_eq {v : Byte} {s : State} {a : Bool}
    (h : s.bus.attached = true → queryAnswer v s = a) (h' : s.bus.attached = false → a = false) :
    queryOverride v s = (⟨v, a⟩, s.queried v a) := by
  unfold queryOverride State.queried
  by_cases ha : s.bus.attached = true
  · simp [ha, h ha]
  · have ha' : s.bus.attached = false := by simpa using ha
    simp [ha', h' ha']

/-- A vector that the host does not override takes the real path, after the query (R362). -/
theorem interrupt_real {v : Byte} {s : State} (h : s.NotOverridden v) :
    interrupt v s = .next { realPath v (s.queried v false) with cost := Config.cycInt } := by
  simp only [interrupt, queryOverride_eq h (fun _ => rfl), Bool.false_eq_true, if_false]

/-- A vector that the host overrides takes the override path, after the query (R362). -/
theorem interrupt_overridden {v : Byte} {s : State} (ha : s.bus.attached = true)
    (h : queryAnswer v s = true) :
    interrupt v s =
      match overridePath v (s.queried v true) with
      | .error e => .fault e
      | .ok t => .next { t with cost := Config.cycIntOverride } := by
  have hn : s.bus.attached = false → true = false := fun hf => by rw [ha] at hf; cases hf
  cases ho : overridePath v (s.queried v true) <;>
    simp only [interrupt, queryOverride_eq (fun _ => h) hn, if_true, ho]

theorem queried_rest (s : State) (v : Byte) (a : Bool) : SameRest s (s.queried v a) := by
  unfold State.queried
  split
  · exact ⟨rfl, rfl, rfl, rfl, rfl, rfl, rfl⟩
  · exact SameRest.refl s

theorem queried_bus (s : State) (v : Byte) (a : Bool) : (s.queried v a).bus = s.bus := by
  unfold State.queried; split <;> rfl

theorem queried_cpu (s : State) (v : Byte) (a : Bool) : (s.queried v a).cpu = s.cpu := by
  unfold State.queried; split <;> rfl

theorem queried_calls (s : State) (v : Byte) (a : Bool) :
    (s.queried v a).calls = (if s.bus.attached then [.query v a] else []) ++ s.calls := by
  unfold State.queried; split <;> rfl

theorem queried_runs (s : State) (v : Byte) (a : Bool) : Runs s (s.queried v a) :=
  Runs.of_bus (queried_rest s v a).core (queried_bus s v a)
    (by rw [queried_calls]; exact List.suffix_append _ _)

/-- `clearIfTf` writes IF and TF alone (R363). -/
theorem clearIfTf_spec (p : Params) (fl : Word) :
    getFlag (clearIfTf p fl) .intf = (getFlag fl .intf && !p.intClearsIfTf) ∧
      getFlag (clearIfTf p fl) .tf = (getFlag fl .tf && !p.intClearsIfTf) ∧
      FlagsBut [.intf, .tf] fl (clearIfTf p fl) := by
  unfold clearIfTf
  split
  · next h =>
    refine ⟨by simp [h], by simp [h], ?_⟩
    exact ((FlagsBut.refl _ _).putFlag (by simp) _).putFlag (by simp) _
  · next h => exact ⟨by simp [h], by simp [h], FlagsBut.refl _ _⟩

/-- The three pushes of the real path, before the table entry is read (R363). -/
def realPushes (s : State) : State :=
  let s1 := push16 s.cpu.flags s
  let s2 := s1.withFlags (clearIfTf s.params s.cpu.flags)
  let s3 := push16 s.cpu.cs s2
  push16 s.cpu.ip s3

theorem realPushes_runs (s : State) : Runs s (realPushes s) :=
  (((runs_push16 _ s).withFlags _).push16 _).push16 _

theorem realPushes_rest {s : State} (hq : s.QuietMemory) : SameRest s (realPushes s) :=
  ((((SameRest.refl s).push16 hq _).withFlags _).push16 hq _).push16 hq _

theorem realPushes_cpu (s : State) :
    (realPushes s).cpu =
      { s.cpu with sp := s.cpu.sp - 2 - 2 - 2, flags := clearIfTf s.params s.cpu.flags } := by
  simp [realPushes, cpu_push16]

/-- The real path is its pushes, then the reads of the table entry, whose words it loads (R363). -/
theorem realPath_pushes (v : Byte) (s : State) :
    realPath v s =
      (read16 0x0000 (vectorOffset v + 2) (read16 0x0000 (vectorOffset v) (realPushes s)).2).2.withCsIp
        (read16 0x0000 (vectorOffset v + 2) (read16 0x0000 (vectorOffset v) (realPushes s)).2).1
        (read16 0x0000 (vectorOffset v) (realPushes s)).1 := by
  have hp : (push16 s.cpu.flags s).params = s.params := (runs_push16 _ s).core.params
  simp [realPath, realPushes, hp, cpu_push16]

/-- The same where memory is quiet: the words are those that stand there after the pushes. -/
theorem realPath_eq {s : State} (hq : s.QuietMemory) (v : Byte) :
    realPath v s =
      ((realPushes s).noteReads (bytesAt .word 0 (vectorOffset v) ++
        bytesAt .word 0 (vectorOffset v + 2))).withCsIp
          ((realPushes s).peek16 0 (vectorOffset v + 2)) ((realPushes s).peek16 0 (vectorOffset v)) := by
  have hp := (realPushes_rest hq).quiet hq
  simp [realPath_pushes, read16_eq, hp, bytesAt]

/-- The real path changes registers and memory alone where memory is quiet. -/
theorem realPath_rest {s : State} (hq : s.QuietMemory) (v : Byte) : SameRest s (realPath v s) := by
  rw [realPath_eq hq]
  exact ((realPushes_rest hq).noteReads _).withCsIp _ _

theorem realPath_runs (v : Byte) (s : State) : Runs s (realPath v s) := by
  rw [realPath_pushes]
  exact ((realPushes_runs s).trans
    ((touches_read16 _ _ _).trans (touches_read16 _ _ _)).runs).withCsIp _ _

/-- What an interrupt answers, whatever the host does: it never refuses, its next state keeps the core's own
state and the canonical form of memory, and more where no handler has run, and its one fault is the host's
(R371). -/
theorem interrupt_cases (v : Byte) (s : State) :
    (∃ t, interrupt v s = .next t ∧ SameCore s t ∧
      (Memory.wf s.bus.mem = true → Memory.wf t.bus.mem = true) ∧
      ((∀ v, BusCall.interruptOverride v ∉ t.calls) → Runs s t)) ∨
      ∃ left, interrupt v s = .fault (.hostProtocolError left) ∧ left.bus.attached = true ∧
        HostFailed left.calls := by
  have hb := queried_runs s v true
  by_cases hv : s.bus.attached = true ∧ queryAnswer v s = true
  · rw [interrupt_overridden hv.1 hv.2]
    unfold overridePath
    cases handlerAnswer v (s.queried v true) with
    | fails ws d =>
      exact .inr ⟨_, rfl, (queried_rest s v true).attached.trans hv.1, _, .inr (.inr ⟨v, rfl⟩)⟩
    | returns e =>
      exact .inl ⟨_, rfl, hb.core.trans ⟨rfl, rfl, rfl, rfl, rfl, rfl⟩,
        fun hm => Memory.wf_hostWrites _ (hb.wf hm), fun hn => absurd List.mem_cons_self (hn v)⟩
  · rw [interrupt_real (fun ha => by simpa [ha] using hv)]
    have hr := (queried_runs s v false).trans (realPath_runs v _)
    exact .inl ⟨_, rfl, hr.core.trans ⟨rfl, rfl, rfl, rfl, rfl, rfl⟩, hr.wf, fun _ => hr.withCost _⟩

end Sys2Proof.Machine
end

