-- ==== Sys2Proof/Laws/Shared.lean ====
section
/-!
SUPPORT. What the operations that several instructions share answer: the two-operand and one-operand frames,
the shifts, the far pointers, the returns, the port accesses and one string iteration.
-/

namespace Sys2Proof.Machine

theorem noteReads_rest (s : State) (l : List Addr) : SameRest s (s.noteReads l) :=
  (SameRest.refl s).noteReads l

/-! ## The two-operand and one-operand frames -/

/-- The two-operand frame up to its write: the operands are read, the flags are written (R180). -/
theorem aluRun_eq {s : State} (hq : s.QuietMemory) (op : AluOp) (f : AluForm) :
    ∃ u, SameRest s u ∧ u.bus = s.bus ∧
      u.cpu = { s.cpu with
                flags := (aluEval op (s.value (aluWidth f) (aluDst f s))
                  (s.value (aluWidth f) (aluSrc f s)) s.cpu.flags).2 } ∧
      aluRun op f s =
        if op = .cmp then u
        else writeOperand (aluWidth f) (aluDst f s)
          (aluEval op (s.value (aluWidth f) (aluDst f s)) (s.value (aluWidth f) (aluSrc f s))
            s.cpu.flags).1 u := by
  refine ⟨(s.noteReads ((aluDst f s).bytes (aluWidth f) ++ (aluSrc f s).bytes (aluWidth f))).withFlags
    (aluEval op (s.value (aluWidth f) (aluDst f s)) (s.value (aluWidth f) (aluSrc f s)) s.cpu.flags).2,
    (noteReads_rest _ _).withFlags _, rfl, rfl, ?_⟩
  simp only [aluRun, readOperand_eq hq, readOperand_eq (hq.noteReads _), State.value_noteReads,
    State.noteReads_noteReads, State.noteReads_cpu]

/-- A two-operand instruction other than CMP assigns its result to the destination (R180). -/
theorem done_aluRun (i : Instr) {op : AluOp} (hop : op ≠ .cmp) (f : AluForm) {s : State}
    (hq : s.QuietMemory)
    {r : BitVec (aluWidth f).bits} {fl : Word}
    (h : aluEval op (s.value (aluWidth f) (aluDst f s)) (s.value (aluWidth f) (aluSrc f s)) s.cpu.flags =
      (r, fl)) :
    ∃ t, done i (aluRun op f s) = .next t ∧ SameRest s t ∧
      Assigned (aluWidth f) (aluDst f s) r fl s t := by
  obtain ⟨u, h1, h2, h3, h4⟩ := aluRun_eq hq op f
  rw [h4, if_neg hop, h]
  rw [h] at h3
  exact done_writeOperand i hq h1 h2 h3 _ _

/-- CMP writes the flags of the subtraction and nothing else (R185). -/
theorem done_aluCmp (i : Instr) (f : AluForm) {s : State} (hq : s.QuietMemory) :
    ∃ t, done i (aluRun .cmp f s) = .next t ∧ SameRest s t ∧
      OnlyCpu { s.cpu with
                flags := (subFlags (s.value (aluWidth f) (aluDst f s)) (s.value (aluWidth f) (aluSrc f s))
                  false s.cpu.flags).2 } s t := by
  obtain ⟨u, h1, h2, h3, h4⟩ := aluRun_eq hq .cmp f
  rw [h4, if_pos rfl]
  exact done_onlyCpu i h1 h2 h3 _ _

/-- INC, DEC, NEG and NOT assign the result of their function (R186 to R188, R234). -/
theorem done_unaryRun (i : Instr) (w : Width) (o : Operand)
    (f : BitVec w.bits → Word → BitVec w.bits × Word) {s : State} (hq : s.QuietMemory) {r : BitVec w.bits}
    {fl : Word}
    (h : f (s.value w o) s.cpu.flags = (r, fl)) :
    ∃ t, done i (unaryRun w o f s) = .next t ∧ SameRest s t ∧ Assigned w o r fl s t := by
  simp only [unaryRun, readOperand_eq hq, State.noteReads_cpu, h]
  exact done_writeOperand i hq ((noteReads_rest s _).withFlags fl) rfl rfl _ _

/-- The flags of INC: those of adding 1, with CF kept (R186). -/
theorem incEval_status (w : Width) (a : BitVec w.bits) (fl : Word) :
    ∃ fl', incEval a fl = (a + 1, fl') ∧
      StatusFlags (getFlag fl .cf) (outOfRange w.bits (a.toInt + 1)) (a + 1) fl fl' := by
  have hr : (addFlags a 1 false fl).1 = a + 1 := by
    apply BitVec.eq_of_toNat_eq; rw [addFlags_toNat]; simp [BitVec.toNat_add]
  have h1 : (1 : BitVec w.bits).toInt = 1 := by cases w <;> rfl
  refine ⟨_, Prod.ext hr rfl, ?_⟩
  have h := addFlags_status a 1 false fl
  rw [addFlags_overflow, hr, h1] at h
  have h2 := h.keepCarry (getFlag fl .cf)
  rw [show a.toInt + 1 + ((false.toNat : Nat) : Int) = a.toInt + 1 by simp] at h2
  exact h2

/-- The flags of DEC: those of subtracting 1, with CF kept (R187). -/
theorem decEval_status (w : Width) (a : BitVec w.bits) (fl : Word) :
    ∃ fl', decEval a fl = (a - 1, fl') ∧
      StatusFlags (getFlag fl .cf) (outOfRange w.bits (a.toInt - 1)) (a - 1) fl fl' := by
  have hr : (subFlags a 1 false fl).1 = a - 1 := by
    apply BitVec.eq_of_toNat_eq
    have := subFlags_toInt a 1 false fl
    have h1 : (1 : BitVec w.bits).toNat = 1 := by cases w <;> rfl
    have h2 := (subFlags a 1 false fl).1.isLt
    have h3 := a.isLt
    rw [BitVec.toNat_sub]
    cases w <;> simp only [Width.bits] at * <;> simp at this h1 ⊢ <;> omega
  have h1 : (1 : BitVec w.bits).toInt = 1 := by cases w <;> rfl
  refine ⟨_, Prod.ext hr rfl, ?_⟩
  have h := subFlags_status a 1 false fl
  rw [subFlags_overflow, hr, h1] at h
  have h2 := h.keepCarry (getFlag fl .cf)
  rw [show a.toInt - 1 - ((false.toNat : Nat) : Int) = a.toInt - 1 by simp] at h2
  exact h2

/-! ## Multiplications and divisions -/

/-- CF and OF say whether the upper half matters; SF, ZF and PF may be anything (R189, U1). -/
theorem multiplyFlags_spec (u : Bool) (s : State) :
    ∃ fl, (multiplyFlags u s).cpu = { s.cpu with flags := fl } ∧ (multiplyFlags u s).bus = s.bus ∧
      SameRest s (multiplyFlags u s) ∧ getFlag fl .cf = u ∧ getFlag fl .of = u ∧
      FlagsBut [.cf, .of, .sf, .zf, .pf] s.cpu.flags fl := by
  obtain ⟨fl, h1, h2, h3, -, h4⟩ :=
    drawFlags_spec [.sf, .zf, .pf] (s.withFlags (putFlag (putFlag s.cpu.flags .cf u) .of u))
  refine ⟨fl, h1, h2, ((SameRest.refl s).withFlags _).trans h3, ?_, ?_, ?_⟩
  · rw [h4.getFlag (by simp)]; simp
  · rw [h4.getFlag (by simp)]; simp
  · exact FlagsBut.trans (((FlagsBut.refl _ _).putFlag (by simp) _).putFlag (by simp) _)
      (h4.mono (by simp +contextual))

/-- The five status flags may be anything after a division (U2). -/
theorem divideFlags_spec (s : State) :
    ∃ fl, (divideFlags s).cpu = { s.cpu with flags := fl } ∧ (divideFlags s).bus = s.bus ∧
      SameRest s (divideFlags s) ∧ FlagsBut [.cf, .of, .sf, .zf, .pf] s.cpu.flags fl := by
  obtain ⟨fl, h1, h2, h3, -, h4⟩ := drawFlags_spec [.cf, .of, .sf, .zf, .pf] s
  exact ⟨fl, h1, h2, h3, h4⟩

/-- ZF, SF and PF are those of AL; CF and OF may be anything (R195, R196, U3). -/
theorem adjustFlags_spec (s : State) :
    ∃ fl, (adjustFlags s).cpu = { s.cpu with flags := fl } ∧ (adjustFlags s).bus = s.bus ∧
      SameRest s (adjustFlags s) ∧ ResultFlags (getReg8 s.cpu .al) fl ∧
      FlagsBut [.cf, .of, .zf, .sf, .pf] s.cpu.flags fl := by
  obtain ⟨fl, h1, h2, h3, -, h4⟩ :=
    drawFlags_spec [.cf, .of] (s.withFlags (setSZP (getReg8 s.cpu .al) s.cpu.flags))
  obtain ⟨k1, k2, k3⟩ := resultFlags_setSZP (getReg8 s.cpu .al) s.cpu.flags
  refine ⟨fl, h1, h2, ((SameRest.refl s).withFlags _).trans h3, ⟨?_, ?_, ?_⟩, ?_⟩
  · rw [h4.getFlag (by simp)]; exact k1
  · rw [h4.getFlag (by simp)]; exact k2
  · rw [h4.getFlag (by simp)]; exact k3
  · exact FlagsBut.trans (flagsBut_setSZP _ (FlagsBut.refl _ _) (by simp) (by simp) (by simp))
      (h4.mono (by simp +contextual))

/-! ## Shifts -/

/-- `shiftTimes` is the one-bit step iterated (R235). -/
theorem shiftTimes_eq (op : ShiftOp) {n : Nat} (k : Nat) (a : BitVec n) (cf : Bool) :
    shiftTimes op k a cf = (fun x : BitVec n × Bool => shiftStep op x.1 x.2)^[k] (a, cf) := by
  induction k generalizing a cf with
  | zero => rfl
  | succ k ih => rw [shiftTimes, ih]; rfl

/-- The shift frame up to its write: the operand is read, the flags are written, the free bit is drawn where
the count is above 1 (R235, U4). -/
theorem shiftRun_eq {s : State} (hq : s.QuietMemory) (op : ShiftOp) (w : Width) (m : RM) (c : ShiftCount) :
    ∃ u free, SameRest s u ∧ u.bus = s.bus ∧
      u.cpu = { s.cpu with
                flags := (shiftEval op (s.value w (resolve m s)) (shiftCount c s) free s.cpu.flags).2 } ∧
      shiftRun op w m c s =
        writeOperand w (resolve m s)
          (shiftEval op (s.value w (resolve m s)) (shiftCount c s) free s.cpu.flags).1 u := by
  by_cases h : 1 < shiftCount c s
  · refine ⟨(({ s with draws := s.draws + 1 } : State).noteReads ((resolve m s).bytes w)).withFlags
      (shiftEval op (s.value w (resolve m s)) (shiftCount c s) (Config.freeBit s.draws) s.cpu.flags).2,
      Config.freeBit s.draws, ⟨rfl, rfl, rfl, rfl, rfl, rfl, rfl⟩, rfl, rfl, ?_⟩
    simp only [shiftRun, readOperand_eq hq, h, if_true]
    rfl
  · refine ⟨(s.noteReads ((resolve m s).bytes w)).withFlags
      (shiftEval op (s.value w (resolve m s)) (shiftCount c s) false s.cpu.flags).2,
      false, ⟨rfl, rfl, rfl, rfl, rfl, rfl, rfl⟩, rfl, rfl, ?_⟩
    simp only [shiftRun, readOperand_eq hq, h, if_false]
    rfl

/-! ## Transfers and returns -/

/-- Only an operand in memory resolves to memory, at its effective offset and segment (R100). -/
theorem resolve_mem {m : RM} {s : State} {g o : Word} (h : resolve m s = .mem g o) :
    m.isMem = true ∧ g = segFor (defaultSeg m) s ∧ o = effOffset s.cpu m := by
  cases m <;> simp_all [resolve, RM.isMem]

/-- A near return pops IP (R307). -/
theorem nearReturn_eq {s : State} (hq : s.QuietMemory) :
    nearReturn s = ((s.noteReads (bytesAt .word s.cpu.ss s.cpu.sp)).withSp (s.cpu.sp + 2)).withIp
      (s.peek16 s.cpu.ss s.cpu.sp) := by
  simp only [nearReturn, pop16_eq hq]

/-- A far return pops IP and CS (R309). -/
theorem farReturn_eq {s : State} (hq : s.QuietMemory) :
    farReturn s = ((s.noteReads (bytesAt .word s.cpu.ss s.cpu.sp ++
      bytesAt .word s.cpu.ss (s.cpu.sp + 2))).withSp (s.cpu.sp + 2 + 2)).withCsIp
      (s.peek16 s.cpu.ss (s.cpu.sp + 2)) (s.peek16 s.cpu.ss s.cpu.sp) := by
  simp only [farReturn, pop16_eq hq, pop16_eq ((hq.noteReads _).withSp _)]
  rw [← State.noteReads_noteReads]
  rfl

/-- The return from an interrupt pops IP, CS and FLAGS, the last through the masks (R29, R318). -/
theorem interruptReturn_eq {s : State} (hq : s.QuietMemory) :
    interruptReturn s = (((s.noteReads (bytesAt .word s.cpu.ss s.cpu.sp ++
      (bytesAt .word s.cpu.ss (s.cpu.sp + 2) ++
        bytesAt .word s.cpu.ss (s.cpu.sp + 2 + 2)))).withSp (s.cpu.sp + 2 + 2 + 2)).withCsIp
      (s.peek16 s.cpu.ss (s.cpu.sp + 2)) (s.peek16 s.cpu.ss s.cpu.sp)).withFlags
        (wordToFlags s.params (s.peek16 s.cpu.ss (s.cpu.sp + 2 + 2))) := by
  simp only [interruptReturn, pop16_eq hq, pop16_eq ((hq.noteReads _).withSp _),
    pop16_eq ((((hq.noteReads _).withSp _).noteReads _).withSp _)]
  rw [← State.noteReads_noteReads, ← State.noteReads_noteReads]
  rfl

/-! ## Strings -/

/-- One iteration of MOVS (R262). -/
theorem movsIter_eq {s : State} (hq : s.QuietMemory) (w : Width) :
    movsIter w s =
      stepDi w (stepSi w (writeW w s.cpu.es s.cpu.di (s.peekW w (segFor .ds s) s.cpu.si)
        (s.noteReads (bytesAt w (segFor .ds s) s.cpu.si)))) := by
  simp only [movsIter, readW_eq hq, State.noteReads_cpu]

/-- One iteration of CMPS (R263). -/
theorem cmpsIter_eq {s : State} (hq : s.QuietMemory) (w : Width) :
    cmpsIter w s =
      stepDi w (stepSi w ((s.noteReads (bytesAt w (segFor .ds s) s.cpu.si ++
        bytesAt w s.cpu.es s.cpu.di)).withFlags
          (subFlags (s.peekW w (segFor .ds s) s.cpu.si) (s.peekW w s.cpu.es s.cpu.di) false
            s.cpu.flags).2)) := by
  simp only [cmpsIter, readW_eq hq, readW_eq (hq.noteReads _), State.noteReads_cpu,
    State.peekW_noteReads, State.noteReads_noteReads]

/-- One iteration of LODS (R265). -/
theorem lodsIter_eq {s : State} (hq : s.QuietMemory) (w : Width) :
    lodsIter w s =
      stepSi w ((s.noteReads (bytesAt w (segFor .ds s) s.cpu.si)).withReg w 0
        (s.peekW w (segFor .ds s) s.cpu.si)) := by
  simp only [lodsIter, readW_eq hq]

/-- One iteration of SCAS (R266). -/
theorem scasIter_eq {s : State} (hq : s.QuietMemory) (w : Width) :
    scasIter w s =
      stepDi w ((s.noteReads (bytesAt w s.cpu.es s.cpu.di)).withFlags
        (subFlags (getReg s.cpu w 0) (s.peekW w s.cpu.es s.cpu.di) false s.cpu.flags).2) := by
  simp only [scasIter, readW_eq hq, State.noteReads_cpu]

end Sys2Proof.Machine
end

