-- ==== Sys2Proof/Laws/Exec.lean ====
section
/-!
SUPPORT. What every instruction of `exec` answers, said once: it never refuses, it faults only as the spec
says, and its next state keeps what no instruction writes.
-/

namespace Sys2Proof.Machine

theorem runs_aluRun (op : AluOp) (f : AluForm) (s : State) : Runs s (aluRun op f s) := by
  obtain ⟨a, u, h1, h2⟩ := readOperand_touches (aluWidth f) (aluDst f s) s
  obtain ⟨b, v, k1, k2⟩ := readOperand_touches (aluWidth f) (aluSrc f s) u
  have h := (h2.trans k2).runs
  simp only [aluRun, h1, k1]
  split
  · exact h.withFlags _
  · exact (h.withFlags _).writeOperand _ _ _

theorem runs_unaryRun (w : Width) (o : Operand) (f : BitVec w.bits → Word → BitVec w.bits × Word)
    (s : State) : Runs s (unaryRun w o f s) := by
  obtain ⟨a, u, h1, h2⟩ := readOperand_touches w o s
  simp only [unaryRun, h1]
  exact (h2.runs.withFlags _).writeOperand _ _ _

theorem runs_shiftRun (op : ShiftOp) (w : Width) (m : RM) (c : ShiftCount) (s : State) :
    Runs s (shiftRun op w m c s) := by
  obtain ⟨a, u, h1, h2⟩ := readOperand_touches w (resolve m s) s
  by_cases h : 1 < shiftCount c s
  · simp only [shiftRun, h1, h, if_true]
    exact ((h2.runs.withDraws _).withFlags _).writeOperand _ _ _
  · simp only [shiftRun, h1, h, if_false]
    exact (h2.runs.withFlags _).writeOperand _ _ _

theorem runs_drawFlags (fs : List Flag) {s t : State} (h : Runs s t) : Runs s (drawFlags fs t) := by
  obtain ⟨fl, h1, h2, h3, h4, -⟩ := drawFlags_spec fs t
  exact h.then h3.core h2 (h4 ▸ List.suffix_refl _)

theorem runs_farCall (o g : Word) (s : State) : Runs s (farCall o g s) :=
  (((Runs.refl s).push16 _).push16 _).withCsIp _ _

theorem runs_stepDi (w : Width) {s t : State} (h : Runs s t) : Runs s (stepDi w t) :=
  h.withCpu _

theorem runs_stepSi (w : Width) {s t : State} (h : Runs s t) : Runs s (stepSi w t) :=
  h.withCpu _

theorem runs_movsIter (w : Width) (s : State) : Runs s (movsIter w s) := by
  obtain ⟨v, u, h1, h2⟩ := readW_touches w (segFor .ds s) s.cpu.si s
  simp only [movsIter, h1]
  exact runs_stepDi w (runs_stepSi w (h2.runs.writeW _ _ _ _))

theorem runs_cmpsIter (w : Width) (s : State) : Runs s (cmpsIter w s) := by
  obtain ⟨a, u, h1, h2⟩ := readW_touches w (segFor .ds s) s.cpu.si s
  obtain ⟨b, v, k1, k2⟩ := readW_touches w u.cpu.es u.cpu.di u
  simp only [cmpsIter, h1, k1]
  exact runs_stepDi w (runs_stepSi w ((h2.trans k2).runs.withFlags _))

theorem runs_stosIter (w : Width) (s : State) : Runs s (stosIter w s) :=
  runs_stepDi w ((Runs.refl s).writeW _ _ _ _)

theorem runs_lodsIter (w : Width) (s : State) : Runs s (lodsIter w s) := by
  obtain ⟨v, u, h1, h2⟩ := readW_touches w (segFor .ds s) s.cpu.si s
  simp only [lodsIter, h1]
  exact runs_stepSi w (h2.runs.withReg _ _ _)

theorem runs_scasIter (w : Width) (s : State) : Runs s (scasIter w s) := by
  obtain ⟨v, u, h1, h2⟩ := readW_touches w s.cpu.es s.cpu.di s
  simp only [scasIter, h1]
  exact runs_stepDi w (h2.runs.withFlags _)

/-- The return from an interrupt keeps what every instruction keeps (R367). -/
theorem runs_interruptReturn (s : State) : Runs s (interruptReturn s) := by
  obtain ⟨a, u, h1, h2, -⟩ := pop16_touches s
  obtain ⟨b, v, k1, k2, -⟩ := pop16_touches u
  obtain ⟨c, w, l1, l2, -⟩ := pop16_touches v
  simp only [interruptReturn, h1, k1, l1]
  exact (((h2.trans k2).trans l2).withCsIp _ _).withFlags _

theorem runs_nearReturn (s : State) : Runs s (nearReturn s) := by
  obtain ⟨a, u, h1, h2, -⟩ := pop16_touches s
  simp only [nearReturn, h1]
  exact h2.withIp _

theorem runs_farReturn (s : State) : Runs s (farReturn s) := by
  obtain ⟨a, u, h1, h2, -⟩ := pop16_touches s
  obtain ⟨b, v, k1, k2, -⟩ := pop16_touches u
  simp only [farReturn, h1, k1]
  exact (h2.trans k2).withCsIp _ _

/-- The repeat loop keeps what every iteration keeps (R261). -/
theorem runs_repeatLoop {iter : State → State} (hi : ∀ s, Runs s (iter s)) (u : Bool) (n : Nat) (s : State) :
    Runs s (repeatLoop iter u n s).1 := by
  induction n generalizing s with
  | zero => exact Runs.refl s
  | succ n ih =>
    have h : Runs s ((iter s).withCx ((iter s).cpu.cx - 1)) :=
      (hi s).withCx _
    simp only [repeatLoop]
    split
    · exact h
    · exact h.trans (ih _)

theorem runs_stringRun {iter : State → State} (hi : ∀ s, Runs s (iter s)) (u : Bool) (s : State) :
    Runs s (stringRun iter u s).1 := by
  unfold stringRun
  split
  · exact runs_repeatLoop hi u _ s
  · exact hi s

/-! ## String iterations where memory is quiet -/

theorem rest_movsIter {s : State} (hq : s.QuietMemory) (w : Width) : SameRest s (movsIter w s) := by
  rw [movsIter_eq hq]
  exact (((noteReads_rest s _).writeW hq _ _ _ _).withCpu _).withCpu _

theorem rest_cmpsIter {s : State} (hq : s.QuietMemory) (w : Width) : SameRest s (cmpsIter w s) := by
  rw [cmpsIter_eq hq]
  exact (((noteReads_rest s _).withFlags _).withCpu _).withCpu _

theorem rest_stosIter {s : State} (hq : s.QuietMemory) (w : Width) : SameRest s (stosIter w s) :=
  ((SameRest.refl s).writeW hq _ _ _ _).withCpu _

theorem rest_lodsIter {s : State} (hq : s.QuietMemory) (w : Width) : SameRest s (lodsIter w s) := by
  rw [lodsIter_eq hq]
  exact ((noteReads_rest s _).withReg _ _ _).withCpu _

theorem rest_scasIter {s : State} (hq : s.QuietMemory) (w : Width) : SameRest s (scasIter w s) := by
  rw [scasIter_eq hq]
  exact ((noteReads_rest s _).withFlags _).withCpu _

/-- The repeat loop keeps what every iteration keeps (R261). -/
theorem rest_repeatLoop {iter : State → State} (hi : ∀ s : State, s.QuietMemory → SameRest s (iter s)) (u : Bool)
    (n : Nat) {s : State} (hq : s.QuietMemory) : SameRest s (repeatLoop iter u n s).1 := by
  induction n generalizing s with
  | zero => exact SameRest.refl s
  | succ n ih =>
    have h : SameRest s ((iter s).withCx ((iter s).cpu.cx - 1)) := (hi s hq).withCx _
    simp only [repeatLoop]
    split
    · exact h
    · exact h.trans (ih (h.quiet hq))

theorem rest_stringRun {iter : State → State} (hi : ∀ s : State, s.QuietMemory → SameRest s (iter s)) (u : Bool)
    {s : State} (hq : s.QuietMemory) : SameRest s (stringRun iter u s).1 := by
  unfold stringRun
  split
  · exact rest_repeatLoop hi u _ hq
  · exact hi s hq

/-! ## What `exec` answers -/

/-- What an instruction that takes no interrupt answers: a next state as `Runs` says, or a fault, which is
HostProtocolError only where the host failed a bus call. -/
def Answers (s : State) : Outcome → Prop
  | .next t => Runs s t
  | .fault e => e ≠ .prefixLoop ∧
      ∀ left, e = .hostProtocolError left → left.bus.attached = true ∧ HostFailed left.calls
  | .refused _ => False

theorem answers_done {s t : State} (i : Instr) (h : Runs s t) (b : Bool) (n : Nat) :
    Answers s (done i t b n) :=
  h.withCost _

theorem answers_decodeError (s t : State) (op : Byte) (slot : Option RegIx) :
    Answers s (raiseDecodeError op slot t) := ⟨by simp, by simp⟩

theorem answers_jumpIf (i : Instr) (c : Bool) (d : Byte) {s t : State} (h : Runs s t) :
    Answers s (jumpIf i c d t) := by
  unfold jumpIf
  split
  · exact answers_done i (h.withIp _) _ _
  · exact answers_done i h _ _

theorem answers_stringDone (i : Instr) {iter : State → State} (hi : ∀ s, Runs s (iter s)) (u : Bool)
    (s : State) : Answers s (stringDone i iter u s) :=
  answers_done i (runs_stringRun hi u s) _ _

theorem answers_inFrom (i : Instr) (w : Width) (p : Word) (s : State) : Answers s (inFrom i w p s) := by
  unfold inFrom
  obtain ⟨v, t, h1, h2⟩ | ⟨l, h1, h2⟩ := portInW_cases w p s
  · rw [h1]
    exact answers_done i (h2.runs.withReg _ _ _) _ _
  · rw [h1]
    exact ⟨by simp, by rintro _ ⟨⟩; exact h2⟩

theorem answers_outTo (i : Instr) (w : Width) (p : Word) (s : State) : Answers s (outTo i w p s) := by
  unfold outTo
  obtain ⟨t, h1, h2⟩ | ⟨l, h1, h2⟩ := portOutW_cases w p (getReg s.cpu w 0) s
  · rw [h1]
    exact answers_done i h2.runs _ _
  · rw [h1]
    exact ⟨by simp, by rintro _ ⟨⟩; exact h2⟩

/-- Every instruction that is no prefix and takes no interrupt answers as `Answers` says. -/
theorem exec_answers (i : Instr) (s : State) (hp : i.isPrefix = false) (hi : mayInterrupt i = false) :
    Answers s (exec i s) := by
  have h0 := Runs.refl s
  cases i with
  | segEs | segCs | segSs | segDs | rep => cases hp
  | div _ _ | idiv _ _ | aam _ | int _ | int3 | into => cases hi
  | absentOpcode op => exact answers_decodeError s s op none
  | absentSlot op m reg => exact answers_decodeError s s op (some reg)
  | movRmReg w m r => exact answers_done _ (h0.writeOperand _ _ _) _ _
  | movRegRm w r m =>
    obtain ⟨v, u, h1, h2⟩ := readOperand_touches w (resolve m s) s
    simp only [exec, execMovRegRm, h1]
    exact answers_done _ (h2.runs.withReg _ _ _) _ _
  | movRmImm8 m b => exact answers_done _ (h0.writeOperand _ _ _) _ _
  | movRmImm16 m b => exact answers_done _ (h0.writeOperand _ _ _) _ _
  | movRegImm8 r b => exact answers_done _ (h0.withReg _ _ _) _ _
  | movRegImm16 r b => exact answers_done _ (h0.withReg _ _ _) _ _
  | movAccMoffs w off =>
    obtain ⟨v, u, h1, h2⟩ := readW_touches w (segFor .ds s) off s
    simp only [exec, execMovAccMoffs, h1]
    exact answers_done _ (h2.runs.withReg _ _ _) _ _
  | movMoffsAcc w off => exact answers_done _ (h0.writeW _ _ _ _) _ _
  | movRmSreg m sr => exact answers_done _ (h0.writeOperand _ _ _) _ _
  | movSregRm sr m =>
    obtain ⟨v, u, h1, h2⟩ := readOperand_touches .word (resolve m s) s
    simp only [exec, execMovSregRm, h1]
    split
    · exact answers_decodeError s _ _ _
    · exact answers_done _ (h2.runs.withSreg _ _) _ _
  | pushReg r =>
    simp only [exec, execPushReg, pushRegister, pushSp]
    split <;> exact answers_done _ (h0.push16 _) _ _
  | pushRm m =>
    obtain ⟨v, u, h1, h2⟩ := readOperand_touches .word (resolve m s) s
    simp only [exec, execPushRm, h1, pushSp]
    split
    · exact answers_done _ (h0.push16 _) _ _
    · exact answers_done _ (h2.runs.push16 _) _ _
  | pushSreg sr => exact answers_done _ (h0.push16 _) _ _
  | popReg r =>
    obtain ⟨v, u, h1, h2, -⟩ := pop16_touches s
    simp only [exec, execPopReg, h1]
    exact answers_done _ (h2.withReg _ _ _) _ _
  | popRm m =>
    obtain ⟨v, u, h1, h2, -⟩ := pop16_touches s
    simp only [exec, execPopRm, h1]
    exact answers_done _ (h2.writeOperand _ _ _) _ _
  | popSreg sr =>
    obtain ⟨v, u, h1, h2, -⟩ := pop16_touches s
    simp only [exec, execPopSreg, h1]
    split
    · exact answers_decodeError s _ _ _
    · exact answers_done _ (h2.withSreg _ _) _ _
  | xchgRmReg w m r =>
    obtain ⟨v, u, h1, h2⟩ := readOperand_touches w (resolve m s) s
    simp only [exec, execXchgRmReg, h1]
    exact answers_done _ ((h2.runs.writeOperand _ _ _).withReg _ _ _) _ _
  | xchgAxReg r =>
    exact answers_done _ ((h0.withReg .word 0 _).withReg .word r _) _ _
  | nop => exact answers_done _ h0 _ _
  | xlat =>
    obtain ⟨v, u, h1, h2⟩ := read8_touches (segFor .ds s) (s.cpu.bx + zext16 (getReg8 s.cpu .al)) s
    simp only [exec, execXlat, h1]
    exact answers_done _ (h2.runs.withReg _ _ _) _ _
  | inImm w b => exact answers_inFrom _ _ _ _
  | inDx w => exact answers_inFrom _ _ _ _
  | outImm w b => exact answers_outTo _ _ _ _
  | outDx w => exact answers_outTo _ _ _ _
  | lea r m =>
    simp only [exec, execLea]
    split
    · exact answers_done _ (h0.withReg _ _ _) _ _
    · exact answers_decodeError s _ _ _
  | lds r m =>
    obtain ⟨o, g, u, h1, h2⟩ := readFar_touches m s
    simp only [exec, execLds, h1]
    split
    · exact answers_done _ ((h2.runs.withReg _ _ _).withSreg _ _) _ _
    · exact answers_decodeError s _ _ _
  | les r m =>
    obtain ⟨o, g, u, h1, h2⟩ := readFar_touches m s
    simp only [exec, execLes, h1]
    split
    · exact answers_done _ ((h2.runs.withReg _ _ _).withSreg _ _) _ _
    · exact answers_decodeError s _ _ _
  | lahf => exact answers_done _ (h0.withReg _ _ _) _ _
  | sahf => exact answers_done _ (h0.withFlags _) _ _
  | pushf => exact answers_done _ (h0.push16 _) _ _
  | popf =>
    obtain ⟨v, u, h1, h2, -⟩ := pop16_touches s
    simp only [exec, execPopf, h1]
    exact answers_done _ (h2.withFlags _) _ _
  | add f => exact answers_done _ (runs_aluRun _ _ _) _ _
  | adc f => exact answers_done _ (runs_aluRun _ _ _) _ _
  | sub f => exact answers_done _ (runs_aluRun _ _ _) _ _
  | sbb f => exact answers_done _ (runs_aluRun _ _ _) _ _
  | cmp f => exact answers_done _ (runs_aluRun _ _ _) _ _
  | incReg r => exact answers_done _ (runs_unaryRun _ _ _ _) _ _
  | incRm w m => exact answers_done _ (runs_unaryRun _ _ _ _) _ _
  | decReg r => exact answers_done _ (runs_unaryRun _ _ _ _) _ _
  | decRm w m => exact answers_done _ (runs_unaryRun _ _ _ _) _ _
  | neg w m => exact answers_done _ (runs_unaryRun _ _ _ _) _ _
  | mul w m =>
    obtain ⟨v, u, h1, h2⟩ := readOperand_touches w (resolve m s) s
    simp only [exec, execMul, h1]
    exact answers_done _ (runs_drawFlags _ ((h2.runs.withCpu _).withFlags _)) _ _
  | imul w m =>
    obtain ⟨v, u, h1, h2⟩ := readOperand_touches w (resolve m s) s
    simp only [exec, execImul, h1]
    exact answers_done _ (runs_drawFlags _ ((h2.runs.withCpu _).withFlags _)) _ _
  | cbw => exact answers_done _ (h0.withReg _ _ _) _ _
  | cwd => exact answers_done _ (h0.withReg _ _ _) _ _
  | aad b =>
    exact answers_done _ (runs_drawFlags _ (((h0.withReg .byte 0 _).withReg .byte 4 0).withFlags _)) _ _
  | and f => exact answers_done _ (runs_aluRun _ _ _) _ _
  | or f => exact answers_done _ (runs_aluRun _ _ _) _ _
  | xor f => exact answers_done _ (runs_aluRun _ _ _) _ _
  | test f =>
    obtain ⟨a, u, h1, h2⟩ := readOperand_touches (testWidth f) (testFst f s) s
    obtain ⟨b, v, k1, k2⟩ := readOperand_touches (testWidth f) (testSnd f) u
    simp only [exec, execTest, h1, k1]
    exact answers_done _ ((h2.trans k2).runs.withFlags _) _ _
  | not w m => exact answers_done _ (runs_unaryRun _ _ _ _) _ _
  | rol w m c => exact answers_done _ (runs_shiftRun _ _ _ _ _) _ _
  | ror w m c => exact answers_done _ (runs_shiftRun _ _ _ _ _) _ _
  | rcl w m c => exact answers_done _ (runs_shiftRun _ _ _ _ _) _ _
  | rcr w m c => exact answers_done _ (runs_shiftRun _ _ _ _ _) _ _
  | shl w m c => exact answers_done _ (runs_shiftRun _ _ _ _ _) _ _
  | shr w m c => exact answers_done _ (runs_shiftRun _ _ _ _ _) _ _
  | sar w m c => exact answers_done _ (runs_shiftRun _ _ _ _ _) _ _
  | movsb => exact answers_stringDone _ (runs_movsIter _) _ _
  | movsw => exact answers_stringDone _ (runs_movsIter _) _ _
  | cmpsb => exact answers_stringDone _ (runs_cmpsIter _) _ _
  | cmpsw => exact answers_stringDone _ (runs_cmpsIter _) _ _
  | stosb => exact answers_stringDone _ (runs_stosIter _) _ _
  | stosw => exact answers_stringDone _ (runs_stosIter _) _ _
  | lodsb => exact answers_stringDone _ (runs_lodsIter _) _ _
  | lodsw => exact answers_stringDone _ (runs_lodsIter _) _ _
  | scasb => exact answers_stringDone _ (runs_scasIter _) _ _
  | scasw => exact answers_stringDone _ (runs_scasIter _) _ _
  | jmpRel8 d => exact answers_done _ (h0.withIp _) _ _
  | jmpRel16 d => exact answers_done _ (h0.withIp _) _ _
  | jmpFar o g => exact answers_done _ (h0.withCsIp _ _) _ _
  | jmpRm m =>
    obtain ⟨v, u, h1, h2⟩ := readOperand_touches .word (resolve m s) s
    simp only [exec, execJmpRm, h1]
    exact answers_done _ (h2.runs.withIp _) _ _
  | jmpFarRm m =>
    obtain ⟨o, g, u, h1, h2⟩ := readFar_touches m s
    simp only [exec, execJmpFarRm, h1]
    split
    · exact answers_done _ (h2.runs.withCsIp _ _) _ _
    · exact answers_decodeError s _ _ _
  | callRel16 d => exact answers_done _ ((h0.push16 _).withIp _) _ _
  | callFar o g => exact answers_done _ (runs_farCall _ _ _) _ _
  | callRm m =>
    obtain ⟨v, u, h1, h2⟩ := readOperand_touches .word (resolve m s) s
    simp only [exec, execCallRm, h1]
    exact answers_done _ ((h2.runs.push16 _).withIp _) _ _
  | callFarRm m =>
    obtain ⟨o, g, u, h1, h2⟩ := readFar_touches m s
    simp only [exec, execCallFarRm, h1]
    split
    · exact answers_done _ (h2.runs.trans (runs_farCall _ _ _)) _ _
    · exact answers_decodeError s _ _ _
  | jo d => exact answers_jumpIf _ _ _ h0
  | jno d => exact answers_jumpIf _ _ _ h0
  | jb d => exact answers_jumpIf _ _ _ h0
  | jae d => exact answers_jumpIf _ _ _ h0
  | je d => exact answers_jumpIf _ _ _ h0
  | jne d => exact answers_jumpIf _ _ _ h0
  | jbe d => exact answers_jumpIf _ _ _ h0
  | ja d => exact answers_jumpIf _ _ _ h0
  | js d => exact answers_jumpIf _ _ _ h0
  | jns d => exact answers_jumpIf _ _ _ h0
  | jp d => exact answers_jumpIf _ _ _ h0
  | jnp d => exact answers_jumpIf _ _ _ h0
  | jl d => exact answers_jumpIf _ _ _ h0
  | jge d => exact answers_jumpIf _ _ _ h0
  | jle d => exact answers_jumpIf _ _ _ h0
  | jg d => exact answers_jumpIf _ _ _ h0
  | ret =>
    exact answers_done _ (runs_nearReturn s) _ _
  | retImm n =>
    exact answers_done _ ((runs_nearReturn s).withSp _) _ _
  | retf =>
    exact answers_done _ (runs_farReturn s) _ _
  | retfImm n =>
    exact answers_done _ ((runs_farReturn s).withSp _) _ _
  | loop d => exact answers_jumpIf _ _ _ (h0.withCx _)
  | loopz d => exact answers_jumpIf _ _ _ (h0.withCx _)
  | loopnz d => exact answers_jumpIf _ _ _ (h0.withCx _)
  | jcxz d => exact answers_jumpIf _ _ _ h0
  | iret =>
    exact answers_done _ (runs_interruptReturn s) _ _
  | clc => exact answers_done _ (h0.withFlags _) _ _
  | stc => exact answers_done _ (h0.withFlags _) _ _
  | cmc => exact answers_done _ (h0.withFlags _) _ _
  | cld => exact answers_done _ (h0.withFlags _) _ _
  | std => exact answers_done _ (h0.withFlags _) _ _
  | cli => exact answers_done _ (h0.withFlags _) _ _
  | sti => exact answers_done _ (h0.withFlags _) _ _

/-- An instruction that may take an interrupt either runs, as one that takes none, or is that interrupt taken
after its operand has been read (R361). -/
theorem exec_mayInterrupt (i : Instr) (s : State) (hi : mayInterrupt i = true) :
    (∃ t, exec i s = .next t ∧ Runs s t) ∨ ∃ v u, exec i s = interrupt v u ∧ Touches s u := by
  have hd : ∀ (j : Instr) (w : Width) (u : State) (r : Option (BitVec w.bits × BitVec w.bits)),
      Touches s u → (∃ t, divideEnd j w r u = .next t ∧ Runs s t) ∨
        ∃ v u', divideEnd j w r u = interrupt v u' ∧ Touches s u' := by
    intro j w u r hu
    cases r with
    | none => exact .inr ⟨0, u, rfl, hu⟩
    | some qr => exact .inl ⟨_, rfl, (runs_drawFlags _ (hu.runs.withCpu _)).withCost _⟩
  cases i with
  | div w m =>
    obtain ⟨v, u, h1, h2⟩ := readOperand_touches w (resolve m s) s
    simp only [exec, execDiv, h1]
    exact hd _ _ _ _ h2
  | idiv w m =>
    obtain ⟨v, u, h1, h2⟩ := readOperand_touches w (resolve m s) s
    simp only [exec, execIdiv, h1]
    exact hd _ _ _ _ h2
  | aam b =>
    simp only [exec, execAam]
    split
    · exact .inr ⟨0, s, rfl, Touches.refl s⟩
    · exact .inl ⟨_, rfl, (runs_drawFlags _
        ((((Runs.refl s).withReg .byte 4 _).withReg .byte 0 _).withFlags _)).withCost _⟩
  | int v => exact .inr ⟨v, s, rfl, Touches.refl s⟩
  | int3 => exact .inr ⟨3, s, rfl, Touches.refl s⟩
  | into =>
    simp only [exec, execInto]
    split
    · exact .inr ⟨4, s, rfl, Touches.refl s⟩
    · exact .inl ⟨_, rfl, (Runs.refl s).withCost _⟩
  | _ => cases hi

/-- Whatever an instruction and the host do: the next state keeps the core's own state and the canonical form
of memory, and more where no override handler has run (R76, R83), and HostProtocolError comes after a bus call
that the host failed (R371). -/
theorem exec_outcome (i : Instr) (s : State) (hp : i.isPrefix = false) :
    match exec i s with
    | .next t => SameCore s t ∧ (Memory.wf s.bus.mem = true → Memory.wf t.bus.mem = true) ∧
        ((∀ v, BusCall.interruptOverride v ∉ t.calls) → Runs s t)
    | .fault e => e ≠ .prefixLoop ∧
        ∀ left, e = .hostProtocolError left → left.bus.attached = true ∧ HostFailed left.calls
    | .refused _ => False := by
  by_cases hi : mayInterrupt i = true
  · obtain ⟨t, h1, h2⟩ | ⟨v, u, h1, h2⟩ := exec_mayInterrupt i s hi
    · rw [h1]
      exact ⟨h2.core, h2.wf, fun _ => h2⟩
    · rw [h1]
      obtain ⟨t, k1, k2, k3, k4⟩ | ⟨l, k1, k2⟩ := interrupt_cases v u
      · rw [k1]
        exact ⟨h2.runs.core.trans k2, fun hm => k3 (h2.runs.wf hm), fun hn => h2.runs.trans (k4 hn)⟩
      · rw [k1]
        exact ⟨by simp, by rintro _ ⟨⟩; exact k2⟩
  · have h := exec_answers i s hp (by simpa using hi)
    cases he : exec i s with
    | next t => rw [he] at h; exact ⟨h.core, h.wf, fun _ => h⟩
    | fault e => rw [he] at h; exact h
    | refused r => rw [he] at h; exact h

end Sys2Proof.Machine
end

