-- ==== Sys2Proof/Laws/Run.lean ====
section
/-!
SUPPORT. Fetching an instruction and the prefix loop: what a fetch answers, what a prefix does, what the loop
reaches, and what a step can answer (20_memory.md R70; 30_encoding.md R91 to R94, R106, R110).
-/

namespace Sys2Proof.Machine

/-! ## Fetching an instruction -/

/-- A fetch of `n` bytes adds `n` to IP and keeps the other registers, whatever the host does. -/
theorem fetchN_spec (n : Nat) (s : State) :
    Runs s (fetchN n s) ∧ (fetchN n s).cpu = { s.cpu with ip := s.cpu.ip + BitVec.ofNat 16 n } := by
  induction n generalizing s with
  | zero => exact ⟨Runs.refl s, by simp [fetchN]⟩
  | succ n ih =>
    obtain ⟨b, u, h1, h2, h3⟩ := fetch8_spec s
    have h4 := ih u
    simp only [fetchN, h1]
    refine ⟨h2.trans h4.1, ?_⟩
    rw [h4.2, h3]
    have h : s.cpu.ip + 1 + BitVec.ofNat 16 n = s.cpu.ip + BitVec.ofNat 16 (n + 1) := by
      apply BitVec.eq_of_toNat_eq
      simp [BitVec.toNat_add]
      omega
    simp only [h]

/-- The bytes that `n` fetches answer. -/
def fetchedBytes : Nat → State → List Byte
  | 0, _ => []
  | n + 1, s => (fetch8 s).1 :: fetchedBytes n (fetch8 s).2

theorem streamOf_agree (l k : List Byte) : Agree l.length (streamOf (l ++ k)) (streamOf l) := by
  intro j hj
  simp [streamOf, List.getD_eq_getElem?_getD, List.getElem?_append_left hj]

/-- A fetch stops as soon as the bytes in hand decode: what it answers is the decoder's answer on them, of just
their number (R110, R112). -/
theorem fetchFrom_spec (r : List Slot) (n : Nat) (got : List Byte) (s : State) (hn : got.length + n = 6)
    (hg : got.length < (decodeWith r (streamOf got)).length) :
    ∃ l, fetchFrom r n got s = (decodeWith r (streamOf (got ++ l)), fetchN l.length s) ∧
      (decodeWith r (streamOf (got ++ l))).length = (got ++ l).length ∧ l = fetchedBytes l.length s := by
  induction n generalizing got s with
  | zero => have := (decodeWith_length r (streamOf got)).2; omega
  | succ n ih =>
    simp only [fetchFrom]
    split
    · next hd =>
      refine ⟨[(fetch8 s).1], rfl, ?_, rfl⟩
      by_contra hne
      have hle : (decodeWith r (streamOf (got ++ [(fetch8 s).1]))).length ≤ got.length := by
        simp only [List.length_append, List.length_singleton] at hd hne
        omega
      rw [decodeWith_local ((streamOf_agree got [(fetch8 s).1]).mono hle)] at hg
      omega
    · next hd =>
      obtain ⟨l, h1, h2, h3⟩ := ih (got ++ [(fetch8 s).1]) (fetch8 s).2
        (by simp only [List.length_append, List.length_singleton]; omega) (by omega)
      rw [List.append_assoc, List.singleton_append] at h1 h2
      refine ⟨(fetch8 s).1 :: l, h1, h2, ?_⟩
      rw [List.length_cons, fetchedBytes, ← h3]

/-- `fetchInstr`, whatever the host answers. -/
theorem fetchInstr_spec (s : State) :
    ∃ l, fetchInstr s = (decodeWith s.params.removedSlots (streamOf l), fetchN l.length s) ∧
      (decodeWith s.params.removedSlots (streamOf l)).length = l.length ∧ l = fetchedBytes l.length s :=
  fetchFrom_spec s.params.removedSlots 6 [] s rfl (decodeWith_length _ _).1

theorem fetchedBytes_eq {n : Nat} {s : State} (hq : s.QuietMemory) :
    fetchedBytes n s = (List.range n).map s.code := by
  induction n generalizing s with
  | zero => rfl
  | succ n ih =>
    rw [fetchedBytes, fetch8_eq hq, ih ((hq.noteReads _).withIp _), List.range_succ_eq_map, List.map_cons,
      List.map_map]
    congr 1
    · simp [State.code, State.codeAt]
    · apply List.map_congr_left
      intro k _
      show s.peek8 s.cpu.cs (s.cpu.ip + 1 + BitVec.ofNat 16 k) =
        s.peek8 s.cpu.cs (s.cpu.ip + BitVec.ofNat 16 (k + 1))
      congr 1
      apply BitVec.eq_of_toNat_eq
      simp [BitVec.toNat_add]
      omega

/-- `fetchInstr` where memory is quiet: the instruction that stands at CS:IP, and the reads of its bytes. -/
theorem fetchInstr_eq {s : State} (hq : s.QuietMemory) :
    fetchInstr s = (decodeWith s.params.removedSlots s.code,
      fetchN (decodeWith s.params.removedSlots s.code).length s) := by
  obtain ⟨l, h1, h2, h3⟩ := fetchInstr_spec s
  rw [fetchedBytes_eq hq] at h3
  have ha : Agree l.length (streamOf l) s.code := by
    intro j hj
    generalize hm : l.length = m at h3 hj
    rw [h3]
    simp [streamOf, List.getD_eq_getElem?_getD, hj]
  have hd := decodeWith_local (ha.mono (Nat.le_of_eq h2))
  rw [hd, h2]
  exact h1

/-- A fetch never runs out of bytes (R90). -/
theorem fetchInstr_not_truncated (s : State) : (fetchInstr s).1 ≠ .truncated := by
  obtain ⟨l, h1, h2, -⟩ := fetchInstr_spec s
  rw [h1]
  intro h
  have := (decodeWith_length s.params.removedSlots (streamOf l)).1
  dsimp only at h
  rw [h] at this
  simp [Decoded.length] at this

/-- Whatever is fetched, IP has moved past it and the other registers are kept (R27, R112). -/
theorem fetchInstr_keeps {s u : State} {d : Decoded} (h : fetchInstr s = (d, u)) :
    Runs s u ∧ u.cpu = { s.cpu with ip := s.cpu.ip + BitVec.ofNat 16 d.length } := by
  obtain ⟨l, h1, h2, -⟩ := fetchInstr_spec s
  rw [h1] at h
  cases h
  rw [h2]
  exact fetchN_spec _ s

/-- A fetch changes no byte of memory, whatever the host does (R76). -/
theorem mem_fetchN (n : Nat) (s : State) : (fetchN n s).bus.mem = s.bus.mem := by
  induction n generalizing s with
  | zero => rfl
  | succ n ih =>
    rw [fetchN, ih]
    exact mem_readByte _ s

theorem fetchInstr_mem {s u : State} {d : Decoded} (h : fetchInstr s = (d, u)) : u.bus.mem = s.bus.mem := by
  obtain ⟨l, h1, -, -⟩ := fetchInstr_spec s
  rw [h1] at h
  cases h
  exact mem_fetchN _ s

/-- Where memory is quiet a fetch leaves the host as it was and draws no free value. -/
theorem fetchInstr_quiet {s u : State} {d : Decoded} (hq : s.QuietMemory) (h : fetchInstr s = (d, u)) :
    u.bus = s.bus ∧ u.draws = s.draws := by
  rw [fetchInstr_eq hq] at h
  cases h
  rw [fetchN_eq _ hq]
  exact ⟨rfl, rfl⟩

/-- A fetched instruction is one that the opcode map decodes from some bytes. -/
theorem fetchInstr_decodes {s u : State} {i : Instr} {n : Nat} (h : fetchInstr s = (.ok i n, u)) :
    ∃ b, decodeStream b = .ok i n := by
  obtain ⟨l, h1, -, -⟩ := fetchInstr_spec s
  rw [h1] at h
  have hd := congrArg Prod.fst h
  dsimp only at hd
  unfold decodeWith at hd
  split at hd
  · cases hd
  · exact ⟨_, hd⟩

/-! ## The prefix loop -/

/-- A prefix sets its part of the decode-time state and nothing else (R92). -/
theorem exec_prefix {i : Instr} (h : i.isPrefix = true) (s : State) :
    ∃ o r, exec i s = .next { s with segOverride := o, repeatState := r } := by
  cases i with
  | segEs | segCs | segSs | segDs | rep => exact ⟨_, _, rfl⟩
  | _ => cases h

theorem aluInstr_not_prefix (k : Nat) (f : AluForm) : (aluInstr k f).isPrefix = false := by
  unfold aluInstr; split <;> rfl

/-- A prefix is one byte long (R90). -/
theorem prefix_length {b : Nat → Byte} {i : Instr} {n : Nat} (h : decodeStream b = .ok i n)
    (hp : i.isPrefix = true) : n = 1 := by
  have ha := aluInstr_not_prefix
  unfold decodeStream decodeLow decodeRegOps decodeJcc decodeRow8 decodeRow9 decodeRowA decodeRowB
    decodeRowC decodeRowD decodeRowE decodeRowF decodeShift decodeGroup3 decodeGroup4 decodeGroup5
    rowModRM rowMem at h
  dsimp only at h
  repeat' split at h
  all_goals first | (cases h; first | rfl | (cases hp) | (rw [ha] at hp; cases hp)) | cases h

/-- A fetched prefix is one byte long (R90). -/
theorem fetchInstr_prefix {s u : State} {i : Instr} {n : Nat} (h : fetchInstr s = (.ok i n, u))
    (hp : i.isPrefix = true) : n = 1 := by
  obtain ⟨b, hb⟩ := fetchInstr_decodes h
  exact prefix_length hb hp

/-- One turn of the loop on a prefix (R91). -/
theorem runLoop_prefix {n len : Nat} {s t u : State} {p : Instr} (h : fetchInstr s = (.ok p len, u))
    (hp : p.isPrefix = true) (ht : exec p u = .next t) : runLoop (n + 1) s = runLoop n t := by
  simp only [runLoop, h, hp, if_true, ht]

/-- What the last turn of the loop answers for what has been fetched (R91, R94, R106). -/
def lastTurn (d : Decoded) (u : State) : Outcome :=
  match d with
  | .ok i _ =>
    match exec i u with
    | .next t => .next (endStep t)
    | .fault e => .fault e
    | .refused r => .refused r
  | .refusedForm op slot _ => raiseDecodeError op slot u
  | .truncated => raiseDecodeError 0x00 none u

theorem runLoop_last {n : Nat} {s u : State} {d : Decoded} (h : fetchInstr s = (d, u))
    (hp : Decoded.isPrefix d = false) : runLoop (n + 1) s = lastTurn d u := by
  cases d with
  | ok i len =>
    have hp' : i.isPrefix = false := hp
    cases he : exec i u <;> simp only [runLoop, lastTurn, h, hp', Bool.false_eq_true, if_false, he]
  | refusedForm op slot len => simp only [runLoop, lastTurn, h]
  | truncated => simp only [runLoop, lastTurn, h]

/-- What the loop reaches keeps the core's own state but IP and the decode-time state (R91, R92). -/
theorem reaches_keeps {k : Nat} {s u : State} {d : Decoded} (h : Reaches k s d u) :
    u.params = s.params ∧ u.status = s.status ∧ u.bus.attached = s.bus.attached ∧
      (Memory.wf s.bus.mem = true → Memory.wf u.bus.mem = true) ∧ Decoded.isPrefix d = false ∧
      u.cpu = { s.cpu with ip := s.cpu.ip + BitVec.ofNat 16 (k + d.length) } := by
  induction k generalizing s with
  | zero =>
    obtain ⟨h1, h2⟩ := h
    obtain ⟨h3, h4⟩ := fetchInstr_keeps h1
    refine ⟨h3.core.params, h3.core.status, h3.core.attached, h3.wf, h2, ?_⟩
    rw [h4, Nat.zero_add]
  | succ k ih =>
    obtain ⟨p, len, v, t, h1, hp, ht, hr⟩ := h
    obtain ⟨o, r, he⟩ := exec_prefix hp v
    rw [he] at ht
    cases ht
    obtain ⟨h3, h4⟩ := fetchInstr_keeps h1
    obtain ⟨k1, k2, k3, k4, k5, k6⟩ := ih hr
    have hl := fetchInstr_prefix h1 hp
    subst hl
    refine ⟨k1.trans h3.core.params, k2.trans h3.core.status, k3.trans h3.core.attached,
      fun hm => k4 (h3.wf hm), k5, ?_⟩
    have h5 : v.cpu = { s.cpu with ip := s.cpu.ip + BitVec.ofNat 16 1 } := h4
    have hi : s.cpu.ip + BitVec.ofNat 16 1 + BitVec.ofNat 16 (k + d.length) =
        s.cpu.ip + BitVec.ofNat 16 (k + 1 + d.length) := by
      apply BitVec.eq_of_toNat_eq
      simp [BitVec.toNat_add]
      omega
    rw [k6]
    dsimp only
    rw [h5]
    dsimp only
    rw [hi]

/-- What the loop reaches has made fetches alone, which change no byte of memory, whatever the host does
(R76). -/
theorem reaches_mem {k : Nat} {s u : State} {d : Decoded} (h : Reaches k s d u) : u.bus.mem = s.bus.mem := by
  induction k generalizing s with
  | zero => exact fetchInstr_mem h.1
  | succ k ih =>
    obtain ⟨p, len, v, t, h1, hp, ht, hr⟩ := h
    obtain ⟨o, r, he⟩ := exec_prefix hp v
    rw [he] at ht
    cases ht
    have h2 : v.bus.mem = s.bus.mem := fetchInstr_mem h1
    exact (ih hr).trans h2

/-- Where memory is quiet the host has answered from memory and nothing at it has changed. -/
theorem reaches_quiet {k : Nat} {s u : State} {d : Decoded} (h : Reaches k s d u) (hq : s.QuietMemory) :
    u.bus = s.bus := by
  induction k generalizing s with
  | zero => exact (fetchInstr_quiet hq h.1).1
  | succ k ih =>
    obtain ⟨p, len, v, t, h1, hp, ht, hr⟩ := h
    obtain ⟨o, r, he⟩ := exec_prefix hp v
    rw [he] at ht
    cases ht
    have h2 := (fetchInstr_quiet hq h1).1
    have h3 := ih hr (hq.congr (congrArg Bus.attached h2) (by rw [h2]))
    exact h3.trans h2

/-- The loop runs what it reaches, if it has turns enough (R91). -/
theorem runLoop_reaches {k n : Nat} {s u : State} {d : Decoded} (hk : k < n) (h : Reaches k s d u) :
    runLoop n s = lastTurn d u := by
  induction k generalizing n s with
  | zero =>
    obtain ⟨n, rfl⟩ : ∃ m, n = m + 1 := ⟨n - 1, by omega⟩
    exact runLoop_last h.1 h.2
  | succ k ih =>
    obtain ⟨n, rfl⟩ : ∃ m, n = m + 1 := ⟨n - 1, by omega⟩
    obtain ⟨p, len, v, t, h1, h2, h3, h4⟩ := h
    rw [runLoop_prefix h1 h2 h3, ih (by omega) h4]

/-- Whatever the loop answers but its own fault comes from what it reaches (R91, R397). -/
theorem runLoop_cases (n : Nat) (s : State) :
    runLoop n s = .fault .prefixLoop ∨ ∃ k d u, k < n ∧ Reaches k s d u ∧ d ≠ .truncated := by
  induction n generalizing s with
  | zero => exact .inl rfl
  | succ n ih =>
    have ht := fetchInstr_not_truncated s
    cases h : fetchInstr s with
    | mk d u =>
      rw [h] at ht
      by_cases hp : Decoded.isPrefix d = true
      · cases d with
        | ok i len =>
          obtain ⟨o, r, he⟩ := exec_prefix hp u
          rw [runLoop_prefix h hp he]
          obtain h1 | ⟨k, d, v, h1, h2, h3⟩ := ih { u with segOverride := o, repeatState := r }
          · exact .inl h1
          · exact .inr ⟨k + 1, d, v, by omega, ⟨i, len, u, _, h, hp, he, h2⟩, h3⟩
        | refusedForm op slot len => cases hp
        | truncated => cases hp
      · exact .inr ⟨0, d, u, by omega, ⟨h, by simpa using hp⟩, ht⟩

/-- On a core that may run, a step is the prefix loop with no bus call made yet (R393). -/
theorem step_running {s : State} (hs : s.status = .running) :
    step s = runLoop prefixBound { s with calls := [] } := by
  unfold step runStep
  split
  · rfl
  · next h => rw [hs] at h; cases h
  · next h => rw [hs] at h; cases h

/-- What a step answers: the fault of an endless run of prefixes, or the last turn on what its prefixes lead
to (R91, R393, R397). -/
theorem step_cases {s : State} (hs : s.status = .running) :
    step s = .fault .prefixLoop ∨
      ∃ k d u, k < prefixBound ∧ Reaches k { s with calls := [] } d u ∧ d ≠ .truncated ∧
        step s = lastTurn d u := by
  rw [step_running hs]
  obtain h | ⟨k, d, u, h1, h2, h3⟩ := runLoop_cases prefixBound { s with calls := [] }
  · exact .inl h
  · exact .inr ⟨k, d, u, h1, h2, h3, runLoop_reaches h1 h2⟩

/-- What a next state of a step is: an instruction was reached and its handler answered (R91, R94). -/
theorem step_next {s t : State} (h : step s = .next t) :
    s.status = .running ∧ ∃ k i n u v, k < prefixBound ∧ Reaches k { s with calls := [] } (.ok i n) u ∧
      exec i u = .next v ∧ t = endStep v := by
  have hs : s.status = .running := by
    unfold step runStep at h
    split at h
    · assumption
    · cases h
    · cases h
  refine ⟨hs, ?_⟩
  obtain h1 | ⟨k, d, u, h1, h2, h3, h4⟩ := step_cases hs
  · rw [h1] at h; cases h
  · rw [h4] at h
    cases d with
    | ok i n =>
      cases he : exec i u <;> simp only [lastTurn, he] at h
      · cases h
        exact ⟨k, i, n, u, _, h1, h2, he, rfl⟩
      · cases h
      · cases h
    | refusedForm op slot n => cases h
    | truncated => exact absurd rfl h3

end Sys2Proof.Machine
end

