-- ==== Sys2Proof/Laws/Disasm.lean ====
section
/-!
SUPPORT. What the disassembler's run over the bus keeps: it makes fetches and nothing else
(46_disassembler.md R340, R342, R350).
-/

namespace Sys2Proof.Machine

/-- The disassembler's loop makes fetches, whatever the host does; where memory is quiet the host is as it was
and no free value has been drawn. -/
theorem disasmLoop_runs (k : Nat) (rep : Bool) (o : Option Sreg) (n : Nat) (u : State) :
    Runs u (disasmLoop k rep o n u).2.2 ∧ (disasmLoop k rep o n u).2.2.bus.mem = u.bus.mem ∧
      (u.QuietMemory → (disasmLoop k rep o n u).2.2.bus = u.bus ∧
        (disasmLoop k rep o n u).2.2.draws = u.draws) := by
  induction k generalizing rep o n u with
  | zero => exact ⟨Runs.refl u, rfl, fun _ => ⟨rfl, rfl⟩⟩
  | succ k ih =>
    have hstep : ∀ {d : Decoded} {t : State}, fetchInstr u = (d, t) →
        ∀ v : State, Runs t v ∧ v.bus.mem = t.bus.mem ∧
          (t.QuietMemory → v.bus = t.bus ∧ v.draws = t.draws) →
        Runs u v ∧ v.bus.mem = u.bus.mem ∧ (u.QuietMemory → v.bus = u.bus ∧ v.draws = u.draws) := by
      intro d t h v hv
      have hr := (fetchInstr_keeps h).1
      refine ⟨hr.trans hv.1, hv.2.1.trans (fetchInstr_mem h), fun hq => ?_⟩
      obtain ⟨h1, h2⟩ := fetchInstr_quiet hq h
      obtain ⟨h3, h4⟩ := hv.2.2 (hr.quiet hq)
      exact ⟨h3.trans h1, h4.trans h2⟩
    simp only [disasmLoop]
    split
    all_goals
      next h =>
        first
        | exact hstep h _ (ih _ _ _ _)
        | exact hstep h _ ⟨Runs.refl _, rfl, fun _ => ⟨rfl, rfl⟩⟩

end Sys2Proof.Machine
end

