-- ==== Sys2Proof/Laws/Encode.lean ====
section
/-!
SUPPORT. The decoder on a stream that the encoder wrote: the ModRM byte and displacement read back, and the
lengths (30_encoding.md R95 to R98, R112).
-/

namespace Sys2Proof

theorem streamOf_cons_zero (a : Byte) (l : List Byte) : streamOf (a :: l) 0 = a := rfl

theorem streamOf_cons_succ (a : Byte) (l : List Byte) (k : Nat) :
    streamOf (a :: l) (k + 1) = streamOf l k := rfl

theorem streamOf_tail (a : Byte) (l : List Byte) : (fun k => streamOf (a :: l) (k + 1)) = streamOf l := rfl

/-- The bytes after a list that starts the stream. -/
theorem streamOf_append (l rest : List Byte) (k : Nat) : streamOf (l ++ rest) (l.length + k) = streamOf rest k := by
  induction l with
  | nil => simp
  | cons a l ih =>
    have : (a :: l).length + k = (l.length + k) + 1 := by simp; omega
    rw [this]
    exact ih

theorem modRMByte_fields (md : BitVec 2) (reg rm : RegIx) :
    (modRMByte md reg rm).extractLsb' 6 2 = md ∧ (modRMByte md reg rm).extractLsb' 3 3 = reg ∧
      (modRMByte md reg rm).extractLsb' 0 3 = rm := by
  revert md reg rm; decide

theorem base_ofIx_ix (b : Base) : Base.ofIx b.ix = b := by cases b <;> rfl

theorem base_ix_ofIx (i : RegIx) : (Base.ofIx i).ix = i := by revert i; decide

theorem sreg_ofIx_ix (sr : Sreg) : Sreg.ofIx sr.ix = sr := by cases sr <;> rfl

theorem base_ix_eq_six {b : Base} (h : b ≠ .bp) : b.ix ≠ 6 := by cases b <;> first | decide | exact absurd rfl h

theorem streamWord_wordBytes (v : Word) (rest : List Byte) :
    streamWord (streamOf (wordBytes v ++ rest)) 0 = v := by
  show wordOf (lowByte v) (highByte v) = v
  apply BitVec.eq_of_getLsbD_eq
  intro i hi
  simp only [wordOf, lowByte, highByte, BitVec.getLsbD_append, BitVec.getLsbD_extractLsb']
  by_cases h : i < 8
  · simp [h]
  · have h1 : i - 8 < 8 := by omega
    have h2 : 8 + (i - 8) = i := by omega
    simp [h, h1, h2]

theorem streamWord_shift (a : Byte) (l : List Byte) (k : Nat) :
    streamWord (streamOf (a :: l)) (k + 1) = streamWord (streamOf l) k := rfl

/-- `DecodeModRM` reads back what was encoded (R95 to R98). -/
theorem decodeModRM_encode {reg : RegIx} {m : RM} (hm : m.wf = true) (rest : List Byte) :
    decodeModRM (streamOf (encodeModRM reg m ++ rest)) = (reg, m, (encodeModRM reg m).length) := by
  cases m with
  | reg i =>
    obtain ⟨h1, h2, h3⟩ := modRMByte_fields 3 reg i
    simp only [decodeModRM, encodeModRM, List.cons_append, streamOf_cons_zero, h1, h2, h3]
    rfl
  | direct off =>
    obtain ⟨h1, h2, h3⟩ := modRMByte_fields 0 reg 6
    simp only [decodeModRM, encodeModRM, List.cons_append, streamOf_cons_zero, h1, h2, h3,
      streamWord_shift _ _ 0, streamWord_wordBytes]
    rfl
  | base b =>
    obtain ⟨h1, h2, h3⟩ := modRMByte_fields 0 reg b.ix
    have hb : b.ix ≠ 6 := base_ix_eq_six (by rintro rfl; cases hm)
    simp only [decodeModRM, encodeModRM, List.cons_append, streamOf_cons_zero, h1, h2, h3, hb, base_ofIx_ix]
    rfl
  | disp8 b d =>
    obtain ⟨h1, h2, h3⟩ := modRMByte_fields 1 reg b.ix
    simp only [decodeModRM, encodeModRM, List.cons_append, streamOf_cons_zero, h1, h2, h3, base_ofIx_ix]
    rfl
  | disp16 b d =>
    obtain ⟨h1, h2, h3⟩ := modRMByte_fields 2 reg b.ix
    simp only [decodeModRM, encodeModRM, List.cons_append, streamOf_cons_zero, h1, h2, h3, base_ofIx_ix,
      streamWord_shift _ _ 0, streamWord_wordBytes]
    rfl

/-- The same after an opcode byte. -/
theorem modRMAfterOp_encode {reg : RegIx} {m : RM} (hm : m.wf = true) (op : Byte) (rest : List Byte) :
    modRMAfterOp (streamOf (op :: (encodeModRM reg m ++ rest))) = (reg, m, (encodeModRM reg m).length) :=
  decodeModRM_encode hm rest

/-- A ModRM byte with its displacement is one to three bytes (R96 to R98). -/
theorem encodeModRM_length (reg : RegIx) (m : RM) :
    1 ≤ (encodeModRM reg m).length ∧ (encodeModRM reg m).length ≤ 3 := by
  cases m <;> simp [encodeModRM, wordBytes]

theorem encodeAlu_length (k : BitVec 3) (f : AluForm) :
    2 ≤ (encodeAlu k f).length ∧ (encodeAlu k f).length ≤ 6 := by
  cases f with
  | rmReg w m r => have := encodeModRM_length r m; simp [encodeAlu]; omega
  | regRm w r m => have := encodeModRM_length r m; simp [encodeAlu]; omega
  | accImm8 i => simp [encodeAlu]
  | accImm16 i => simp [encodeAlu, wordBytes]
  | rmImm8 m i => have := encodeModRM_length k m; simp [encodeAlu]; omega
  | rmImm16 m i => have := encodeModRM_length k m; simp [encodeAlu, wordBytes]; omega
  | rmImm8Dup m i => have := encodeModRM_length k m; simp [encodeAlu]; omega
  | rmSimm8 m i => have := encodeModRM_length k m; simp [encodeAlu]; omega

theorem encodeTest_length (f : TestForm) : 2 ≤ (encodeTest f).length ∧ (encodeTest f).length ≤ 6 := by
  cases f with
  | rmReg w m r => have := encodeModRM_length r m; simp [encodeTest]; omega
  | accImm8 i => simp [encodeTest]
  | accImm16 i => simp [encodeTest, wordBytes]
  | rmImm8 m i => have := encodeModRM_length 0#3 m; simp [encodeTest]; omega
  | rmImm16 m i => have := encodeModRM_length 0#3 m; simp [encodeTest, wordBytes]; omega

end Sys2Proof
end

