-- ==== Sys2Proof/Laws/PerInstr.lean ====
section
/-!
SUPPORT. One law for each constructor of `Instr`: the length of its encoding (30_encoding.md R90, R112).
-/

namespace Sys2Proof.Laws

/-- The encoding of an instruction has 1 to 6 bytes: an opcode byte, at most three bytes of ModRM and
displacement, and at most two bytes of immediate, or four where there is no ModRM byte (R90). -/
def EncodedLength.Statement (i : Instr) : Prop := 1 ≤ (encode i).length ∧ (encode i).length ≤ 6

/-- Up to five bytes after a ModRM byte and displacement, and the opcode byte before it. -/
theorem length_modRM (op : Byte) (k : RegIx) (m : RM) (l : List Byte) (h : l.length ≤ 2) :
    1 ≤ (op :: encodeModRM k m ++ l).length ∧ (op :: encodeModRM k m ++ l).length ≤ 6 := by
  have := encodeModRM_length k m
  simp
  omega

theorem length_modRM_last (op : Byte) (k : RegIx) (m : RM) :
    1 ≤ (op :: encodeModRM k m).length ∧ (op :: encodeModRM k m).length ≤ 6 := by
  have := encodeModRM_length k m
  simp
  omega

theorem EncodedLength.segEs : EncodedLength.Statement .segEs :=
  ⟨Nat.le_add_left _ _, Nat.le_of_ble_eq_true rfl⟩

theorem EncodedLength.segCs : EncodedLength.Statement .segCs :=
  ⟨Nat.le_add_left _ _, Nat.le_of_ble_eq_true rfl⟩

theorem EncodedLength.segSs : EncodedLength.Statement .segSs :=
  ⟨Nat.le_add_left _ _, Nat.le_of_ble_eq_true rfl⟩

theorem EncodedLength.segDs : EncodedLength.Statement .segDs :=
  ⟨Nat.le_add_left _ _, Nat.le_of_ble_eq_true rfl⟩

theorem EncodedLength.rep : EncodedLength.Statement .rep :=
  ⟨Nat.le_add_left _ _, Nat.le_of_ble_eq_true rfl⟩

theorem EncodedLength.movRmReg (w : Width) (m : RM) (r : RegIx) : EncodedLength.Statement (.movRmReg w m r) :=
  length_modRM_last _ _ _

theorem EncodedLength.movRegRm (w : Width) (r : RegIx) (m : RM) : EncodedLength.Statement (.movRegRm w r m) :=
  length_modRM_last _ _ _

theorem EncodedLength.movRmImm8 (m : RM) (imm : Byte) : EncodedLength.Statement (.movRmImm8 m imm) :=
  length_modRM _ _ _ _ (Nat.le_succ 1)

theorem EncodedLength.movRmImm16 (m : RM) (imm : Word) : EncodedLength.Statement (.movRmImm16 m imm) :=
  length_modRM _ _ _ _ (Nat.le_refl 2)

theorem EncodedLength.movRegImm8 (r : RegIx) (imm : Byte) : EncodedLength.Statement (.movRegImm8 r imm) :=
  ⟨Nat.le_add_left _ _, Nat.le_of_ble_eq_true rfl⟩

theorem EncodedLength.movRegImm16 (r : RegIx) (imm : Word) : EncodedLength.Statement (.movRegImm16 r imm) :=
  ⟨Nat.le_add_left _ _, Nat.le_of_ble_eq_true rfl⟩

theorem EncodedLength.movAccMoffs (w : Width) (off : Word) : EncodedLength.Statement (.movAccMoffs w off) :=
  ⟨Nat.le_add_left _ _, Nat.le_of_ble_eq_true rfl⟩

theorem EncodedLength.movMoffsAcc (w : Width) (off : Word) : EncodedLength.Statement (.movMoffsAcc w off) :=
  ⟨Nat.le_add_left _ _, Nat.le_of_ble_eq_true rfl⟩

theorem EncodedLength.movRmSreg (m : RM) (sr : Sreg) : EncodedLength.Statement (.movRmSreg m sr) :=
  length_modRM_last _ _ _

theorem EncodedLength.movSregRm (sr : Sreg) (m : RM) : EncodedLength.Statement (.movSregRm sr m) :=
  length_modRM_last _ _ _

theorem EncodedLength.pushReg (r : RegIx) : EncodedLength.Statement (.pushReg r) :=
  ⟨Nat.le_add_left _ _, Nat.le_of_ble_eq_true rfl⟩

theorem EncodedLength.pushRm (m : RM) : EncodedLength.Statement (.pushRm m) := length_modRM_last _ _ _

theorem EncodedLength.pushSreg (sr : Sreg) : EncodedLength.Statement (.pushSreg sr) :=
  ⟨Nat.le_add_left _ _, Nat.le_of_ble_eq_true rfl⟩

theorem EncodedLength.popReg (r : RegIx) : EncodedLength.Statement (.popReg r) :=
  ⟨Nat.le_add_left _ _, Nat.le_of_ble_eq_true rfl⟩

theorem EncodedLength.popRm (m : RM) : EncodedLength.Statement (.popRm m) := length_modRM_last _ _ _

theorem EncodedLength.popSreg (sr : Sreg) : EncodedLength.Statement (.popSreg sr) :=
  ⟨Nat.le_add_left _ _, Nat.le_of_ble_eq_true rfl⟩

theorem EncodedLength.xchgRmReg (w : Width) (m : RM) (r : RegIx) : EncodedLength.Statement (.xchgRmReg w m r) :=
  length_modRM_last _ _ _

theorem EncodedLength.xchgAxReg (r : RegIx) : EncodedLength.Statement (.xchgAxReg r) :=
  ⟨Nat.le_add_left _ _, Nat.le_of_ble_eq_true rfl⟩

theorem EncodedLength.nop : EncodedLength.Statement .nop :=
  ⟨Nat.le_add_left _ _, Nat.le_of_ble_eq_true rfl⟩

theorem EncodedLength.xlat : EncodedLength.Statement .xlat :=
  ⟨Nat.le_add_left _ _, Nat.le_of_ble_eq_true rfl⟩

theorem EncodedLength.inImm (w : Width) (port : Byte) : EncodedLength.Statement (.inImm w port) :=
  ⟨Nat.le_add_left _ _, Nat.le_of_ble_eq_true rfl⟩

theorem EncodedLength.inDx (w : Width) : EncodedLength.Statement (.inDx w) :=
  ⟨Nat.le_add_left _ _, Nat.le_of_ble_eq_true rfl⟩

theorem EncodedLength.outImm (w : Width) (port : Byte) : EncodedLength.Statement (.outImm w port) :=
  ⟨Nat.le_add_left _ _, Nat.le_of_ble_eq_true rfl⟩

theorem EncodedLength.outDx (w : Width) : EncodedLength.Statement (.outDx w) :=
  ⟨Nat.le_add_left _ _, Nat.le_of_ble_eq_true rfl⟩

theorem EncodedLength.lea (r : RegIx) (m : RM) : EncodedLength.Statement (.lea r m) :=
  length_modRM_last _ _ _

theorem EncodedLength.lds (r : RegIx) (m : RM) : EncodedLength.Statement (.lds r m) :=
  length_modRM_last _ _ _

theorem EncodedLength.les (r : RegIx) (m : RM) : EncodedLength.Statement (.les r m) :=
  length_modRM_last _ _ _

theorem EncodedLength.lahf : EncodedLength.Statement .lahf :=
  ⟨Nat.le_add_left _ _, Nat.le_of_ble_eq_true rfl⟩

theorem EncodedLength.sahf : EncodedLength.Statement .sahf :=
  ⟨Nat.le_add_left _ _, Nat.le_of_ble_eq_true rfl⟩

theorem EncodedLength.pushf : EncodedLength.Statement .pushf :=
  ⟨Nat.le_add_left _ _, Nat.le_of_ble_eq_true rfl⟩

theorem EncodedLength.popf : EncodedLength.Statement .popf :=
  ⟨Nat.le_add_left _ _, Nat.le_of_ble_eq_true rfl⟩

theorem EncodedLength.add (f : AluForm) : EncodedLength.Statement (.add f) :=
  ⟨le_trans (Nat.le_succ 1) (encodeAlu_length 0 f).1, (encodeAlu_length 0 f).2⟩

theorem EncodedLength.adc (f : AluForm) : EncodedLength.Statement (.adc f) :=
  ⟨le_trans (Nat.le_succ 1) (encodeAlu_length 2 f).1, (encodeAlu_length 2 f).2⟩

theorem EncodedLength.sub (f : AluForm) : EncodedLength.Statement (.sub f) :=
  ⟨le_trans (Nat.le_succ 1) (encodeAlu_length 5 f).1, (encodeAlu_length 5 f).2⟩

theorem EncodedLength.sbb (f : AluForm) : EncodedLength.Statement (.sbb f) :=
  ⟨le_trans (Nat.le_succ 1) (encodeAlu_length 3 f).1, (encodeAlu_length 3 f).2⟩

theorem EncodedLength.cmp (f : AluForm) : EncodedLength.Statement (.cmp f) :=
  ⟨le_trans (Nat.le_succ 1) (encodeAlu_length 7 f).1, (encodeAlu_length 7 f).2⟩

theorem EncodedLength.incReg (r : RegIx) : EncodedLength.Statement (.incReg r) :=
  ⟨Nat.le_add_left _ _, Nat.le_of_ble_eq_true rfl⟩

theorem EncodedLength.incRm (w : Width) (m : RM) : EncodedLength.Statement (.incRm w m) :=
  length_modRM_last _ _ _

theorem EncodedLength.decReg (r : RegIx) : EncodedLength.Statement (.decReg r) :=
  ⟨Nat.le_add_left _ _, Nat.le_of_ble_eq_true rfl⟩

theorem EncodedLength.decRm (w : Width) (m : RM) : EncodedLength.Statement (.decRm w m) :=
  length_modRM_last _ _ _

theorem EncodedLength.neg (w : Width) (m : RM) : EncodedLength.Statement (.neg w m) :=
  length_modRM_last _ _ _

theorem EncodedLength.mul (w : Width) (m : RM) : EncodedLength.Statement (.mul w m) :=
  length_modRM_last _ _ _

theorem EncodedLength.imul (w : Width) (m : RM) : EncodedLength.Statement (.imul w m) :=
  length_modRM_last _ _ _

theorem EncodedLength.div (w : Width) (m : RM) : EncodedLength.Statement (.div w m) :=
  length_modRM_last _ _ _

theorem EncodedLength.idiv (w : Width) (m : RM) : EncodedLength.Statement (.idiv w m) :=
  length_modRM_last _ _ _

theorem EncodedLength.cbw : EncodedLength.Statement .cbw :=
  ⟨Nat.le_add_left _ _, Nat.le_of_ble_eq_true rfl⟩

theorem EncodedLength.cwd : EncodedLength.Statement .cwd :=
  ⟨Nat.le_add_left _ _, Nat.le_of_ble_eq_true rfl⟩

theorem EncodedLength.aam (imm : Byte) : EncodedLength.Statement (.aam imm) :=
  ⟨Nat.le_add_left _ _, Nat.le_of_ble_eq_true rfl⟩

theorem EncodedLength.aad (imm : Byte) : EncodedLength.Statement (.aad imm) :=
  ⟨Nat.le_add_left _ _, Nat.le_of_ble_eq_true rfl⟩

theorem EncodedLength.and (f : AluForm) : EncodedLength.Statement (.and f) :=
  ⟨le_trans (Nat.le_succ 1) (encodeAlu_length 4 f).1, (encodeAlu_length 4 f).2⟩

theorem EncodedLength.or (f : AluForm) : EncodedLength.Statement (.or f) :=
  ⟨le_trans (Nat.le_succ 1) (encodeAlu_length 1 f).1, (encodeAlu_length 1 f).2⟩

theorem EncodedLength.xor (f : AluForm) : EncodedLength.Statement (.xor f) :=
  ⟨le_trans (Nat.le_succ 1) (encodeAlu_length 6 f).1, (encodeAlu_length 6 f).2⟩

theorem EncodedLength.test (f : TestForm) : EncodedLength.Statement (.test f) :=
  ⟨le_trans (Nat.le_succ 1) (encodeTest_length f).1, (encodeTest_length f).2⟩

theorem EncodedLength.not (w : Width) (m : RM) : EncodedLength.Statement (.not w m) :=
  length_modRM_last _ _ _

theorem EncodedLength.rol (w : Width) (m : RM) (c : ShiftCount) : EncodedLength.Statement (.rol w m c) :=
  length_modRM_last _ _ _

theorem EncodedLength.ror (w : Width) (m : RM) (c : ShiftCount) : EncodedLength.Statement (.ror w m c) :=
  length_modRM_last _ _ _

theorem EncodedLength.rcl (w : Width) (m : RM) (c : ShiftCount) : EncodedLength.Statement (.rcl w m c) :=
  length_modRM_last _ _ _

theorem EncodedLength.rcr (w : Width) (m : RM) (c : ShiftCount) : EncodedLength.Statement (.rcr w m c) :=
  length_modRM_last _ _ _

theorem EncodedLength.shl (w : Width) (m : RM) (c : ShiftCount) : EncodedLength.Statement (.shl w m c) :=
  length_modRM_last _ _ _

theorem EncodedLength.shr (w : Width) (m : RM) (c : ShiftCount) : EncodedLength.Statement (.shr w m c) :=
  length_modRM_last _ _ _

theorem EncodedLength.sar (w : Width) (m : RM) (c : ShiftCount) : EncodedLength.Statement (.sar w m c) :=
  length_modRM_last _ _ _

theorem EncodedLength.movsb : EncodedLength.Statement .movsb :=
  ⟨Nat.le_add_left _ _, Nat.le_of_ble_eq_true rfl⟩

theorem EncodedLength.movsw : EncodedLength.Statement .movsw :=
  ⟨Nat.le_add_left _ _, Nat.le_of_ble_eq_true rfl⟩

theorem EncodedLength.cmpsb : EncodedLength.Statement .cmpsb :=
  ⟨Nat.le_add_left _ _, Nat.le_of_ble_eq_true rfl⟩

theorem EncodedLength.cmpsw : EncodedLength.Statement .cmpsw :=
  ⟨Nat.le_add_left _ _, Nat.le_of_ble_eq_true rfl⟩

theorem EncodedLength.stosb : EncodedLength.Statement .stosb :=
  ⟨Nat.le_add_left _ _, Nat.le_of_ble_eq_true rfl⟩

theorem EncodedLength.stosw : EncodedLength.Statement .stosw :=
  ⟨Nat.le_add_left _ _, Nat.le_of_ble_eq_true rfl⟩

theorem EncodedLength.lodsb : EncodedLength.Statement .lodsb :=
  ⟨Nat.le_add_left _ _, Nat.le_of_ble_eq_true rfl⟩

theorem EncodedLength.lodsw : EncodedLength.Statement .lodsw :=
  ⟨Nat.le_add_left _ _, Nat.le_of_ble_eq_true rfl⟩

theorem EncodedLength.scasb : EncodedLength.Statement .scasb :=
  ⟨Nat.le_add_left _ _, Nat.le_of_ble_eq_true rfl⟩

theorem EncodedLength.scasw : EncodedLength.Statement .scasw :=
  ⟨Nat.le_add_left _ _, Nat.le_of_ble_eq_true rfl⟩

theorem EncodedLength.jmpRel8 (d : Byte) : EncodedLength.Statement (.jmpRel8 d) :=
  ⟨Nat.le_add_left _ _, Nat.le_of_ble_eq_true rfl⟩

theorem EncodedLength.jmpRel16 (d : Word) : EncodedLength.Statement (.jmpRel16 d) :=
  ⟨Nat.le_add_left _ _, Nat.le_of_ble_eq_true rfl⟩

theorem EncodedLength.jmpFar (off seg : Word) : EncodedLength.Statement (.jmpFar off seg) :=
  ⟨Nat.le_add_left _ _, Nat.le_of_ble_eq_true rfl⟩

theorem EncodedLength.jmpRm (m : RM) : EncodedLength.Statement (.jmpRm m) := length_modRM_last _ _ _

theorem EncodedLength.jmpFarRm (m : RM) : EncodedLength.Statement (.jmpFarRm m) := length_modRM_last _ _ _

theorem EncodedLength.callRel16 (d : Word) : EncodedLength.Statement (.callRel16 d) :=
  ⟨Nat.le_add_left _ _, Nat.le_of_ble_eq_true rfl⟩

theorem EncodedLength.callFar (off seg : Word) : EncodedLength.Statement (.callFar off seg) :=
  ⟨Nat.le_add_left _ _, Nat.le_of_ble_eq_true rfl⟩

theorem EncodedLength.callRm (m : RM) : EncodedLength.Statement (.callRm m) := length_modRM_last _ _ _

theorem EncodedLength.callFarRm (m : RM) : EncodedLength.Statement (.callFarRm m) :=
  length_modRM_last _ _ _

theorem EncodedLength.jo (d : Byte) : EncodedLength.Statement (.jo d) :=
  ⟨Nat.le_add_left _ _, Nat.le_of_ble_eq_true rfl⟩

theorem EncodedLength.jno (d : Byte) : EncodedLength.Statement (.jno d) :=
  ⟨Nat.le_add_left _ _, Nat.le_of_ble_eq_true rfl⟩

theorem EncodedLength.jb (d : Byte) : EncodedLength.Statement (.jb d) :=
  ⟨Nat.le_add_left _ _, Nat.le_of_ble_eq_true rfl⟩

theorem EncodedLength.jae (d : Byte) : EncodedLength.Statement (.jae d) :=
  ⟨Nat.le_add_left _ _, Nat.le_of_ble_eq_true rfl⟩

theorem EncodedLength.je (d : Byte) : EncodedLength.Statement (.je d) :=
  ⟨Nat.le_add_left _ _, Nat.le_of_ble_eq_true rfl⟩

theorem EncodedLength.jne (d : Byte) : EncodedLength.Statement (.jne d) :=
  ⟨Nat.le_add_left _ _, Nat.le_of_ble_eq_true rfl⟩

theorem EncodedLength.jbe (d : Byte) : EncodedLength.Statement (.jbe d) :=
  ⟨Nat.le_add_left _ _, Nat.le_of_ble_eq_true rfl⟩

theorem EncodedLength.ja (d : Byte) : EncodedLength.Statement (.ja d) :=
  ⟨Nat.le_add_left _ _, Nat.le_of_ble_eq_true rfl⟩

theorem EncodedLength.js (d : Byte) : EncodedLength.Statement (.js d) :=
  ⟨Nat.le_add_left _ _, Nat.le_of_ble_eq_true rfl⟩

theorem EncodedLength.jns (d : Byte) : EncodedLength.Statement (.jns d) :=
  ⟨Nat.le_add_left _ _, Nat.le_of_ble_eq_true rfl⟩

theorem EncodedLength.jp (d : Byte) : EncodedLength.Statement (.jp d) :=
  ⟨Nat.le_add_left _ _, Nat.le_of_ble_eq_true rfl⟩

theorem EncodedLength.jnp (d : Byte) : EncodedLength.Statement (.jnp d) :=
  ⟨Nat.le_add_left _ _, Nat.le_of_ble_eq_true rfl⟩

theorem EncodedLength.jl (d : Byte) : EncodedLength.Statement (.jl d) :=
  ⟨Nat.le_add_left _ _, Nat.le_of_ble_eq_true rfl⟩

theorem EncodedLength.jge (d : Byte) : EncodedLength.Statement (.jge d) :=
  ⟨Nat.le_add_left _ _, Nat.le_of_ble_eq_true rfl⟩

theorem EncodedLength.jle (d : Byte) : EncodedLength.Statement (.jle d) :=
  ⟨Nat.le_add_left _ _, Nat.le_of_ble_eq_true rfl⟩

theorem EncodedLength.jg (d : Byte) : EncodedLength.Statement (.jg d) :=
  ⟨Nat.le_add_left _ _, Nat.le_of_ble_eq_true rfl⟩

theorem EncodedLength.ret : EncodedLength.Statement .ret :=
  ⟨Nat.le_add_left _ _, Nat.le_of_ble_eq_true rfl⟩

theorem EncodedLength.retImm (n : Word) : EncodedLength.Statement (.retImm n) :=
  ⟨Nat.le_add_left _ _, Nat.le_of_ble_eq_true rfl⟩

theorem EncodedLength.retf : EncodedLength.Statement .retf :=
  ⟨Nat.le_add_left _ _, Nat.le_of_ble_eq_true rfl⟩

theorem EncodedLength.retfImm (n : Word) : EncodedLength.Statement (.retfImm n) :=
  ⟨Nat.le_add_left _ _, Nat.le_of_ble_eq_true rfl⟩

theorem EncodedLength.loop (d : Byte) : EncodedLength.Statement (.loop d) :=
  ⟨Nat.le_add_left _ _, Nat.le_of_ble_eq_true rfl⟩

theorem EncodedLength.loopz (d : Byte) : EncodedLength.Statement (.loopz d) :=
  ⟨Nat.le_add_left _ _, Nat.le_of_ble_eq_true rfl⟩

theorem EncodedLength.loopnz (d : Byte) : EncodedLength.Statement (.loopnz d) :=
  ⟨Nat.le_add_left _ _, Nat.le_of_ble_eq_true rfl⟩

theorem EncodedLength.jcxz (d : Byte) : EncodedLength.Statement (.jcxz d) :=
  ⟨Nat.le_add_left _ _, Nat.le_of_ble_eq_true rfl⟩

theorem EncodedLength.int (v : Byte) : EncodedLength.Statement (.int v) :=
  ⟨Nat.le_add_left _ _, Nat.le_of_ble_eq_true rfl⟩

theorem EncodedLength.int3 : EncodedLength.Statement .int3 :=
  ⟨Nat.le_add_left _ _, Nat.le_of_ble_eq_true rfl⟩

theorem EncodedLength.into : EncodedLength.Statement .into :=
  ⟨Nat.le_add_left _ _, Nat.le_of_ble_eq_true rfl⟩

theorem EncodedLength.iret : EncodedLength.Statement .iret :=
  ⟨Nat.le_add_left _ _, Nat.le_of_ble_eq_true rfl⟩

theorem EncodedLength.clc : EncodedLength.Statement .clc :=
  ⟨Nat.le_add_left _ _, Nat.le_of_ble_eq_true rfl⟩

theorem EncodedLength.stc : EncodedLength.Statement .stc :=
  ⟨Nat.le_add_left _ _, Nat.le_of_ble_eq_true rfl⟩

theorem EncodedLength.cmc : EncodedLength.Statement .cmc :=
  ⟨Nat.le_add_left _ _, Nat.le_of_ble_eq_true rfl⟩

theorem EncodedLength.cld : EncodedLength.Statement .cld :=
  ⟨Nat.le_add_left _ _, Nat.le_of_ble_eq_true rfl⟩

theorem EncodedLength.std : EncodedLength.Statement .std :=
  ⟨Nat.le_add_left _ _, Nat.le_of_ble_eq_true rfl⟩

theorem EncodedLength.cli : EncodedLength.Statement .cli :=
  ⟨Nat.le_add_left _ _, Nat.le_of_ble_eq_true rfl⟩

theorem EncodedLength.sti : EncodedLength.Statement .sti :=
  ⟨Nat.le_add_left _ _, Nat.le_of_ble_eq_true rfl⟩

theorem EncodedLength.absentOpcode (op : Byte) : EncodedLength.Statement (.absentOpcode op) :=
  ⟨Nat.le_add_left _ _, Nat.le_of_ble_eq_true rfl⟩

theorem EncodedLength.absentSlot (op : Byte) (m : RM) (reg : RegIx) : EncodedLength.Statement (.absentSlot op m reg) :=
  length_modRM_last _ _ _

end Sys2Proof.Laws
end

