-- ==== Sys2Proof/Tests/Slice0.lean ====
section
/-!
SUPPORT. Tests: ill-formed terms, words written out from the opcode map, single steps whose results are
those of the spec's own vectors (95_test_vectors.md) or worked by hand from its rules, and for each
obligation with hypotheses states and operands that meet them.
-/

namespace Sys2Proof.Tests

open Sys2Proof.Machine

set_option maxRecDepth 4000

/-! ## Small states -/

/-- The starting registers of the vectors: CS:IP is 1000:0100, SP is 0100 and the rest is 0. -/
def c0 : Cpu := { Cpu.initial 0x1000 0x0100 0 with sp := 0x0100 }

/-- A host with plain memory alone. -/
def noDevices : Devices := Devices.plain

/-- A state with the given registers, code at CS:IP and bytes of memory. -/
def st (c : Cpu) (code : List Byte) (mem : List (Addr × Byte)) : State :=
  { State.reset with
    cpu := c
    bus := { Bus.plain with mem := loadCode c.cs code c.ip (hostWrites mem []) } }

def withDevices (s : State) (d : Devices) : State := { s with bus := { s.bus with devices := d } }

/-- A bus with an override handler that gives a listed answer. -/
def withHandler (s : State) (v : Byte) (a : HostAnswer) : State :=
  { s with bus := { s.bus with devices := { noDevices with overrides := [v] }, handlers := [(v, a)] } }

/-- A host with a ROM from F0000 to FFFFF, and plain memory elsewhere. -/
def romHost (s : State) : State := withDevices s { noDevices with windows := [⟨0xF0000, 0xFFFFF, .rom⟩] }

/-- A host with a device from B8000 to BFFFF, and plain memory elsewhere. -/
def deviceHost (s : State) : State := withDevices s { noDevices with windows := [⟨0xB8000, 0xBFFFF, .device⟩] }

def unattached (s : State) : State := { s with bus := { s.bus with attached := false } }

/-- The outcome is a next state with the property. -/
def ends (o : Outcome) (p : State → Bool) : Bool :=
  match o with
  | .next t => p t
  | _ => false

/-- The registers agree, flags aside (for instructions that leave flags undefined). -/
def sameRegs (a b : Cpu) : Bool := { a with flags := 0 } == { b with flags := 0 }

/-- The bus calls of the step other than byte reads, oldest first. -/
def noReads (t : State) : List BusCall :=
  (t.calls.filter (fun c => match c with | .readByte _ _ => false | _ => true)).reverse

theorem ends_next {o : Outcome} {p : State → Bool} (h : ends o p = true) : ∃ t, o = .next t := by
  cases o with
  | next t => exact ⟨t, rfl⟩
  | fault _ => cases h
  | refused _ => cases h

theorem ends_spec {o : Outcome} {p : State → Bool} (h : ends o p = true) : ∃ t, o = .next t ∧ p t = true := by
  cases o with
  | next t => exact ⟨t, rfl, h⟩
  | fault _ => cases h
  | refused _ => cases h

/-- The typed error of an outcome. -/
def errorOf (o : Outcome) : Option StepError :=
  match o with
  | .fault (.decodeError op slot _) => some (.decodeError op slot)
  | .fault (.hostProtocolError _) => some .hostProtocolError
  | _ => none

/-- The outcome is an error that leaves the host's side with the property. -/
def leaves (o : Outcome) (p : HostSide → Bool) : Bool :=
  match o with
  | .fault (.decodeError _ _ left) | .fault (.hostProtocolError left) => p left
  | _ => false

theorem errorOf_decode {o : Outcome} {op : Byte} {slot : Option RegIx}
    (h : errorOf o = some (.decodeError op slot)) : ∃ left, o = .fault (.decodeError op slot left) := by
  cases o with
  | fault e =>
    cases e with
    | decodeError a b left => cases h; exact ⟨left, rfl⟩
    | hostProtocolError _ => cases h
    | prefixLoop => cases h
  | next _ => cases h
  | refused _ => cases h

theorem errorOf_host {o : Outcome} (h : errorOf o = some .hostProtocolError) :
    ∃ left, o = .fault (.hostProtocolError left) := by
  cases o with
  | fault e =>
    cases e with
    | decodeError _ _ _ => cases h
    | hostProtocolError left => exact ⟨left, rfl⟩
    | prefixLoop => cases h
  | next _ => cases h
  | refused _ => cases h

/-- The outcome is a refusal. -/
def refuses (o : Outcome) : Bool :=
  match o with
  | .refused _ => true
  | _ => false

/-! ## Ill-formed terms -/

theorem test_wf_bare_bp : (Instr.movRmReg .byte (.base .bp) 0).wf = false := by decide
theorem test_wf_mov_to_cs : (Instr.movSregRm .cs (.reg 0)).wf = false := by decide
theorem test_wf_mov_sreg_operand : (Instr.movSregRm .ds (.base .bp)).wf = false := by decide
theorem test_wf_pop_cs : (Instr.popSreg .cs).wf = false := by decide
theorem test_wf_xchg_ax_ax : (Instr.xchgAxReg 0).wf = false := by decide
theorem test_wf_lea_register : (Instr.lea 0 (.reg 1)).wf = false := by decide
theorem test_wf_lds_register : (Instr.lds 0 (.reg 1)).wf = false := by decide
theorem test_wf_les_register : (Instr.les 0 (.reg 1)).wf = false := by decide
theorem test_wf_far_jmp_register : (Instr.jmpFarRm (.reg 1)).wf = false := by decide
theorem test_wf_far_call_register : (Instr.callFarRm (.reg 1)).wf = false := by decide
theorem test_wf_alu_operand : (Instr.add (.rmSimm8 (.base .bp) 1)).wf = false := by decide
theorem test_wf_test_operand : (Instr.test (.rmImm8 (.base .bp) 1)).wf = false := by decide
theorem test_wf_absent_byte : (Instr.absentOpcode 0x90).wf = false := by decide
theorem test_wf_absent_slot : (Instr.absentSlot 0xFE (.reg 0) 1).wf = false := by decide
theorem test_wf_absent_slot_operand : (Instr.absentSlot 0xFE (.base .bp) 2).wf = false := by decide

/-! ## Words of the opcode map (R92 to R109) -/

theorem test_decode_prefixes :
    [decode [0x26], decode [0x2E], decode [0x36], decode [0x3E], decode [0xF3]] =
      [.ok .segEs 1, .ok .segCs 1, .ok .segSs 1, .ok .segDs 1, .ok .rep 1] := by decide

theorem test_decode_mov :
    [decode [0x88, 0x46, 0x02], decode [0x89, 0xD8], decode [0x8A, 0x07], decode [0x8B, 0x8F, 0x34, 0x12],
      decode [0xC6, 0x06, 0x00, 0x20, 0x55], decode [0xC7, 0xC3, 0x34, 0x12], decode [0xB4, 0x4C],
      decode [0xBF, 0x34, 0x12], decode [0xA0, 0x34, 0x12], decode [0xA3, 0x34, 0x12],
      decode [0x8C, 0xD8], decode [0x8E, 0xC0]] =
    [.ok (.movRmReg .byte (.disp8 .bp 0x02) 0) 3, .ok (.movRmReg .word (.reg 0) 3) 2,
      .ok (.movRegRm .byte 0 (.base .bx)) 2, .ok (.movRegRm .word 1 (.disp16 .bx 0x1234)) 4,
      .ok (.movRmImm8 (.direct 0x2000) 0x55) 5, .ok (.movRmImm16 (.reg 3) 0x1234) 4,
      .ok (.movRegImm8 4 0x4C) 2, .ok (.movRegImm16 7 0x1234) 3, .ok (.movAccMoffs .byte 0x1234) 3,
      .ok (.movMoffsAcc .word 0x1234) 3, .ok (.movRmSreg (.reg 0) .ds) 2,
      .ok (.movSregRm .es (.reg 0)) 2] := by decide

theorem test_decode_stack :
    [decode [0x54], decode [0xFF, 0x36, 0x34, 0x12], decode [0x0E], decode [0x5F],
      decode [0x8F, 0x45, 0xFE], decode [0x17], decode [0x9C], decode [0x9D]] =
    [.ok (.pushReg 4) 1, .ok (.pushRm (.direct 0x1234)) 4, .ok (.pushSreg .cs) 1, .ok (.popReg 7) 1,
      .ok (.popRm (.disp8 .di 0xFE)) 3, .ok (.popSreg .ss) 1, .ok .pushf 1, .ok .popf 1] := by decide

theorem test_decode_move_others :
    [decode [0x86, 0xE0], decode [0x87, 0x0C], decode [0x93], decode [0x90], decode [0xD7],
      decode [0xE4, 0x60], decode [0xED], decode [0xE7, 0x20], decode [0xEE], decode [0x8D, 0x56, 0x08],
      decode [0xC5, 0x36, 0x34, 0x12], decode [0xC4, 0x3F], decode [0x9F], decode [0x9E]] =
    [.ok (.xchgRmReg .byte (.reg 0) 4) 2, .ok (.xchgRmReg .word (.base .si) 1) 2, .ok (.xchgAxReg 3) 1,
      .ok .nop 1, .ok .xlat 1, .ok (.inImm .byte 0x60) 2, .ok (.inDx .word) 1, .ok (.outImm .word 0x20) 2,
      .ok (.outDx .byte) 1, .ok (.lea 2 (.disp8 .bp 0x08)) 3, .ok (.lds 6 (.direct 0x1234)) 4,
      .ok (.les 7 (.base .bx)) 2, .ok .lahf 1, .ok .sahf 1] := by decide

theorem test_decode_arithmetic :
    [decode [0x00, 0x00], decode [0x11, 0xC8], decode [0x2A, 0xC3], decode [0x1D, 0x34, 0x12],
      decode [0x3C, 0x41], decode [0x81, 0xC1, 0x34, 0x12], decode [0x82, 0xE9, 0x05],
      decode [0x83, 0xFB, 0xFF], decode [0x80, 0x17, 0x05], decode [0x41], decode [0xFE, 0x07],
      decode [0x4F], decode [0xFF, 0x0F], decode [0xF6, 0xD8], decode [0xF7, 0xE3], decode [0xF6, 0xEB],
      decode [0xF7, 0xF1], decode [0xF6, 0xF9], decode [0x98], decode [0x99], decode [0xD4, 0x0A],
      decode [0xD5, 0x10]] =
    [.ok (.add (.rmReg .byte (.base .bxSi) 0)) 2, .ok (.adc (.rmReg .word (.reg 0) 1)) 2,
      .ok (.sub (.regRm .byte 0 (.reg 3))) 2, .ok (.sbb (.accImm16 0x1234)) 3, .ok (.cmp (.accImm8 0x41)) 2,
      .ok (.add (.rmImm16 (.reg 1) 0x1234)) 4, .ok (.sub (.rmImm8Dup (.reg 1) 0x05)) 3,
      .ok (.cmp (.rmSimm8 (.reg 3) 0xFF)) 3, .ok (.adc (.rmImm8 (.base .bx) 0x05)) 3, .ok (.incReg 1) 1,
      .ok (.incRm .byte (.base .bx)) 2, .ok (.decReg 7) 1, .ok (.decRm .word (.base .bx)) 2,
      .ok (.neg .byte (.reg 0)) 2, .ok (.mul .word (.reg 3)) 2, .ok (.imul .byte (.reg 3)) 2,
      .ok (.div .word (.reg 1)) 2, .ok (.idiv .byte (.reg 1)) 2, .ok .cbw 1, .ok .cwd 1,
      .ok (.aam 0x0A) 2, .ok (.aad 0x10) 2] := by decide

theorem test_decode_logic :
    [decode [0x21, 0xD8], decode [0x0A, 0x01], decode [0x34, 0xFF], decode [0x84, 0xC0], decode [0xA8, 0x01],
      decode [0xA9, 0x00, 0x80], decode [0xF6, 0x07, 0x80], decode [0xF7, 0xC2, 0x34, 0x12],
      decode [0xF7, 0xD0], decode [0xD0, 0xC0], decode [0xD1, 0xC9], decode [0xD2, 0xD2], decode [0xD3, 0xDB],
      decode [0xD0, 0x27], decode [0xD1, 0xEC], decode [0xD3, 0xFE]] =
    [.ok (.and (.rmReg .word (.reg 0) 3)) 2, .ok (.or (.regRm .byte 0 (.base .bxDi))) 2,
      .ok (.xor (.accImm8 0xFF)) 2, .ok (.test (.rmReg .byte (.reg 0) 0)) 2, .ok (.test (.accImm8 0x01)) 2,
      .ok (.test (.accImm16 0x8000)) 3, .ok (.test (.rmImm8 (.base .bx) 0x80)) 3,
      .ok (.test (.rmImm16 (.reg 2) 0x1234)) 4, .ok (.not .word (.reg 0)) 2, .ok (.rol .byte (.reg 0) .one) 2,
      .ok (.ror .word (.reg 1) .one) 2, .ok (.rcl .byte (.reg 2) .cl) 2, .ok (.rcr .word (.reg 3) .cl) 2,
      .ok (.shl .byte (.base .bx) .one) 2, .ok (.shr .word (.reg 4) .one) 2,
      .ok (.sar .word (.reg 6) .cl) 2] := by decide

theorem test_decode_strings :
    [decode [0xA4], decode [0xA5], decode [0xA6], decode [0xA7], decode [0xAA], decode [0xAB], decode [0xAC],
      decode [0xAD], decode [0xAE], decode [0xAF]] =
    [.ok .movsb 1, .ok .movsw 1, .ok .cmpsb 1, .ok .cmpsw 1, .ok .stosb 1, .ok .stosw 1, .ok .lodsb 1,
      .ok .lodsw 1, .ok .scasb 1, .ok .scasw 1] := by decide

theorem test_decode_transfers :
    [decode [0xEB, 0xFE], decode [0xE9, 0x34, 0x12], decode [0xEA, 0x34, 0x12, 0x78, 0x56],
      decode [0xFF, 0xE0], decode [0xFF, 0x2F], decode [0xE8, 0x34, 0x12],
      decode [0x9A, 0x34, 0x12, 0x78, 0x56], decode [0xFF, 0x17], decode [0xFF, 0x1F], decode [0xC3],
      decode [0xC2, 0x04, 0x00], decode [0xCB], decode [0xCA, 0x04, 0x00], decode [0xE2, 0x80],
      decode [0xE1, 0x7F], decode [0xE0, 0x01], decode [0xE3, 0x02], decode [0xCD, 0x21], decode [0xCC],
      decode [0xCE], decode [0xCF]] =
    [.ok (.jmpRel8 0xFE) 2, .ok (.jmpRel16 0x1234) 3, .ok (.jmpFar 0x1234 0x5678) 5, .ok (.jmpRm (.reg 0)) 2,
      .ok (.jmpFarRm (.base .bx)) 2, .ok (.callRel16 0x1234) 3, .ok (.callFar 0x1234 0x5678) 5,
      .ok (.callRm (.base .bx)) 2, .ok (.callFarRm (.base .bx)) 2, .ok .ret 1, .ok (.retImm 4) 3,
      .ok .retf 1, .ok (.retfImm 4) 3, .ok (.loop 0x80) 2, .ok (.loopz 0x7F) 2, .ok (.loopnz 0x01) 2,
      .ok (.jcxz 0x02) 2, .ok (.int 0x21) 2, .ok .int3 1, .ok .into 1, .ok .iret 1] := by decide

theorem test_decode_jcc :
    [decode [0x70, 1], decode [0x71, 1], decode [0x72, 1], decode [0x73, 1], decode [0x74, 1],
      decode [0x75, 1], decode [0x76, 1], decode [0x77, 1], decode [0x78, 1], decode [0x79, 1],
      decode [0x7A, 1], decode [0x7B, 1], decode [0x7C, 1], decode [0x7D, 1], decode [0x7E, 1],
      decode [0x7F, 1]] =
    [.ok (.jo 1) 2, .ok (.jno 1) 2, .ok (.jb 1) 2, .ok (.jae 1) 2, .ok (.je 1) 2, .ok (.jne 1) 2,
      .ok (.jbe 1) 2, .ok (.ja 1) 2, .ok (.js 1) 2, .ok (.jns 1) 2, .ok (.jp 1) 2, .ok (.jnp 1) 2,
      .ok (.jl 1) 2, .ok (.jge 1) 2, .ok (.jle 1) 2, .ok (.jg 1) 2] := by decide

theorem test_decode_flag_control :
    [decode [0xF8], decode [0xF9], decode [0xF5], decode [0xFC], decode [0xFD], decode [0xFA],
      decode [0xFB]] =
    [.ok .clc 1, .ok .stc 1, .ok .cmc 1, .ok .cld 1, .ok .std 1, .ok .cli 1, .ok .sti 1] := by decide

theorem test_decode_absent :
    [decode [0x0F], decode [0x6F], decode [0xD8], decode [0xF4], decode [0xFE, 0x38],
      decode [0xC6, 0x4F, 0x10], decode [0xD0, 0xF0]] =
    [.ok (.absentOpcode 0x0F) 1, .ok (.absentOpcode 0x6F) 1, .ok (.absentOpcode 0xD8) 1,
      .ok (.absentOpcode 0xF4) 1, .ok (.absentSlot 0xFE (.base .bxSi) 7) 2,
      .ok (.absentSlot 0xC6 (.disp8 .bx 0x10) 1) 3, .ok (.absentSlot 0xD0 (.reg 0) 6) 2] := by decide

/-- Every row of the ModRM table (R97, R98), with no displacement, a byte and a word. -/
theorem test_decode_modrm :
    (List.range 8).map (fun k => (decodeModRM (streamOf [BitVec.ofNat 8 (8 + k), 0x34, 0x12])).2.1) =
        [.base .bxSi, .base .bxDi, .base .bpSi, .base .bpDi, .base .si, .base .di, .direct 0x1234,
          .base .bx] ∧
      decodeModRM (streamOf [0x6E, 0x80]) = (5, .disp8 .bp 0x80, 2) ∧
      decodeModRM (streamOf [0xBF, 0x34, 0x12]) = (7, .disp16 .bx 0x1234, 3) ∧
      decodeModRM (streamOf [0xF5]) = (6, .reg 5, 1) := by decide

/-! ## Single steps: the spec's vectors -/

theorem test_movRegRm_t2a :
    ends (step (st { c0 with bx := 0x0010, ds := 0x2000 } [0x2E, 0x8A, 0x07, 0x8A, 0x07] [(0x10010, 0xAA),
        (0x20010, 0xBB)]))
      (fun t => t.cpu == { c0 with ax := 0x00AA, bx := 0x0010, ip := 0x0103, ds := 0x2000 })
          = true := by decide

theorem test_movRegRm_vd11 :
    ends (step (st { c0 with bx := 0x0010, ds := 0xFFFF } [0x8A, 0x07] [(0x00000, 0x77)]))
      (fun t => t.cpu == { c0 with ax := 0x0077, bx := 0x0010, ip := 0x0102, ds := 0xFFFF })
          = true := by decide

theorem test_add_t3a :
    ends (step (st { c0 with ax := 0x00FF } [0x04, 0x01] []))
      (fun t => t.cpu == { c0 with ip := 0x0102, flags := 0x0045 }) = true := by decide

theorem test_add_va3 :
    ends (step (st { c0 with ax := 0xFFFF } [0x05, 0x01, 0x00] []))
      (fun t => t.cpu == { c0 with ip := 0x0103, flags := 0x0045 }) = true := by decide

theorem test_int_t4b :
    ends (step (st { c0 with flags := 0x0202 } [0xCD, 0x13] [(0x0004C, 0x00), (0x0004D, 0x05), (0x0004E,
        0x00), (0x0004F, 0xF0)]))
      (fun t => t.cpu == { c0 with sp := 0x00FA, ip := 0x0500, cs := 0xF000, flags := 0x0002 } &&
          noReads t == [.query 0x13 false, .writeByte 0x000FE 0x02, .writeByte 0x000FF 0x02,
          .writeByte 0x000FC 0x00, .writeByte 0x000FD 0x10, .writeByte 0x000FA 0x02,
          .writeByte 0x000FB 0x01]) = true := by decide

theorem test_int_vi2 :
    ends (step (st c0 [0xCD, 0x00] [(0x00000, 0x00), (0x00001, 0x03), (0x00002, 0x00), (0x00003, 0xC0)]))
      (fun t => t.cpu == { c0 with sp := 0x00FA, ip := 0x0300, cs := 0xC000 } && noReads t ==
          [.query 0x00 false, .writeByte 0x000FE 0x00, .writeByte 0x000FF 0x00, .writeByte 0x000FC 0x00,
          .writeByte 0x000FD 0x10, .writeByte 0x000FA 0x02, .writeByte 0x000FB 0x01]) = true := by decide

theorem test_movRegImm16_t6 :
    ends (step (st { c0 with sp := 0x0000, cs := 0xF000 } [0xB8, 0x34, 0x12] []))
      (fun t => t.cpu == { c0 with ax := 0x1234, sp := 0x0000, ip := 0x0103, cs := 0xF000 } && t.cost == 4)
          = true := by decide

theorem test_movRegImm16_vs17 :
    ends (step (st { c0 with cx := 0x0005 } [0xF3, 0xB8, 0x34, 0x12] []))
      (fun t => t.cpu == { c0 with ax := 0x1234, cx := 0x0005, ip := 0x0104 } && t.cost == 4)
          = true := by decide

theorem test_movRmReg_vd1 :
    ends (step (st { c0 with ax := 0x005A, bp := 0x0010, ss := 0x0200, ds := 0x0300 } [0x88, 0x46, 0x02] []))
      (fun t => t.cpu == { c0 with ax := 0x005A, bp := 0x0010, ip := 0x0103, ss := 0x0200, ds := 0x0300 }
          && noReads t == [.writeByte 0x02012 0x5A]) = true := by decide

theorem test_movRmReg_vd2 :
    ends (step (st { c0 with bx := 0xCAFE, bp := 0x0010, es := 0x0400, ss := 0x0200 } [0x26, 0x89, 0x5E,
        0x00] []))
      (fun t => t.cpu == { c0 with bx := 0xCAFE, bp := 0x0010, ip := 0x0104, es := 0x0400, ss := 0x0200 }
          && noReads t == [.writeByte 0x04010 0xFE, .writeByte 0x04011 0xCA]) = true := by decide

theorem test_movRegImm8_vd3 :
    ends (step (st { c0 with ax := 0xAA55 } [0xB4, 0x7F] []))
      (fun t => t.cpu == { c0 with ax := 0x7F55, ip := 0x0102 }) = true := by decide

theorem test_movRegImm8_vd5 :
    ends (step (st c0 [0xB7, 0x01] []))
      (fun t => t.cpu == { c0 with bx := 0x0100, ip := 0x0102 }) = true := by decide

theorem test_movRmImm8_vd12 :
    ends (step (st c0 [0xC6, 0xC3, 0x7F] []))
      (fun t => t.cpu == { c0 with bx := 0x007F, ip := 0x0103 }) = true := by decide

theorem test_movRmImm8_vd13 :
    ends (step (st { c0 with bp := 0x0100, ss := 0x0050 } [0xC6, 0x46, 0xFE, 0x09] []))
      (fun t => t.cpu == { c0 with bp := 0x0100, ip := 0x0104, ss := 0x0050 } && noReads t ==
          [.writeByte 0x005FE 0x09]) = true := by decide

theorem test_movMoffsAcc_vd15 :
    ends (step (st { c0 with ax := 0x0042, es := 0x0300 } [0x26, 0xA2, 0x00, 0x01] []))
      (fun t => t.cpu == { c0 with ax := 0x0042, ip := 0x0104, es := 0x0300 } && noReads t ==
          [.writeByte 0x03100 0x42]) = true := by decide

theorem test_movMoffsAcc_vd16 :
    ends (step (st { c0 with ax := 0xBEEF, ds := 0x0300 } [0xA3, 0xFF, 0xFF] []))
      (fun t => t.cpu == { c0 with ax := 0xBEEF, ip := 0x0103, ds := 0x0300 } && noReads t ==
          [.writeByte 0x12FFF 0xEF, .writeByte 0x03000 0xBE]) = true := by decide

theorem test_movRmSreg_vd17 :
    ends (step (st { c0 with ds := 0x0040 } [0x8C, 0x1E, 0x00, 0x03] []))
      (fun t => t.cpu == { c0 with ip := 0x0104, ds := 0x0040 } && noReads t == [.writeByte 0x00700 0x40,
          .writeByte 0x00701 0x00]) = true := by decide

theorem test_movSregRm_vd18 :
    ends (step (st { c0 with ax := 0x0200 } [0x8E, 0xD0] []))
      (fun t => t.cpu == { c0 with ax := 0x0200, ip := 0x0102, ss := 0x0200 }) = true := by decide

theorem test_pushReg_vd22 :
    ends (step (st { c0 with ax := 0x1234, sp := 0x0000 } [0x50] []))
      (fun t => t.cpu == { c0 with ax := 0x1234, sp := 0xFFFE, ip := 0x0101 } && noReads t ==
          [.writeByte 0x0FFFE 0x34, .writeByte 0x0FFFF 0x12]) = true := by decide

theorem test_pushReg_vd24 :
    ends (step (st c0 [0x54] []))
      (fun t => t.cpu == { c0 with sp := 0x00FE, ip := 0x0101 } && noReads t == [.writeByte 0x000FE 0xFE,
          .writeByte 0x000FF 0x00]) = true := by decide

theorem test_pushRm_vd25 :
    ends (step (st c0 [0xFF, 0xF4] []))
      (fun t => t.cpu == { c0 with sp := 0x00FE, ip := 0x0102 } && noReads t == [.writeByte 0x000FE 0xFE,
          .writeByte 0x000FF 0x00]) = true := by decide

theorem test_popReg_vd26 :
    ends (step (st { c0 with sp := 0x00FE } [0x5C] [(0x000FE, 0x34), (0x000FF, 0x12)]))
      (fun t => t.cpu == { c0 with sp := 0x1234, ip := 0x0101 }) = true := by decide

theorem test_popRm_vd27 :
    ends (step (st { c0 with sp := 0x00FE } [0x8F, 0xC4] [(0x000FE, 0x34), (0x000FF, 0x12)]))
      (fun t => t.cpu == { c0 with sp := 0x1234, ip := 0x0102 }) = true := by decide

theorem test_popSreg_vd29 :
    ends (step (st { c0 with sp := 0x00FE } [0x17] [(0x000FE, 0x00), (0x000FF, 0x30)]))
      (fun t => t.cpu == { c0 with ip := 0x0101, ss := 0x3000 }) = true := by decide

theorem test_xchgRmReg_vd31 :
    ends (step (st { c0 with bx := 0x1111 } [0x87, 0x1E, 0x00, 0x02] [(0x00200, 0x22), (0x00201, 0x22)]))
      (fun t => t.cpu == { c0 with bx := 0x2222, ip := 0x0104 } && noReads t == [.writeByte 0x00200 0x11,
          .writeByte 0x00201 0x11]) = true := by decide

theorem test_nop_vd32 :
    ends (step (st c0 [0x90] []))
      (fun t => t.cpu == { c0 with ip := 0x0101 }) = true := by decide

theorem test_nop_vs16 :
    ends (step (st { c0 with cx := 0x0005 } [0xF3, 0x90] []))
      (fun t => t.cpu == { c0 with cx := 0x0005, ip := 0x0102 }) = true := by decide

theorem test_xchgAxReg_vd33 :
    ends (step (st { c0 with ax := 0x0001, di := 0x0002 } [0x97] []))
      (fun t => t.cpu == { c0 with ax := 0x0002, di := 0x0001, ip := 0x0101 }) = true := by decide

theorem test_xlat_vd34 :
    ends (step (st { c0 with ax := 0x0002, bx := 0xFFFF } [0x2E, 0xD7] [(0x10001, 0x5A)]))
      (fun t => t.cpu == { c0 with ax := 0x005A, bx := 0xFFFF, ip := 0x0102 }) = true := by decide

theorem test_inImm_vd35 :
    ends (step (withDevices (st c0 [0xE5, 0x40] [])
        { noDevices with portInputs := [(0x0040, 0x34), (0x0041, 0x12)] }))
      (fun t => t.cpu == { c0 with ax := 0x1234, ip := 0x0102 } && noReads t == [.portIn 0x0040 0x34,
          .portIn 0x0041 0x12]) = true := by decide

theorem test_inImm_vd40 :
    errorOf (step (withDevices (st c0 [0xE4, 0x99] []) { noDevices with refusedIn := [0x0099] })) =
      some .hostProtocolError := by decide

theorem test_inDx_vd36 :
    ends (step (withDevices (st { c0 with dx := 0xFFFF } [0xED] [])
        { noDevices with portInputs := [(0xFFFF, 0xCD), (0x0000, 0xAB)] }))
      (fun t => t.cpu == { c0 with ax := 0xABCD, dx := 0xFFFF, ip := 0x0101 } && noReads t ==
          [.portIn 0xFFFF 0xCD, .portIn 0x0000 0xAB]) = true := by decide

theorem test_inDx_vd37 :
    ends (step (withDevices (st { c0 with ax := 0xFF00, dx := 0x03DA } [0xEC] [])
        { noDevices with portInputs := [(0x03DA, 0x09)] }))
      (fun t => t.cpu == { c0 with ax := 0xFF09, dx := 0x03DA, ip := 0x0101 } && noReads t ==
          [.portIn 0x03DA 0x09]) = true := by decide

theorem test_outImm_vd38 :
    ends (step (st { c0 with ax := 0xBEEF } [0xE7, 0x42] []))
      (fun t => t.cpu == { c0 with ax := 0xBEEF, ip := 0x0102 } && noReads t == [.portOut 0x0042 0xEF,
          .portOut 0x0043 0xBE]) = true := by decide

theorem test_outImm_vd39 :
    ends (step (st { c0 with ax := 0x1203 } [0xE6, 0x61] []))
      (fun t => t.cpu == { c0 with ax := 0x1203, ip := 0x0102 } && noReads t == [.portOut 0x0061 0x03])
          = true := by decide

theorem test_lea_vd41 :
    ends (step (st { c0 with es := 0x5000 } [0x26, 0x8D, 0x06, 0x34, 0x12] []))
      (fun t => t.cpu == { c0 with ax := 0x1234, ip := 0x0105, es := 0x5000 }) = true := by decide

theorem test_lea_vd42 :
    ends (step (st { c0 with bp := 0x0100, si := 0x0020 } [0x8D, 0x5A, 0x80] []))
      (fun t => t.cpu == { c0 with bx := 0x00A0, bp := 0x0100, si := 0x0020, ip := 0x0103 })
          = true := by decide

theorem test_lds_vd44 :
    ends (step (st { c0 with bx := 0x0400 } [0xC5, 0x1F] [(0x00400, 0x78), (0x00401, 0x56), (0x00402,
        0x00), (0x00403, 0x30)]))
      (fun t => t.cpu == { c0 with bx := 0x5678, ip := 0x0102, ds := 0x3000 }) = true := by decide

theorem test_lahf_vd46 :
    ends (step (st { c0 with ax := 0x00EE, flags := 0x08D5 } [0x9F] []))
      (fun t => t.cpu == { c0 with ax := 0xD5EE, ip := 0x0101, flags := 0x08D5 }) = true := by decide

theorem test_sahf_vd47 :
    ends (step (st { c0 with flags := 0x0FD5 } [0x9E] []))
      (fun t => t.cpu == { c0 with ip := 0x0101, flags := 0x0F00 }) = true := by decide

theorem test_sahf_vd48 :
    ends (step (st { c0 with ax := 0x2A00 } [0x9E] []))
      (fun t => t.cpu == { c0 with ax := 0x2A00, ip := 0x0101 }) = true := by decide

theorem test_popf_vd49 :
    ends (step (st { c0 with sp := 0x00FE } [0x9D] [(0x000FE, 0xFF), (0x000FF, 0xFF)]))
      (fun t => t.cpu == { c0 with ip := 0x0101, flags := 0xFFFF }) = true := by decide

theorem test_adc_va10 :
    ends (step (st { c0 with ax := 0x00FF, flags := 0x0001 } [0x14, 0xFF] []))
      (fun t => t.cpu == { c0 with ax := 0x00FF, ip := 0x0102, flags := 0x0085 }) = true := by decide

theorem test_adc_va12 :
    ends (step (st { c0 with ax := 0xFFFF, flags := 0x0001 } [0x11, 0xD8] []))
      (fun t => t.cpu == { c0 with ip := 0x0102, flags := 0x0045 }) = true := by decide

theorem test_sub_va13 :
    ends (step (st { c0 with ax := 0x0080 } [0x2C, 0x01] []))
      (fun t => t.cpu == { c0 with ax := 0x007F, ip := 0x0102, flags := 0x0800 }) = true := by decide

theorem test_sub_va16 :
    ends (step (st { c0 with bx := 0x0001 } [0x29, 0xD8] []))
      (fun t => t.cpu == { c0 with ax := 0xFFFF, bx := 0x0001, ip := 0x0102, flags := 0x0085 })
          = true := by decide

theorem test_sbb_va17 :
    ends (step (st { c0 with flags := 0x0001 } [0x1C, 0xFF] []))
      (fun t => t.cpu == { c0 with ip := 0x0102, flags := 0x0045 }) = true := by decide

theorem test_sbb_va18 :
    ends (step (st { c0 with ax := 0x0080, flags := 0x0001 } [0x1C, 0x7F] []))
      (fun t => t.cpu == { c0 with ip := 0x0102, flags := 0x0844 }) = true := by decide

theorem test_cmp_va19 :
    ends (step (st { c0 with ax := 0x007F } [0x3C, 0x80] []))
      (fun t => t.cpu == { c0 with ax := 0x007F, ip := 0x0102, flags := 0x0885 }) = true := by decide

theorem test_cmp_va23 :
    ends (step (st { c0 with cx := 0xFFFF } [0x83, 0xF9, 0xFF] []))
      (fun t => t.cpu == { c0 with cx := 0xFFFF, ip := 0x0103, flags := 0x0044 }) = true := by decide

theorem test_incReg_va24 :
    ends (step (st { c0 with ax := 0x7FFF, flags := 0x0001 } [0x40] []))
      (fun t => t.cpu == { c0 with ax := 0x8000, ip := 0x0101, flags := 0x0885 }) = true := by decide

theorem test_incRm_va25 :
    ends (step (st { c0 with ax := 0x12FF } [0xFE, 0xC0] []))
      (fun t => t.cpu == { c0 with ax := 0x1200, ip := 0x0102, flags := 0x0044 }) = true := by decide

theorem test_incRm_va27 :
    ends (step (st c0 [0xFF, 0x06, 0x00, 0x02] [(0x00200, 0xFF), (0x00201, 0x00)]))
      (fun t => t.cpu == { c0 with ip := 0x0104, flags := 0x0004 } && noReads t ==
          [.writeByte 0x00200 0x00, .writeByte 0x00201 0x01]) = true := by decide

theorem test_decReg_va28 :
    ends (step (st { c0 with ax := 0x8000 } [0x48] []))
      (fun t => t.cpu == { c0 with ax := 0x7FFF, ip := 0x0101, flags := 0x0804 }) = true := by decide

theorem test_decReg_va29 :
    ends (step (st c0 [0x4B] []))
      (fun t => t.cpu == { c0 with bx := 0xFFFF, ip := 0x0101, flags := 0x0084 }) = true := by decide

theorem test_decRm_va30 :
    ends (step (st { c0 with cx := 0x0001 } [0xFE, 0xC9] []))
      (fun t => t.cpu == { c0 with ip := 0x0102, flags := 0x0044 }) = true := by decide

theorem test_neg_va32 :
    ends (step (st c0 [0xF6, 0xD8] []))
      (fun t => t.cpu == { c0 with ip := 0x0102, flags := 0x0044 }) = true := by decide

theorem test_neg_va35 :
    ends (step (st { c0 with bx := 0x0001 } [0xF7, 0xDB] []))
      (fun t => t.cpu == { c0 with bx := 0xFFFF, ip := 0x0102, flags := 0x0085 }) = true := by decide

theorem test_mul_va37 :
    ends (step (st { c0 with ax := 0x00FF, bx := 0x00FF } [0xF6, 0xE3] []))
      (fun t => sameRegs t.cpu { c0 with ax := 0xFE01, bx := 0x00FF, ip := 0x0102 }) = true := by decide

theorem test_mul_va42 :
    ends (step (st { c0 with ax := 0x0100, bx := 0x00FF, dx := 0x5555 } [0xF7, 0xE3] []))
      (fun t => sameRegs t.cpu { c0 with ax := 0xFF00, bx := 0x00FF, ip := 0x0102 }) = true := by decide

theorem test_imul_va43 :
    ends (step (st { c0 with ax := 0x0010, bx := 0x0008 } [0xF6, 0xEB] []))
      (fun t => sameRegs t.cpu { c0 with ax := 0x0080, bx := 0x0008, ip := 0x0102 }) = true := by decide

theorem test_imul_va49 :
    ends (step (st { c0 with ax := 0x8000, bx := 0x8000 } [0xF7, 0xEB] []))
      (fun t => sameRegs t.cpu { c0 with bx := 0x8000, dx := 0x4000, ip := 0x0102 }) = true := by decide

theorem test_div_va50 :
    ends (step (st { c0 with ax := 0xFEFF, bx := 0x00FF } [0xF6, 0xF3] []))
      (fun t => sameRegs t.cpu { c0 with ax := 0xFEFF, bx := 0x00FF, ip := 0x0102 }) = true := by decide

theorem test_div_va54 :
    ends (step (st { c0 with bx := 0x0002, dx := 0x0002 } [0xF7, 0xF3] [(0x00000, 0x00), (0x00001, 0x03),
        (0x00002, 0x00), (0x00003, 0xC0)]))
      (fun t => t.cpu == { c0 with bx := 0x0002, dx := 0x0002, sp := 0x00FA, ip := 0x0300, cs := 0xC000 }
          && noReads t == [.query 0x00 false, .writeByte 0x000FE 0x00, .writeByte 0x000FF 0x00,
          .writeByte 0x000FC 0x00, .writeByte 0x000FD 0x10, .writeByte 0x000FA 0x02,
          .writeByte 0x000FB 0x01]) = true := by decide

theorem test_idiv_va58 :
    ends (step (st { c0 with ax := 0x0007, bx := 0x0002 } [0xF6, 0xFB] []))
      (fun t => sameRegs t.cpu { c0 with ax := 0x0103, bx := 0x0002, ip := 0x0102 }) = true := by decide

theorem test_idiv_va65 :
    ends (step (st { c0 with ax := 0xFF80, bx := 0x0001 } [0xF6, 0xFB] [(0x00000, 0x00), (0x00001, 0x03),
        (0x00002, 0x00), (0x00003, 0xC0)]))
      (fun t => t.cpu == { c0 with ax := 0xFF80, bx := 0x0001, sp := 0x00FA, ip := 0x0300, cs := 0xC000 }
          && noReads t == [.query 0x00 false, .writeByte 0x000FE 0x00, .writeByte 0x000FF 0x00,
          .writeByte 0x000FC 0x00, .writeByte 0x000FD 0x10, .writeByte 0x000FA 0x02,
          .writeByte 0x000FB 0x01]) = true := by decide

theorem test_cbw_va73 :
    ends (step (st { c0 with ax := 0x127F } [0x98] []))
      (fun t => t.cpu == { c0 with ax := 0x007F, ip := 0x0101 }) = true := by decide

theorem test_cbw_va74 :
    ends (step (st { c0 with ax := 0x0080 } [0x98] []))
      (fun t => t.cpu == { c0 with ax := 0xFF80, ip := 0x0101 }) = true := by decide

theorem test_cwd_va75 :
    ends (step (st { c0 with ax := 0x7FFF, dx := 0xFFFF } [0x99] []))
      (fun t => t.cpu == { c0 with ax := 0x7FFF, ip := 0x0101 }) = true := by decide

theorem test_cwd_va76 :
    ends (step (st { c0 with ax := 0x8000 } [0x99] []))
      (fun t => t.cpu == { c0 with ax := 0x8000, dx := 0xFFFF, ip := 0x0101 }) = true := by decide

theorem test_aam_va77 :
    ends (step (st { c0 with ax := 0xFF00 } [0xD4, 0x0A] []))
      (fun t => sameRegs t.cpu { c0 with ip := 0x0102 }) = true := by decide

theorem test_aam_va79 :
    ends (step (st { c0 with ax := 0x1234 } [0xD4, 0x00] [(0x00000, 0x00), (0x00001, 0x03), (0x00002,
        0x00), (0x00003, 0xC0)]))
      (fun t => t.cpu == { c0 with ax := 0x1234, sp := 0x00FA, ip := 0x0300, cs := 0xC000 } && noReads t ==
          [.query 0x00 false, .writeByte 0x000FE 0x00, .writeByte 0x000FF 0x00, .writeByte 0x000FC 0x00,
          .writeByte 0x000FD 0x10, .writeByte 0x000FA 0x02, .writeByte 0x000FB 0x01]) = true := by decide

theorem test_aad_va80 :
    ends (step (st { c0 with ax := 0x0603 } [0xD5, 0x0A] []))
      (fun t => sameRegs t.cpu { c0 with ax := 0x003F, ip := 0x0102 }) = true := by decide

theorem test_aad_va82 :
    ends (step (st { c0 with ax := 0x1234 } [0xD5, 0x00] []))
      (fun t => sameRegs t.cpu { c0 with ax := 0x0034, ip := 0x0102 }) = true := by decide

theorem test_and_vl1 :
    ends (step (st { c0 with ax := 0xFFFF, flags := 0x0801 } [0x25, 0x0F, 0xF0] []))
      (fun t => t.cpu == { c0 with ax := 0xF00F, ip := 0x0103, flags := 0x0084 }) = true := by decide

theorem test_and_vl2 :
    ends (step (st { c0 with bx := 0x1234 } [0x83, 0xE3, 0xF0] []))
      (fun t => t.cpu == { c0 with bx := 0x1230, ip := 0x0103, flags := 0x0004 }) = true := by decide

theorem test_or_vl3 :
    ends (step (st { c0 with flags := 0x0001 } [0x09, 0xC0] []))
      (fun t => t.cpu == { c0 with ip := 0x0102, flags := 0x0044 }) = true := by decide

theorem test_or_vl4 :
    ends (step (st { c0 with ax := 0x0001 } [0x0D, 0x00, 0x80] []))
      (fun t => t.cpu == { c0 with ax := 0x8001, ip := 0x0103, flags := 0x0080 }) = true := by decide

theorem test_xor_vl5 :
    ends (step (st { c0 with ax := 0x5AA5 } [0x30, 0xE0] []))
      (fun t => t.cpu == { c0 with ax := 0x5AFF, ip := 0x0102, flags := 0x0084 }) = true := by decide

theorem test_xor_vl6 :
    ends (step (st c0 [0x81, 0x36, 0x00, 0x02, 0xFF, 0xFF] [(0x00200, 0x0F), (0x00201, 0xF0)]))
      (fun t => t.cpu == { c0 with ip := 0x0106, flags := 0x0004 } && noReads t ==
          [.writeByte 0x00200 0xF0, .writeByte 0x00201 0x0F]) = true := by decide

theorem test_test_vl7 :
    ends (step (st { c0 with bx := 0x0080 } [0xF6, 0xC3, 0x80] []))
      (fun t => t.cpu == { c0 with bx := 0x0080, ip := 0x0103, flags := 0x0080 }) = true := by decide

theorem test_test_vl9 :
    ends (step (st { c0 with ax := 0x8000, flags := 0x0801 } [0x85, 0xC0] []))
      (fun t => t.cpu == { c0 with ax := 0x8000, ip := 0x0102, flags := 0x0084 }) = true := by decide

theorem test_not_vl10 :
    ends (step (st { c0 with flags := 0x08D5 } [0xF7, 0x16, 0x00, 0x02] [(0x00200, 0x0F), (0x00201, 0xF0)]))
      (fun t => t.cpu == { c0 with ip := 0x0104, flags := 0x08D5 } && noReads t ==
          [.writeByte 0x00200 0xF0, .writeByte 0x00201 0x0F]) = true := by decide

theorem test_shl_vl11 :
    ends (step (st { c0 with ax := 0x0081, flags := 0x08D5 } [0xD2, 0xE0] []))
      (fun t => t.cpu == { c0 with ax := 0x0081, ip := 0x0102, flags := 0x08D5 }) = true := by decide

theorem test_shl_vl16 :
    ends (step (st { c0 with ax := 0xC000 } [0xD1, 0xE0] []))
      (fun t => t.cpu == { c0 with ax := 0x8000, ip := 0x0102, flags := 0x0085 }) = true := by decide

theorem test_shr_vl17 :
    ends (step (st { c0 with ax := 0x8000, cx := 0x0010 } [0xD3, 0xE8] []))
      (fun t => sameRegs t.cpu { c0 with cx := 0x0010, ip := 0x0102 }) = true := by decide

theorem test_shr_vl19 :
    ends (step (st { c0 with ax := 0x007F } [0xD0, 0xE8] []))
      (fun t => t.cpu == { c0 with ax := 0x003F, ip := 0x0102, flags := 0x0005 }) = true := by decide

theorem test_sar_vl20 :
    ends (step (st { c0 with ax := 0x0080, cx := 0x0008 } [0xD2, 0xF8] []))
      (fun t => sameRegs t.cpu { c0 with ax := 0x00FF, cx := 0x0008, ip := 0x0102 }) = true := by decide

theorem test_sar_vl23 :
    ends (step (st { c0 with ax := 0xFFFF } [0xD1, 0xF8] []))
      (fun t => t.cpu == { c0 with ax := 0xFFFF, ip := 0x0102, flags := 0x0085 }) = true := by decide

theorem test_rol_vl24 :
    ends (step (st { c0 with ax := 0x0081, cx := 0x0008, flags := 0x00C4 } [0xD2, 0xC0] []))
      (fun t => sameRegs t.cpu { c0 with ax := 0x0081, cx := 0x0008, ip := 0x0102 }) = true := by decide

theorem test_rol_vl26 :
    ends (step (st { c0 with ax := 0x0040 } [0xD0, 0xC0] []))
      (fun t => t.cpu == { c0 with ax := 0x0080, ip := 0x0102, flags := 0x0800 }) = true := by decide

theorem test_ror_vl27 :
    ends (step (st { c0 with ax := 0x0001 } [0xD1, 0xC8] []))
      (fun t => t.cpu == { c0 with ax := 0x8000, ip := 0x0102, flags := 0x0801 }) = true := by decide

theorem test_ror_vl28 :
    ends (step (st { c0 with ax := 0x0081, cx := 0x0004 } [0xD2, 0xC8] []))
      (fun t => sameRegs t.cpu { c0 with ax := 0x0018, cx := 0x0004, ip := 0x0102 }) = true := by decide

theorem test_rcl_vl29 :
    ends (step (st { c0 with ax := 0x0081, cx := 0x0009 } [0xD2, 0xD0] []))
      (fun t => sameRegs t.cpu { c0 with ax := 0x0081, cx := 0x0009, ip := 0x0102 }) = true := by decide

theorem test_rcl_vl31 :
    ends (step (st { c0 with ax := 0x0040, flags := 0x0001 } [0xD0, 0xD0] []))
      (fun t => t.cpu == { c0 with ax := 0x0081, ip := 0x0102, flags := 0x0800 }) = true := by decide

theorem test_rcr_vl32 :
    ends (step (st { c0 with ax := 0x0001, cx := 0x0011 } [0xD3, 0xD8] []))
      (fun t => sameRegs t.cpu { c0 with ax := 0x0001, cx := 0x0011, ip := 0x0102 }) = true := by decide

theorem test_rcr_vl34 :
    ends (step (st { c0 with ax := 0x0080, flags := 0x0001 } [0xD0, 0xD8] []))
      (fun t => t.cpu == { c0 with ax := 0x00C0, ip := 0x0102 }) = true := by decide

theorem test_movsw_vs1 :
    ends (step (st { c0 with si := 0x0102, di := 0x0202, es := 0x0200, flags := 0x0400 } [0xA5] [(0x00102,
        0x34), (0x00103, 0x12)]))
      (fun t => t.cpu == { c0 with si := 0x0100, di := 0x0200, ip := 0x0101, es := 0x0200, flags := 0x0400 } && noReads t == [.writeByte 0x02202 0x34, .writeByte 0x02203 0x12]) = true := by decide

theorem test_movsw_vs6 :
    ends (step (st { c0 with cx := 0x0002, si := 0xFFFE, es := 0x0200 } [0xF3, 0xA5] [(0x0FFFE, 0x11),
        (0x0FFFF, 0x22), (0x00000, 0x33), (0x00001, 0x44)]))
      (fun t => t.cpu == { c0 with si := 0x0002, di := 0x0004, ip := 0x0102, es := 0x0200 } && noReads t ==
          [.writeByte 0x02000 0x11, .writeByte 0x02001 0x22, .writeByte 0x02002 0x33,
          .writeByte 0x02003 0x44]) = true := by decide

theorem test_movsb_vs2 :
    ends (step (st { c0 with si := 0x0300, di := 0x0010, es := 0x0200 } [0x2E, 0xA4] [(0x10300, 0x5A)]))
      (fun t => t.cpu == { c0 with si := 0x0301, di := 0x0011, ip := 0x0102, es := 0x0200 } && noReads t ==
          [.writeByte 0x02010 0x5A]) = true := by decide

theorem test_movsb_vs20 :
    ends (step (st { c0 with cx := 0x0001, si := 0x0300, di := 0x0400 } [0xF3, 0x2E, 0xA4] [(0x10300, 0x66)]))
      (fun t => t.cpu == { c0 with si := 0x0301, di := 0x0401, ip := 0x0103 } && noReads t ==
          [.writeByte 0x00400 0x66]) = true := by decide

theorem test_stosb_vs3 :
    ends (step (st { c0 with ax := 0x0055, di := 0x0010, es := 0x0200, ds := 0x0300 } [0x26, 0xAA] []))
      (fun t => t.cpu == { c0 with ax := 0x0055, di := 0x0011, ip := 0x0102, es := 0x0200, ds := 0x0300 }
          && noReads t == [.writeByte 0x02010 0x55]) = true := by decide

theorem test_stosb_vs13 :
    ends (step (st { c0 with ax := 0x0007, es := 0x0200, flags := 0x0400 } [0xAA] []))
      (fun t => t.cpu == { c0 with ax := 0x0007, di := 0xFFFF, ip := 0x0101, es := 0x0200, flags := 0x0400 } && noReads t == [.writeByte 0x02000 0x07]) = true := by decide

theorem test_cmpsb_vs7 :
    ends (step (st { c0 with si := 0x0100, di := 0x0200 } [0xA6] [(0x00100, 0x10), (0x00200, 0x20)]))
      (fun t => t.cpu == { c0 with si := 0x0101, di := 0x0201, ip := 0x0101, flags := 0x0085 })
          = true := by decide

theorem test_cmpsb_vs9 :
    ends (step (st { c0 with si := 0x0100, di := 0x0200, flags := 0x0001 } [0xF3, 0xA6] []))
      (fun t => t.cpu == { c0 with si := 0x0100, di := 0x0200, ip := 0x0102, flags := 0x0001 })
          = true := by decide

theorem test_cmpsw_vs10 :
    ends (step (st { c0 with cx := 0x0002, si := 0x0100, di := 0x0200, cs := 0x2000 } [0xF3, 0xA7]
        [(0x00100, 0x34), (0x00101, 0x12), (0x00102, 0x00), (0x00103, 0x00), (0x00200, 0x34), (0x00201,
        0x13), (0x00202, 0x00), (0x00203, 0x00)]))
      (fun t => t.cpu == { c0 with cx := 0x0001, si := 0x0102, di := 0x0202, ip := 0x0102, cs := 0x2000, flags := 0x0085 }) = true := by decide

theorem test_scasb_vs11 :
    ends (step (st { c0 with ax := 0x0020, cx := 0x0005, di := 0x0300 } [0xF3, 0xAE] [(0x00300, 0x20),
        (0x00301, 0x20), (0x00302, 0x41), (0x00303, 0x20)]))
      (fun t => t.cpu == { c0 with ax := 0x0020, cx := 0x0002, di := 0x0303, ip := 0x0102, flags := 0x0081 }) = true := by decide

theorem test_scasw_vs12 :
    ends (step (st { c0 with ax := 0x1234, di := 0x0300, es := 0x0010 } [0xAF] [(0x00400, 0x35), (0x00401,
        0x12)]))
      (fun t => t.cpu == { c0 with ax := 0x1234, di := 0x0302, ip := 0x0101, es := 0x0010, flags := 0x0085 }) = true := by decide

theorem test_lodsw_vs14 :
    ends (step (st { c0 with si := 0x0010, es := 0x0200 } [0x26, 0xAD] [(0x02010, 0xCD), (0x02011, 0xAB)]))
      (fun t => t.cpu == { c0 with ax := 0xABCD, si := 0x0012, ip := 0x0102, es := 0x0200 })
          = true := by decide

theorem test_lodsb_vs15 :
    ends (step (st { c0 with cx := 0x0003, si := 0x0100, cs := 0x2000 } [0xF3, 0xAC] [(0x00100, 0x01),
        (0x00101, 0x02), (0x00102, 0x03)]))
      (fun t => t.cpu == { c0 with ax := 0x0003, si := 0x0103, ip := 0x0102, cs := 0x2000 })
          = true := by decide

theorem test_jmpRel8_vc1 :
    ends (step (st { c0 with ip := 0xFFF0 } [0xEB, 0x7F] []))
      (fun t => t.cpu == { c0 with ip := 0x0071 }) = true := by decide

theorem test_jmpRel8_vc2 :
    ends (step (st { c0 with ip := 0x0010 } [0xEB, 0x80] []))
      (fun t => t.cpu == { c0 with ip := 0xFF92 }) = true := by decide

theorem test_jmpRel16_vc3 :
    ends (step (st { c0 with ip := 0x9000 } [0xE9, 0x00, 0x80] []))
      (fun t => t.cpu == { c0 with ip := 0x1003 }) = true := by decide

theorem test_jmpRm_vc4 :
    ends (step (st c0 [0xFF, 0x26, 0x00, 0x02] [(0x00200, 0x00), (0x00201, 0x30)]))
      (fun t => t.cpu == { c0 with ip := 0x3000 }) = true := by decide

theorem test_callRm_vc8 :
    ends (step (st c0 [0xFF, 0x16, 0x00, 0x02] [(0x00200, 0x00), (0x00201, 0x30)]))
      (fun t => t.cpu == { c0 with sp := 0x00FE, ip := 0x3000 } && noReads t == [.writeByte 0x000FE 0x04,
          .writeByte 0x000FF 0x01]) = true := by decide

theorem test_callRm_vc9 :
    ends (step (st c0 [0xFF, 0xD4] []))
      (fun t => t.cpu == { c0 with sp := 0x00FE } && noReads t == [.writeByte 0x000FE 0x02,
          .writeByte 0x000FF 0x01]) = true := by decide

theorem test_callRel16_vc10 :
    ends (step (st c0 [0xE8, 0xFD, 0xFF] []))
      (fun t => t.cpu == { c0 with sp := 0x00FE } && noReads t == [.writeByte 0x000FE 0x03,
          .writeByte 0x000FF 0x01]) = true := by decide

theorem test_retImm_vc12 :
    ends (step (st { c0 with sp := 0x00FE } [0xC2, 0xFE, 0xFF] [(0x000FE, 0x00), (0x000FF, 0x05)]))
      (fun t => t.cpu == { c0 with sp := 0x00FE, ip := 0x0500 }) = true := by decide

theorem test_retf_vc13 :
    ends (step (st { c0 with sp := 0xFFFE } [0xCB] [(0x0FFFE, 0x00), (0x0FFFF, 0x05), (0x00000, 0x00),
        (0x00001, 0x20)]))
      (fun t => t.cpu == { c0 with sp := 0x0002, ip := 0x0500, cs := 0x2000 }) = true := by decide

theorem test_loop_vc14 :
    ends (step (st c0 [0xE2, 0x10] []))
      (fun t => t.cpu == { c0 with cx := 0xFFFF, ip := 0x0112 }) = true := by decide

theorem test_loop_vc15 :
    ends (step (st { c0 with cx := 0x0001, flags := 0x0040 } [0xE2, 0x10] []))
      (fun t => t.cpu == { c0 with ip := 0x0102, flags := 0x0040 }) = true := by decide

theorem test_loopz_vc16 :
    ends (step (st { c0 with cx := 0x0001, flags := 0x0040 } [0xE1, 0x10] []))
      (fun t => t.cpu == { c0 with ip := 0x0102, flags := 0x0040 }) = true := by decide

theorem test_loopz_vc17 :
    ends (step (st { c0 with cx := 0x0002, flags := 0x0040 } [0xE1, 0x10] []))
      (fun t => t.cpu == { c0 with cx := 0x0001, ip := 0x0112, flags := 0x0040 }) = true := by decide

theorem test_loopnz_vc18 :
    ends (step (st { c0 with cx := 0x0002, flags := 0x0040 } [0xE0, 0x10] []))
      (fun t => t.cpu == { c0 with cx := 0x0001, ip := 0x0102, flags := 0x0040 }) = true := by decide

theorem test_loopnz_vc19 :
    ends (step (st { c0 with cx := 0x0002 } [0xE0, 0x10] []))
      (fun t => t.cpu == { c0 with cx := 0x0001, ip := 0x0112 }) = true := by decide

theorem test_jcxz_vc20 :
    ends (step (st c0 [0xE3, 0x80] []))
      (fun t => t.cpu == { c0 with ip := 0x0082 }) = true := by decide

theorem test_clc_vf1 :
    ends (step (st { c0 with flags := 0x0FD5 } [0xF8] []))
      (fun t => t.cpu == { c0 with ip := 0x0101, flags := 0x0FD4 }) = true := by decide

theorem test_clc_vf2 :
    ends (step (st c0 [0xF8] []))
      (fun t => t.cpu == { c0 with ip := 0x0101 }) = true := by decide

theorem test_stc_vf3 :
    ends (step (st c0 [0xF9] []))
      (fun t => t.cpu == { c0 with ip := 0x0101, flags := 0x0001 }) = true := by decide

theorem test_stc_vf4 :
    ends (step (st { c0 with flags := 0x0001 } [0xF9] []))
      (fun t => t.cpu == { c0 with ip := 0x0101, flags := 0x0001 }) = true := by decide

theorem test_cmc_vf5 :
    ends (step (st c0 [0xF5] []))
      (fun t => t.cpu == { c0 with ip := 0x0101, flags := 0x0001 }) = true := by decide

theorem test_cmc_vf6 :
    ends (step (st { c0 with flags := 0x0801 } [0xF5] []))
      (fun t => t.cpu == { c0 with ip := 0x0101, flags := 0x0800 }) = true := by decide

theorem test_cld_vf7 :
    ends (step (st { c0 with flags := 0x0400 } [0xFC] []))
      (fun t => t.cpu == { c0 with ip := 0x0101 }) = true := by decide

theorem test_std_vf8 :
    ends (step (st c0 [0xFD] []))
      (fun t => t.cpu == { c0 with ip := 0x0101, flags := 0x0400 }) = true := by decide

theorem test_cli_vf9 :
    ends (step (st { c0 with flags := 0x0200 } [0xFA] []))
      (fun t => t.cpu == { c0 with ip := 0x0101 }) = true := by decide

theorem test_sti_vf10 :
    ends (step (st c0 [0xFB] []))
      (fun t => t.cpu == { c0 with ip := 0x0101, flags := 0x0200 }) = true := by decide

theorem test_sti_vf11 :
    ends (step (st { c0 with flags := 0x0200 } [0xFB] []))
      (fun t => t.cpu == { c0 with ip := 0x0101, flags := 0x0200 }) = true := by decide

theorem test_int3_vi5 :
    ends (step (st { c0 with flags := 0x0200 } [0xCC] [(0x0000C, 0x11), (0x0000D, 0x22), (0x0000E, 0x33),
        (0x0000F, 0x44)]))
      (fun t => t.cpu == { c0 with sp := 0x00FA, ip := 0x2211, cs := 0x4433 } && noReads t ==
          [.query 0x03 false, .writeByte 0x000FE 0x00, .writeByte 0x000FF 0x02, .writeByte 0x000FC 0x00,
          .writeByte 0x000FD 0x10, .writeByte 0x000FA 0x01, .writeByte 0x000FB 0x01]) = true := by decide

theorem test_into_vi6 :
    ends (step (st { c0 with flags := 0x0800 } [0xCE] [(0x00010, 0x11), (0x00011, 0x22), (0x00012, 0x33),
        (0x00013, 0x44)]))
      (fun t => t.cpu == { c0 with sp := 0x00FA, ip := 0x2211, cs := 0x4433, flags := 0x0800 } &&
          noReads t == [.query 0x04 false, .writeByte 0x000FE 0x00, .writeByte 0x000FF 0x08,
          .writeByte 0x000FC 0x00, .writeByte 0x000FD 0x10, .writeByte 0x000FA 0x01,
          .writeByte 0x000FB 0x01]) = true := by decide

theorem test_into_vi7 :
    ends (step (st c0 [0xCE] []))
      (fun t => t.cpu == { c0 with ip := 0x0101 }) = true := by decide

theorem test_iret_vi8 :
    ends (step (st { c0 with sp := 0x00FA } [0xCF] [(0x000FA, 0x02), (0x000FB, 0x01), (0x000FC, 0x00),
        (0x000FD, 0x20), (0x000FE, 0xD7), (0x000FF, 0x0F)]))
      (fun t => t.cpu == { c0 with ip := 0x0102, cs := 0x2000, flags := 0x0FD7 }) = true := by decide

/-! ## Single steps worked by hand from the rules -/

/-- The four overrides and the direct form (R73, R92, R143). -/
theorem test_segEs : ends (step (st { c0 with es := 0x2000, ds := 0x3000 } [0x26, 0xA0, 0x10, 0x00]
    [(0x20010, 0x77)])) (fun t => t.cpu.ax == 0x0077 && t.segOverride == none) = true := by decide
theorem test_segCs : ends (step (st { c0 with ds := 0x3000 } [0x2E, 0xA0, 0x10, 0x02]
    [(0x10210, 0x77)])) (fun t => t.cpu.ax == 0x0077 && t.segOverride == none) = true := by decide
theorem test_segSs : ends (step (st { c0 with ss := 0x2000, ds := 0x3000 } [0x36, 0xA0, 0x10, 0x00]
    [(0x20010, 0x77)])) (fun t => t.cpu.ax == 0x0077 && t.segOverride == none) = true := by decide
/-- Of two overrides the last holds (R92). -/
theorem test_segDs : ends (step (st { c0 with ss := 0x2000, ds := 0x3000, bp := 0x10 }
    [0x26, 0x3E, 0x8A, 0x46, 0x00] [(0x30010, 0x77)])) (fun t => t.cpu.ax == 0x0077) = true := by decide
/-- The repeat prefix with CX = 0 (R261). -/
theorem test_rep : ends (step (st { c0 with es := 0x2000 } [0xF3, 0xAA] []))
    (fun t => t.cpu == { c0 with es := 0x2000, ip := 0x0102 } && !t.repeatState) = true := by decide

theorem test_movRmImm16 : ends (step (st { c0 with ds := 0x0100 } [0xC7, 0x06, 0x00, 0x20, 0x34, 0x12] []))
    (fun t => t.cpu.ip == 0x0106 && noReads t == [.writeByte 0x03000 0x34, .writeByte 0x03001 0x12]) =
      true := by decide
/-- The high byte of a word at offset FFFF is at offset 0 of the segment (R66). -/
theorem test_movAccMoffs : ends (step (st { c0 with ds := 0x2000 } [0xA1, 0xFF, 0xFF]
    [(0x2FFFF, 0x34), (0x20000, 0x12)])) (fun t => t.cpu.ax == 0x1234) = true := by decide
/-- The second port of a word access wraps (R72). -/
theorem test_outDx : ends (step (st { c0 with ax := 0x1234, dx := 0xFFFF } [0xEF] []))
    (fun t => noReads t == [.portOut 0xFFFF 0x34, .portOut 0x0000 0x12]) = true := by decide
theorem test_les : ends (step (st c0 [0xC4, 0x1E, 0x00, 0x20]
    [(0x02000, 0x34), (0x02001, 0x12), (0x02002, 0x78), (0x02003, 0x56)]))
    (fun t => t.cpu == { c0 with bx := 0x1234, es := 0x5678, ip := 0x0104 }) = true := by decide
theorem test_stosw : ends (step (st { c0 with ax := 0x1234, es := 0x2000, di := 0xFFFF } [0xAB] []))
    (fun t => t.cpu.di == 0x0001 && noReads t == [.writeByte 0x2FFFF 0x34, .writeByte 0x20000 0x12]) =
      true := by decide
theorem test_jmpFar : ends (step (st c0 [0xEA, 0x34, 0x12, 0x78, 0x56] []))
    (fun t => t.cpu == { c0 with ip := 0x1234, cs := 0x5678 }) = true := by decide
theorem test_jmpFarRm : ends (step (st c0 [0xFF, 0x2E, 0x00, 0x20]
    [(0x02000, 0x34), (0x02001, 0x12), (0x02002, 0x78), (0x02003, 0x56)]))
    (fun t => t.cpu == { c0 with ip := 0x1234, cs := 0x5678 }) = true := by decide
theorem test_callFar : ends (step (st c0 [0x9A, 0x00, 0x02, 0x00, 0x30] []))
    (fun t => t.cpu == { c0 with ip := 0x0200, cs := 0x3000, sp := 0x00FC } &&
      noReads t == [.writeByte 0x000FE 0x00, .writeByte 0x000FF 0x10, .writeByte 0x000FC 0x05,
        .writeByte 0x000FD 0x01]) = true := by decide
/-- The target is read before the pushes, here from the words they overwrite (R289). -/
theorem test_callFarRm : ends (step (st c0 [0xFF, 0x1E, 0xFC, 0x00]
    [(0x000FC, 0x34), (0x000FD, 0x12), (0x000FE, 0x78), (0x000FF, 0x56)]))
    (fun t => t.cpu == { c0 with ip := 0x1234, cs := 0x5678, sp := 0x00FC } && t.peek16 0 0x00FE == 0x1000) =
      true := by decide
theorem test_ret : ends (step (st c0 [0xC3] [(0x00100, 0x34), (0x00101, 0x12)]))
    (fun t => t.cpu == { c0 with ip := 0x1234, sp := 0x0102 }) = true := by decide
theorem test_retfImm : ends (step (st c0 [0xCA, 0x04, 0x00]
    [(0x00100, 0x34), (0x00101, 0x12), (0x00102, 0x78), (0x00103, 0x56)]))
    (fun t => t.cpu == { c0 with ip := 0x1234, cs := 0x5678, sp := 0x0108 }) = true := by decide

/-- Where IP is after the conditional jump `op` with displacement 2 and a flags word. -/
def jumpIp (op : Byte) (fl : Word) : Option Word :=
  match step (st { c0 with flags := fl } [op, 0x02] []) with
  | .next t => some t.cpu.ip
  | _ => none

theorem test_jo : [jumpIp 0x70 0x0800, jumpIp 0x70 0xF7FF] = [some 0x0104, some 0x0102] := by decide
theorem test_jno : [jumpIp 0x71 0x0800, jumpIp 0x71 0xF7FF] = [some 0x0102, some 0x0104] := by decide
theorem test_jb : [jumpIp 0x72 0x0001, jumpIp 0x72 0xFFFE] = [some 0x0104, some 0x0102] := by decide
theorem test_jae : [jumpIp 0x73 0x0001, jumpIp 0x73 0xFFFE] = [some 0x0102, some 0x0104] := by decide
theorem test_je : [jumpIp 0x74 0x0040, jumpIp 0x74 0xFFBF] = [some 0x0104, some 0x0102] := by decide
theorem test_jne : [jumpIp 0x75 0x0040, jumpIp 0x75 0xFFBF] = [some 0x0102, some 0x0104] := by decide
theorem test_jbe : [jumpIp 0x76 0x0001, jumpIp 0x76 0x0040, jumpIp 0x76 0xFFBE] =
    [some 0x0104, some 0x0104, some 0x0102] := by decide
theorem test_ja : [jumpIp 0x77 0x0001, jumpIp 0x77 0x0040, jumpIp 0x77 0xFFBE] =
    [some 0x0102, some 0x0102, some 0x0104] := by decide
theorem test_js : [jumpIp 0x78 0x0080, jumpIp 0x78 0xFF7F] = [some 0x0104, some 0x0102] := by decide
theorem test_jns : [jumpIp 0x79 0x0080, jumpIp 0x79 0xFF7F] = [some 0x0102, some 0x0104] := by decide
theorem test_jp : [jumpIp 0x7A 0x0004, jumpIp 0x7A 0xFFFB] = [some 0x0104, some 0x0102] := by decide
theorem test_jnp : [jumpIp 0x7B 0x0004, jumpIp 0x7B 0xFFFB] = [some 0x0102, some 0x0104] := by decide
theorem test_jl : [jumpIp 0x7C 0x0080, jumpIp 0x7C 0x0800, jumpIp 0x7C 0x0880, jumpIp 0x7C 0] =
    [some 0x0104, some 0x0104, some 0x0102, some 0x0102] := by decide
theorem test_jge : [jumpIp 0x7D 0x0080, jumpIp 0x7D 0x0800, jumpIp 0x7D 0x0880, jumpIp 0x7D 0] =
    [some 0x0102, some 0x0102, some 0x0104, some 0x0104] := by decide
theorem test_jle : [jumpIp 0x7E 0x0080, jumpIp 0x7E 0x0040, jumpIp 0x7E 0x0880, jumpIp 0x7E 0] =
    [some 0x0104, some 0x0104, some 0x0102, some 0x0102] := by decide
theorem test_jg : [jumpIp 0x7F 0x0080, jumpIp 0x7F 0x0040, jumpIp 0x7F 0x0880, jumpIp 0x7F 0] =
    [some 0x0102, some 0x0102, some 0x0104, some 0x0104] := by decide

/-! ## Errors, the host and the bus -/

theorem test_absentOpcode : errorOf (step (st c0 [0x0F] [])) = some (.decodeError 0x0F none) := by decide
theorem test_absentOpcode_after_prefix :
    errorOf (step (st c0 [0x26, 0xF3, 0x9B] [])) = some (.decodeError 0x9B none) := by decide
theorem test_absentSlot : errorOf (step (st c0 [0xFE, 0x38] [])) = some (.decodeError 0xFE (some 7)) := by
  decide
theorem test_refused_lea : errorOf (step (st c0 [0x8D, 0xC0] [])) = some (.decodeError 0x8D none) := by decide
theorem test_refused_mov_cs : errorOf (step (st c0 [0x8E, 0xC8] [])) = some (.decodeError 0x8E none) := by
  decide
theorem test_refused_far_call :
    errorOf (step (st c0 [0xFF, 0xD8] [])) = some (.decodeError 0xFF (some 3)) := by decide

/-- A slot that a model has taken out of `DISPATCH` (R106). -/
theorem test_removed_slot :
    errorOf (step { st c0 [0xF6, 0xE3] [] with
      params := { Params.default with removedSlots := [(0xF6, some 4)] } }) =
        some (.decodeError 0xF6 (some 4)) := by decide

/-- T4a: the host's handler runs, memory and registers are as it leaves them, and nothing is pushed. -/
theorem test_override_path :
    ends (step (withHandler (st c0 [0xCD, 0x13] []) 0x13
        (.returns { cpu := { c0 with ip := 0x0102, ax := 0x0001 }, writes := [(0x00500, 0xAA)]
                    devices := noDevices })))
      (fun t => t.cpu == { c0 with ip := 0x0102, ax := 0x0001 } && t.peek 0x00500 == 0xAA &&
        noReads t == [.query 0x13 true, .interruptOverride 0x13]) = true := by decide

/-- A failing handler ends the step, and the memory it wrote stays written (R82). -/
theorem test_override_fails :
    leaves (step (withHandler (st c0 [0xCD, 0x13] []) 0x13 (.fails [(0x00500, 0xAA)] noDevices)))
      (fun l => Memory.read l.bus.mem 0x00500 == 0xAA && l.calls.head? == some (.interruptOverride 0x13)) =
        true := by decide

/-- The second port is refused after the first has been read (R72, R82). -/
theorem test_second_port_refused :
    leaves (exec (.inImm .word 0x60) (withDevices (st c0 [] [])
      { noDevices with portInputs := [(0x0060, 0x5A)], refusedIn := [0x0061] }))
      (fun l => l.calls == [.portInRefused 0x0061, .portIn 0x0060 0x5A]) = true := by decide

/-- A ROM drops what is written to it (R399). -/
theorem test_rom_write :
    ends (step (romHost (st { c0 with ax := 0x00AA, ds := 0xF000 } [0xA2, 0x10, 0x00] [(0xF0010, 0x77)])))
      (fun t => t.peek 0xF0010 == 0x77 && noReads t == [.writeByte 0xF0010 0xAA]) = true := by decide

/-- A read of a device is one bus call, whatever byte the device answers (R63, R399). -/
theorem test_device_read :
    ends (exec (.movAccMoffs .byte 0x0002) (deviceHost (st { c0 with ds := 0xB800 } [] [])))
      (fun t => (match t.calls with
        | [.readByte a _] => a == 0xB8002
        | _ => false) && t.draws == 1 && t.cpu.ip == 0x0100) = true := by decide

/-- What a device does on a bus call leaves plain memory and the memory map as they were (R76, U20): a word
written to a device, and read back from it, beside a byte of plain memory. -/
theorem test_device_memory :
    let s := deviceHost (st { c0 with ds := 0xB800 } [] [(0x03000, 0x77)])
    ends (exec (.add (.rmReg .word (.direct 0x0002) 0)) s)
      (fun t => t.bus.mem == s.bus.mem && t.bus.devices.windows == s.bus.devices.windows &&
        t.calls.length == 4 && t.draws == 4) = true := by decide

theorem test_out_refused :
    errorOf (step (withDevices (st { c0 with ax := 0x55 } [0xE6, 0x20] [])
      { noDevices with refusedOut := [(0x0020, 0x55)] })) = some .hostProtocolError := by decide

/-- With no bus a step executes `00 00` (R372). -/
theorem test_unattached : ends (step (unattached (st { c0 with ax := 0x80 } [] [])))
    (fun t => t.cpu == { c0 with ax := 0x80, ip := 0x0102, flags := 0x0080 } && t.calls == []) = true := by
  decide

/-- "DX means DX" (R46), and a half leaves the other half alone (R21). -/
theorem test_host_accessors :
    let s := st { c0 with ax := 0x1111, dx := 0x2222 } [] []
    (s.hostSet8 .dh 0x33).hostGet .dx = 0x3322 ∧ (s.hostSet8 .dh 0x33).hostGet .ax = 0x1111 ∧
      (s.hostSetCarry true).cpu = { s.cpu with flags := 1 } := by decide

/-- After `shutdown` no bus is attached, and neither `reset` nor a step is defined (R392, R393). -/
theorem test_shutdown :
    (st c0 [0x90] []).shutdown.map
      (fun t => (t.status, t.bus.attached, t.hostReset 0 0, t.shutdown, refuses (step t))) =
        some (.shutDown, false, none, none, true) := by decide

/-- `reset` keeps the bus and sets no count of free values back (R391, log entry 16). -/
theorem test_reset :
    ({ st { c0 with ax := 1 } [0x90] [] with draws := 5 } : State).hostReset 0x1000 0x0100 =
      some { State.init 0x1000 0x0100 (st c0 [0x90] []).bus Params.default 0 with draws := 5 } := by decide

/-- After an error the error stands, the host's side is as the step left it (log entry 13), and no step is made
(R43). -/
theorem test_run_error :
    (st c0 [0x0F] []).runInstruction.map
      (fun r => (r.1, r.2.status, r.2.bus == (st c0 [0x0F] []).bus, r.2.calls, refuses (step r.2))) =
        some (.error (.decodeError 0x0F none), .error (.decodeError 0x0F none), true,
          [.readByte 0x10100 0x0F], true) := by decide

/-- The table's word for INT 13H, numbered as R115 numbers it: the opcode byte is in the high byte. -/
theorem test_table_word : decodeTableWord 16 0xCD13 = some (.int 0x13) := by decide
/-- The placed instruction runs also where a device stood at CS:IP. -/
theorem test_fetch_word_device :
    ends (step ((deviceHost (st { c0 with cs := 0xB800 } [] [])).withFetchWord 16 0xB4FF))
      (fun t => t.cpu.ax == 0xFF00) = true := by decide
theorem test_fetch_word : ends (step (State.reset.withFetchWord 16 0xB4FF))
    (fun t => t.cpu.ax == 0xFF00) = true := by decide

/-! ## The disassembler: rows of R351 -/

def dis (off : Word) (code : List Byte) : String × Nat :=
  disasm (st { c0 with ip := off } code []) 0x1000 off

theorem test_disasm_data :
    [dis 0x0300 [0xB8, 0x34, 0x12], dis 0x0300 [0x00, 0x00], dis 0x0300 [0x2E, 0x8A, 0x07],
      dis 0x0300 [0xC7, 0x06, 0x00, 0x20, 0x34, 0x12], dis 0x0300 [0x83, 0xC3, 0xFF],
      dis 0x0300 [0x80, 0x46, 0xFE, 0x05], dis 0x0300 [0x8B, 0x80, 0x34, 0x12]] =
    [("MOV AX, 0x1234", 3), ("ADD [BX+SI], AL", 2), ("MOV AL, [CS:BX]", 3),
      ("MOV WORD [0x2000], 0x1234", 6), ("ADD BX, 0xFFFF", 3), ("ADD BYTE [BP-0x02], 0x05", 4),
      ("MOV AX, [BX+SI+0x1234]", 4)] := by decide

theorem test_disasm_control :
    [dis 0x0300 [0xF3, 0x26, 0xA5], dis 0x0100 [0xEB, 0xFE], dis 0x0100 [0x74, 0x05],
      dis 0x0100 [0xE8, 0x10, 0x00], dis 0x0300 [0x9A, 0x00, 0x02, 0x00, 0x30],
      dis 0x0300 [0xFF, 0x2E, 0x00, 0x04], dis 0x0300 [0xD0, 0x26, 0x00, 0x20]] =
    [("REP ES: MOVSW", 3), ("JMP 0x0100", 2), ("JE 0x0107", 2), ("CALL 0x0113", 3),
      ("CALL 0x3000:0x0200", 5), ("JMP FAR [0x0400]", 4), ("SHL BYTE [0x2000], 1", 4)] := by decide

theorem test_disasm_absent :
    [dis 0x0300 [0x2E, 0xF4], dis 0x0300 [0xFF, 0xFF], dis 0x0300 [0x8D, 0xC0],
      dis 0x0300 [0xD0, 0xB6, 0x00, 0x20]] =
    [("??? 0xF4", 2), ("??? 0xFF", 2), ("??? 0x8D", 2), ("??? 0xD0", 4)] := by decide

/-- A slot taken out of `DISPATCH` is an absent byte also where its form would be refused: the prefix and the
opcode byte count, and the ModRM byte is not read (R106, R349). -/
theorem test_disasm_removed :
    (let s := { st c0 [0x2E, 0x8D, 0xC0] [] with params := { Params.default with removedSlots := [(0x8D, none)] } }
     (disasm s 0x1000 0x0100, disasmCalls s 0x1000 0x0100)) =
      (("??? 0x8D", 2), [.readByte 0x10100 0x2E, .readByte 0x10101 0x8D]) := by decide

/-! ## Witnesses: states and operands that meet the hypotheses of each obligation -/

theorem quiet_plain {s : State} (h : s.bus.devices.windows = []) : s.QuietMemory := by
  intro _ w hw
  rw [h] at hw
  cases hw

/-- Memory with a ROM in it is quiet too. -/
theorem quiet_rom (s : State) : (romHost s).QuietMemory := by
  intro _ w hw
  rw [List.mem_singleton.mp hw]

/-- Memory with a device in it is not. -/
theorem not_quiet_device {s : State} (h : s.bus.attached = true) : ¬(deviceHost s).QuietMemory :=
  fun hq => by cases hq h _ (List.mem_singleton.mpr rfl)

theorem stores_of {s : State} {l : List Addr} (ha : s.bus.attached = true)
    (h : l.all (fun a => s.kindAt a == none) = true) : s.Stores l :=
  ⟨ha, fun a hm => by simpa using List.all_eq_true.mp h a hm⟩

theorem stores_plain {s : State} (ha : s.bus.attached = true) (h : s.bus.devices.windows = []) (l : List Addr) :
    s.Stores l := ⟨ha, fun a _ => by simp [State.kindAt, h]⟩

/-- The host of the statements about quiet memory: plain memory below a ROM, at an operand that wraps. -/
theorem witness_quiet (c : Cpu) (code : List Byte) (mem : List (Addr × Byte)) :
    (romHost (st c code mem)).QuietMemory ∧ (romHost (st c code mem)).Stores (bytesAt .word 0x2000 0xFFFF) :=
  ⟨quiet_rom _, rfl, fun a ha => by
    simp only [bytesAt, List.mem_cons, List.not_mem_nil, or_false] at ha
    obtain rfl | rfl := ha <;> rfl⟩

theorem witness_inv : (st c0 [0x90] []).Inv := ⟨by decide, rfl, rfl, rfl⟩

/-- `InitState`: a core that runs, one after an error, and one that is shut down, with a move of R399. -/
theorem witness_InitState : (st c0 [] []).status ≠ .shutDown ∧
    ({ st c0 [] [] with status := .error .hostProtocolError } : State).status ≠ .shutDown ∧
    ({ st c0 [] [] with status := .shutDown } : State).status = .shutDown ∧
    (∀ c i b, HostMove.debugOutput true ≠ .init c i b) ∧ ∀ w d h, HostMove.debugOutput true ≠ .edit w d h :=
  ⟨by decide, by decide, by decide, nofun, nofun⟩

theorem witness_StepKeepsInv : ∃ s t : State, s.Inv ∧ step s = .next t := by
  obtain ⟨t, h⟩ := ends_next (show ends (step (st c0 [0x90] [])) (fun _ => true) = true by decide)
  exact ⟨_, t, witness_inv, h⟩

/-- No override handler has run. -/
def noHandler (t : State) : Bool :=
  t.calls.all (fun c => match c with | .interruptOverride _ => false | _ => true)

theorem noHandler_spec {t : State} (h : noHandler t = true) : ∀ v, BusCall.interruptOverride v ∉ t.calls := by
  intro v hv
  cases List.all_eq_true.mp h _ hv

/-- POPF with masks set, and INT on its real path. -/
theorem witness_StepKeepsMaskedFlags : ∃ s t s' t' : State,
    (MasksDisjoint s.params ∧ s.FlagsMasked ∧ step s = .next t ∧
      ∀ v, BusCall.interruptOverride v ∉ t.calls) ∧
    (MasksDisjoint s'.params ∧ s'.FlagsMasked ∧ step s' = .next t' ∧
      ∀ v, BusCall.interruptOverride v ∉ t'.calls) := by
  obtain ⟨t, h, hn⟩ := ends_spec (show ends (step { st { c0 with flags := 0xF002 } [0x9D] [] with
    params := { Params.default with onesMask := 0xF002, zeroMask := 0x0028 } }) noHandler = true by decide)
  obtain ⟨t', h', hn'⟩ := ends_spec (show ends (step { st { c0 with flags := 0xF002 } [0xCD, 0x13] [] with
    params := { Params.default with onesMask := 0xF002, zeroMask := 0x0028 } }) noHandler = true by decide)
  exact ⟨_, t, _, t', ⟨⟨by decide, by decide, by decide⟩, ⟨by decide, by decide⟩, h, noHandler_spec hn⟩,
    ⟨⟨by decide, by decide, by decide⟩, ⟨by decide, by decide⟩, h', noHandler_spec hn'⟩⟩

/-- No bus call wrote the address. -/
def notWritten (a : Addr) (t : State) : Bool :=
  t.calls.all (fun c => match c with | .writeByte b _ => b != a | _ => true)

theorem notWritten_spec {a : Addr} {t : State} (h : notWritten a t = true) :
    ∀ v, BusCall.writeByte a v ∉ t.calls := by
  intro v hv
  simpa using List.all_eq_true.mp h _ hv

/-- A read of a device, and INT on its real path, beside the bytes of its pushes. -/
theorem witness_StepKeepsBusReference : ∃ (s t s' t' : State) (a : Addr),
    (step s = .next t ∧ ¬s.QuietMemory ∧ (∀ v, BusCall.interruptOverride v ∉ t.calls) ∧
      ∀ v, BusCall.writeByte a v ∉ t.calls) ∧
    (step s' = .next t' ∧ t'.cpu.sp = 0x00FA ∧ (∀ v, BusCall.interruptOverride v ∉ t'.calls) ∧
      ∀ v, BusCall.writeByte a v ∉ t'.calls) := by
  obtain ⟨t, h, hn⟩ := ends_spec (show ends (step (deviceHost (st { c0 with ds := 0xB800 } [0xA0, 0x02, 0x00]
    []))) (fun t => noHandler t && notWritten 0x00100 t) = true by decide)
  obtain ⟨t', h', hn'⟩ := ends_spec (show ends (step (st c0 [0xCD, 0x13] []))
    (fun t => t.cpu.sp == 0x00FA && (noHandler t && notWritten 0x00100 t)) = true by decide)
  simp only [Bool.and_eq_true, beq_iff_eq] at hn hn'
  exact ⟨_, t, _, t', 0x00100,
    ⟨h, not_quiet_device rfl, noHandler_spec hn.1, notWritten_spec hn.2⟩,
    h', hn'.1, noHandler_spec hn'.2.1, notWritten_spec hn'.2.2⟩

/-- AAM 0 takes `Interrupt(0)`, here on its real path. -/
theorem witness_ArithmeticKeepsBit4 : ∃ (i : Instr) (s t : State), isArithLogic i = true ∧
    exec i s = .next t ∧ ∀ v, BusCall.interruptOverride v ∉ t.calls := by
  obtain ⟨t, h, hn⟩ := ends_spec (show ends (exec (.aam 0) (st { c0 with flags := 0x0010 } [] [])) noHandler =
    true by decide)
  exact ⟨_, _, t, rfl, h, noHandler_spec hn⟩

/-- A read of a device, and a copy in quiet memory. -/
theorem witness_TransfersKeepFlags : ∃ (i j : Instr) (s t s' t' : State),
    (writesNoFlag i = true ∧ exec i s = .next t ∧ ¬s.QuietMemory) ∧
    (writesNoFlag j = true ∧ exec j s' = .next t' ∧ s'.QuietMemory ∧ s'.QuietPorts) := by
  obtain ⟨t, h⟩ := ends_next (show ends (exec (.movAccMoffs .byte 0x0002)
    (deviceHost (st { c0 with ds := 0xB800 } [] []))) (fun _ => true) = true by decide)
  obtain ⟨t', h'⟩ := ends_next (show ends (exec .movsb (romHost (st { c0 with flags := 0x0400 } [] [])))
    (fun _ => true) = true by decide)
  exact ⟨_, _, _, t, _, t', ⟨rfl, h, not_quiet_device rfl⟩,
    rfl, h', quiet_rom _, fun _ => rfl⟩

theorem witness_CsOnlyByTransfer : ∃ (i : Instr) (s t : State), mayLoadCs i = false ∧ exec i s = .next t := by
  obtain ⟨t, h⟩ := ends_next (show ends (exec (.popSreg .ds) (st c0 [] [])) (fun _ => true) = true by decide)
  exact ⟨_, _, t, rfl, h⟩

theorem witness_RegisterFile : Reg16.sp ≠ .ax ∧ Reg8.ah ≠ .al ∧ Reg16.cx ≠ Reg8.pair .al ∧
    (Reg8.pair .al = .ax ∧ Reg8.isHigh .al = false) ∧ (Reg8.pair .bh = .bx ∧ Reg8.isHigh .bh = true) := by
  decide

theorem witness_HostAccessors : Reg8.dl ≠ .dh ∧ (st c0 [] []).status = .running ∧
    ({ st c0 [] [] with status := .error .hostProtocolError } : State).status ≠ .running ∧
    ({ st c0 [] [] with status := .shutDown } : State).status ≠ .running := by decide

/-- The high byte of a word at FFFF is at offset 0, and a physical address wraps at 2^20: here from the ROM
to the bytes of plain memory at its foot. -/
theorem witness_WordAccess : State.reset.bus.attached = true ∧ phys 0x2000 0xFFFF = 0x2FFFF ∧
    phys 0x2000 (0xFFFF + 1) = 0x20000 ∧ phys 0xFFFF 0x0010 = 0x00000 ∧
    (romHost State.reset).QuietMemory ∧
    (romHost State.reset).Stores [phys 0x2000 0xFFFF, phys 0x2000 (0xFFFF + 1)] ∧
    (romHost State.reset).kindAt (phys 0xF000 0xFFFF) ≠ none ∧
    (romHost State.reset).kindAt (phys 0xF000 (0xFFFF + 1)) ≠ none ∧
    (deviceHost State.reset).kindAt (phys 0xB800 0x0000) ≠ none ∧
    (deviceHost State.reset).kindAt (phys 0xB800 (0x0000 + 1)) ≠ none :=
  ⟨by decide, by decide, by decide, by decide, quiet_rom _, stores_of rfl (by decide), by decide, by decide,
    by decide, by decide⟩

theorem witness_StackAccess : (romHost (st { c0 with sp := 0x0001 } [] [])).QuietMemory ∧
    (push16 0x1234 (romHost (st { c0 with sp := 0x0001 } [] []))).peek16 0 0xFFFF = 0x1234 :=
  ⟨quiet_rom _, by decide⟩

theorem witness_UnattachedBus : (unattached (st c0 [] [])).bus.attached = false ∧
    (unattached (st c0 [] [])).Inv ∧
    isRemoved (unattached (st c0 [] [])).params.removedSlots (unattached (st c0 [] [])).code = false :=
  ⟨by decide, ⟨by decide, rfl, rfl, rfl⟩, by decide⟩

/-- Each clause of the ModRM layout, at the first and last byte of its range, and both override clauses. -/
theorem witness_ModRMResolution :
    ((0xC0 : Byte).toNat / 64 = 3 ∧ (0xFF : Byte).toNat / 64 = 3) ∧
      ((0x06 : Byte).toNat / 64 = 0 ∧ (0x06 : Byte).toNat % 8 = 6) ∧
      ((0x00 : Byte).toNat / 64 ≠ 3 ∧ ¬((0x00 : Byte).toNat / 64 = 0 ∧ (0x00 : Byte).toNat % 8 = 6)) ∧
      ((0xBF : Byte).toNat / 64 ≠ 3 ∧ ¬((0xBF : Byte).toNat / 64 = 0 ∧ (0xBF : Byte).toNat % 8 = 6)) ∧
      (st c0 [] []).segOverride = none ∧
      ({ st c0 [] [] with segOverride := some .es } : State).segOverride = some .es := by decide

/-- Instructions of both clauses, a shift by a count of 0 among them, at a word operand that wraps, and at one
in a device. -/
theorem witness_ReadModifyWriteOrder :
    (romHost (st { c0 with ss := 0x2000 } [] [])).QuietMemory ∧
    resolve (.disp8 .bp 0xFF) (romHost (st { c0 with ss := 0x2000 } [] [])) = .mem 0x2000 0xFFFF ∧
    (romHost (st { c0 with ss := 0x2000 } [] [])).Stores (bytesAt .word 0x2000 0xFFFF) ∧
    shiftCount .cl (romHost (st { c0 with ss := 0x2000 } [] [])) = 0 ∧
    [modifiesAt (.rol .word (.disp8 .bp 0xFF) .cl), modifiesAt (.adc (.rmSimm8 (.disp8 .bp 0xFF) 1)),
      modifiesAt (.xchgRmReg .word (.disp8 .bp 0xFF) 0), readsAt (.cmp (.rmImm16 (.disp8 .bp 0xFF) 1)),
      readsAt (.test (.rmImm16 (.disp8 .bp 0xFF) 1)), readsAt (.sub (.regRm .word 0 (.disp8 .bp 0xFF))),
      readsAt (.imul .word (.disp8 .bp 0xFF))].all (fun x => x == some (.word, .disp8 .bp 0xFF)) = true ∧
    resolve (.disp8 .bp 0xFF) (deviceHost (st { c0 with ss := 0xB800, bp := 0x0101 } [] [])) =
      .mem 0xB800 0x0100 ∧
    (deviceHost (st { c0 with ss := 0xB800, bp := 0x0101 } [] [])).kindAt (phys 0xB800 0x0100) =
      some .device :=
  ⟨quiet_rom _, by decide, (witness_quiet _ _ _).2, by decide, by decide, by decide, by decide⟩

theorem witness_DecodeEncode : (Instr.add (.rmImm16 (.disp16 .bpDi 0x8000) 0xFFFF)).WellFormed := by decide

theorem witness_EncodeDecode :
    decodeStream (streamOf [0x81, 0x83, 0x00, 0x80, 0xFF, 0xFF]) =
      .ok (.add (.rmImm16 (.disp16 .bpDi 0x8000) 0xFFFF)) 6 := by decide

theorem witness_AbsentRows : (∃ u, fetch8 (st c0 [0x0F] []) = (0x0F, u)) ∧
    ∃ u, fetch8 (st c0 [0xF4] []) = (0xF4, u) := ⟨⟨_, rfl⟩, ⟨_, rfl⟩⟩

/-- The byte fetched first and the fields of the one fetched after it, as the clauses of `RefusedForms` read
them. -/
def opReg (code : List Byte) : Byte × Nat × Nat :=
  let (op, u) := fetch8 (st c0 code [])
  let (x, _) := fetch8 u
  (op, x.toNat / 64, x.toNat / 8 % 8)

theorem witness_RefusedForms :
    [opReg [0x8D, 0xC0], opReg [0xC4, 0xFF], opReg [0xC5, 0xC0], opReg [0xFF, 0xD8], opReg [0xFF, 0xEF]] =
        [(0x8D, 3, 0), (0xC4, 3, 7), (0xC5, 3, 0), (0xFF, 3, 3), (0xFF, 3, 5)] ∧
      [opReg [0x8C, 0xE0], opReg [0x8C, 0x38], opReg [0x8E, 0xC8], opReg [0x8E, 0x20], opReg [0x8E, 0xFF]] =
        [(0x8C, 3, 4), (0x8C, 0, 7), (0x8E, 3, 1), (0x8E, 0, 4), (0x8E, 3, 7)] ∧
      (opReg [0x0F, 0x00]).1 = 0x0F := by decide

/-- An instruction fetched, one in quiet memory, and one taken out of `DISPATCH`. -/
theorem witness_StepRunsInstruction :
    (romHost (st c0 [0xB8, 0x34, 0x12] [])).status = .running ∧ (Instr.movRegImm16 0 0x1234).isPrefix = false ∧
    (∃ u, fetchInstr { romHost (st c0 [0xB8, 0x34, 0x12] []) with calls := [] } =
      (.ok (.movRegImm16 0 0x1234) 3, u)) ∧
    (romHost (st c0 [0xB8, 0x34, 0x12] [])).QuietMemory ∧
    decodeStream (romHost (st c0 [0xB8, 0x34, 0x12] [])).code = .ok (.movRegImm16 0 0x1234) 3 ∧
    isRemoved [] (romHost (st c0 [0xB8, 0x34, 0x12] [])).code = false ∧
    isRemoved [(0xB8, none)] (romHost (st c0 [0xB8, 0x34, 0x12] [])).code = true :=
  ⟨rfl, rfl, ⟨_, Prod.ext (by decide) rfl⟩, quiet_rom _, by decide, by decide, by decide⟩

theorem reaches_last {s : State} {d : Decoded} (h : (fetchInstr s).1 = d) (hp : Decoded.isPrefix d = false) :
    ∃ u, Reaches 0 s d u := ⟨_, Prod.ext h rfl, hp⟩

/-- `Reaches` through a prefix. -/
theorem reaches_more {k n : Nat} {s t u : State} {d : Decoded} {p : Instr} (h : (fetchInstr s).1 = .ok p n)
    (hp : p.isPrefix = true) (he : exec p (fetchInstr s).2 = .next t) (hr : Reaches k t d u) :
    Reaches (k + 1) s d u := ⟨p, n, _, t, Prod.ext h rfl, hp, he, hr⟩

/-- The state in which 2E and F3 have been fetched. -/
def afterTwo (s : State) : State :=
  { (fetchInstr { (fetchInstr s).2 with segOverride := some .cs }).2 with repeatState := true }

/-- Two prefixes and what follows them. -/
theorem reaches_two {s : State} {d : Decoded} (h0 : (fetchInstr s).1 = .ok .segCs 1)
    (h1 : (fetchInstr { (fetchInstr s).2 with segOverride := some .cs }).1 = .ok .rep 1)
    (h2 : (fetchInstr (afterTwo s)).1 = d) (hp : Decoded.isPrefix d = false) :
    Reaches 2 s d (fetchInstr (afterTwo s)).2 :=
  reaches_more h0 rfl rfl (reaches_more h1 rfl rfl ⟨Prod.ext h2 rfl, hp⟩)

/-- 2E and F3 before an instruction that completes, an absent byte, a refused form, and a slot taken out of
`DISPATCH`. -/
def twoThen (code : List Byte) (removed : List Slot) : State :=
  { romHost (st c0 (0x2E :: 0xF3 :: code) []) with
    calls := [], params := { Params.default with removedSlots := removed } }

theorem reaches_movsb : Reaches 2 (twoThen [0xA4] []) (.ok .movsb 1) (fetchInstr (afterTwo (twoThen [0xA4] []))).2 :=
  reaches_two (by decide) (by decide) (by decide) rfl

theorem reaches_absent : Reaches 2 (twoThen [0xF4] []) (.ok (.absentOpcode 0xF4) 1)
    (fetchInstr (afterTwo (twoThen [0xF4] []))).2 :=
  reaches_two (by decide) (by decide) (by decide) rfl

theorem reaches_refused : Reaches 2 (twoThen [0x8D, 0xC0] []) (.refusedForm 0x8D none 2)
    (fetchInstr (afterTwo (twoThen [0x8D, 0xC0] []))).2 :=
  reaches_two (by decide) (by decide) (by decide) rfl

theorem reaches_removed : Reaches 2 (twoThen [0xA4] [(0xA4, none)]) (.refusedForm 0xA4 none 1)
    (fetchInstr (afterTwo (twoThen [0xA4] [(0xA4, none)]))).2 :=
  reaches_two (by decide) (by decide) (by decide) rfl

/-- Each clause of `PrefixChain`: a next state, a fault of the instruction, and a slot taken out. -/
theorem witness_PrefixChain : 2 < prefixBound ∧ (twoThen [0xA4] []).QuietMemory ∧
    (∃ u t, (twoThen [0xA4] []).status = .running ∧ Reaches 2 (twoThen [0xA4] []) (.ok .movsb 1) u ∧
      exec .movsb u = .next t) ∧
    (∃ u e, Reaches 2 (twoThen [0xF4] []) (.ok (.absentOpcode 0xF4) 1) u ∧
      exec (.absentOpcode 0xF4) u = .fault e) ∧
    (∃ u, Reaches 2 (twoThen [0xA4] [(0xA4, none)]) (.refusedForm 0xA4 none 1) u) := by
  obtain ⟨t, h⟩ := ends_next (show ends (exec .movsb (fetchInstr (afterTwo (twoThen [0xA4] []))).2)
    (fun _ => true) = true by decide)
  exact ⟨by decide, quiet_rom _, ⟨_, t, rfl, reaches_movsb, h⟩, ⟨_, _, reaches_absent, rfl⟩,
    ⟨_, reaches_removed⟩⟩

/-- Memory in which each of the first `n` bytes is the override 26. -/
@[irreducible] def overrideBytes (n : Nat) : List Host.Cell := (List.range n).map (fun k => (k, 0x26))

/-- A segment in which every byte is the override 26. -/
def prefixSegment : State :=
  { State.reset with
    cpu := Cpu.initial 0 0 0
    bus := { Bus.plain with mem := overrideBytes 65536 } }

theorem read_overrideBytes {n a : Nat} (h : a < n) : Memory.read (overrideBytes n) a = 0x26 := by
  have : ∀ l : List Nat, a ∈ l → Memory.read (l.map (fun k => (k, 0x26))) a = 0x26 := by
    intro l hl
    induction l with
    | nil => cases hl
    | cons k l ih =>
      simp only [List.map_cons, Memory.read]
      split
      · rfl
      · next hk => exact ih ((List.mem_cons.mp hl).resolve_left (fun e => hk e.symm))
  unfold overrideBytes
  exact this _ (List.mem_range.mpr h)

theorem witness_PrefixHang : prefixSegment.status = .running ∧ prefixSegment.QuietMemory ∧
    ∀ off : Word, prefixSegment.peek8 prefixSegment.cpu.cs off ∈
      ([0x26, 0x2E, 0x36, 0x3E, 0xF3] : List Byte) := by
  refine ⟨rfl, quiet_plain rfl, fun off => ?_⟩
  have h : (phys 0 off).toNat < 65536 := by
    have := off.isLt
    simp [phys]
    omega
  have : prefixSegment.peek8 0 off = 0x26 :=
    (if_pos (e := (0 : Byte)) (show prefixSegment.bus.attached = true from rfl)).trans
      (read_overrideBytes h)
  rw [show prefixSegment.cpu.cs = 0 from rfl, this]
  decide

/-- Each way for a step to end: a next state, the errors, HostProtocolError from each kind of call, and each
state that refuses; and an instruction that always completes. -/
theorem witness_StepOutcomes :
    (∃ t, step (st c0 [0x90] []) = .next t) ∧
      (∃ left, step (st c0 [0xFE, 0x38] []) = .fault (.decodeError 0xFE (some 7) left)) ∧
      (∃ left, step (withDevices (st c0 [0xE4, 0x60] []) { noDevices with refusedIn := [0x0060] }) =
        .fault (.hostProtocolError left)) ∧
      (∃ left, step (withDevices (st c0 [0xE6, 0x20] []) { noDevices with refusedOut := [(0x0020, 0x00)] }) =
        .fault (.hostProtocolError left)) ∧
      (∃ left, step (withHandler (st c0 [0xCC] []) 0x03 (.fails [] noDevices)) =
        .fault (.hostProtocolError left)) ∧
      ({ st c0 [] [] with status := .error .hostProtocolError } : State).status ≠ .running ∧
      ({ st c0 [] [] with status := .shutDown } : State).status ≠ .running ∧
      ((Instr.stosb).WellFormed ∧ isAbsentRow .stosb = false ∧ accessesPort .stosb = false ∧
        mayInterrupt .stosb = false) :=
  ⟨ends_next (p := fun _ => true) (by decide), errorOf_decode (by decide), errorOf_host (by decide),
    errorOf_host (by decide), errorOf_host (by decide), by decide, by decide, by decide⟩

/-- `MovForms`: a byte and a word operand in memory. -/
theorem witness_MovForms : (romHost (st { c0 with ds := 0x2000 } [] [])).QuietMemory ∧
    resolve (.direct 0xFFFF) (romHost (st { c0 with ds := 0x2000 } [] [])) = .mem 0x2000 0xFFFF ∧
    (romHost (st { c0 with ds := 0x2000 } [] [])).Stores (bytesAt .word 0x2000 0xFFFF) :=
  ⟨quiet_rom _, by decide, (witness_quiet _ _ _).2⟩

theorem witness_MovAccumulatorSegment : (romHost (st { c0 with ds := 0x2000 } [] [])).QuietMemory ∧
    (romHost (st { c0 with ds := 0x2000 } [] [])).Stores (bytesAt .word 0x2000 0xFFFF) ∧
    Sreg.es ≠ .cs ∧ Sreg.ss ≠ .cs ∧ Sreg.ds ≠ .cs :=
  ⟨quiet_rom _, (witness_quiet _ _ _).2, by decide, by decide, by decide⟩

theorem witness_PushForms : (romHost (st { c0 with ss := 0x2000, sp := 0x0001 } [] [])).QuietMemory ∧
    (romHost (st { c0 with ss := 0x2000, sp := 0x0001 } [] [])).Stores (bytesAt .word 0x2000 (0x0001 - 2)) ∧
    (4 : RegIx) = Reg16.sp.ix ∧ RM.reg 4 ≠ .reg 3 :=
  ⟨quiet_rom _, stores_of rfl (by decide), by decide, by decide⟩

theorem witness_PopForms : (romHost (st c0 [] [(0x00100, 0x34), (0x00101, 0x12)])).QuietMemory ∧
    Sreg.ds ≠ .cs ∧ (romHost (st c0 [] [(0x00100, 0x34), (0x00101, 0x12)])).peek16 0 0x0100 = 0x1234 :=
  ⟨quiet_rom _, by decide, by decide⟩

theorem witness_XchgNopXlat : (romHost (st { c0 with ds := 0x2000 } [] [])).QuietMemory ∧
    resolve (.direct 0xFFFF) (romHost (st { c0 with ds := 0x2000 } [] [])) = .mem 0x2000 0xFFFF ∧
    (romHost (st { c0 with ds := 0x2000 } [] [])).Stores (bytesAt .word 0x2000 0xFFFF) :=
  ⟨quiet_rom _, by decide, (witness_quiet _ _ _).2⟩

theorem witness_AddressLoads : (romHost (st { c0 with ds := 0x2000 } [] [])).QuietMemory ∧
    resolve (.direct 0xFFFE) (romHost (st { c0 with ds := 0x2000 } [] [])) = .mem 0x2000 0xFFFE ∧
    resolve (.base .bpSi) { st c0 [] [] with segOverride := some .cs } = .mem 0x1000 0x0000 :=
  ⟨quiet_rom _, by decide, by decide⟩

theorem witness_JmpForms : (romHost (st c0 [] [])).QuietMemory ∧
    resolve (.direct 0x0400) (romHost (st c0 [] [])) = .mem 0x0000 0x0400 := ⟨quiet_rom _, by decide⟩

theorem passive_plain {s : State} (h : s.bus.devices.activePorts = []) (p : Word) : s.PassivePort p := by
  intro _
  rw [h]
  exact List.not_mem_nil

/-- A host with a device at port 0, the second of the pair that begins at FFFF. -/
def secondActive (s : State) : State := withDevices s { noDevices with activePorts := [0x0000] }

theorem passive_secondActive (s : State) : (secondActive s).PassivePort 0xFFFF := by
  intro _
  show (0xFFFF : Word) ∉ [0x0000]
  decide

/-- The clauses of `InPort`, at a port pair that wraps, and with a device at either port. -/
theorem witness_InPort : (unattached (st c0 [] [])).bus.attached = false ∧ (st c0 [] []).bus.attached = true ∧
    ((Instr.inImm .word 0xFF = .inImm .word 0xFF ∧ (0x00FF : Word) = (0xFF : Byte).zeroExtend 16) ∧
      (Instr.inDx .word = .inDx .word ∧ (0xFFFF : Word) = (st { c0 with dx := 0xFFFF } [] []).cpu.dx)) ∧
    (st c0 [] []).PassivePort 0xFFFF ∧ (st c0 [] []).PassivePort (0xFFFF + 1) ∧
    (0xFFFF : Word) ∉ (st c0 [] []).bus.devices.refusedIn ∧
    (0xFFFF + 1 : Word) ∉ (st c0 [] []).bus.devices.refusedIn ∧
    (0xFFFF : Word) ∉ ({ noDevices with refusedIn := [0x0000] } : Devices).refusedIn ∧
    (0xFFFF + 1 : Word) ∈ ({ noDevices with refusedIn := [0x0000] } : Devices).refusedIn ∧
    (0x0060 : Word) ∈ ({ noDevices with activePorts := [0x0060] } : Devices).activePorts ∧
    ({ noDevices with portInputs := [(0x0060, 0x5A)] } : Devices).portInputs.lookup 0x0060 = some 0x5A ∧
    ((secondActive (st c0 [] [])).bus.attached = true ∧ (secondActive (st c0 [] [])).PassivePort 0xFFFF ∧
      (0xFFFF : Word) ∉ (secondActive (st c0 [] [])).bus.devices.refusedIn ∧
      (0xFFFF + 1 : Word) ∈ (secondActive (st c0 [] [])).bus.devices.activePorts) :=
  ⟨by decide, by decide, by decide, passive_plain rfl _, passive_plain rfl _, by decide, by decide, by decide,
    by decide, by decide, by decide, by decide, passive_secondActive _, by decide, by decide⟩

/-- The clauses of `OutPort`, at a port pair that wraps, and with a device at either port. -/
theorem witness_OutPort : (unattached (st c0 [] [])).bus.attached = false ∧ (st c0 [] []).bus.attached = true ∧
    ((Instr.outImm .word 0xFF = .outImm .word 0xFF ∧ (0x00FF : Word) = (0xFF : Byte).zeroExtend 16) ∧
      (Instr.outDx .word = .outDx .word ∧ (0xFFFF : Word) = (st { c0 with dx := 0xFFFF } [] []).cpu.dx)) ∧
    (st c0 [] []).PassivePort 0xFFFF ∧ (st c0 [] []).PassivePort (0xFFFF + 1) ∧
    ((0xFFFF : Word), getReg8 { c0 with ax := 0x1234 } .al) ∉
      ({ noDevices with refusedOut := [(0x0000, 0x12)] } : Devices).refusedOut ∧
    ((0xFFFF + 1 : Word), getReg8 { c0 with ax := 0x1234 } .ah) ∈
      ({ noDevices with refusedOut := [(0x0000, 0x12)] } : Devices).refusedOut ∧
    ((0xFFFF : Word), getReg8 { c0 with ax := 0x1234 } .al) ∈
      ({ noDevices with refusedOut := [(0xFFFF, 0x34)] } : Devices).refusedOut ∧
    (0x0060 : Word) ∈ ({ noDevices with activePorts := [0x0060] } : Devices).activePorts ∧
    ((secondActive (st c0 [] [])).bus.attached = true ∧ (secondActive (st c0 [] [])).PassivePort 0xFFFF ∧
      ((0xFFFF : Word), getReg8 c0 .al) ∉ (secondActive (st c0 [] [])).bus.devices.refusedOut ∧
      (0xFFFF + 1 : Word) ∈ (secondActive (st c0 [] [])).bus.devices.activePorts) :=
  ⟨by decide, by decide, by decide, passive_plain rfl _, passive_plain rfl _, by decide, by decide, by decide,
    by decide, by decide, passive_secondActive _, by decide, by decide⟩

/-- Both clauses of `AddAdc`, the second with the carry set. -/
theorem witness_AddAdc : (romHost (st { c0 with flags := 0x0001 } [] [])).QuietMemory ∧
    (Instr.add (.accImm8 1) = .add (.accImm8 1) ∧ false = false) ∧
      (Instr.adc (.accImm16 0xFFFF) = .adc (.accImm16 0xFFFF) ∧
        true = getFlag (romHost (st { c0 with flags := 0x0001 } [] [])).cpu.flags .cf) :=
  ⟨quiet_rom _, by decide, by decide⟩

theorem witness_SubSbbCmp : (romHost (st { c0 with flags := 0x0001 } [] [])).QuietMemory ∧
    (Instr.sub (.accImm8 1) = .sub (.accImm8 1) ∧ false = false) ∧
      (Instr.sbb (.rmSimm8 (.reg 0) 0xFF) = .sbb (.rmSimm8 (.reg 0) 0xFF) ∧
        true = getFlag (romHost (st { c0 with flags := 0x0001 } [] [])).cpu.flags .cf) ∧
      (Instr.cmp (.accImm8 1) = .cmp (.accImm8 1) ∧ Instr.cmp (.accImm8 1) ≠ .sub (.accImm8 1)) :=
  ⟨quiet_rom _, by decide, by decide, by decide⟩

theorem witness_AndOrXorTest : (romHost (st { c0 with ax := 0x00F0 } [] [])).QuietMemory ∧
    ∃ (i : Instr) (r : Byte), i = .or (.accImm8 0x3C) ∧
      r = (romHost (st { c0 with ax := 0x00F0 } [] [])).value .byte
          (aluDst (.accImm8 0x3C) (romHost (st { c0 with ax := 0x00F0 } [] []))) |||
        (romHost (st { c0 with ax := 0x00F0 } [] [])).value .byte
          (aluSrc (.accImm8 0x3C) (romHost (st { c0 with ax := 0x00F0 } [] []))) ∧ r = 0xFC :=
  ⟨quiet_rom _, _, _, rfl, rfl, by decide⟩

theorem witness_IncDecNegNot : (romHost (st { c0 with ds := 0x2000 } [] [])).QuietMemory ∧
    Operand.mem 0x2000 0xFFFF = resolve (.direct 0xFFFF) (romHost (st { c0 with ds := 0x2000 } [] [])) ∧
      (∃ r, Instr.incReg 4 = .incReg r ∧ Width.word = .word ∧ Operand.reg 4 = .reg r) ∧
      (∃ r, Instr.decReg 7 = .decReg r ∧ Width.word = .word ∧ Operand.reg 7 = .reg r) :=
  ⟨quiet_rom _, by decide, ⟨4, rfl, rfl, rfl⟩, ⟨7, rfl, rfl, rfl⟩⟩

/-- Products at the ends of both clauses of `MulImul`. -/
theorem witness_MulImul : (romHost (st { c0 with ax := 0x00FF } [] [])).QuietMemory ∧
    (0xFF * 0xFF : Nat) = (getReg8 (romHost (st { c0 with ax := 0x00FF } [] [])).cpu .al).toNat * (0xFF : Byte).toNat ∧
      (16384 : Int) = (0x80 : Byte).toInt * (0x80 : Byte).toInt ∧
      (127 : Int) = (0x7F : Byte).toInt * (0x01 : Byte).toInt :=
  ⟨quiet_rom _, by decide, by decide, by decide⟩

/-- The dividends and divisors of `DivIdiv` at the ends of the ranges of the quotient; 3 is BX. -/
theorem witness_DivIdiv : (romHost (st c0 [] [])).QuietMemory ∧
    (0x0FFF : Word).toNat / 16 = 0xFF ∧ (0xFFFF * 65536 + 0xFFFF : Nat) / 0x10000 = 0xFFFF ∧
      (127 : Int).tdiv 1 = 127 ∧ (-127 : Int).tdiv 1 = -127 ∧ (256 : Int).tdiv (-2) = -128 ∧
      (32767 : Int).tdiv 1 = 32767 ∧ (-65536 : Int).tdiv 2 = -32768 ∧ (-32767 : Int).tdiv 1 = -32767 :=
  ⟨quiet_rom _, by decide⟩

/-- One step past those ends: the divide error of `DivideError`. -/
theorem witness_DivideError : (romHost (st c0 [] [])).QuietMemory ∧
    (st c0 [] []).value .byte (.reg 3) = 0 ∧ (st c0 [] []).value .word (.reg 3) = 0 ∧
      0xFF < (0x1000 : Word).toNat / 16 ∧ 0xFFFF < (0x10000 * 65536 : Nat) / 0x10000 ∧
      127 < (128 : Int).tdiv 1 ∧ (-128 : Int).tdiv 1 < -127 ∧ (-129 : Int).tdiv 1 < -128 ∧
      32767 < (32768 : Int).tdiv 1 ∧ (-32768 : Int).tdiv 1 < -32767 := ⟨quiet_rom _, by decide⟩

theorem witness_ExtendAndAdjust : (0x0A : Byte) ≠ 0 ∧ (0x63 : Byte) / 0x0A = 0x09 ∧ (0x63 : Byte) % 0x0A = 0x09 := by
  decide

/-- The counts of the clauses of `ShiftRotate`: 0, 1, and all eight bits of CL. -/
theorem witness_ShiftRotate : (romHost (st c0 [] [])).QuietMemory ∧ shiftCount .cl (st c0 [] []) = 0 ∧ shiftCount .one (st c0 [] []) = 1 ∧
    shiftCount .cl (st { c0 with cx := 0x01FF } [] []) = 255 ∧ (0x01FF : Word).toNat % 256 = 255 :=
  ⟨quiet_rom _, by decide⟩

theorem witness_ShiftClosedForms : 1 ≤ 1 ∧ 1 ≤ Width.word.bits ∧ 1 ≤ 255 := by decide

theorem witness_StringOnce : (romHost (st { c0 with es := 0x2000, di := 0xFFFF } [] [])).QuietMemory ∧
    (romHost (st { c0 with es := 0x2000, di := 0xFFFF } [] [])).repeatState = false ∧
    (romHost (st { c0 with es := 0x2000, di := 0xFFFF } [] [])).Stores (bytesAt .word 0x2000 0xFFFF) :=
  ⟨quiet_rom _, rfl, (witness_quiet _ _ _).2⟩

/-- The clauses of `StringRepeat`: CX = 0; an iteration that ends the loop, since the bytes compared differ;
and one that goes on. -/
theorem witness_StringRepeat : Instr.cmpsb ∈ stringInstrs .byte ∧ testsZf .cmpsb = true ∧
    Instr.lodsw ∈ stringInstrs .word ∧ testsZf .lodsw = false ∧
    ({ st c0 [] [] with repeatState := true } : State).cpu.cx = 0 ∧
    ({ st { c0 with cx := 0xFFFF } [] [] with repeatState := true } : State).cpu.cx ≠ 0 ∧
    (romHost (st { c0 with cx := 0xFFFF } [] [])).QuietMemory ∧
    (∃ u, exec .cmpsb (romHost (st { c0 with cx := 0xFFFF, es := 0x2000 } [] [(0x20000, 0x01)])) = .next u ∧
      getFlag u.cpu.flags .zf = false) ∧
    (∃ u, exec .cmpsb (romHost (st { c0 with cx := 0xFFFF, es := 0x2000 } [] [])) = .next u ∧
      getFlag u.cpu.flags .zf = true) := by
  obtain ⟨u, h, hz⟩ := ends_spec (show ends (exec .cmpsb (romHost (st { c0 with cx := 0xFFFF, es := 0x2000 } []
    [(0x20000, 0x01)]))) (fun u => getFlag u.cpu.flags .zf == false) = true by decide)
  obtain ⟨v, k, kz⟩ := ends_spec (show ends (exec .cmpsb (romHost (st { c0 with cx := 0xFFFF, es := 0x2000 } []
    []))) (fun u => getFlag u.cpu.flags .zf == true) = true by decide)
  exact ⟨by decide, by decide, by decide, by decide, by decide, by decide, quiet_rom _,
    ⟨u, h, by simpa using hz⟩, ⟨v, k, by simpa using kz⟩⟩

/-- A fill of 65535 bytes. -/
theorem witness_RepStosbFills : ∃ (s : State) (l : List Addr), s.repeatState = true ∧ s.cpu.cx = 0xFFFF ∧
    s.QuietMemory ∧ getFlag s.cpu.flags .df = false ∧
    l = (List.range s.cpu.cx.toNat).map (fun k => phys s.cpu.es (s.cpu.di + BitVec.ofNat 16 k)) ∧ s.Stores l :=
  ⟨{ st { c0 with cx := 0xFFFF } [] [] with repeatState := true }, _, rfl, rfl, quiet_plain rfl, by decide, rfl,
    stores_plain rfl rfl _⟩

theorem witness_CallForms : (romHost (st { c0 with bx := 0xFFFE } [] [])).QuietMemory ∧
    resolve (.base .bx) (romHost (st { c0 with bx := 0xFFFE } [] [])) = .mem 0x0000 0xFFFE ∧
    (0x1234 : Word) = (st c0 [] [(0x0FFFE, 0x34), (0x0FFFF, 0x12)]).peek16 0x0000 0xFFFE ∧
    (romHost (st { c0 with bx := 0xFFFE } [] [])).Stores (bytesAt .word 0 (0x0100 - 2) ++
      bytesAt .word 0 (0x0100 - 4)) :=
  ⟨quiet_rom _, by decide, by decide, stores_of rfl (by decide)⟩

theorem witness_ConditionalJumps : true = getFlag (st { c0 with flags := 0x08C5 } [] []).cpu.flags .cf ∧
    true = getFlag (st { c0 with flags := 0x08C5 } [] []).cpu.flags .of := by decide

theorem witness_Loops : (Instr.loop 1 = .loop 1 ∧ true = true) ∧
    (Instr.loopz 1 = .loopz 1 ∧ true = getFlag (st { c0 with flags := 0x0040 } [] []).cpu.flags .zf) ∧
    (Instr.loopnz 1 = .loopnz 1 ∧ true = !getFlag (st c0 [] []).cpu.flags .zf) := by decide

theorem witness_Returns : (romHost (st { c0 with sp := 0xFFFF } [] [])).QuietMemory := quiet_rom _

theorem real_of {s : State} {v : Byte} (h : s.bus.attached = true → queryAnswer v s = false) :
    s.NotOverridden v := h

/-- Vectors that take the real path, on an attached bus and without one, and the stack of the pushes. -/
theorem witness_InterruptRealPath : (romHost (st { c0 with flags := 0x0800 } [] [])).NotOverridden 0x13 ∧
    (unattached (st c0 [] [])).NotOverridden 0x13 ∧
    getFlag (romHost (st { c0 with flags := 0x0800 } [] [])).cpu.flags .of = true ∧
    getFlag (st c0 [] []).cpu.flags .of = false ∧
    (romHost (st { c0 with flags := 0x0800 } [] [])).QuietMemory ∧
    (romHost (st { c0 with flags := 0x0800 } [] [])).Stores (bytesAt .word 0 (0x0100 - 2) ++
      bytesAt .word 0 (0x0100 - 4) ++ bytesAt .word 0 (0x0100 - 6)) :=
  ⟨real_of (by decide), real_of (by decide), by decide, by decide, quiet_rom _, stores_of rfl (by decide)⟩

/-- A handler that fails and one that returns. -/
theorem witness_InterruptOverridePath :
    queryAnswer 0x13 (withHandler (st c0 [] []) 0x13 (.fails [(0x00500, 0xAA)] noDevices)) = true ∧
      (∃ ws d, handlerAnswer 0x13 { withHandler (st c0 [] []) 0x13 (.fails [(0x00500, 0xAA)] noDevices) with
        draws := 1 } = .fails ws d) ∧
      queryAnswer 0x04 (withHandler (st { c0 with flags := 0x0800 } [] []) 0x04
        (.returns { cpu := c0, writes := [], devices := noDevices })) = true ∧
      getFlag (st { c0 with flags := 0x0800 } [] []).cpu.flags .of = true ∧
      ∃ e, handlerAnswer 0x04 { withHandler (st { c0 with flags := 0x0800 } [] []) 0x04
        (.returns { cpu := c0, writes := [], devices := noDevices }) with draws := 1 } = .returns e :=
  ⟨by decide, ⟨_, _, rfl⟩, by decide, by decide, ⟨_, rfl⟩⟩

/-- A stack whose words wrap in its segment. -/
theorem witness_InterruptReturn : (romHost (st { c0 with sp := 0x0003 } [] [])).QuietMemory ∧
    (romHost (st { c0 with sp := 0x0003 } [] [])).NotOverridden 0x13 ∧
    (romHost (st { c0 with sp := 0x0003 } [] [])).Stores (bytesAt .word 0 (0x0003 - 2) ++
      bytesAt .word 0 (0x0003 - 4) ++ bytesAt .word 0 (0x0003 - 6)) :=
  ⟨quiet_rom _, real_of (by decide), stores_of rfl (by decide)⟩

theorem witness_FlagControl : (Instr.cmc, Flag.cf, !getFlag (st c0 [] []).cpu.flags .cf) =
    (.cmc, .cf, true) := by decide

/-- Each clause of `DisassemblerParity`: a running core, with quiet memory and with a device; an instruction in
`DISPATCH`, an absent byte, a refused form and a slot taken out. -/
theorem witness_DisassemblerParity :
    ((romHost (st c0 [0x90] [])).status = .running ∧ (romHost (st c0 [0x90] [])).QuietMemory ∧
      (deviceHost (st c0 [0x90] [])).status = .running) ∧ 2 < prefixBound ∧
    ((∃ u, Reaches 2 (twoThen [0xA4] []) (.ok .movsb 1) u) ∧ isAbsentRow .movsb = false) ∧
    ((∃ u, Reaches 2 (twoThen [0xF4] []) (.ok (.absentOpcode 0xF4) 1) u) ∧
      isAbsentRow (.absentOpcode 0xF4) = true) ∧
    (∃ u, Reaches 2 (twoThen [0x8D, 0xC0] []) (.refusedForm 0x8D none 2) u) ∧
    ∃ u, Reaches 2 (twoThen [0xA4] [(0xA4, none)]) (.refusedForm 0xA4 none 1) u :=
  ⟨⟨rfl, quiet_rom _, rfl⟩, by decide, ⟨⟨_, reaches_movsb⟩, rfl⟩, ⟨⟨_, reaches_absent⟩, rfl⟩, ⟨_, reaches_refused⟩, ⟨_, reaches_removed⟩⟩

end Sys2Proof.Tests
end

section
/-!
PROOFS. What no step changes: the parameters, the bus reference and, where no override handler runs, every
byte that no bus call writes (00_scope.md R6; 10_state.md R40; 20_memory.md R76, R83).
-/

namespace Sys2Proof.Machine

/-- Every byte stands after the fetches of the prefix loop as it stood before them, whatever the host does
(R76). -/
theorem reaches_peek {k : Nat} {s u : State} {d : Decoded} (h : Reaches k s d u) (a : Addr) :
    u.peek a = s.peek a := by
  obtain ⟨-, -, hattached, -⟩ := reaches_keeps h
  simp only [State.peek, hattached, reaches_mem h]

/-- Settles O5: the fetches of the prefix loop keep all three, and so does the instruction they lead to, whose
`Runs` says which bytes it may change. -/
theorem stepKeepsBusReference : Obligations.StepKeepsBusReference := by
  intro s t hstep
  obtain ⟨-, k, i, n, u, v, -, hreach, hexec, rfl⟩ := step_next hstep
  obtain ⟨hparams, -, hattached, -, hprefix, -⟩ := reaches_keeps hreach
  have hout := exec_outcome i u hprefix
  rw [hexec] at hout
  obtain ⟨hcore, -, hruns⟩ := hout
  refine ⟨hcore.params.trans hparams, hcore.attached.trans hattached, fun hnone a hunwritten => ?_⟩
  calc (endStep v).peek a
    _ = v.peek a := endStep_peek v a
    _ = u.peek a := (hruns hnone).memory a hunwritten
    _ = s.peek a := reaches_peek hreach a

end Sys2Proof.Machine
end

section
/-!
PROOFS. The invariant of a run: it holds after reset and every step keeps it (10_state.md R37, R38, R43, R44;
30_encoding.md R94).
-/

namespace Sys2Proof.Machine

/-- Settles O2: nothing is listed in memory, no prefix is pending and no error stands. -/
theorem resetInv : Obligations.ResetInv where
  memory := Memory.wf_reset
  noOverride := rfl
  noRepeat := rfl
  running := rfl

/-- Settles O3: the fetches of the prefix loop and the instruction they lead to keep the canonical form of memory
and the status, and the end of the step clears the decode-time state. -/
theorem stepKeepsInv : Obligations.StepKeepsInv := by
  intro s t hinv hstep
  obtain ⟨-, k, i, n, u, v, -, hreach, hexec, rfl⟩ := step_next hstep
  obtain ⟨-, hstatus, -, hfetched, hprefix, -⟩ := reaches_keeps hreach
  have hout := exec_outcome i u hprefix
  rw [hexec] at hout
  obtain ⟨hcore, hwf, -⟩ := hout
  exact { memory := hwf (hfetched hinv.memory)
          noOverride := rfl
          noRepeat := rfl
          running := (hcore.status.trans hstatus).trans hinv.running }

end Sys2Proof.Machine
end

section
/-!
PROOFS. The register file: words and halves read back, and the numbering of the registers (10_state.md R21, R23
to R26).
-/

namespace Sys2Proof.Machine

@[simp] theorem getReg16_putReg16_same (c : Cpu) (p : Reg16) (x : Word) : getReg16 (putReg16 c p x) p = x := by
  cases p <;> rfl

theorem getReg16_putReg16_other (c : Cpu) {p q : Reg16} (x : Word) (h : q ≠ p) :
    getReg16 (putReg16 c p x) q = getReg16 c q := by
  cases p <;> cases q <;> simp_all [getReg16, putReg16]

@[simp] theorem ip_putReg16 (c : Cpu) (p : Reg16) (x : Word) : (putReg16 c p x).ip = c.ip := by
  cases p <;> rfl

@[simp] theorem flags_putReg16 (c : Cpu) (p : Reg16) (x : Word) : (putReg16 c p x).flags = c.flags := by
  cases p <;> rfl

@[simp] theorem getSreg_putReg16 (c : Cpu) (p : Reg16) (x : Word) (sr : Sreg) :
    getSreg (putReg16 c p x) sr = getSreg c sr := by
  cases p <;> cases sr <;> rfl

/-- A write of a half is a write of its pair (R21). -/
theorem putReg8_eq (c : Cpu) (r : Reg8) (v : Byte) : ∃ y, putReg8 c r v = putReg16 c (Reg8.pair r) y := by
  unfold putReg8
  split <;> exact ⟨_, rfl⟩

/-- A byte register is told from the others by its pair and its half (R24). -/
theorem Reg8.eq_of_pair_of_isHigh {q r : Reg8} (hp : Reg8.pair q = Reg8.pair r)
    (hh : Reg8.isHigh q = Reg8.isHigh r) : q = r := by
  cases q <;> cases r <;> simp_all [Reg8.pair, Reg8.isHigh]

@[simp] theorem getReg8_putReg8_same (c : Cpu) (r : Reg8) (v : Byte) : getReg8 (putReg8 c r v) r = v := by
  cases h : Reg8.isHigh r <;> simp [getReg8, putReg8, h]

theorem getReg8_putReg8_other (c : Cpu) {q r : Reg8} (v : Byte) (h : q ≠ r) :
    getReg8 (putReg8 c r v) q = getReg8 c q := by
  by_cases hp : Reg8.pair q = Reg8.pair r
  · have hh : Reg8.isHigh q ≠ Reg8.isHigh r := fun e => h (Reg8.eq_of_pair_of_isHigh hp e)
    cases hq : Reg8.isHigh q <;> cases hr : Reg8.isHigh r <;> simp_all [getReg8, putReg8]
  · obtain ⟨y, hy⟩ := putReg8_eq c r v
    simp only [getReg8, hy, getReg16_putReg16_other c y hp]

/-- Settles O9: a write of a half is a write of its pair, and a write of a pair reaches no other register. -/
theorem registerFile : Obligations.RegisterFile := by
  intro c r p v x
  obtain ⟨y, hy⟩ := putReg8_eq c r v
  refine ⟨getReg16_putReg16_same c p x, fun q hq => getReg16_putReg16_other c x hq,
    getReg8_putReg8_same c r v, fun q hq => getReg8_putReg8_other c v hq, fun q hq => ?_, ?_,
    ip_putReg16 c p x, flags_putReg16 c p x, ?_, ?_, fun sr => ⟨getSreg_putReg16 c p x sr, ?_⟩⟩
  · rw [hy, getReg16_putReg16_other c y hq]
  · rintro rfl
    simp only [getReg8, getReg16_putReg16_same]
  · rw [hy, ip_putReg16]
  · rw [hy, flags_putReg16]
  · rw [hy, getSreg_putReg16]

/-- Byte register `i` is a half of word register `i` or `i - 4` (R24). -/
theorem Reg8.pair_ofIx (i : RegIx) :
    Reg8.pair (Reg8.ofIx i) = Reg16.ofIx (if i.toNat < 4 then i else i - 4) := by
  revert i; decide

/-- The byte registers from 4 on are the high halves (R24). -/
theorem Reg8.isHigh_ofIx (i : RegIx) : Reg8.isHigh (Reg8.ofIx i) = decide (¬i.toNat < 4) := by
  revert i; decide

/-- Settles O10: the tables by computation, a byte register by its pair and its half. -/
theorem registerNumbers : Obligations.RegisterNumbers := by
  refine ⟨by decide, by decide, by decide, fun c i => ?_⟩
  show getReg8 c (Reg8.ofIx i) = _
  simp only [getReg8, Reg8.isHigh_ofIx, Reg8.pair_ofIx]
  by_cases h : i.toNat < 4 <;> simp [h, getReg]

end Sys2Proof.Machine
end

section
/-!
PROOFS. The host's accessors: what they set and get, what they leave alone, and when they are defined
(10_state.md R43, R45, R46; 70_reset_and_hazards.md R392).
-/

namespace Sys2Proof.Machine

theorem hostGet_hostSet (s : State) (r : HostReg) (v : Word) : (s.hostSet r v).hostGet r = v := by
  cases r <;> rfl

theorem hostSet_rest (s : State) (r : HostReg) (v : Word) : SameRest s (s.hostSet r v) := by
  cases r <;> exact (SameRest.refl s).withCpu _

theorem hostSet_memory (s : State) (r : HostReg) (v : Word) : SameMemory s (s.hostSet r v) := by
  cases r <;> exact fun _ => rfl

/-- A move that waits for a running core is defined there (R393). -/
theorem whileRunning_of_running {s : State} (h : s.status = .running) (r : HostReturn × State) :
    s.whileRunning r = some r := by
  simp [State.whileRunning, h]

/-- After an error and after `shutdown` it is not (R43, R392). -/
theorem whileRunning_of_not_running {s : State} (h : s.status ≠ .running) (r : HostReturn × State) :
    s.whileRunning r = none := by
  unfold State.whileRunning
  split
  · exact absurd ‹_› h
  · rfl
  · rfl

/-- Settles O11: a half is set through its pair, CF through the flags word, and each accessor is a move that waits
for a running core. -/
theorem hostAccessors : Obligations.HostAccessors := by
  intro s r v h x b
  obtain ⟨y, hy⟩ := putReg8_eq s.cpu h x
  have hcarry : FlagsBut [.cf] s.cpu.flags (s.hostSetCarry b).cpu.flags :=
    (FlagsBut.refl _ _).putFlag (by simp) b
  refine ⟨hostGet_hostSet s r v, ⟨by cases r <;> rfl, hostSet_memory s r v⟩, hostSet_rest s r v,
    getReg8_putReg8_same s.cpu h x, fun q hq => getReg8_putReg8_other s.cpu x hq, ⟨y, hy, fun _ => rfl⟩,
    (SameRest.refl s).withCpu _, rfl, (wordOf_halves s.cpu.dx).symm,
    ⟨_, ⟨rfl, fun _ => rfl⟩, by simp, hcarry⟩, (SameRest.refl s).withFlags _, fun hrun => ?_, fun hstop => ?_⟩
  · simp only [State.hostMove, whileRunning_of_running hrun, and_self]
  · simp only [State.hostMove, whileRunning_of_not_running hstop, and_self]

end Sys2Proof.Machine
end

section
/-!
PROOFS. The flags engine, and what a comparison tells (10_state.md R31 to R35; 41_arithmetic.md R185).
-/

namespace Sys2Proof.Machine

/-- Settles O17: each operation writes carry and overflow and then `SetSZP` of its result. -/
theorem flagsEngine : Obligations.FlagsEngine := fun _ a b c fl =>
  ⟨⟨addFlags_toNat a b c fl, addFlags_status a b c fl⟩, ⟨subFlags_toInt a b c fl, subFlags_status a b c fl⟩,
    logicFlags_status a fl, resultFlags_setSZP a fl,
    flagsBut_setSZP a (FlagsBut.refl _ fl) (by simp) (by simp) (by simp)⟩

/-- The borrow of a comparison is the unsigned order (R34). -/
theorem cf_subFlags {n : Nat} (a b : BitVec n) (fl : Word) :
    getFlag (subFlags a b false fl).2 .cf = decide (a.toNat < b.toNat) := by
  obtain ⟨hcf, -⟩ := subFlags_status a b false fl
  rw [hcf, decide_eq_decide, Bool.toNat_false]
  omega

/-- The result of a comparison is the difference of its operands. -/
theorem fst_subFlags {n : Nat} (a b : BitVec n) (fl : Word) : (subFlags a b false fl).1 = a - b := by
  simp [subFlags, sub_eq_add_neg, BitVec.ofInt_add, BitVec.ofInt_neg]

/-- The difference is zero exactly where the operands are equal. -/
theorem zf_subFlags {n : Nat} (a b : BitVec n) (fl : Word) :
    getFlag (subFlags a b false fl).2 .zf = decide (a = b) := by
  obtain ⟨-, -, ⟨hzf, -, -⟩, -⟩ := subFlags_status a b false fl
  have hzero : (a - b).toNat = 0 ↔ a = b := by
    rw [← BitVec.toNat_zero, BitVec.toNat_inj]
    exact sub_eq_zero
  rw [hzf, fst_subFlags, decide_eq_decide, hzero]

/-- The sign of the difference is wrong exactly where the signed difference is out of range (R31, R34). -/
theorem less_subFlags (w : Width) (a b : BitVec w.bits) (fl : Word) :
    less (subFlags a b false fl).2 = decide (a.toInt < b.toInt) := by
  obtain ⟨-, hof, ⟨-, hsf, -⟩, -⟩ := subFlags_status a b false fl
  rw [subFlags_overflow] at hof
  rw [less, hof, hsf, fst_subFlags, BitVec.msb_eq_toInt, BitVec.toInt_sub, Int.bmod_def, outOfRange,
    Bool.toNat_false, Bool.eq_iff_iff, bne_iff_ne, ne_eq, decide_eq_decide, decide_eq_true_iff]
  have ha := a.toInt_lt
  have hb := b.toInt_lt
  have ha' := a.le_toInt
  have hb' := b.le_toInt
  cases w <;> simp only [Width.bits] at * <;> norm_num at * <;> omega

/-- Settles O18: the predicates are those of carry, zero and less. -/
theorem comparePredicates : Obligations.ComparePredicates := by
  intro w a b fl
  have hcf := cf_subFlags a b fl
  have hzf := zf_subFlags a b fl
  have hless := less_subFlags w a b fl
  have hunsigned : a = b ↔ a.toNat = b.toNat := BitVec.toNat_inj.symm
  have hsigned : a = b ↔ a.toInt = b.toInt := BitVec.toInt_inj.symm
  refine ⟨hcf, ?_, ?_, hless, ?_, hzf⟩
  · rw [above, hcf, hzf, Bool.eq_iff_iff]
    simp only [Bool.and_eq_true, Bool.not_eq_true', decide_eq_false_iff_not, decide_eq_true_iff, hunsigned]
    omega
  · rw [belowOrEqual, hcf, hzf, Bool.eq_iff_iff]
    simp only [Bool.or_eq_true, decide_eq_true_iff, hunsigned]
    omega
  · rw [show lessOrEqual _ = (less _ || getFlag _ .zf) from rfl, hless, hzf, Bool.eq_iff_iff]
    simp only [Bool.or_eq_true, decide_eq_true_iff, hsigned]
    omega

end Sys2Proof.Machine
end

section
/-!
PROOFS. Which flags an instruction writes, and which instructions write CS: what the shared operations keep, said
once for each (10_state.md R25, R29, R30, R36).
-/

namespace Sys2Proof.Machine

/-- The flags that the arithmetic and logic instructions write (R30). -/
def statusFlags : List Flag := [.cf, .of, .zf, .sf, .pf]

/-- From `s` to `t` neither CS nor any bit of FLAGS outside the listed flags is written. -/
structure KeepsBut (l : List Flag) (s t : State) : Prop where
  flags : FlagsBut l s.cpu.flags t.cpu.flags
  cs : t.cpu.cs = s.cpu.cs

theorem KeepsBut.refl (l : List Flag) (s : State) : KeepsBut l s s := ⟨FlagsBut.refl l _, rfl⟩

theorem KeepsBut.trans {l : List Flag} {s t u : State} (h : KeepsBut l s t) (k : KeepsBut l t u) :
    KeepsBut l s u := ⟨h.flags.trans k.flags, k.cs.trans h.cs⟩

/-- Changes that keep FLAGS and CS. -/
theorem KeepsBut.then {l : List Flag} {s t u : State} (h : KeepsBut l s t)
    (hflags : u.cpu.flags = t.cpu.flags) (hcs : u.cpu.cs = t.cpu.cs) : KeepsBut l s u :=
  ⟨fun k hk => hflags ▸ h.flags k hk, hcs.trans h.cs⟩

/-- A word with no flag written is the same word. -/
theorem FlagsBut.eq {x y : Word} (h : FlagsBut [] x y) : y = x :=
  BitVec.eq_of_getLsbD_eq fun k _ => h k (by simp)

/-! ## Registers -/

theorem flags_putReg (c : Cpu) (w : Width) (i : RegIx) (v : BitVec w.bits) : (putReg c w i v).flags = c.flags := by
  cases w with
  | byte =>
    obtain ⟨y, hy⟩ := putReg8_eq c (Reg8.ofIx i) v
    exact (congrArg Cpu.flags hy).trans (flags_putReg16 c _ y)
  | word => exact flags_putReg16 c _ v

theorem cs_putReg (c : Cpu) (w : Width) (i : RegIx) (v : BitVec w.bits) : (putReg c w i v).cs = c.cs := by
  cases w with
  | byte =>
    obtain ⟨y, hy⟩ := putReg8_eq c (Reg8.ofIx i) v
    exact (congrArg Cpu.cs hy).trans (getSreg_putReg16 c _ y .cs)
  | word => exact getSreg_putReg16 c _ v .cs

variable {l : List Flag} {s t u : State}

theorem KeepsBut.withReg (h : KeepsBut l s t) (w : Width) (i : RegIx) (v : BitVec w.bits) :
    KeepsBut l s (t.withReg w i v) := h.then (flags_putReg t.cpu w i v) (cs_putReg t.cpu w i v)

theorem KeepsBut.withSreg (h : KeepsBut l s t) {sr : Sreg} (hsr : sr ≠ .cs) (v : Word) :
    KeepsBut l s (t.withSreg sr v) := by
  cases sr with
  | cs => exact absurd rfl hsr
  | es | ss | ds => exact h.then rfl rfl

theorem KeepsBut.withIp (h : KeepsBut l s t) (v : Word) : KeepsBut l s (t.withIp v) := h.then rfl rfl

theorem KeepsBut.withFlags (h : KeepsBut l s t) {fl : Word} (hfl : FlagsBut l t.cpu.flags fl) :
    KeepsBut l s (t.withFlags fl) := ⟨h.flags.trans hfl, h.cs⟩

theorem KeepsBut.drawFlags (h : KeepsBut l s t) {fs : List Flag} (hfs : ∀ f ∈ fs, f ∈ l) :
    KeepsBut l s (drawFlags fs t) := by
  obtain ⟨fl, hcpu, -, -, -, hfl⟩ := drawFlags_spec fs t
  refine h.trans ⟨?_, ?_⟩
  · rw [hcpu]
    exact hfl.mono hfs
  · rw [hcpu]

theorem KeepsBut.withCx (h : KeepsBut l s t) (v : Word) : KeepsBut l s (t.withCx v) := h.then rfl rfl

theorem KeepsBut.withSp (h : KeepsBut l s t) (v : Word) : KeepsBut l s (t.withSp v) := h.then rfl rfl

/-! ## Memory, operands and the stack -/

theorem KeepsBut.touches (h : KeepsBut l s t) (k : Touches t u) : KeepsBut l s u :=
  h.then (congrArg Cpu.flags k.cpu) (congrArg Cpu.cs k.cpu)

theorem KeepsBut.readOperand (h : KeepsBut l s t) (w : Width) (o : Operand) :
    KeepsBut l s (readOperand w o t).2 := by
  obtain ⟨v, u, hread, hu⟩ := readOperand_touches w o t
  rw [hread]
  exact h.touches hu

theorem KeepsBut.readW (h : KeepsBut l s t) (w : Width) (g o : Word) : KeepsBut l s (readW w g o t).2 :=
  h.touches (touches_readW w g o t)

theorem KeepsBut.readFar (h : KeepsBut l s t) (m : RM) : KeepsBut l s (readFar m t).2.2 := by
  obtain ⟨o, g, u, hread, hu⟩ := readFar_touches m t
  rw [hread]
  exact h.touches hu

theorem KeepsBut.writeW (h : KeepsBut l s t) (w : Width) (g o : Word) (v : BitVec w.bits) :
    KeepsBut l s (writeW w g o v t) := h.touches (touches_writeW w g o v t)

theorem KeepsBut.writeOperand (h : KeepsBut l s t) (w : Width) (o : Operand) (v : BitVec w.bits) :
    KeepsBut l s (writeOperand w o v t) := by
  cases o with
  | reg i => exact h.withReg w i v
  | mem g off => exact h.writeW w g off v
  | imm _ => exact h

theorem KeepsBut.push16 (h : KeepsBut l s t) (v : Word) : KeepsBut l s (push16 v t) :=
  h.then (by rw [cpu_push16]) (by rw [cpu_push16])

theorem KeepsBut.pop16 (h : KeepsBut l s t) : KeepsBut l s (pop16 t).2 := by
  obtain ⟨v, u, hpop, -, hcpu⟩ := pop16_touches t
  rw [hpop]
  exact h.then (by rw [hcpu]) (by rw [hcpu])

/-! ## The frames of the arithmetic and logic instructions -/

theorem StatusFlags.flagsBut {n : Nat} {cf ov : Bool} {r : BitVec n} {x y : Word} (h : StatusFlags cf ov r x y) :
    FlagsBut statusFlags x y := by
  obtain ⟨-, -, -, hrest⟩ := h
  exact hrest

theorem flagsBut_aluEval (op : AluOp) {n : Nat} (a b : BitVec n) (fl : Word) :
    FlagsBut statusFlags fl (aluEval op a b fl).2 := by
  cases op with
  | add => exact (addFlags_status a b false fl).flagsBut
  | adc => exact (addFlags_status a b (getFlag fl .cf) fl).flagsBut
  | sub | cmp => exact (subFlags_status a b false fl).flagsBut
  | sbb => exact (subFlags_status a b (getFlag fl .cf) fl).flagsBut
  | and => exact (logicFlags_status (a &&& b) fl).flagsBut
  | or => exact (logicFlags_status (a ||| b) fl).flagsBut
  | xor => exact (logicFlags_status (a ^^^ b) fl).flagsBut

theorem flagsBut_incEval {n : Nat} (a : BitVec n) (fl : Word) : FlagsBut statusFlags fl (incEval a fl).2 :=
  ((addFlags_status a 1 false fl).keepCarry (getFlag fl .cf)).flagsBut

theorem flagsBut_decEval {n : Nat} (a : BitVec n) (fl : Word) : FlagsBut statusFlags fl (decEval a fl).2 :=
  ((subFlags_status a 1 false fl).keepCarry (getFlag fl .cf)).flagsBut

theorem flagsBut_shiftEval (op : ShiftOp) {n : Nat} (a : BitVec n) (count : Nat) (free : Bool) (fl : Word) :
    FlagsBut statusFlags fl (shiftEval op a count free fl).2 := by
  have hcarry : ∀ cf ov, FlagsBut statusFlags fl (putFlag (putFlag fl .cf cf) .of ov) := fun cf ov =>
    ((FlagsBut.refl _ fl).putFlag (by simp [statusFlags]) cf).putFlag (by simp [statusFlags]) ov
  unfold shiftEval
  split
  · exact FlagsBut.refl _ fl
  · dsimp only
    split
    · exact flagsBut_setSZP _ (hcarry _ _) (by simp [statusFlags]) (by simp [statusFlags]) (by simp [statusFlags])
    · exact hcarry _ _

theorem keeps_aluRun (op : AluOp) (f : AluForm) (s : State) : KeepsBut statusFlags s (aluRun op f s) := by
  have hread := ((KeepsBut.refl statusFlags s).readOperand (aluWidth f) (aluDst f s)).readOperand (aluWidth f)
    (aluSrc f s)
  unfold aluRun
  dsimp only
  split
  · exact hread.withFlags (flagsBut_aluEval op _ _ _)
  · exact (hread.withFlags (flagsBut_aluEval op _ _ _)).writeOperand _ _ _

theorem keeps_unaryRun (w : Width) (o : Operand) {f : BitVec w.bits → Word → BitVec w.bits × Word}
    (hf : ∀ a fl, FlagsBut l fl (f a fl).2) (s : State) : KeepsBut l s (unaryRun w o f s) :=
  (((KeepsBut.refl l s).readOperand w o).withFlags (hf _ _)).writeOperand w o _

theorem keeps_shiftRun (op : ShiftOp) (w : Width) (m : RM) (c : ShiftCount) (s : State) :
    KeepsBut statusFlags s (shiftRun op w m c s) := by
  have hread := (KeepsBut.refl statusFlags s).readOperand w (resolve m s)
  unfold shiftRun
  dsimp only
  split
  · exact ((hread.then (u := (drawBit _).2) rfl rfl).withFlags (flagsBut_shiftEval op _ _ _ _)).writeOperand _ _ _
  · exact (hread.withFlags (flagsBut_shiftEval op _ _ _ _)).writeOperand _ _ _

theorem KeepsBut.putProduct (h : KeepsBut l s t) (w : Width) (p : Nat) :
    KeepsBut l s (t.withCpu (putProduct w p t.cpu)) := by
  cases w <;> exact h.then rfl rfl

theorem KeepsBut.putQuotient (h : KeepsBut l s t) (w : Width) (q r : BitVec w.bits) :
    KeepsBut l s (t.withCpu (putQuotient w q r t.cpu)) := by
  cases w <;> exact h.then rfl rfl

theorem KeepsBut.multiplyFlags (h : KeepsBut statusFlags s t) (upper : Bool) :
    KeepsBut statusFlags s (multiplyFlags upper t) :=
  (h.withFlags (((FlagsBut.refl _ _).putFlag (by simp [statusFlags]) _).putFlag
    (by simp [statusFlags]) _)).drawFlags (by simp [statusFlags])

theorem KeepsBut.divideFlags (h : KeepsBut statusFlags s t) : KeepsBut statusFlags s (divideFlags t) :=
  h.drawFlags (by simp [statusFlags])

theorem KeepsBut.adjustFlags (h : KeepsBut statusFlags s t) : KeepsBut statusFlags s (adjustFlags t) :=
  (h.withFlags (flagsBut_setSZP _ (FlagsBut.refl _ _) (by simp [statusFlags]) (by simp [statusFlags])
    (by simp [statusFlags]))).drawFlags (by simp [statusFlags])

/-! ## Strings -/

theorem keeps_movsIter (w : Width) (s : State) : KeepsBut l s (movsIter w s) :=
  (((KeepsBut.refl l s).readW w _ _).writeW w _ _ _).then rfl rfl

theorem keeps_stosIter (w : Width) (s : State) : KeepsBut l s (stosIter w s) :=
  ((KeepsBut.refl l s).writeW w _ _ _).then rfl rfl

theorem keeps_lodsIter (w : Width) (s : State) : KeepsBut l s (lodsIter w s) :=
  (((KeepsBut.refl l s).readW w _ _).withReg w 0 _).then rfl rfl

theorem keeps_cmpsIter (w : Width) (s : State) : KeepsBut statusFlags s (cmpsIter w s) :=
  ((((KeepsBut.refl statusFlags s).readW w _ _).readW w _ _).withFlags
    (subFlags_status _ _ _ _).flagsBut).then rfl rfl

theorem keeps_scasIter (w : Width) (s : State) : KeepsBut statusFlags s (scasIter w s) :=
  (((KeepsBut.refl statusFlags s).readW w _ _).withFlags (subFlags_status _ _ _ _).flagsBut).then rfl rfl

/-- The repeat loop keeps what every iteration keeps (R261). -/
theorem keeps_repeatLoop {iter : State → State} (hiter : ∀ s, KeepsBut l s (iter s)) (untilNe : Bool) (n : Nat)
    (s : State) : KeepsBut l s (repeatLoop iter untilNe n s).1 := by
  induction n generalizing s with
  | zero => exact KeepsBut.refl l s
  | succ n ih =>
    have hturn : KeepsBut l s ((iter s).withCx ((iter s).cpu.cx - 1)) := (hiter s).then rfl rfl
    simp only [repeatLoop]
    split
    · exact hturn
    · exact hturn.trans (ih _)

theorem keeps_stringRun {iter : State → State} (hiter : ∀ s, KeepsBut l s (iter s)) (untilNe : Bool) (s : State) :
    KeepsBut l s (stringRun iter untilNe s).1 := by
  unfold stringRun
  split
  · exact keeps_repeatLoop hiter untilNe _ s
  · exact hiter s

/-! ## How the handlers end -/

/-- A handler that completes does so in a state of which `P` holds. -/
def Completes (P : State → Prop) : Outcome → Prop
  | .next t => P t
  | .fault _ | .refused _ => True

theorem Completes.next {P : State → Prop} {o : Outcome} (h : Completes P o) (ho : o = .next t) : P t := by
  rw [ho] at h
  exact h

theorem completes_done (i : Instr) (h : KeepsBut l s t) (taken : Bool) (count : Nat) :
    Completes (KeepsBut l s) (done i t taken count) := h.then rfl rfl

theorem completes_jumpIf (i : Instr) (cond : Bool) (d : Byte) (h : KeepsBut l s t) :
    Completes (KeepsBut l s) (jumpIf i cond d t) := by
  unfold jumpIf
  split
  · exact completes_done i (h.withIp _) _ _
  · exact completes_done i h _ _

theorem completes_stringDone (i : Instr) {iter : State → State} (hiter : ∀ s, KeepsBut l s (iter s))
    (untilNe : Bool) (s : State) : Completes (KeepsBut l s) (stringDone i iter untilNe s) :=
  completes_done i (keeps_stringRun hiter untilNe s) _ _

theorem completes_inFrom (i : Instr) (w : Width) (p : Word) (s : State) :
    Completes (KeepsBut l s) (inFrom i w p s) := by
  unfold inFrom
  obtain ⟨v, t, hin, ht⟩ | ⟨left, hin, -⟩ := portInW_cases w p s
  · rw [hin]
    exact completes_done i (((KeepsBut.refl l s).touches ht).withReg _ _ _) _ _
  · rw [hin]
    trivial

theorem completes_outTo (i : Instr) (w : Width) (p : Word) (s : State) :
    Completes (KeepsBut l s) (outTo i w p s) := by
  unfold outTo
  obtain ⟨t, hout, ht⟩ | ⟨left, hout, -⟩ := portOutW_cases w p (getReg s.cpu w 0) s
  · rw [hout]
    exact completes_done i ((KeepsBut.refl l s).touches ht) _ _
  · rw [hout]
    trivial

end Sys2Proof.Machine
end

section
/-!
PROOFS. The instructions by the flags they write: none, the status flags, or, of the rest, other named flags or a
whole word through the masks (10_state.md R29, R30, R36; 45_flag_control.md R330 to R336).
-/

namespace Sys2Proof.Machine

/-! ## The instructions that write no flag -/

/-- A transfer, load or store that writes no flag and is no far transfer keeps CS as well (R25, R36). -/
theorem completes_writesNoFlag (i : Instr) (s : State) (hi : writesNoFlag i = true) (hcs : mayLoadCs i = false) :
    Completes (KeepsBut [] s) (exec i s) := by
  have h0 := KeepsBut.refl [] s
  cases i with
  | jmpFar _ _ | jmpFarRm _ | callFar _ _ | callFarRm _ | retf | retfImm _ => cases hcs
  | movRmReg _ _ _ | movRmImm8 _ _ | movRmImm16 _ _ | movRmSreg _ _ =>
    exact completes_done _ (h0.writeOperand _ _ _) _ _
  | movRegImm8 _ _ | movRegImm16 _ _ | lahf | cbw | cwd => exact completes_done _ (h0.withReg _ _ _) _ _
  | movRegRm _ _ _ => exact completes_done _ ((h0.readOperand _ _).withReg _ _ _) _ _
  | movAccMoffs _ _ => exact completes_done _ ((h0.readW _ _ _).withReg _ _ _) _ _
  | xlat => exact completes_done _ ((h0.readW .byte _ _).withReg .byte _ _) _ _
  | movMoffsAcc _ _ => exact completes_done _ (h0.writeW _ _ _ _) _ _
  | movSregRm sr m =>
    simp only [exec, execMovSregRm]
    split
    · trivial
    · next hsr => exact completes_done _ ((h0.readOperand _ _).withSreg hsr _) _ _
  | pushReg r =>
    simp only [exec, execPushReg, pushRegister]
    split <;> exact completes_done _ (h0.push16 _) _ _
  | pushRm m =>
    simp only [exec, execPushRm]
    split
    · exact completes_done _ (h0.push16 _) _ _
    · exact completes_done _ ((h0.readOperand _ _).push16 _) _ _
  | pushSreg _ | pushf => exact completes_done _ (h0.push16 _) _ _
  | popReg _ => exact completes_done _ (h0.pop16.withReg _ _ _) _ _
  | popRm _ => exact completes_done _ (h0.pop16.writeOperand _ _ _) _ _
  | popSreg sr =>
    simp only [exec, execPopSreg]
    split
    · trivial
    · next hsr => exact completes_done _ (h0.pop16.withSreg hsr _) _ _
  | xchgRmReg _ _ _ =>
    exact completes_done _ (((h0.readOperand _ _).writeOperand _ _ _).withReg _ _ _) _ _
  | xchgAxReg _ => exact completes_done _ ((h0.withReg .word _ _).withReg .word _ _) _ _
  | nop => exact completes_done _ h0 _ _
  | inImm _ _ | inDx _ => exact completes_inFrom _ _ _ _
  | outImm _ _ | outDx _ => exact completes_outTo _ _ _ _
  | lea r m =>
    simp only [exec, execLea]
    split
    · exact completes_done _ (h0.withReg _ _ _) _ _
    · trivial
  | lds r m =>
    simp only [exec, execLds]
    split
    · exact completes_done _ (((h0.readFar m).withReg .word _ _).withSreg (by decide) _) _ _
    · trivial
  | les r m =>
    simp only [exec, execLes]
    split
    · exact completes_done _ (((h0.readFar m).withReg .word _ _).withSreg (by decide) _) _ _
    · trivial
  | not _ _ => exact completes_done _ (keeps_unaryRun _ _ (fun _ _ => FlagsBut.refl _ _) s) _ _
  | movsb | movsw => exact completes_stringDone _ (keeps_movsIter _) _ _
  | stosb | stosw => exact completes_stringDone _ (keeps_stosIter _) _ _
  | lodsb | lodsw => exact completes_stringDone _ (keeps_lodsIter _) _ _
  | jmpRel8 _ | jmpRel16 _ => exact completes_done _ (h0.withIp _) _ _
  | jmpRm _ => exact completes_done _ ((h0.readOperand _ _).withIp _) _ _
  | callRel16 _ => exact completes_done _ ((h0.push16 _).withIp _) _ _
  | callRm _ => exact completes_done _ (((h0.readOperand _ _).push16 _).withIp _) _ _
  | jo _ | jno _ | jb _ | jae _ | je _ | jne _ | jbe _ | ja _ | js _ | jns _ | jp _ | jnp _ | jl _ | jge _
  | jle _ | jg _ | jcxz _ => exact completes_jumpIf _ _ _ h0
  | loop _ | loopz _ | loopnz _ => exact completes_jumpIf _ _ _ (h0.withCx _)
  | ret => exact completes_done _ (h0.pop16.withIp _) _ _
  | retImm _ => exact completes_done _ ((h0.pop16.withIp _).withSp _) _ _
  | _ => cases hi

/-- A far transfer writes no flag either (R36). -/
theorem completes_farTransfer (i : Instr) (s : State) (hi : (writesNoFlag i && mayLoadCs i) = true) :
    Completes (fun t => t.cpu.flags = s.cpu.flags) (exec i s) := by
  have h0 := KeepsBut.refl [] s
  cases i with
  | jmpFar _ _ => rfl
  | jmpFarRm m =>
    simp only [exec, execJmpFarRm]
    split
    · exact (h0.readFar m).flags.eq
    · trivial
  | callFar _ _ => exact ((h0.push16 _).push16 _).flags.eq
  | callFarRm m =>
    simp only [exec, execCallFarRm]
    split
    · exact (((h0.readFar m).push16 _).push16 _).flags.eq
    · trivial
  | retf | retfImm _ => exact h0.pop16.pop16.flags.eq
  | _ => cases hi

theorem flags_of_writesNoFlag {i : Instr} {s t : State} (hi : writesNoFlag i = true) (h : exec i s = .next t) :
    t.cpu.flags = s.cpu.flags := by
  cases hcs : mayLoadCs i with
  | false => exact ((completes_writesNoFlag i s hi hcs).next h).flags.eq
  | true => exact (completes_farTransfer i s (by rw [hi, hcs]; rfl)).next h

/-- Such an instruction is no prefix and takes no interrupt. -/
theorem writesNoFlag_apart (i : Instr) : (writesNoFlag i && (i.isPrefix || mayInterrupt i)) = false := by
  cases i <;> rfl

theorem answers_of_writesNoFlag {i : Instr} (s : State) (hi : writesNoFlag i = true) : Answers s (exec i s) := by
  have hapart := writesNoFlag_apart i
  rw [hi, Bool.true_and, Bool.or_eq_false_iff] at hapart
  exact exec_answers i s hapart.1 hapart.2

/-- Settles O7: by what every instruction keeps that takes no interrupt, and by the flags these write. -/
theorem transfersKeepFlags : Obligations.TransfersKeepFlags := by
  intro i s t hi h
  have hruns := answers_of_writesNoFlag s hi
  rw [h] at hruns
  exact ⟨flags_of_writesNoFlag hi h, hruns.core, hruns.rest⟩

/-! ## The arithmetic and logic instructions -/

/-- An arithmetic or logic instruction that takes no interrupt writes the status flags alone (R30). -/
theorem completes_arithLogic (i : Instr) (s : State) (hi : isArithLogic i = true) (hint : mayInterrupt i = false) :
    Completes (KeepsBut statusFlags s) (exec i s) := by
  have h0 := KeepsBut.refl statusFlags s
  cases i with
  | div _ _ | idiv _ _ | aam _ => cases hint
  | add _ | adc _ | sub _ | sbb _ | cmp _ | and _ | or _ | xor _ => exact completes_done _ (keeps_aluRun _ _ s) _ _
  | incReg _ | incRm _ _ => exact completes_done _ (keeps_unaryRun _ _ flagsBut_incEval s) _ _
  | decReg _ | decRm _ _ => exact completes_done _ (keeps_unaryRun _ _ flagsBut_decEval s) _ _
  | neg _ _ =>
    exact completes_done _ (keeps_unaryRun _ _ (fun a fl => (subFlags_status 0 a false fl).flagsBut) s) _ _
  | not _ _ => exact completes_done _ (keeps_unaryRun _ _ (fun _ _ => FlagsBut.refl _ _) s) _ _
  | mul _ _ | imul _ _ => exact completes_done _ (((h0.readOperand _ _).putProduct _ _).multiplyFlags _) _ _
  | cbw | cwd => exact completes_done _ (h0.withReg _ _ _) _ _
  | aad _ => exact completes_done _ ((h0.withReg .byte _ _).withReg .byte _ _).adjustFlags _ _
  | test f =>
    exact completes_done _ (((h0.readOperand _ _).readOperand _ _).withFlags (logicFlags_status _ _).flagsBut) _ _
  | rol _ _ _ | ror _ _ _ | rcl _ _ _ | rcr _ _ _ | shl _ _ _ | shr _ _ _ | sar _ _ _ =>
    exact completes_done _ (keeps_shiftRun _ _ _ _ s) _ _
  | cmpsb | cmpsw => exact completes_stringDone _ (keeps_cmpsIter _) _ _
  | scasb | scasw => exact completes_stringDone _ (keeps_scasIter _) _ _
  | _ => cases hi

/-! ## Interrupts -/

/-- A divide error is taken after the operand has been read; else a division writes the status flags (R191, R192,
U2). -/
theorem divideEnd_cases (i : Instr) (w : Width) (result : Option (BitVec w.bits × BitVec w.bits)) {s u : State}
    (hu : KeepsBut statusFlags s u) :
    (∃ t, divideEnd i w result u = .next t ∧ KeepsBut statusFlags s t) ∨
      ∃ v u', divideEnd i w result u = interrupt v u' ∧ KeepsBut statusFlags s u' := by
  cases result with
  | none => exact .inr ⟨0, u, rfl, hu⟩
  | some qr => exact .inl ⟨_, rfl, (hu.putQuotient w qr.1 qr.2).divideFlags.then rfl rfl⟩

/-- An instruction that may take an interrupt has by then written no flag; one that does not take it writes the
status flags alone. -/
theorem exec_mayInterrupt_flags (i : Instr) (s : State) (hi : mayInterrupt i = true) :
    (∃ t, exec i s = .next t ∧ KeepsBut statusFlags s t) ∨
      ∃ v u, exec i s = interrupt v u ∧ KeepsBut statusFlags s u := by
  have h0 := KeepsBut.refl statusFlags s
  cases i with
  | div w m => exact divideEnd_cases _ w _ (h0.readOperand w (resolve m s))
  | idiv w m => exact divideEnd_cases _ w _ (h0.readOperand w (resolve m s))
  | aam b =>
    simp only [exec, execAam]
    split
    · exact .inr ⟨0, s, rfl, h0⟩
    · exact .inl ⟨_, rfl, ((h0.withReg .byte _ _).withReg .byte _ _).adjustFlags.then rfl rfl⟩
  | int v => exact .inr ⟨v, s, rfl, h0⟩
  | int3 => exact .inr ⟨3, s, rfl, h0⟩
  | into =>
    simp only [exec, execInto]
    split
    · exact .inr ⟨4, s, rfl, h0⟩
    · exact .inl ⟨_, rfl, h0.then rfl rfl⟩
  | _ => cases hi

/-- The real path writes IF and TF and no other flag (R363). -/
theorem flagsBut_realPath (v : Byte) (s : State) : FlagsBut [.intf, .tf] s.cpu.flags (realPath v s).cpu.flags := by
  have hreads : (realPath v s).cpu.flags = (realPushes s).cpu.flags := by
    rw [realPath_pushes, State.withCsIp_cpu, (touches_read16 _ _ _).cpu, (touches_read16 _ _ _).cpu]
  obtain ⟨-, -, hclear⟩ := clearIfTf_spec s.params s.cpu.flags
  rw [hreads, realPushes_cpu]
  exact hclear

/-- An interrupt that completes with no handler run has taken the real path (R362). -/
theorem flagsBut_interrupt {v : Byte} {s t : State} (h : interrupt v s = .next t)
    (hnone : ∀ v, BusCall.interruptOverride v ∉ t.calls) : FlagsBut [.intf, .tf] s.cpu.flags t.cpu.flags := by
  by_cases hv : s.bus.attached = true ∧ queryAnswer v s = true
  · cases hanswer : handlerAnswer v (s.queried v true) with
    | fails ws d =>
      simp only [interrupt_overridden hv.1 hv.2, overridePath, hanswer] at h
      cases h
    | returns e =>
      simp only [interrupt_overridden hv.1 hv.2, overridePath, hanswer] at h
      cases h
      exact absurd List.mem_cons_self (hnone v)
  · rw [interrupt_real (fun ha => by simpa [ha] using hv)] at h
    cases h
    have hpath := flagsBut_realPath v (s.queried v false)
    rwa [queried_cpu] at hpath

/-- Where no handler has run, an instruction that may take an interrupt writes status flags, IF and TF alone. -/
theorem flagsBut_mayInterrupt {i : Instr} {s t : State} (hi : mayInterrupt i = true) (h : exec i s = .next t)
    (hnone : ∀ v, BusCall.interruptOverride v ∉ t.calls) :
    FlagsBut (statusFlags ++ [.intf, .tf]) s.cpu.flags t.cpu.flags := by
  obtain ⟨t', hnext, ht⟩ | ⟨v, u, hint, hu⟩ := exec_mayInterrupt_flags i s hi
  · rw [hnext] at h
    cases h
    exact ht.flags.mono (List.subset_append_left _ _)
  · rw [hint] at h
    exact (hu.flags.mono (List.subset_append_left _ _)).trans
      ((flagsBut_interrupt h hnone).mono (List.subset_append_right _ _))

/-- The flags that an arithmetic or logic instruction writes where no handler has run (R30). -/
theorem flagsBut_arithLogic {i : Instr} {s t : State} (hi : isArithLogic i = true) (h : exec i s = .next t)
    (hnone : ∀ v, BusCall.interruptOverride v ∉ t.calls) :
    FlagsBut (statusFlags ++ [.intf, .tf]) s.cpu.flags t.cpu.flags := by
  cases hint : mayInterrupt i with
  | true => exact flagsBut_mayInterrupt hint h hnone
  | false =>
    exact ((completes_arithLogic i s hi hint).next h).flags.mono (List.subset_append_left _ _)

/-- Settles O6: bit 4 is AF, which is none of the flags these instructions write. -/
theorem arithmeticKeepsBit4 : Obligations.ArithmeticKeepsBit4 := by
  intro i s t hi h hnone
  exact (flagsBut_arithLogic hi h hnone).getFlag (f := .af) (by decide)

/-! ## The instructions that write named flags or a whole word -/

/-- All the named flags (R28). -/
def namedFlags : List Flag := [.cf, .pf, .af, .zf, .sf, .tf, .intf, .df, .of]

theorem mem_namedFlags (f : Flag) : f ∈ namedFlags := by cases f <;> decide

theorem FlagsBut.named {l : List Flag} {x y : Word} (h : FlagsBut l x y) : FlagsBut namedFlags x y :=
  h.mono fun f _ => mem_namedFlags f

/-- The instructions that load FLAGS, in part or as a whole word, or write one control flag (R161, R163, R318, R330
to R336). -/
def loadsFlags : Instr → Bool
  | .sahf | .popf | .iret | .clc | .stc | .cmc | .cld | .std | .cli | .sti => true
  | _ => false

/-- From `s` to `t` FLAGS is written in its named flags alone, or as a whole word through the masks (R29). -/
def FlagsThroughMasks (s t : State) : Prop :=
  FlagsBut namedFlags s.cpu.flags t.cpu.flags ∨ ∃ v, t.cpu.flags = wordToFlags s.params v

/-- The return from an interrupt loads FLAGS through the masks (R29, R318). -/
theorem flags_interruptReturn (s : State) : ∃ v, (interruptReturn s).cpu.flags = wordToFlags s.params v := by
  rw [← (runs_interruptReturn s).core.params]
  exact ⟨_, rfl⟩

theorem completes_loadsFlags (i : Instr) (s : State) (hi : loadsFlags i = true) :
    Completes (fun t => FlagsThroughMasks s t ∧ (mayLoadCs i = false → t.cpu.cs = s.cpu.cs)) (exec i s) := by
  have hput : ∀ f b, FlagsBut namedFlags s.cpu.flags (putFlag s.cpu.flags f b) := fun f b =>
    (FlagsBut.refl _ _).putFlag (mem_namedFlags f) b
  cases i with
  | sahf =>
    exact ⟨.inl (((((hput .sf _).putFlag (mem_namedFlags .zf) _).putFlag (mem_namedFlags .af) _).putFlag
      (mem_namedFlags .pf) _).putFlag (mem_namedFlags .cf) _), fun _ => rfl⟩
  | popf =>
    obtain ⟨v, u, hpop, hu, hcpu⟩ := pop16_touches s
    have hcs : u.cpu.cs = s.cpu.cs := by rw [hcpu]
    simp only [exec, execPopf, hpop, hu.core.params]
    exact ⟨.inr ⟨v, rfl⟩, fun _ => hcs⟩
  | iret =>
    exact ⟨.inr (flags_interruptReturn s), fun hcs => by cases hcs⟩
  | clc | stc | cmc | cld | std | cli | sti => exact ⟨.inl (hput _ _), fun _ => rfl⟩
  | _ => cases hi

/-! ## Every instruction -/

/-- Every instruction is of one of these kinds. -/
theorem instr_kinds (i : Instr) :
    (i.isPrefix || isAbsentRow i || writesNoFlag i || isArithLogic i || mayInterrupt i || loadsFlags i) = true := by
  cases i <;> rfl

/-- An absent row does not complete (R106, R107). -/
theorem completes_absentRow (P : State → Prop) (i : Instr) (s : State) (hi : isAbsentRow i = true) :
    Completes P (exec i s) := by
  cases i with
  | absentOpcode _ | absentSlot _ _ _ => trivial
  | _ => cases hi

/-- The instructions that may take an interrupt are among those that may load CS (R361). -/
theorem mayLoadCs_of_mayInterrupt (i : Instr) : (mayInterrupt i && !mayLoadCs i) = false := by
  cases i <;> rfl

/-- Settles O8: the kinds of instruction in turn, of which each keeps CS but where it may load it. -/
theorem csOnlyByTransfer : Obligations.CsOnlyByTransfer := by
  intro i s t hcs h
  have hkinds := instr_kinds i
  have hint := mayLoadCs_of_mayInterrupt i
  simp only [hcs, Bool.not_false, Bool.and_true] at hint
  simp only [Bool.or_eq_true, hint, Bool.false_eq_true, or_false] at hkinds
  rcases hkinds with (((hprefix | habsent) | hnoFlag) | harith) | hloads
  · obtain ⟨o, r, hexec⟩ := exec_prefix hprefix s
    rw [hexec] at h
    cases h
    rfl
  · exact ((completes_absentRow (fun _ => False) i s habsent).next h).elim
  · exact ((completes_writesNoFlag i s hnoFlag hcs).next h).cs
  · exact ((completes_arithLogic i s harith hint).next h).cs
  · exact ((completes_loadsFlags i s hloads).next h).2 hcs

/-- Where no handler has run, FLAGS is written in its named flags alone or through the masks (R29). -/
theorem exec_flagsThroughMasks {i : Instr} {s t : State} (h : exec i s = .next t)
    (hnone : ∀ v, BusCall.interruptOverride v ∉ t.calls) : FlagsThroughMasks s t := by
  have hkinds := instr_kinds i
  simp only [Bool.or_eq_true] at hkinds
  rcases hkinds with ((((hprefix | habsent) | hnoFlag) | harith) | hint) | hloads
  · obtain ⟨o, r, hexec⟩ := exec_prefix hprefix s
    rw [hexec] at h
    cases h
    exact .inl (FlagsBut.refl _ _)
  · exact ((completes_absentRow (fun _ => False) i s habsent).next h).elim
  · exact .inl (flags_of_writesNoFlag hnoFlag h ▸ FlagsBut.refl _ _)
  · exact .inl (flagsBut_arithLogic harith h hnone).named
  · exact .inl (flagsBut_mayInterrupt hint h hnone).named
  · exact ((completes_loadsFlags i s hloads).next h).1

/-! ## The masks -/

/-- Two disjoint masks share no bit. -/
theorem getLsbD_of_disjoint {m n : Word} (h : m &&& n = 0) (k : Nat) : (m.getLsbD k && n.getLsbD k) = false := by
  rw [← BitVec.getLsbD_and, h, BitVec.ofNat_eq_ofNat, BitVec.getLsbD_zero]

/-- What `WordToFlags` stores holds the forced values, whatever the word (R29). -/
theorem wordToFlags_masked {p : Params} (hp : MasksDisjoint p) (v : Word) :
    wordToFlags p v &&& p.onesMask = p.onesMask ∧ wordToFlags p v &&& p.zeroMask = 0 := by
  constructor <;> refine BitVec.eq_of_getLsbD_eq fun k hk => ?_
  all_goals
    have hapart := getLsbD_of_disjoint hp.apart k
    cases hone : p.onesMask.getLsbD k <;> simp_all [wordToFlags]

/-- A mask apart from the named flags selects the same bits of two words that differ in named flags alone. -/
theorem FlagsBut.and_mask {x y m : Word} (h : FlagsBut namedFlags x y) (hm : m &&& namedFlagBits = 0) :
    y &&& m = x &&& m := by
  refine BitVec.eq_of_getLsbD_eq fun k _ => ?_
  rw [BitVec.getLsbD_and, BitVec.getLsbD_and]
  cases hk : m.getLsbD k with
  | false => rw [Bool.and_false, Bool.and_false]
  | true =>
    have hunnamed := getLsbD_of_disjoint hm k
    rw [hk, Bool.true_and] at hunnamed
    have hnamed : ∀ f ∈ namedFlags, namedFlagBits.getLsbD f.pos = true := by decide
    rw [h k fun f hf e => by rw [e, hnamed f hf] at hunnamed; cases hunnamed]

theorem FlagsThroughMasks.keeps_masked {s t : State} (h : FlagsThroughMasks s t) (hparams : t.params = s.params)
    (hp : MasksDisjoint s.params) (hs : s.FlagsMasked) : t.FlagsMasked := by
  obtain ⟨hones, hzeros⟩ := hs
  rw [State.FlagsMasked, hparams]
  obtain hnamed | ⟨v, hv⟩ := h
  · rw [hnamed.and_mask hp.onesFree, hnamed.and_mask hp.zeroFree]
    exact ⟨hones, hzeros⟩
  · rw [hv]
    exact wordToFlags_masked hp v

/-- Settles O4: the fetches keep FLAGS, and the instruction they lead to writes named flags, which the masks leave
out, or a word through the masks. -/
theorem stepKeepsMaskedFlags : Obligations.StepKeepsMaskedFlags := by
  intro s t hmasks hmasked hstep hnone
  obtain ⟨-, k, i, n, u, v, -, hreach, hexec, rfl⟩ := step_next hstep
  obtain ⟨hparams, -, -, -, hprefix, hcpu⟩ := reaches_keeps hreach
  have hout := exec_outcome i u hprefix
  rw [hexec] at hout
  obtain ⟨hcore, -, -⟩ := hout
  have hu : u.FlagsMasked := by
    rw [State.FlagsMasked, hparams, hcpu]
    exact hmasked
  exact ⟨hcore.params.trans hparams,
    (exec_flagsThroughMasks hexec hnone).keeps_masked hcore.params (hparams ▸ hmasks) hu⟩

end Sys2Proof.Machine
end

section
/-!
PROOFS. Word access and the stack, whatever the host does (20_memory.md R62, R63, R66, R67, R71, R76;
70_reset_and_hazards.md R399).
-/

namespace Sys2Proof.Machine

/-! ## Word access -/

/-- A physical address is 16 times the segment plus the offset, modulo 2^20 (R62). -/
theorem toNat_phys (g o : Word) : (phys g o).toNat = (16 * g.toNat + o.toNat) % 2 ^ 20 := by
  have hg := g.isLt
  have ho := o.isLt
  simp [phys, BitVec.toNat_add, BitVec.toNat_shiftLeft, Nat.shiftLeft_eq]
  omega

/-- A write to a ROM or a device changes no byte of memory (R399). -/
theorem peek_writeByte_of_not_plain {a : Addr} {s : State} (h : s.kindAt a ≠ none) (v : Byte) (b : Addr) :
    (writeByte a v s).peek b = s.peek b := by
  rw [peek_writeByte, if_neg fun hplain => h hplain.1.2]

theorem sameMemory_write16_of_not_plain {g o : Word} {s : State} (hlow : s.kindAt (phys g o) ≠ none)
    (hhigh : s.kindAt (phys g (o + 1)) ≠ none) (v : Word) : SameMemory s (write16 g o v s) := by
  intro a
  have hhigh' : (writeByte (phys g o) (lowByte v) s).kindAt (phys g (o + 1)) ≠ none := by
    rwa [State.kindAt_congr (windows_writeByte _ _ s)]
  exact (peek_writeByte_of_not_plain hhigh' _ a).trans (peek_writeByte_of_not_plain hlow _ a)

/-- The two bytes a word read answers are those of its two bus calls, the low byte first (R66). -/
theorem calls_read16 (g o : Word) {s : State} (h : s.bus.attached = true) :
    (read16 g o s).2.calls = .readByte (phys g (o + 1)) (highByte (read16 g o s).1) ::
      .readByte (phys g o) (lowByte (read16 g o s).1) :: s.calls := by
  refine (calls_readW .word g o s).trans ?_
  rw [answerCalls, if_pos h]
  rfl

/-- The two bytes of a word written to plain memory (R67; log entry 1). -/
theorem peek_write16 {g o : Word} {s : State} (h : s.Stores (bytesAt .word g o)) (v : Word) :
    (write16 g o v s).peek (phys g o) = lowByte v ∧ (write16 g o v s).peek (phys g (o + 1)) = highByte v := by
  have hword : wordOf ((write16 g o v s).peek (phys g o)) ((write16 g o v s).peek (phys g (o + 1))) = v :=
    peekW_writeW .word g o v h
  constructor
  · rw [← lowByte_wordOf (State.peek _ _), hword]
  · rw [← highByte_wordOf _ (State.peek _ _), hword]

/-- Settles O12: a word access is two byte accesses, of which each keeps the registers and makes one bus call. -/
theorem wordAccess : Obligations.WordAccess := by
  intro seg off v s
  have hread := touches_read16 seg off s
  have hwrite := touches_write16 seg off v s
  refine ⟨toNat_phys seg off, ⟨_, _, (wordOf_halves _).symm, calls_read16 seg off⟩, hread.cpu, hread.runs.core,
    peek_readW .word seg off s, hwrite.cpu, hwrite.runs.core, calls_writeW .word seg off v s,
    sameMemoryBut_writeW .word seg off v s, fun hstores => peek_write16 hstores v,
    fun hlow hhigh => sameMemory_write16_of_not_plain hlow hhigh v, fun hquiet => ?_, rfl, rfl, rfl, rfl⟩
  rw [read16_eq hquiet]
  exact ⟨rfl, rfl, (wrote_write16 hquiet seg off v).rest⟩

/-! ## The stack -/

/-- A pop moves SP and changes no byte of memory, whatever the host does (R71, R76). -/
theorem onlyCpu_pop16 (s : State) : OnlyCpu { s.cpu with sp := s.cpu.sp + 2 } s (pop16 s).2 := by
  obtain ⟨v, u, hpop, -, hcpu⟩ := pop16_touches s
  refine ⟨?_, fun a => peek_readW .word s.cpu.ss s.cpu.sp s a⟩
  rw [hpop]
  exact hcpu

theorem runs_pop16 (s : State) : Runs s (pop16 s).2 := by
  obtain ⟨v, u, hpop, hruns, -⟩ := pop16_touches s
  rw [hpop]
  exact hruns

/-- Settles O13: a push is a write and a pop a read of the word at SS:SP, with SP moved by 2. -/
theorem stackAccess : Obligations.StackAccess := by
  intro v s
  refine ⟨pushed_push16 v s, (runs_push16 v s).core, calls_push16 v s, onlyCpu_pop16 s, (runs_pop16 s).core,
    calls_readW .word s.cpu.ss s.cpu.sp s, fun hquiet => ?_⟩
  rw [pop16_eq hquiet]
  exact ⟨(SameRest.refl s).push16 hquiet v, rfl, ((SameRest.refl s).noteReads _).withSp _, rfl⟩

end Sys2Proof.Machine
end

section
/-!
PROOFS. A bus that is not attached: every access is a defined default, and a step runs `00 00` (20_memory.md R64;
60_exceptions.md R372).
-/

namespace Sys2Proof.Machine

section Unattached

variable {s : State} (h : s.bus.attached = false)
include h

theorem readByte_unattached (a : Addr) : readByte a s = (0, s) := by simp [readByte, h]

theorem writeByte_unattached (a : Addr) (v : Byte) : writeByte a v s = s := by simp [writeByte, h]

theorem portIn8_unattached (p : Word) : portIn8 p s = .ok (0, s) := by simp [portIn8, h]

theorem portOut8_unattached (p : Word) (v : Byte) : portOut8 p v s = .ok s := by simp [portOut8, h]

theorem queryOverride_unattached (v : Byte) : queryOverride v s = (⟨v, false⟩, s) := by simp [queryOverride, h]

theorem quietMemory_unattached : s.QuietMemory := fun ha => by rw [h] at ha; cases ha

/-- The code bytes that an unattached bus answers are all 0. -/
theorem code_unattached : s.code = fun _ => 0 := by
  funext k
  simp [State.code, State.codeAt, State.peek8, State.peek, h]

/-- `n` fetches are `n` moves of IP. -/
theorem fetchN_unattached (n : Nat) : fetchN n s = s.withIp (s.cpu.ip + BitVec.ofNat 16 n) := by
  rw [fetchN_eq n (quietMemory_unattached h)]
  simp [State.noteReads, readCalls, h]

end Unattached

/-- The instruction `00 00`: ADD [BX+SI], AL (R180). -/
def addBxSiAl : Instr := .add (.rmReg .byte (.base .bxSi) 0)

theorem decodeStream_zeros : decodeStream (fun _ => 0) = .ok addBxSiAl 2 := by decide

/-- With no bus attached the instruction at CS:IP is `00 00`, unless its slot has been taken out (R64, R106). -/
theorem fetchInstr_unattached {s : State} (h : s.bus.attached = false)
    (hslot : isRemoved s.params.removedSlots s.code = false) :
    fetchInstr s = (.ok addBxSiAl 2, s.withIp (s.cpu.ip + 2)) := by
  rw [fetchInstr_eq (quietMemory_unattached h), decodeWith_of_not_removed hslot, code_unattached h,
    decodeStream_zeros]
  exact congrArg _ (fetchN_unattached h 2)

/-- There it adds AL to 0 and drops the sum, so that only the flags remain of it (R64, R181). -/
theorem lastTurn_addBxSiAl_unattached {u : State} (h : u.bus.attached = false) :
    lastTurn (.ok addBxSiAl 2) u =
      .next (endStep { u.withFlags (addFlags 0 (getReg8 u.cpu .al) false u.cpu.flags).2 with
                       cost := cyclesOf addBxSiAl false 0 }) := by
  have hread : ∀ g o, readW .byte g o u = (0, u) := fun g o => readByte_unattached h (phys g o)
  have hwrite : ∀ g o v fl, writeW .byte g o v (u.withFlags fl) = u.withFlags fl := fun g o v fl =>
    writeByte_unattached (s := u.withFlags fl) h (phys g o) v
  have hrun : aluRun .add (.rmReg .byte (.base .bxSi) 0) u =
      u.withFlags (addFlags 0 (getReg8 u.cpu .al) false u.cpu.flags).2 := by
    simp only [aluRun, aluWidth, aluDst, aluSrc, resolve, readOperand, hread, writeOperand, reduceCtorEq, if_false,
      hwrite]
    rfl
  simp only [lastTurn, addBxSiAl, exec, execAdd, hrun, done_eq]

/-- Adding a byte to 0 carries nothing, overflows nowhere and gives the byte. -/
theorem addFlags_zero_status (b : Byte) (fl : Word) :
    StatusFlags false false b fl (addFlags 0 b false fl).2 := by
  have hsum : (addFlags 0 b false fl).1 = b := by simp [addFlags]
  have hcarry : ¬2 ^ 8 ≤ (0 : Byte).toNat + b.toNat + false.toNat := by simpa using b.isLt
  have hoverflow : (((0 : Byte) ^^^ b) &&& (b ^^^ b)).msb = false := by simp
  have hflags := addFlags_status 0 b false fl
  rwa [hsum, decide_eq_false hcarry, hoverflow] at hflags

/-- Settles O14: the fetches leave IP moved by 2, and the instruction they answer leaves its flags. -/
theorem unattachedBus : Obligations.UnattachedBus := by
  intro s h
  refine ⟨readByte_unattached h, writeByte_unattached h, portIn8_unattached h, portOut8_unattached h,
    queryOverride_unattached h, fun hinv hslot => ?_⟩
  have hfetch := fetchInstr_unattached (s := { s with calls := [] }) h hslot
  have hstep := (step_running hinv.running).trans (runLoop_last hfetch rfl)
  exact ⟨_, _, hstep.trans (lastTurn_addBxSiAl_unattached h),
    ⟨hinv.noOverride.symm, hinv.noRepeat.symm, rfl, rfl, rfl, rfl, rfl⟩, rfl, ⟨rfl, fun _ => rfl⟩,
    addFlags_zero_status _ _⟩

end Sys2Proof.Machine
end

section
/-!
PROOFS. The order of the bus calls at an r/m operand in memory, whatever the host does (20_memory.md R69, R76, R81).
-/

namespace Sys2Proof.Machine

/-! ## One read, and one write after it -/

/-- From `s` to `t` no bus call is made and the host is as it was. -/
structure MakesNoCall (s t : State) : Prop where
  core : SameCore s t
  bus : t.bus = s.bus
  calls : t.calls = s.calls

/-- From `s` to `t` the operand at `g`:`o` is read once, the host answering `x`, and no other bus call is made. -/
structure ReadsOnce (w : Width) (g o : Word) (x : BitVec w.bits) (s t : State) : Prop where
  core : SameCore s t
  windows : t.bus.devices.windows = s.bus.devices.windows
  calls : t.calls = answerCalls s w g o x ++ s.calls
  memory : SameMemory s t
  value : s.QuietMemory ∨ s.Stores (bytesAt w g o) → x = s.peekW w g o

/-- From `s` to `t` the operand at `g`:`o` is read once, the host answering `x`, and then written once with `v`, and
no other bus call is made (R69). -/
structure ReadsThenWrites (w : Width) (g o : Word) (x v : BitVec w.bits) (s t : State) : Prop where
  core : SameCore s t
  calls : t.calls = writeCalls s w g o v ++ (answerCalls s w g o x ++ s.calls)
  memory : SameMemoryBut (bytesAt w g o) s t
  value : s.QuietMemory ∨ s.Stores (bytesAt w g o) → x = s.peekW w g o
  stored : s.Stores (bytesAt w g o) → t.peekW w g o = v

theorem State.peekW_congr {s t : State} (h : SameMemory s t) (w : Width) (g o : Word) :
    t.peekW w g o = s.peekW w g o := by
  cases w <;> simp only [State.peekW, State.peek16, State.peek8, h _]

/-- What an attached bus records does not depend on the rest of the state. -/
theorem writeCalls_congr {s t : State} (h : t.bus.attached = s.bus.attached) (w : Width) (g o : Word)
    (v : BitVec w.bits) : writeCalls t w g o v = writeCalls s w g o v := by
  simp only [writeCalls, h]

theorem makesNoCall_withCpu (s : State) (c : Cpu) : MakesNoCall s (s.withCpu c) :=
  ⟨⟨rfl, rfl, rfl, rfl, rfl, rfl⟩, rfl, rfl⟩

theorem makesNoCall_withCost (s : State) (c : Cost) : MakesNoCall s { s with cost := c } :=
  ⟨⟨rfl, rfl, rfl, rfl, rfl, rfl⟩, rfl, rfl⟩

theorem makesNoCall_drawBit (s : State) : MakesNoCall s (drawBit s).2 :=
  ⟨⟨rfl, rfl, rfl, rfl, rfl, rfl⟩, rfl, rfl⟩

theorem makesNoCall_drawFlags (fs : List Flag) (s : State) : MakesNoCall s (drawFlags fs s) := by
  obtain ⟨fl, -, hbus, hrest, hcalls, -⟩ := drawFlags_spec fs s
  exact ⟨hrest.core, hbus, hcalls⟩

section

variable {w : Width} {g o : Word} {x v : BitVec w.bits} {s t u : State}

theorem ReadsOnce.then (h : ReadsOnce w g o x s t) (k : MakesNoCall t u) : ReadsOnce w g o x s u where
  core := h.core.trans k.core
  windows := by rw [k.bus, h.windows]
  calls := k.calls.trans h.calls
  memory a := (State.peek_congr k.bus a).trans (h.memory a)
  value := h.value

theorem ReadsThenWrites.then (h : ReadsThenWrites w g o x v s t) (k : MakesNoCall t u) :
    ReadsThenWrites w g o x v s u where
  core := h.core.trans k.core
  calls := k.calls.trans h.calls
  memory a ha := (State.peek_congr k.bus a).trans (h.memory a ha)
  value := h.value
  stored hs := (State.peekW_congr (State.peek_congr k.bus) w g o).trans (h.stored hs)

theorem ReadsOnce.write (h : ReadsOnce w g o x s t) (v : BitVec w.bits) :
    ReadsThenWrites w g o x v s (writeW w g o v t) where
  core := h.core.trans (touches_writeW w g o v t).runs.core
  calls := by rw [calls_writeW, h.calls, writeCalls_congr h.core.attached]
  memory a ha := (sameMemoryBut_writeW w g o v t a ha).trans (h.memory a)
  value := h.value
  stored hs := peekW_writeW w g o v (hs.congr h.core.attached h.windows)

end

/-- A read of an operand in memory (R66, R100). -/
theorem readsOnce_readW (w : Width) (g o : Word) (s : State) :
    ReadsOnce w g o (readW w g o s).1 s (readW w g o s).2 where
  core := (touches_readW w g o s).runs.core
  windows := (touches_readW w g o s).runs.windows
  calls := calls_readW w g o s
  memory := peek_readW w g o s
  value
    | .inl hquiet => congrArg Prod.fst (readW_eq hquiet w g o)
    | .inr hstores => readW_plain w g o hstores

/-! ## The shared operations -/

section Operand

variable {w : Width} {m : RM} {g o : Word} {s : State}

/-- The forms with an r/m operand as destination: the source is a register or an immediate, of which a read makes no
bus call (R180). -/
theorem aluRmDst_spec {f : AluForm} (h : aluRmDst f = some (w, m)) (s : State) :
    aluWidth f = w ∧ aluDst f s = resolve m s ∧ ∀ u, (readOperand (aluWidth f) (aluSrc f s) u).2 = u := by
  cases f with
  | rmReg _ _ _ | rmImm8 _ _ | rmImm8Dup _ _ | rmImm16 _ _ | rmSimm8 _ _ =>
    cases h
    exact ⟨rfl, rfl, fun _ => rfl⟩
  | regRm _ _ _ | accImm8 _ | accImm16 _ => cases h

/-- The one form with an r/m operand as source (R180). -/
theorem aluRmSrc_spec {f : AluForm} (h : aluRmSrc f = some (w, m)) : ∃ r, f = .regRm w r m := by
  cases f with
  | regRm _ r _ =>
    cases h
    exact ⟨r, rfl⟩
  | _ => cases h

/-- A two-operand instruction other than CMP reads its destination once and then writes it once (R69). -/
theorem aluRun_readsThenWrites {op : AluOp} (hop : op ≠ .cmp) {f : AluForm} (hf : aluRmDst f = some (w, m))
    (hm : resolve m s = .mem g o) : ∃ x v, ReadsThenWrites w g o x v s (aluRun op f s) := by
  obtain ⟨rfl, hdst, hsrc⟩ := aluRmDst_spec hf s
  simp only [aluRun, hdst, hm, hsrc, if_neg hop]
  exact ⟨_, _, ((readsOnce_readW _ g o s).then (makesNoCall_withCpu _ _)).write _⟩

/-- CMP reads its destination once. -/
theorem aluRun_cmp_readsOnce {f : AluForm} (hf : aluRmDst f = some (w, m)) (hm : resolve m s = .mem g o) :
    ∃ x, ReadsOnce w g o x s (aluRun .cmp f s) := by
  obtain ⟨rfl, hdst, hsrc⟩ := aluRmDst_spec hf s
  simp only [aluRun, hdst, hm, hsrc, if_true]
  exact ⟨_, (readsOnce_readW _ g o s).then (makesNoCall_withCpu _ _)⟩

/-- A two-operand instruction with a register as destination reads its source once. -/
theorem aluRun_readsOnce (op : AluOp) {f : AluForm} (hf : aluRmSrc f = some (w, m))
    (hm : resolve m s = .mem g o) : ∃ x, ReadsOnce w g o x s (aluRun op f s) := by
  obtain ⟨r, rfl⟩ := aluRmSrc_spec hf
  have hread := readsOnce_readW w g o s
  simp only [aluRun, aluWidth, aluDst, aluSrc, hm]
  split
  · exact ⟨_, hread.then (makesNoCall_withCpu _ _)⟩
  · exact ⟨_, (hread.then (makesNoCall_withCpu _ _)).then (makesNoCall_withCpu _ _)⟩

theorem unaryRun_readsThenWrites (f : BitVec w.bits → Word → BitVec w.bits × Word) (hm : resolve m s = .mem g o) :
    ∃ x v, ReadsThenWrites w g o x v s (unaryRun w (resolve m s) f s) := by
  rw [hm]
  exact ⟨_, _, ((readsOnce_readW w g o s).then (makesNoCall_withCpu _ _)).write _⟩

/-- A shift reads its operand once and then writes it once, by whatever count (R69, R235). -/
theorem shiftRun_readsThenWrites (op : ShiftOp) (c : ShiftCount) (hm : resolve m s = .mem g o) :
    ∃ x v, ReadsThenWrites w g o x v s (shiftRun op w m c s) := by
  have hread := readsOnce_readW w g o s
  simp only [shiftRun, hm]
  split
  · exact ⟨_, _, ((hread.then (makesNoCall_drawBit _)).then (makesNoCall_withCpu _ _)).write _⟩
  · exact ⟨_, _, (hread.then (makesNoCall_withCpu _ _)).write _⟩

theorem ReadsOnce.multiplyFlags {t : State} {x : BitVec w.bits} (h : ReadsOnce w g o x s t) (upper : Bool) :
    ReadsOnce w g o x s (multiplyFlags upper t) :=
  (h.then (makesNoCall_withCpu _ _)).then (makesNoCall_drawFlags _ _)

/-! ## The instructions -/

/-- A handler completes, having read its operand once and then written it once. -/
def CompletesReadWrite (w : Width) (g o : Word) (s : State) (out : Outcome) : Prop :=
  ∃ t x v, out = .next t ∧ ReadsThenWrites w g o x v s t

/-- A handler completes, having read its operand once. -/
def CompletesRead (w : Width) (g o : Word) (s : State) (out : Outcome) : Prop :=
  ∃ t x, out = .next t ∧ ReadsOnce w g o x s t

theorem completesReadWrite_done {t : State} (h : ∃ x v, ReadsThenWrites w g o x v s t) (i : Instr) (taken : Bool)
    (count : Nat) : CompletesReadWrite w g o s (done i t taken count) := by
  obtain ⟨x, v, h⟩ := h
  exact ⟨_, x, v, rfl, h.then (makesNoCall_withCost t _)⟩

theorem completesRead_done {t : State} (h : ∃ x, ReadsOnce w g o x s t) (i : Instr) (taken : Bool) (count : Nat) :
    CompletesRead w g o s (done i t taken count) := by
  obtain ⟨x, h⟩ := h
  exact ⟨_, x, rfl, h.then (makesNoCall_withCost t _)⟩

theorem exec_modifiesAt {i : Instr} (hi : modifiesAt i = some (w, m)) (hm : resolve m s = .mem g o) :
    CompletesReadWrite w g o s (exec i s) := by
  cases i with
  | add _ | adc _ | sub _ | sbb _ | and _ | or _ | xor _ =>
    exact completesReadWrite_done (aluRun_readsThenWrites (by decide) hi hm) _ _ _
  | incRm _ _ | decRm _ _ | neg _ _ | not _ _ =>
    cases hi
    exact completesReadWrite_done (unaryRun_readsThenWrites _ hm) _ _ _
  | rol _ _ c | ror _ _ c | rcl _ _ c | rcr _ _ c | shl _ _ c | shr _ _ c | sar _ _ c =>
    cases hi
    exact completesReadWrite_done (shiftRun_readsThenWrites _ c hm) _ _ _
  | xchgRmReg _ _ _ =>
    cases hi
    simp only [exec, execXchgRmReg, hm]
    exact completesReadWrite_done
      ⟨_, _, ((readsOnce_readW _ g o s).write _).then (makesNoCall_withCpu _ _)⟩ _ _ _
  | _ => cases hi

theorem exec_readsAt {i : Instr} (hi : readsAt i = some (w, m)) (hm : resolve m s = .mem g o) :
    CompletesRead w g o s (exec i s) := by
  have hread := readsOnce_readW w g o s
  cases i with
  | add _ | adc _ | sub _ | sbb _ | and _ | or _ | xor _ =>
    exact completesRead_done (aluRun_readsOnce _ hi hm) _ _ _
  | cmp _ =>
    obtain hdst | ⟨-, hsrc⟩ := Option.or_eq_some_iff.mp hi
    · exact completesRead_done (aluRun_cmp_readsOnce hdst hm) _ _ _
    · exact completesRead_done (aluRun_readsOnce .cmp hsrc hm) _ _ _
  | test f =>
    cases f with
    | rmReg _ _ _ | rmImm8 _ _ | rmImm16 _ _ =>
      cases hi
      simp only [exec, execTest, testFst, testWidth, hm]
      exact completesRead_done ⟨_, hread.then (makesNoCall_withCpu _ _)⟩ _ _ _
    | accImm8 _ | accImm16 _ => cases hi
  | movRegRm _ _ _ =>
    cases hi
    simp only [exec, execMovRegRm, hm]
    exact completesRead_done ⟨_, hread.then (makesNoCall_withCpu _ _)⟩ _ _ _
  | mul _ _ =>
    cases hi
    simp only [exec, execMul, hm]
    exact completesRead_done ⟨_, (hread.then (makesNoCall_withCpu _ _)).multiplyFlags _⟩ _ _ _
  | imul _ _ =>
    cases hi
    simp only [exec, execImul, hm]
    exact completesRead_done ⟨_, (hread.then (makesNoCall_withCpu _ _)).multiplyFlags _⟩ _ _ _
  | _ => cases hi

end Operand

/-- Settles O16: by what each instruction does to the operand, a read alone or a read and a write. -/
theorem readModifyWriteOrder : Obligations.ReadModifyWriteOrder := by
  intro i w m seg off s hm
  refine ⟨fun hi => ?_, fun hi => ?_⟩
  · obtain ⟨t, x, v, hexec, h⟩ := exec_modifiesAt hi hm
    exact ⟨t, x, v, hexec, h.core, h.calls, h.memory, fun hq => h.value (.inl hq),
      fun hs => ⟨h.value (.inr hs), h.stored hs⟩⟩
  · obtain ⟨t, x, hexec, h⟩ := exec_readsAt hi hm
    exact ⟨t, x, hexec, h.core, h.calls, h.memory, h.value⟩

end Sys2Proof.Machine
end

section
/-!
PROOFS. Decoding what the encoder wrote gives the instruction back (30_encoding.md R95 to R98, R105, R107, R112).
-/

namespace Sys2Proof

/-! ## The bytes of the stream -/

@[simp] theorem streamOf_zero (a : Byte) (l : List Byte) : streamOf (a :: l) 0 = a := streamOf_cons_zero a l

@[simp] theorem streamOf_one (a b : Byte) (l : List Byte) : streamOf (a :: b :: l) 1 = b := rfl

@[simp] theorem length_wordBytes (v : Word) : (wordBytes v).length = 2 := rfl

/-- The byte that follows an opcode byte and `l`. -/
@[simp] theorem streamOf_after (op : Byte) (l : List Byte) (a : Byte) (rest : List Byte) :
    streamOf (op :: (l ++ a :: rest)) (l.length + 1) = a := streamOf_append l (a :: rest) 0

/-- The word that follows an opcode byte and `l`. -/
@[simp] theorem streamWord_after (op : Byte) (l : List Byte) (v : Word) (rest : List Byte) :
    streamWord (streamOf (op :: (l ++ (wordBytes v ++ rest)))) (l.length + 1) = v := by
  have hlow : streamOf (op :: (l ++ (wordBytes v ++ rest))) (l.length + 1) = lowByte v := streamOf_after ..
  have hhigh : streamOf (op :: (l ++ (wordBytes v ++ rest))) (l.length + 1 + 1) = highByte v :=
    streamOf_append l (wordBytes v ++ rest) 1
  rw [streamWord, hlow, hhigh]
  exact streamWord_wordBytes v []

@[simp] theorem streamWord_one (op : Byte) (v : Word) (rest : List Byte) :
    streamWord (streamOf (op :: (wordBytes v ++ rest))) 1 = v := streamWord_after op [] v rest

@[simp] theorem streamWord_three (op : Byte) (u v : Word) (rest : List Byte) :
    streamWord (streamOf (op :: (wordBytes u ++ (wordBytes v ++ rest)))) 3 = v :=
  streamWord_after op (wordBytes u) v rest

theorem agree_one {b c : Nat → Byte} (h : c 0 = b 0) : Agree 1 b c := fun j hj => by
  rwa [Nat.lt_one_iff.mp hj]

/-- An instruction of one byte is decoded whatever follows. -/
theorem decodeStream_eq_single {b : Nat → Byte} {i : Instr} (h : decodeStream (fun _ => b 0) = .ok i 1) :
    decodeStream b = .ok i 1 := by
  have hlocal : Agree (decodeStream fun _ => b 0).length (fun _ => b 0) b := by
    rw [h]
    exact agree_one rfl
  rw [decodeStream_local hlocal, h]

theorem decodeStream_single {op : Byte} {i : Instr} (h : decodeStream (fun _ => op) = .ok i 1) (rest : List Byte) :
    decodeStream (streamOf (op :: rest)) = .ok i 1 := decodeStream_eq_single h

/-- An absent opcode byte is decoded as such (R106). -/
theorem decodeStream_absentOpcode {b : Nat → Byte} (h : b 0 ∈ absentBytes) :
    decodeStream b = .ok (.absentOpcode (b 0)) 1 := by
  have habsent : ∀ op ∈ absentBytes, decodeStream (fun _ => op) = .ok (.absentOpcode op) 1 := by decide
  exact decodeStream_eq_single (habsent (b 0) h)

/-! ## The rows whose opcode byte has a field -/

/-- Opcodes below 40 (R105). -/
theorem decodeStream_low {b : Nat → Byte} (h : ((b 0).extractLsb' 4 4).toNat < 4) : decodeStream b = decodeLow b := by
  unfold decodeStream
  generalize ((b 0).extractLsb' 4 4).toNat = d at h
  interval_cases d <;> rfl

/-- The ALU opcode 8k+c has `k` in its bits 5:3 and `c` in its bits 2:0 (R180). -/
theorem decodeStream_aluOpcode {b : Nat → Byte} {k c : BitVec 3} (h : b 0 = k.zeroExtend 8 * 8 + c.zeroExtend 8) :
    decodeStream b = decodeLow b ∧ (b 0).extractLsb' 3 3 = k ∧ (b 0).extractLsb' 0 3 = c := by
  have hfields : ∀ k c : BitVec 3, ((k.zeroExtend 8 * 8 + c.zeroExtend 8 : Byte).extractLsb' 4 4).toNat < 4 ∧
      (k.zeroExtend 8 * 8 + c.zeroExtend 8 : Byte).extractLsb' 3 3 = k ∧
      (k.zeroExtend 8 * 8 + c.zeroExtend 8 : Byte).extractLsb' 0 3 = c := by decide
  obtain ⟨hlow, hk, hc⟩ := h ▸ hfields k c
  exact ⟨decodeStream_low hlow, hk, hc⟩

section

variable {b : Nat → Byte}

/-- Eb,Gb and Ev,Gv of ALU operation `k` (R180). -/
theorem decodeStream_aluRmReg {k : BitVec 3} {w : Width} (h : b 0 = k.zeroExtend 8 * 8 + w.bit) :
    decodeStream b = rowModRM b (fun m r => aluInstr k.toNat (.rmReg w m r)) := by
  cases w with
  | byte =>
    obtain ⟨hlow, hk, hc⟩ := decodeStream_aluOpcode (c := 0) h
    simp [hlow, decodeLow, hk, hc]
  | word =>
    obtain ⟨hlow, hk, hc⟩ := decodeStream_aluOpcode (c := 1) h
    simp [hlow, decodeLow, hk, hc]

/-- Gb,Eb and Gv,Ev of ALU operation `k` (R180). -/
theorem decodeStream_aluRegRm {k : BitVec 3} {w : Width} (h : b 0 = k.zeroExtend 8 * 8 + 2 + w.bit) :
    decodeStream b = rowModRM b (fun m r => aluInstr k.toNat (.regRm w r m)) := by
  rw [BitVec.add_assoc] at h
  cases w with
  | byte =>
    obtain ⟨hlow, hk, hc⟩ := decodeStream_aluOpcode (c := 2) h
    simp [hlow, decodeLow, hk, hc]
  | word =>
    obtain ⟨hlow, hk, hc⟩ := decodeStream_aluOpcode (c := 3) h
    simp [hlow, decodeLow, hk, hc]

/-- AL,Ib of ALU operation `k` (R180). -/
theorem decodeStream_aluAccImm8 {k : BitVec 3} (h : b 0 = k.zeroExtend 8 * 8 + 4) :
    decodeStream b = .ok (aluInstr k.toNat (.accImm8 (b 1))) 2 := by
  obtain ⟨hlow, hk, hc⟩ := decodeStream_aluOpcode (c := 4) h
  simp [hlow, decodeLow, hk, hc]

/-- AX,Iv of ALU operation `k` (R180). -/
theorem decodeStream_aluAccImm16 {k : BitVec 3} (h : b 0 = k.zeroExtend 8 * 8 + 5) :
    decodeStream b = .ok (aluInstr k.toNat (.accImm16 (streamWord b 1))) 3 := by
  obtain ⟨hlow, hk, hc⟩ := decodeStream_aluOpcode (c := 5) h
  simp [hlow, decodeLow, hk, hc]

/-- Group 2 (R107, R235). -/
theorem decodeStream_group2 {w : Width} {c : ShiftCount} (h : b 0 = 0xD0 + w.bit + c.bit) :
    decodeStream b = decodeShift b w c := by
  cases w <;> cases c <;> simp [decodeStream, decodeRowD, h, Width.bit, ShiftCount.bit]

/-- Group 3 (R107, R197). -/
theorem decodeStream_group3 {w : Width} (h : b 0 = 0xF6 + w.bit) : decodeStream b = decodeGroup3 b w := by
  cases w <;> simp [decodeStream, decodeRowF, h, Width.bit]

/-- MOV r8,imm8 (R142). -/
theorem decodeStream_movRegImm8 {r : RegIx} (h : b 0 = 0xB0 + r.zeroExtend 8) :
    decodeStream b = .ok (.movRegImm8 r (b 1)) 2 := by
  have hfields : ∀ r : RegIx, ((0xB0 + r.zeroExtend 8 : Byte).extractLsb' 4 4).toNat = 11 ∧
      (0xB0 + r.zeroExtend 8 : Byte).extractLsb' 0 3 = r ∧
      (0xB0 + r.zeroExtend 8 : Byte).getLsbD 3 = false := by decide
  obtain ⟨hhigh, hr, hbit⟩ := h ▸ hfields r
  simp only [decodeStream, decodeRowB, hhigh, hr, hbit, Bool.false_eq_true, if_false]

/-- MOV r16,imm16 (R142). -/
theorem decodeStream_movRegImm16 {r : RegIx} (h : b 0 = 0xB8 + r.zeroExtend 8) :
    decodeStream b = .ok (.movRegImm16 r (streamWord b 1)) 3 := by
  have hfields : ∀ r : RegIx, ((0xB8 + r.zeroExtend 8 : Byte).extractLsb' 4 4).toNat = 11 ∧
      (0xB8 + r.zeroExtend 8 : Byte).extractLsb' 0 3 = r ∧
      (0xB8 + r.zeroExtend 8 : Byte).getLsbD 3 = true := by decide
  obtain ⟨hhigh, hr, hbit⟩ := h ▸ hfields r
  simp only [decodeStream, decodeRowB, hhigh, hr, hbit, if_true]

end

/-! ## The ALU forms, TEST, the shifts and the absent slots -/

theorem decodeStream_encodeAlu (k : BitVec 3) {f : AluForm} (hf : f.wf = true) (rest : List Byte) :
    decodeStream (streamOf (encodeAlu k f ++ rest)) = .ok (aluInstr k.toNat f) (encodeAlu k f).length := by
  cases f with
  | rmReg w m r =>
    refine (decodeStream_aluRmReg (w := w) rfl).trans ?_
    simp [rowModRM, encodeAlu, modRMAfterOp_encode hf, Nat.add_comm]
  | regRm w r m =>
    refine (decodeStream_aluRegRm (w := w) rfl).trans ?_
    simp [rowModRM, encodeAlu, modRMAfterOp_encode hf, Nat.add_comm]
  | accImm8 i => exact decodeStream_aluAccImm8 rfl
  | accImm16 i =>
    refine (decodeStream_aluAccImm16 rfl).trans ?_
    simp [encodeAlu]
  | rmImm8 m i | rmImm8Dup m i | rmSimm8 m i | rmImm16 m i =>
    simp +arith [encodeAlu, decodeStream, decodeRow8, modRMAfterOp_encode hf]

theorem decodeStream_encodeTest {f : TestForm} (hf : f.wf = true) (rest : List Byte) :
    decodeStream (streamOf (encodeTest f ++ rest)) = .ok (.test f) (encodeTest f).length := by
  cases f with
  | rmReg w m r =>
    cases w <;> simp [encodeTest, decodeStream, decodeRow8, Width.bit, modRMAfterOp_encode hf, Nat.add_comm]
  | accImm8 i | accImm16 i => simp [encodeTest, decodeStream, decodeRowA]
  | rmImm8 m i | rmImm16 m i =>
    simp +arith [encodeTest, decodeStream, decodeRowF, decodeGroup3, modRMAfterOp_encode hf]

/-- An absent slot of a group is decoded as such (R107). -/
theorem decodeStream_absentSlot {op : Byte} {m : RM} {reg : RegIx} (hslot : isAbsentSlot op reg = true)
    (hm : m.wf = true) (rest : List Byte) :
    decodeStream (streamOf (op :: (encodeModRM reg m ++ rest))) =
      .ok (.absentSlot op m reg) (1 + (encodeModRM reg m).length) := by
  have hmodRM := modRMAfterOp_encode (reg := reg) hm op rest
  generalize hb : streamOf (op :: (encodeModRM reg m ++ rest)) = b at hmodRM ⊢
  have h0 : b 0 = op := hb ▸ rfl
  generalize (encodeModRM reg m).length = n at hmodRM ⊢
  unfold isAbsentSlot at hslot
  split at hslot
  · next hop =>
    have hreg : ¬reg = 0#3 := of_decide_eq_true hslot
    rcases hop with rfl | rfl | rfl <;> simp [decodeStream, decodeRow8, decodeRowC, h0, hmodRM, hreg]
  split at hslot
  · next hop =>
    obtain rfl : reg = 6 := of_decide_eq_true hslot
    rcases hop with rfl | rfl | rfl | rfl <;> simp [decodeStream, decodeRowD, decodeShift, h0, hmodRM]
  split at hslot
  · next hop =>
    obtain rfl : reg = 1 := of_decide_eq_true hslot
    rcases hop with rfl | rfl <;> simp [decodeStream, decodeRowF, decodeGroup3, h0, hmodRM]
  split at hslot
  · next hop =>
    obtain ⟨k, hreg⟩ := Nat.exists_eq_add_of_le' (of_decide_eq_true hslot : 2 ≤ reg.toNat)
    subst hop
    simp [decodeStream, decodeRowF, decodeGroup4, h0, hmodRM, hreg]
  split at hslot
  · next hop =>
    obtain rfl : reg = 7 := of_decide_eq_true hslot
    subst hop
    simp [decodeStream, decodeRowF, decodeGroup5, h0, hmodRM]
  · cases hslot

/-! ## Every instruction -/

theorem sreg_ofIx_reg (sr : Sreg) : Sreg.ofIx (sr.reg.extractLsb' 0 2) = sr := by cases sr <;> rfl

/-- The fields of 8C and 8E that name a segment register (R109). -/
theorem sreg_reg_lt (sr : Sreg) : ¬4 ≤ sr.reg.toNat := by cases sr <;> decide

theorem sreg_reg_ne_one {sr : Sreg} (h : sr ≠ .cs) : ¬sr.reg = 1#3 := by
  cases sr with
  | cs => exact absurd rfl h
  | es | ss | ds => decide

theorem decodeStream_encode {i : Instr} (hi : i.WellFormed) (rest : List Byte) :
    decodeStream (streamOf (encode i ++ rest)) = .ok i (encode i).length := by
  cases i with
  -- one byte
  | segEs | segCs | segSs | segDs | rep | nop | xlat | lahf | sahf | pushf | popf | cbw | cwd | movsb | movsw
  | cmpsb | cmpsw | stosb | stosw | lodsb | lodsw | scasb | scasw | ret | retf | int3 | into | iret | clc | stc
  | cmc | cld | std | cli | sti => exact decodeStream_single (by decide) rest
  | pushReg r | popReg r | incReg r | decReg r | xchgAxReg r => exact decodeStream_single (by revert r; decide) rest
  | pushSreg sr | popSreg sr => exact decodeStream_single (by cases sr <;> revert hi <;> decide) rest
  | inDx w | outDx w => exact decodeStream_single (by cases w <;> decide) rest
  | absentOpcode op => exact decodeStream_absentOpcode (b := streamOf (op :: rest)) (List.contains_iff_mem.mp hi)
  -- an immediate, displacement or address
  | jo _ | jno _ | jb _ | jae _ | je _ | jne _ | jbe _ | ja _ | js _ | jns _ | jp _ | jnp _ | jl _ | jge _
  | jle _ | jg _ => simp [encode, decodeStream, decodeJcc]
  | callFar _ _ => simp [encode, decodeStream, decodeRow9]
  | movAccMoffs w _ | movMoffsAcc w _ => cases w <;> simp [encode, decodeStream, decodeRowA, Width.bit]
  | movRegImm8 r _ => exact decodeStream_movRegImm8 rfl
  | movRegImm16 r _ =>
    refine (decodeStream_movRegImm16 (r := r) rfl).trans ?_
    simp [encode]
  | retImm _ | retfImm _ | int _ => simp [encode, decodeStream, decodeRowC]
  | aam _ | aad _ => simp [encode, decodeStream, decodeRowD]
  | inImm w _ | outImm w _ => cases w <;> simp [encode, decodeStream, decodeRowE, Width.bit]
  | loop _ | loopz _ | loopnz _ | jcxz _ | jmpRel8 _ | jmpRel16 _ | jmpFar _ _ | callRel16 _ =>
    simp [encode, decodeStream, decodeRowE]
  -- an r/m operand
  | add _ | or _ | adc _ | sbb _ | and _ | sub _ | xor _ | cmp _ => exact decodeStream_encodeAlu _ hi rest
  | test _ => exact decodeStream_encodeTest hi rest
  | rol w m c | ror w m c | rcl w m c | rcr w m c | shl w m c | shr w m c | sar w m c =>
    refine (decodeStream_group2 (w := w) (c := c) rfl).trans ?_
    simp [decodeShift, encode, encodeShift, modRMAfterOp_encode (m := m) hi, Nat.add_comm]
  | not w m | neg w m | mul w m | imul w m | div w m | idiv w m =>
    refine (decodeStream_group3 (w := w) rfl).trans ?_
    simp [decodeGroup3, encode, modRMAfterOp_encode (m := m) hi, Nat.add_comm]
  | movRmReg w m _ | movRegRm w _ m | xchgRmReg w m _ =>
    cases w <;> simp [encode, decodeStream, decodeRow8, Width.bit, modRMAfterOp_encode (m := m) hi, Nat.add_comm]
  | popRm m =>
    simp [encode, decodeStream, decodeRow8, modRMAfterOp_encode (m := m) hi, Nat.add_comm]
  | movRmImm8 m _ | movRmImm16 m _ =>
    simp +arith [encode, decodeStream, decodeRowC, modRMAfterOp_encode (m := m) hi]
  | movRmSreg m sr =>
    simp [encode, decodeStream, decodeRow8, modRMAfterOp_encode (m := m) hi, sreg_reg_lt, sreg_ofIx_reg, Nat.add_comm]
  | movSregRm sr m =>
    simp only [Instr.WellFormed, Instr.wf, Bool.and_eq_true, decide_eq_true_iff] at hi
    obtain ⟨hcs, hm⟩ := hi
    simp [encode, decodeStream, decodeRow8, modRMAfterOp_encode hm, sreg_reg_lt, sreg_reg_ne_one hcs, sreg_ofIx_reg,
      Nat.add_comm]
  | lea _ m | lds _ m | les _ m | jmpFarRm m | callFarRm m =>
    obtain ⟨hmem, hm⟩ := Bool.and_eq_true_iff.mp hi
    simp [encode, decodeStream, decodeRow8, decodeRowC, decodeRowF, decodeGroup5, rowMem, modRMAfterOp_encode hm, hmem,
      Nat.add_comm]
  | incRm w m | decRm w m =>
    cases w <;>
      simp [encode, decodeStream, decodeRowF, decodeGroup4, decodeGroup5, Width.bit, modRMAfterOp_encode (m := m) hi,
        Nat.add_comm]
  | pushRm m | jmpRm m | callRm m =>
    simp [encode, decodeStream, decodeRowF, decodeGroup5, modRMAfterOp_encode (m := m) hi, Nat.add_comm]
  | absentSlot op m reg =>
    obtain ⟨hslot, hm⟩ := Bool.and_eq_true_iff.mp hi
    refine (decodeStream_absentSlot hslot hm rest).trans ?_
    simp [encode, Nat.add_comm]

namespace Machine

/-- Settles O19: by the instruction's row. -/
theorem decodeEncode : Obligations.DecodeEncode := by
  intro i rest hi
  simp [decode, decodeStream_encode hi rest, Decoded.within, Decoded.length]

end Machine

end Sys2Proof
end

section
/-!
PROOFS. What is decoded is well formed, and its encoding is the bytes it was decoded from (30_encoding.md R90, R95 to
R98, R105, R107, R111, R112).
-/

namespace Sys2Proof

/-! ## The first bytes of a stream -/

/-- The first `n` bytes of a stream. -/
def firstBytes (n : Nat) (b : Nat → Byte) : List Byte := (List.range n).map b

@[simp] theorem firstBytes_zero (b : Nat → Byte) : firstBytes 0 b = [] := rfl

/-- One byte more. -/
theorem firstBytes_succ (n : Nat) (b : Nat → Byte) : firstBytes (n + 1) b = firstBytes n b ++ [b n] := by
  simp [firstBytes, List.range_succ]

/-- An opcode byte and `n` bytes after it. -/
theorem firstBytes_one_add (n : Nat) (b : Nat → Byte) :
    firstBytes (1 + n) b = b 0 :: firstBytes n (fun k => b (k + 1)) := by
  simp [firstBytes, Nat.add_comm 1, List.range_succ_eq_map, Function.comp_def]

@[simp] theorem wordBytes_streamWord (b : Nat → Byte) (k : Nat) : wordBytes (streamWord b k) = [b k, b (k + 1)] := by
  simp [wordBytes, streamWord, Machine.lowByte_wordOf, Machine.highByte_wordOf]

/-! ## The ModRM byte -/

theorem modRMByte_extract (x : Byte) :
    modRMByte (x.extractLsb' 6 2) (x.extractLsb' 3 3) (x.extractLsb' 0 3) = x := by
  revert x; decide

/-- With mod = 0 only rm = 6 is the direct form (R98). -/
theorem wf_base_ofIx {rm : RegIx} (h : ¬rm = 6#3) : (RM.base (Base.ofIx rm)).wf = true := by
  revert rm; decide

/-- The operand of a ModRM byte has an encoding, which is that byte and its displacement (R95 to R98). -/
theorem encodeModRM_decodeModRM (b : Nat → Byte) :
    (decodeModRM b).2.1.wf = true ∧
      encodeModRM (decodeModRM b).1 (decodeModRM b).2.1 = firstBytes (decodeModRM b).2.2 b := by
  have hbyte := modRMByte_extract (b 0)
  unfold decodeModRM
  dsimp only
  generalize (b 0).extractLsb' 6 2 = md at hbyte ⊢
  generalize (b 0).extractLsb' 0 3 = rm at hbyte ⊢
  have hmd : md = 0#2 ∨ md = 1#2 ∨ md = 2#2 ∨ md = 3#2 := by clear hbyte; revert md; decide
  rcases hmd with rfl | rfl | rfl | rfl
  · by_cases hrm : rm = 6#3
    · subst hrm
      simp [RM.wf, encodeModRM, hbyte, firstBytes_succ]
    · simp [hrm, wf_base_ofIx hrm, encodeModRM, base_ix_ofIx, hbyte, firstBytes_succ]
  all_goals simp [RM.wf, encodeModRM, base_ix_ofIx, hbyte, firstBytes_succ]

/-- A ModRM byte that follows the opcode byte `op` has been read: its operand has an encoding, and so do the
instruction's bytes up to it and with an immediate after it. -/
structure ReadsModRM (b : Nat → Byte) (op : Byte) (reg : RegIx) (m : RM) (n : Nat) : Prop where
  wf : m.wf = true
  bytes : op :: encodeModRM reg m = firstBytes (1 + n) b
  bytes8 : op :: encodeModRM reg m ++ [b (1 + n)] = firstBytes (2 + n) b
  bytes16 : op :: encodeModRM reg m ++ wordBytes (streamWord b (1 + n)) = firstBytes (3 + n) b

theorem readsModRM {b : Nat → Byte} {op : Byte} (h : b 0 = op) :
    ∃ reg m n, modRMAfterOp b = (reg, m, n) ∧ ReadsModRM b op reg m n := by
  have hmodRM := encodeModRM_decodeModRM (fun k => b (k + 1))
  rcases hx : modRMAfterOp b with ⟨reg, m, n⟩
  rw [show decodeModRM (fun k => b (k + 1)) = (reg, m, n) from hx] at hmodRM
  obtain ⟨hm, hafter⟩ := hmodRM
  have hbytes : op :: encodeModRM reg m = firstBytes (1 + n) b := by rw [firstBytes_one_add, h, hafter]
  refine ⟨reg, m, n, rfl, hm, hbytes, ?_, ?_⟩
  · rw [hbytes, show 2 + n = 1 + n + 1 by omega, firstBytes_succ]
  · rw [hbytes, show 3 + n = 1 + n + 1 + 1 by omega, firstBytes_succ, firstBytes_succ, wordBytes_streamWord,
      List.append_assoc, List.singleton_append]

/-! ## What the decoder answers -/

/-- The instruction is well formed, and its encoding is the first `n` bytes of the stream. -/
def Encodes (b : Nat → Byte) (i : Instr) (n : Nat) : Prop := i.wf = true ∧ encode i = firstBytes n b

/-- What is decoded from `b` is encoded as it stands there; an instruction of one byte is left out. -/
def Rebuilds (b : Nat → Byte) : Decoded → Prop
  | .ok i n => n = 1 ∨ Encodes b i n
  | .refusedForm _ _ _ | .truncated => True

/-- Whether an instruction of one byte is encoded as that byte. -/
def rebuildsByte (op : Byte) : Decoded → Bool
  | .ok i 1 => i.wf && encode i == [op]
  | _ => true

/-- An instruction of one byte is the one that the decoder reads from that byte, whatever follows; there are 256 bytes
to try. -/
theorem encodes_single {b : Nat → Byte} {i : Instr} (h : decodeStream b = .ok i 1) : Encodes b i 1 := by
  have hlocal : Agree (decodeStream b).length b (fun _ => b 0) := by
    rw [h]
    exact agree_one rfl
  have hbytes : ∀ op : Byte, rebuildsByte op (decodeStream fun _ => op) = true := by decide
  have hop := hbytes (b 0)
  rw [decodeStream_local hlocal, h] at hop
  simpa [rebuildsByte, Encodes, firstBytes_succ] using hop

/-- An opcode byte by its two hexadecimal digits. -/
theorem opcode_digits {op : Byte} {h : Nat} (hh : (op.extractLsb' 4 4).toNat = h) :
    ∃ l < 16, (op.extractLsb' 0 4).toNat = l ∧ op = BitVec.ofNat 8 (16 * h + l) := by
  have hop : ∀ op : Byte,
      op = BitVec.ofNat 8 (16 * (op.extractLsb' 4 4).toNat + (op.extractLsb' 0 4).toNat) := by decide
  exact ⟨_, BitVec.isLt _, rfl, hh ▸ hop op⟩

theorem regIx_eq (reg : RegIx) : ∃ k < 8, reg = BitVec.ofNat 3 k := ⟨reg.toNat, reg.isLt, by simp⟩

/-- A hexadecimal digit by its sixteen values, to split a row of the opcode map by. -/
theorem hexDigit_cases {motive : (k : Nat) → k < 16 → Prop}
    (d0 : motive 0 (by decide)) (d1 : motive 1 (by decide)) (d2 : motive 2 (by decide)) (d3 : motive 3 (by decide))
    (d4 : motive 4 (by decide)) (d5 : motive 5 (by decide)) (d6 : motive 6 (by decide)) (d7 : motive 7 (by decide))
    (d8 : motive 8 (by decide)) (d9 : motive 9 (by decide)) (dA : motive 10 (by decide)) (dB : motive 11 (by decide))
    (dC : motive 12 (by decide)) (dD : motive 13 (by decide)) (dE : motive 14 (by decide))
    (dF : motive 15 (by decide)) (k : Nat) (h : k < 16) : motive k h := by
  interval_cases k <;> assumption

/-- A three-bit field by its eight values, to split a group by. -/
theorem octalDigit_cases {motive : (k : Nat) → k < 8 → Prop}
    (d0 : motive 0 (by decide)) (d1 : motive 1 (by decide)) (d2 : motive 2 (by decide)) (d3 : motive 3 (by decide))
    (d4 : motive 4 (by decide)) (d5 : motive 5 (by decide)) (d6 : motive 6 (by decide)) (d7 : motive 7 (by decide))
    (k : Nat) (h : k < 8) : motive k h := by
  interval_cases k <;> assumption

/-- An ALU instruction by its operation's number (R180). -/
theorem encodes_aluInstr {b : Nat → Byte} {k : RegIx} {f : AluForm} {n : Nat} (hf : f.wf = true)
    (hbytes : encodeAlu k f = firstBytes n b) : Encodes b (aluInstr k.toNat f) n := by
  obtain ⟨k, hk, rfl⟩ := regIx_eq k
  interval_cases k <;> exact ⟨hf, hbytes⟩

section

variable {b : Nat → Byte} {op : Byte}

theorem firstBytes_two (h : b 0 = op) : [op, b 1] = firstBytes 2 b := by
  simp [firstBytes_succ, h]

theorem firstBytes_three (h : b 0 = op) : op :: wordBytes (streamWord b 1) = firstBytes 3 b := by
  simp [firstBytes_succ, h]

theorem firstBytes_five (h : b 0 = op) :
    op :: wordBytes (streamWord b 1) ++ wordBytes (streamWord b 3) = firstBytes 5 b := by
  simp [firstBytes_succ, h]

end

/-! ## The rows of the opcode map -/

section

variable {b : Nat → Byte} {op : Byte} {reg : RegIx} {m : RM} {n : Nat}

theorem rebuilds_ite {c : Prop} [Decidable c] {d e : Decoded} (hd : c → Rebuilds b d) (he : ¬c → Rebuilds b e) :
    Rebuilds b (if c then d else e) := by
  split
  · exact hd ‹_›
  · exact he ‹_›

theorem ReadsModRM.absentSlot (h : ReadsModRM b op reg m n) (hslot : isAbsentSlot op reg = true) :
    Encodes b (.absentSlot op m reg) (1 + n) := ⟨Bool.and_eq_true_iff.mpr ⟨hslot, h.wf⟩, h.bytes⟩

/-- A row whose operand must be in memory (R108). -/
theorem ReadsModRM.rebuilds_mem (h : ReadsModRM b op reg m n) {i : Instr} (hwf : i.wf = (m.isMem && m.wf))
    (hi : encode i = op :: encodeModRM reg m) (slot : Option RegIx) :
    Rebuilds b (if m.isMem then .ok i (1 + n) else .refusedForm op slot (1 + n)) :=
  rebuilds_ite (fun hmem => .inr ⟨by rw [hwf, hmem, h.wf]; rfl, hi.trans h.bytes⟩) (fun _ => trivial)

/-- The segment register of a field that 8C and 8E allow (R109). -/
theorem reg_sreg_ofIx {reg : RegIx} (h : ¬4 ≤ reg.toNat) : (Sreg.ofIx (reg.extractLsb' 0 2)).reg = reg := by
  revert reg; decide

theorem sreg_ofIx_ne_cs {reg : RegIx} (h : ¬(4 ≤ reg.toNat ∨ reg = 1)) : Sreg.ofIx (reg.extractLsb' 0 2) ≠ .cs := by
  revert reg; decide

theorem ReadsModRM.movRmSreg (h : ReadsModRM b 0x8C reg m n) (hreg : ¬4 ≤ reg.toNat) :
    Encodes b (.movRmSreg m (Sreg.ofIx (reg.extractLsb' 0 2))) (1 + n) :=
  ⟨h.wf, by rw [encode, reg_sreg_ofIx hreg, h.bytes]⟩

theorem ReadsModRM.movSregRm (h : ReadsModRM b 0x8E reg m n) (hreg : ¬(4 ≤ reg.toNat ∨ reg = 1)) :
    Encodes b (.movSregRm (Sreg.ofIx (reg.extractLsb' 0 2)) m) (1 + n) :=
  ⟨Bool.and_eq_true_iff.mpr ⟨decide_eq_true (sreg_ofIx_ne_cs hreg), h.wf⟩,
    by rw [encode, reg_sreg_ofIx (not_or.mp hreg).1, h.bytes]⟩

end

section

variable {b : Nat → Byte}

/-- An opcode below 40 by its fields (R105). -/
theorem aluOpcode_eq {op : Byte} (h : (op.extractLsb' 4 4).toNat < 4) :
    op = (op.extractLsb' 3 3).zeroExtend 8 * 8 + (op.extractLsb' 0 3).zeroExtend 8 := by
  revert op; decide

theorem rebuilds_low (h : ((b 0).extractLsb' 4 4).toNat < 4) : Rebuilds b (decodeLow b) := by
  have hop := aluOpcode_eq h
  unfold decodeLow rowModRM
  dsimp only
  generalize (b 0).extractLsb' 3 3 = k at hop ⊢
  generalize (b 0).extractLsb' 0 3 = c at hop ⊢
  obtain ⟨reg, m, n, hx, hmodRM⟩ := readsModRM hop
  rw [hx]
  obtain ⟨c, hc, rfl⟩ := regIx_eq c
  cases c, hc using octalDigit_cases with
  | d0 | d1 => exact .inr (encodes_aluInstr hmodRM.wf hmodRM.bytes)
  | d2 | d3 =>
    exact .inr (encodes_aluInstr hmodRM.wf (by rw [encodeAlu, BitVec.add_assoc]; exact hmodRM.bytes))
  | d4 => exact .inr (encodes_aluInstr rfl (firstBytes_two hop))
  | d5 => exact .inr (encodes_aluInstr rfl (firstBytes_three hop))
  | d6 =>
    refine rebuilds_ite (fun _ => .inl rfl) (fun _ => ?_)
    split <;> exact .inl rfl
  | d7 => exact rebuilds_ite (fun _ => .inl rfl) (fun _ => .inl rfl)

theorem rebuilds_regOps (b : Nat → Byte) : Rebuilds b (decodeRegOps b) := by
  unfold decodeRegOps
  dsimp only
  split <;> exact .inl rfl

theorem rebuilds_jcc (h : ((b 0).extractLsb' 4 4).toNat = 7) : Rebuilds b (decodeJcc b) := by
  obtain ⟨l, hlt, hl, hop⟩ := opcode_digits h
  unfold decodeJcc
  rw [hl]
  interval_cases l <;> exact .inr ⟨rfl, firstBytes_two hop⟩

theorem rebuilds_row8 (h : ((b 0).extractLsb' 4 4).toNat = 8) : Rebuilds b (decodeRow8 b) := by
  obtain ⟨l, hlt, hl, hop⟩ := opcode_digits h
  obtain ⟨reg, m, n, hx, hmodRM⟩ := readsModRM hop
  unfold decodeRow8 rowMem
  rw [hx, hl, hop]
  cases l, hlt using hexDigit_cases with
  | d0 | d2 | d3 => exact .inr (encodes_aluInstr hmodRM.wf hmodRM.bytes8)
  | d1 => exact .inr (encodes_aluInstr hmodRM.wf hmodRM.bytes16)
  | d4 | d5 | d6 | d7 | d8 | d9 | dA | dB => exact .inr ⟨hmodRM.wf, hmodRM.bytes⟩
  | dC => exact rebuilds_ite (fun _ => trivial) (fun hreg => .inr (hmodRM.movRmSreg hreg))
  | dD => exact hmodRM.rebuilds_mem rfl rfl _
  | dE => exact rebuilds_ite (fun _ => trivial) (fun hreg => .inr (hmodRM.movSregRm hreg))
  | dF =>
    exact rebuilds_ite (fun hreg => .inr ⟨hmodRM.wf, by subst hreg; exact hmodRM.bytes⟩)
      (fun hreg => .inr (hmodRM.absentSlot (decide_eq_true hreg)))

theorem rebuilds_row9 (h : ((b 0).extractLsb' 4 4).toNat = 9) : Rebuilds b (decodeRow9 b) := by
  obtain ⟨l, hlt, hl, hop⟩ := opcode_digits h
  unfold decodeRow9
  rw [hl]
  cases l, hlt using hexDigit_cases with
  | dA => exact .inr ⟨rfl, firstBytes_five hop⟩
  | _ => exact .inl rfl

theorem rebuilds_rowA (h : ((b 0).extractLsb' 4 4).toNat = 10) : Rebuilds b (decodeRowA b) := by
  obtain ⟨l, hlt, hl, hop⟩ := opcode_digits h
  unfold decodeRowA
  rw [hl]
  cases l, hlt using hexDigit_cases with
  | d0 | d1 | d2 | d3 | d9 => exact .inr ⟨rfl, firstBytes_three hop⟩
  | d8 => exact .inr ⟨rfl, firstBytes_two hop⟩
  | _ => exact .inl rfl

/-- An opcode of the row B0 by its fields (R142). -/
theorem movRegImm_opcode_eq {op : Byte} (h : (op.extractLsb' 4 4).toNat = 11) :
    op = (if op.getLsbD 3 then 0xB8 else 0xB0) + (op.extractLsb' 0 3).zeroExtend 8 := by
  revert op; decide

theorem rebuilds_rowB (h : ((b 0).extractLsb' 4 4).toNat = 11) : Rebuilds b (decodeRowB b) := by
  have hop := movRegImm_opcode_eq h
  refine rebuilds_ite (fun hbit => ?_) (fun hbit => ?_)
  · rw [if_pos hbit] at hop
    exact .inr ⟨rfl, firstBytes_three hop⟩
  · rw [if_neg hbit] at hop
    exact .inr ⟨rfl, firstBytes_two hop⟩

theorem rebuilds_rowC (h : ((b 0).extractLsb' 4 4).toNat = 12) : Rebuilds b (decodeRowC b) := by
  obtain ⟨l, hlt, hl, hop⟩ := opcode_digits h
  obtain ⟨reg, m, n, hx, hmodRM⟩ := readsModRM hop
  unfold decodeRowC rowMem
  rw [hx, hl, hop]
  cases l, hlt using hexDigit_cases with
  | d2 | dA => exact .inr ⟨rfl, firstBytes_three hop⟩
  | d4 | d5 => exact hmodRM.rebuilds_mem rfl rfl _
  | d6 =>
    exact rebuilds_ite (fun hreg => .inr ⟨hmodRM.wf, by subst hreg; exact hmodRM.bytes8⟩)
      (fun hreg => .inr (hmodRM.absentSlot (decide_eq_true hreg)))
  | d7 =>
    exact rebuilds_ite (fun hreg => .inr ⟨hmodRM.wf, by subst hreg; exact hmodRM.bytes16⟩)
      (fun hreg => .inr (hmodRM.absentSlot (decide_eq_true hreg)))
  | dD => exact .inr ⟨rfl, firstBytes_two hop⟩
  | _ => exact .inl rfl

theorem rebuilds_shift {w : Width} {c : ShiftCount} (h : b 0 = 0xD0 + w.bit + c.bit) :
    Rebuilds b (decodeShift b w c) := by
  obtain ⟨reg, m, n, hx, hmodRM⟩ := readsModRM h
  unfold decodeShift
  rw [hx, h]
  obtain ⟨k, hk, rfl⟩ := regIx_eq reg
  cases k, hk using octalDigit_cases with
  | d6 => exact .inr (hmodRM.absentSlot (by cases w <;> cases c <;> rfl))
  | _ => exact .inr ⟨hmodRM.wf, hmodRM.bytes⟩

theorem rebuilds_rowD (h : ((b 0).extractLsb' 4 4).toNat = 13) : Rebuilds b (decodeRowD b) := by
  obtain ⟨l, hlt, hl, hop⟩ := opcode_digits h
  unfold decodeRowD
  rw [hl]
  cases l, hlt using hexDigit_cases with
  | d0 | d1 | d2 | d3 => exact rebuilds_shift hop
  | d4 | d5 => exact .inr ⟨rfl, firstBytes_two hop⟩
  | _ => exact .inl rfl

theorem rebuilds_rowE (h : ((b 0).extractLsb' 4 4).toNat = 14) : Rebuilds b (decodeRowE b) := by
  obtain ⟨l, hlt, hl, hop⟩ := opcode_digits h
  unfold decodeRowE
  rw [hl]
  cases l, hlt using hexDigit_cases with
  | d8 | d9 => exact .inr ⟨rfl, firstBytes_three hop⟩
  | dA => exact .inr ⟨rfl, firstBytes_five hop⟩
  | dC | dD | dE | dF => exact .inl rfl
  | _ => exact .inr ⟨rfl, firstBytes_two hop⟩

theorem rebuilds_group3 {w : Width} (h : b 0 = 0xF6 + w.bit) : Rebuilds b (decodeGroup3 b w) := by
  obtain ⟨reg, m, n, hx, hmodRM⟩ := readsModRM h
  unfold decodeGroup3
  rw [hx, h]
  obtain ⟨k, hk, rfl⟩ := regIx_eq reg
  cases k, hk using octalDigit_cases with
  | d0 =>
    cases w with
    | byte => exact .inr ⟨hmodRM.wf, hmodRM.bytes8⟩
    | word => exact .inr ⟨hmodRM.wf, hmodRM.bytes16⟩
  | d1 => exact .inr (hmodRM.absentSlot (by cases w <;> rfl))
  | _ => exact .inr ⟨hmodRM.wf, hmodRM.bytes⟩

theorem rebuilds_group4 (h : b 0 = 0xFE) : Rebuilds b (decodeGroup4 b) := by
  obtain ⟨reg, m, n, hx, hmodRM⟩ := readsModRM h
  unfold decodeGroup4
  rw [hx, h]
  obtain ⟨k, hk, rfl⟩ := regIx_eq reg
  cases k, hk using octalDigit_cases with
  | d0 | d1 => exact .inr ⟨hmodRM.wf, hmodRM.bytes⟩
  | _ => exact .inr (hmodRM.absentSlot rfl)

theorem rebuilds_group5 (h : b 0 = 0xFF) : Rebuilds b (decodeGroup5 b) := by
  obtain ⟨reg, m, n, hx, hmodRM⟩ := readsModRM h
  unfold decodeGroup5
  rw [hx, h]
  obtain ⟨k, hk, rfl⟩ := regIx_eq reg
  cases k, hk using octalDigit_cases with
  | d3 | d5 => exact hmodRM.rebuilds_mem rfl rfl _
  | d7 => exact .inr (hmodRM.absentSlot rfl)
  | _ => exact .inr ⟨hmodRM.wf, hmodRM.bytes⟩

theorem rebuilds_rowF (h : ((b 0).extractLsb' 4 4).toNat = 15) : Rebuilds b (decodeRowF b) := by
  obtain ⟨l, hlt, hl, hop⟩ := opcode_digits h
  unfold decodeRowF
  rw [hl]
  cases l, hlt using hexDigit_cases with
  | d6 | d7 => exact rebuilds_group3 hop
  | dE => exact rebuilds_group4 hop
  | dF => exact rebuilds_group5 hop
  | _ => exact .inl rfl

theorem rebuilds_decodeStream (b : Nat → Byte) : Rebuilds b (decodeStream b) := by
  unfold decodeStream
  generalize hh : ((b 0).extractLsb' 4 4).toNat = h
  have hlt : h < 16 := hh ▸ BitVec.isLt _
  cases h, hlt using hexDigit_cases with
  | d0 | d1 | d2 | d3 => exact rebuilds_low (by omega)
  | d4 | d5 => exact rebuilds_regOps b
  | d6 => exact .inl rfl
  | d7 => exact rebuilds_jcc hh
  | d8 => exact rebuilds_row8 hh
  | d9 => exact rebuilds_row9 hh
  | dA => exact rebuilds_rowA hh
  | dB => exact rebuilds_rowB hh
  | dC => exact rebuilds_rowC hh
  | dD => exact rebuilds_rowD hh
  | dE => exact rebuilds_rowE hh
  | dF => exact rebuilds_rowF hh

end

theorem encodes_of_decodeStream {b : Nat → Byte} {i : Instr} {n : Nat} (h : decodeStream b = .ok i n) :
    Encodes b i n := by
  have hbuilds := rebuilds_decodeStream b
  rw [h] at hbuilds
  obtain rfl | hencodes := hbuilds
  · exact encodes_single h
  · exact hencodes

namespace Machine

/-- Settles O20: a byte alone by trying all of them, anything longer by its row. -/
theorem encodeDecode : Obligations.EncodeDecode := by
  intro b i n h
  obtain ⟨hwf, hbytes⟩ := encodes_of_decodeStream h
  obtain ⟨hpos, hlong⟩ := decodeStream_length b
  rw [h] at hpos hlong
  exact ⟨hwf, hpos, hlong, hbytes⟩

end Machine

end Sys2Proof
end

section
/-!
PROOFS. The operand that a ModRM byte names (30_encoding.md R95 to R99).
-/

namespace Sys2Proof

section

variable {b : Nat → Byte}

/-- The `mod` field (R95). -/
theorem toNat_mod (x : Byte) : (x.extractLsb' 6 2).toNat = x.toNat / 64 := by
  revert x; decide

/-- The `reg` field (R95). -/
theorem toNat_reg (x : Byte) : (x.extractLsb' 3 3).toNat = x.toNat / 8 % 8 := by
  revert x; decide

theorem extract_reg (x : Byte) : x.extractLsb' 3 3 = BitVec.ofNat 3 (x.toNat / 8 % 8) := by
  revert x; decide

/-- The `rm` field (R95). -/
theorem extract_rm (x : Byte) : x.extractLsb' 0 3 = BitVec.ofNat 3 (x.toNat % 8) := by
  revert x; decide

theorem fst_decodeModRM (b : Nat → Byte) : (decodeModRM b).1 = (b 0).extractLsb' 3 3 := by
  unfold decodeModRM
  dsimp only
  split
  case h_2 => split <;> rfl
  all_goals rfl

/-- mod = 3 names a register (R96). -/
theorem decodeModRM_register (h : (b 0).toNat / 64 = 3) :
    decodeModRM b = ((b 0).extractLsb' 3 3, .reg (BitVec.ofNat 3 ((b 0).toNat % 8)), 1) := by
  simp only [decodeModRM, toNat_mod, extract_rm, h]

/-- mod = 0 with rm = 6 is a raw offset (R98). -/
theorem decodeModRM_direct (h : (b 0).toNat / 64 = 0) (hrm : (b 0).toNat % 8 = 6) :
    decodeModRM b = ((b 0).extractLsb' 3 3, .direct (streamWord b 1), 3) := by
  simp only [decodeModRM, toNat_mod, extract_rm, h, hrm]
  rfl

/-- mod = 0 with another rm is base and index alone (R97). -/
theorem decodeModRM_base (h : (b 0).toNat / 64 = 0) (hrm : (b 0).toNat % 8 ≠ 6) :
    decodeModRM b = ((b 0).extractLsb' 3 3, .base (Base.ofIx (BitVec.ofNat 3 ((b 0).toNat % 8))), 1) := by
  have hne : BitVec.ofNat 3 ((b 0).toNat % 8) ≠ 6 := fun e => hrm (by simpa using congrArg BitVec.toNat e)
  simp only [decodeModRM, toNat_mod, extract_rm, h, if_neg hne]

/-- mod = 1 adds a byte (R97). -/
theorem decodeModRM_disp8 (h : (b 0).toNat / 64 = 1) :
    decodeModRM b = ((b 0).extractLsb' 3 3, .disp8 (Base.ofIx (BitVec.ofNat 3 ((b 0).toNat % 8))) (b 1), 2) := by
  simp only [decodeModRM, toNat_mod, extract_rm, h]

/-- mod = 2 adds a word (R97). -/
theorem decodeModRM_disp16 (h : (b 0).toNat / 64 = 2) :
    decodeModRM b =
      ((b 0).extractLsb' 3 3, .disp16 (Base.ofIx (BitVec.ofNat 3 ((b 0).toNat % 8))) (streamWord b 1), 3) := by
  simp only [decodeModRM, toNat_mod, extract_rm, h]

end

namespace Machine

/-- The segment that a row of R97 takes unless it is overridden. -/
theorem baseSeg_ofIx {rm : Nat} (h : rm < 8) :
    baseSeg (Base.ofIx (BitVec.ofNat 3 rm)) = if rm = 2 ∨ rm = 3 ∨ rm = 6 then .ss else .ds := by
  interval_cases rm <;> rfl

/-- Settles O15: by the `mod` field, and in memory by the row of R97. -/
theorem modRMResolution : Obligations.ModRMResolution := by
  rintro b s md rm hmd hrm
  have hmd4 : md < 4 := by have := (b 0).isLt; omega
  have hrm8 : rm < 8 := by omega
  refine ⟨?_, ?_, ?_, ?_, fun d h => by rw [segFor, h], fun d o h => by rw [segFor, h]⟩
  · rw [fst_decodeModRM, toNat_reg]
  · rintro rfl
    rw [decodeModRM_register hmd.symm, hrm]
    exact ⟨rfl, rfl⟩
  · rintro ⟨rfl, rfl⟩
    rw [decodeModRM_direct hmd.symm hrm.symm]
    exact ⟨rfl, rfl⟩
  · intro hreg hdirect
    rw [← baseSeg_ofIx hrm8]
    interval_cases md
    · rw [decodeModRM_base hmd.symm (by omega), ← hrm]
      interval_cases rm <;> exact ⟨congrArg (Operand.mem _) (BitVec.add_zero _).symm, rfl⟩
    · rw [decodeModRM_disp8 hmd.symm, ← hrm]
      interval_cases rm <;> exact ⟨rfl, rfl⟩
    · rw [decodeModRM_disp16 hmd.symm, ← hrm]
      interval_cases rm <;> exact ⟨rfl, rfl⟩
    · exact absurd rfl hreg

end Machine

end Sys2Proof
end

section
/-!
PROOFS. What the step fetches, and the bytes and forms that raise DecodeError (20_memory.md R70; 30_encoding.md R91,
R106 to R110, R112).
-/

namespace Sys2Proof.Machine

/-! ## The bytes that are fetched -/

/-- Byte `k` of those that fetches from `s` on answer, whatever the host does. -/
def fetchStream (s : State) (k : Nat) : Byte := (fetch8 (fetchN k s)).1

theorem fetchedBytes_eq_map (n : Nat) (s : State) : fetchedBytes n s = (List.range n).map (fetchStream s) := by
  induction n generalizing s with
  | zero => rfl
  | succ n ih =>
    rw [fetchedBytes, ih, List.range_succ_eq_map, List.map_cons, List.map_map]
    rfl

/-- `fetchInstr`, whatever the host answers: the decoder's answer on the bytes fetched, after fetches of just their
number (R110, R112). -/
theorem fetchInstr_eq_fetchN (s : State) :
    fetchInstr s = (decodeWith s.params.removedSlots (fetchStream s),
      fetchN (decodeWith s.params.removedSlots (fetchStream s)).length s) := by
  obtain ⟨l, hfetch, hlength, hbytes⟩ := fetchInstr_spec s
  have hagree : Agree l.length (streamOf l) (fetchStream s) := by
    intro j hj
    rw [fetchedBytes_eq_map] at hbytes
    generalize l.length = n at hbytes hj
    rw [hbytes]
    simp [streamOf, List.getD_eq_getElem?_getD, hj]
  rw [decodeWith_local (hagree.mono hlength.le), hlength]
  exact hfetch

/-! ## What raises DecodeError -/

/-- The last turn of the loop on `d` raises DecodeError with the opcode byte and slot given (R106, R107, R370). -/
structure RaisesDecodeError (d : Decoded) (op : Byte) (slot : Option RegIx) : Prop where
  last : Decoded.isPrefix d = false
  raises : ∀ u, lastTurn d u = raiseDecodeError op slot u

theorem raises_refusedForm (op : Byte) (slot : Option RegIx) (n : Nat) :
    RaisesDecodeError (.refusedForm op slot n) op slot := ⟨rfl, fun _ => rfl⟩

theorem raises_absentOpcode (op : Byte) (n : Nat) : RaisesDecodeError (.ok (.absentOpcode op) n) op none :=
  ⟨rfl, fun _ => rfl⟩

/-- A form that is refused is so too where its slot has been taken out of `DISPATCH` (R106, R110). -/
theorem RaisesDecodeError.decodeWith {b : Nat → Byte} {op : Byte} {slot : Option RegIx}
    (h : RaisesDecodeError (decodeStream b) op slot) (hslot : streamSlot b = (op, slot)) (r : List Slot) :
    RaisesDecodeError (decodeWith r b) op slot := by
  unfold Sys2Proof.decodeWith
  split
  · rw [hslot]
    exact raises_refusedForm op slot _
  · exact h

/-- The prefix loop raises DecodeError on such a form when its bytes have been fetched. -/
theorem runLoop_raises {s : State} {op : Byte} {slot : Option RegIx}
    (h : RaisesDecodeError (decodeStream (fetchStream s)) op slot) (hslot : streamSlot (fetchStream s) = (op, slot))
    (n : Nat) :
    runLoop (n + 1) s = .fault (.decodeError op slot
      (fetchN (decodeWith s.params.removedSlots (fetchStream s)).length s).hostSide) := by
  obtain ⟨hlast, hraises⟩ := h.decodeWith hslot s.params.removedSlots
  rw [runLoop_last (fetchInstr_eq_fetchN s) hlast, hraises]
  rfl

/-- The slot of an opcode byte that is no group's. -/
theorem streamSlot_of_not_group {b : Nat → Byte} {op : Byte} (h : b 0 = op) (hgroup : isGroupOpcode op = false) :
    streamSlot b = (op, none) := by
  simp [streamSlot, h, hgroup]

/-! ## Absent bytes -/

/-- An absent opcode byte is fetched alone (R106, R110). -/
theorem runLoop_absentOpcode {s u : State} {op : Byte} (hfetch : fetch8 s = (op, u)) (hop : op ∈ absentBytes)
    (n : Nat) : runLoop (n + 1) s = .fault (.decodeError op none u.hostSide) := by
  have h0 : fetchStream s 0 = op := congrArg Prod.fst hfetch
  have hgroup : isGroupOpcode op = false :=
    (by decide : ∀ op ∈ absentBytes, isGroupOpcode op = false) op hop
  have hdecode : decodeStream (fetchStream s) = .ok (.absentOpcode op) 1 :=
    h0 ▸ decodeStream_absentOpcode (h0.symm ▸ hop)
  have hlength : (decodeWith s.params.removedSlots (fetchStream s)).length = 1 := by
    unfold decodeWith refusedLength
    rw [h0, hgroup, hdecode]
    split <;> rfl
  rw [runLoop_raises (hdecode ▸ raises_absentOpcode op 1) (streamSlot_of_not_group h0 hgroup), hlength, fetchN, hfetch]
  rfl

/-- Settles O22: the prefix loop decodes the absent byte that it fetches as an absent row. -/
theorem absentRows : Obligations.AbsentRows :=
  ⟨fun _ _ => rfl, fun _ _ _ _ => rfl, fun n _ _ _ hfetch hop => runLoop_absentOpcode hfetch hop n⟩

/-! ## Refused forms -/

section

variable {b : Nat → Byte}

/-- The `reg` field after an opcode byte (R95). -/
theorem fst_modRMAfterOp (b : Nat → Byte) : (modRMAfterOp b).1 = (b 1).extractLsb' 3 3 := fst_decodeModRM _

/-- LEA, LES and LDS with a register operand (R108). -/
theorem raises_memoryRows {op : Byte} (hop : b 0 = op) (hmem : op ∈ ([0x8D, 0xC4, 0xC5] : List Byte))
    (hmod : (b 1).toNat / 64 = 3) : RaisesDecodeError (decodeStream b) op none := by
  have hmodRM : modRMAfterOp b = _ := decodeModRM_register (b := fun k => b (k + 1)) hmod
  simp only [List.mem_cons, List.not_mem_nil, or_false] at hmem
  rcases hmem with rfl | rfl | rfl <;>
    simp [decodeStream, decodeRow8, decodeRowC, rowMem, hmodRM, RM.isMem, hop, raises_refusedForm]

/-- Far CALL and far JMP with a register operand (R108). -/
theorem raises_farRows (hop : b 0 = 0xFF) (hreg : (b 1).toNat / 8 % 8 = 3 ∨ (b 1).toNat / 8 % 8 = 5)
    (hmod : (b 1).toNat / 64 = 3) :
    RaisesDecodeError (decodeStream b) 0xFF (some (BitVec.ofNat 3 ((b 1).toNat / 8 % 8))) := by
  have hmodRM : modRMAfterOp b = _ := decodeModRM_register (b := fun k => b (k + 1)) hmod
  rcases hreg with h | h <;>
    simp [decodeStream, decodeRowF, decodeGroup5, hmodRM, extract_reg, RM.isMem, h, hop, raises_refusedForm]

/-- 8C with a field of 4 to 7 (R109). -/
theorem raises_movRmSreg (hop : b 0 = 0x8C) (hreg : 4 ≤ (b 1).toNat / 8 % 8) :
    RaisesDecodeError (decodeStream b) 0x8C none := by
  rw [← toNat_reg, ← fst_modRMAfterOp] at hreg
  rcases hx : modRMAfterOp b with ⟨reg, m, n⟩
  rw [hx] at hreg
  simp [decodeStream, decodeRow8, hx, hop, hreg, raises_refusedForm]

/-- 8E with a field of 4 to 7, and a load of CS (R109). -/
theorem raises_movSregRm (hop : b 0 = 0x8E) (hreg : 4 ≤ (b 1).toNat / 8 % 8 ∨ (b 1).toNat / 8 % 8 = 1) :
    RaisesDecodeError (decodeStream b) 0x8E none := by
  rw [← toNat_reg, ← fst_modRMAfterOp] at hreg
  rcases hx : modRMAfterOp b with ⟨reg, m, n⟩
  rw [hx] at hreg
  have hrefused : 4 ≤ reg.toNat ∨ reg = 1#3 := hreg.imp_right fun h => BitVec.eq_of_toNat_eq h
  simp [decodeStream, decodeRow8, hx, hop, hrefused, raises_refusedForm]

end

/-- Settles O23: the terms by their handlers, the forms by their rows of the opcode map. -/
theorem refusedForms : Obligations.RefusedForms := by
  refine ⟨fun _ _ _ _ => ⟨rfl, rfl, rfl, rfl, rfl, rfl, rfl⟩, fun n s u v op x md reg hop hx hmd hreg => ?_⟩
  have h0 : fetchStream s 0 = op := congrArg Prod.fst hop
  have h1 : fetchStream s 1 = x := by
    rw [fetchStream, fetchN, hop]
    exact congrArg Prod.fst hx
  refine ⟨?_, ?_, ?_, ?_, ?_⟩
  · rintro ⟨hmem, rfl⟩
    have hgroup : isGroupOpcode op = false :=
      (by decide : ∀ op ∈ ([0x8D, 0xC4, 0xC5] : List Byte), isGroupOpcode op = false) op hmem
    exact ⟨_, runLoop_raises (raises_memoryRows h0 hmem (by rw [h1, ← hmd])) (streamSlot_of_not_group h0 hgroup) n⟩
  · rintro ⟨rfl, hfar, rfl⟩
    have hslot : streamSlot (fetchStream s) = (0xFF, some (BitVec.ofNat 3 reg)) := by
      rw [streamSlot, h0, h1, extract_reg, hreg]
      rfl
    exact ⟨_, runLoop_raises (hreg ▸ h1 ▸ raises_farRows h0 (by rwa [h1, ← hreg]) (by rw [h1, ← hmd])) hslot n⟩
  · rintro ⟨rfl, hfield⟩
    exact ⟨_, runLoop_raises (raises_movRmSreg h0 (by rw [h1]; omega)) (streamSlot_of_not_group h0 rfl) n⟩
  · rintro ⟨rfl, hfield⟩
    exact ⟨_, runLoop_raises (raises_movSregRm h0 (by rw [h1]; omega)) (streamSlot_of_not_group h0 rfl) n⟩
  · rintro rfl
    exact ⟨1, by rw [fetchN, hop]; exact runLoop_absentOpcode hop (by decide) n⟩

end Sys2Proof.Machine
end

section
/-!
PROOFS. A step is the instruction that its fetches, or its prefixes, lead to (30_encoding.md R91 to R94, R106, R112).
-/

namespace Sys2Proof.Machine

/-- Settles O28: by the handlers of the five rows. -/
theorem prefixRows : Obligations.PrefixRows := fun _ => ⟨rfl, rfl, rfl, rfl, rfl⟩

/-! ## One instruction -/

theorem sameCore_clearCalls (s : State) : SameCore s { s with calls := [] } := ⟨rfl, rfl, rfl, rfl, rfl, rfl⟩

/-- A slot taken out of `DISPATCH` is refused as an absent one is (R106). -/
theorem decodeWith_of_removed {r : List Slot} {b : Nat → Byte} (h : isRemoved r b = true) :
    decodeWith r b = .refusedForm (b 0) (streamSlot b).2 (refusedLength b) := by
  rw [decodeWith, if_pos h]
  rfl

/-- Where memory is quiet the bytes at CS:IP are fetched, as many as the decoder's answer on them takes (R70, R112). -/
theorem fetchInstr_of_code {s : State} {d : Decoded} (hq : s.QuietMemory)
    (h : decodeWith s.params.removedSlots s.code = d) : fetchInstr s = (d, fetchN d.length s) := by
  rw [fetchInstr_eq hq, h]

/-- Settles O24: the step is the last turn of the prefix loop on what has been fetched. -/
theorem stepRunsInstruction : Obligations.StepRunsInstruction := by
  intro s i len hrun hprefix
  have hclear := sameCore_clearCalls s
  refine ⟨fun u hfetch => ?_, fun hq hdecode hslot => ?_, fun hq hslot => ?_⟩
  · obtain ⟨hruns, hcpu⟩ := fetchInstr_keeps hfetch
    exact ⟨hcpu, hclear.trans hruns.core, (step_running hrun).trans (runLoop_last hfetch hprefix)⟩
  · have hquiet : State.QuietMemory { s with calls := [] } := hq
    have hfetch := fetchInstr_of_code hquiet ((decodeWith_of_not_removed hslot).trans hdecode)
    obtain ⟨hbus, -⟩ := fetchInstr_quiet hquiet hfetch
    obtain ⟨hruns, -⟩ := fetchInstr_keeps hfetch
    refine ⟨_, hfetch, ?_, hbus, (hclear.trans hruns.core).rest (congrArg Bus.devices hbus)⟩
    rw [fetchN_eq _ hquiet]
    exact List.append_nil _
  · have hquiet : State.QuietMemory { s with calls := [] } := hq
    have hfetch := fetchInstr_of_code hquiet (decodeWith_of_removed hslot)
    exact ⟨_, (step_running hrun).trans (runLoop_last hfetch rfl), (fetchInstr_quiet hquiet hfetch).1⟩

/-! ## A chain of prefixes -/

/-- What the prefix loop leads to is an instruction that the opcode map decodes from some bytes. -/
theorem reaches_decodes {k n : Nat} {s u : State} {i : Instr} (h : Reaches k s (.ok i n) u) :
    ∃ b, decodeStream b = .ok i n := by
  induction k generalizing s with
  | zero => exact fetchInstr_decodes h.1
  | succ k ih =>
    obtain ⟨_, _, _, _, -, -, -, hrest⟩ := h
    exact ih hrest

/-- What is decoded is as long as its encoding (R112). -/
theorem length_of_decodeStream {b : Nat → Byte} {i : Instr} {n : Nat} (h : decodeStream b = .ok i n) :
    n = (encode i).length := by
  rw [(encodes_of_decodeStream h).2]
  simp [firstBytes]

/-- Settles O25: the loop runs what its prefixes lead to, and they have made fetches alone. -/
theorem prefixChain : Obligations.PrefixChain := by
  intro k s u d hrun hk hreach
  obtain ⟨hparams, -, hattached, -, -, hcpu⟩ := reaches_keeps hreach
  have hstep : step s = lastTurn d u := (step_running hrun).trans (runLoop_reaches hk hreach)
  refine ⟨hcpu, hparams, hattached, reaches_quiet (s := { s with calls := [] }) hreach, ?_, ?_⟩
  · rintro i n rfl
    obtain ⟨b, hb⟩ := reaches_decodes hreach
    refine ⟨length_of_decodeStream hb, fun t ht => ?_, fun e he => ?_⟩
    · rw [hstep, lastTurn, ht]
      rfl
    · rw [hstep, lastTurn, he]
  · rintro op slot n rfl
    exact hstep

end Sys2Proof.Machine
end

section
/-!
PROOFS. Data movement where memory is quiet: MOV, PUSH, POP, XCHG, XLAT, the loads of addresses and the transfers of
the flags (40_data_movement.md R140 to R154, R157 to R163).
-/

namespace Sys2Proof.Machine

/-! ## MOV -/

/-- Settles O29: a move is a write of its destination, after a read that makes bus calls alone. -/
theorem movForms : Obligations.MovForms := by
  intro w m r b v s hq
  have hrefl := SameRest.refl s
  refine ⟨done_writeOperand _ hq hrefl rfl rfl _ _, ?_, done_writeOperand _ hq hrefl rfl rfl _ _,
    done_writeOperand _ hq hrefl rfl rfl _ _, done_onlyCpu _ (hrefl.withReg .byte r b) rfl rfl _ _,
    ⟨_, rfl, (hrefl.withReg .word r v).withCost _, ⟨rfl, fun _ => rfl⟩, rfl⟩⟩
  simp only [exec, execMovRegRm, readOperand_eq hq]
  exact done_writeOperand (o := .reg r) _ hq (noteReads_rest s _) rfl rfl _ _

/-- Settles O30: a move is a write of its destination, after a read that makes bus calls alone. -/
theorem movAccumulatorSegment : Obligations.MovAccumulatorSegment := by
  intro w off m sr s hq
  have hrefl := SameRest.refl s
  refine ⟨?_, done_writeOperand (o := .mem (segFor .ds s) off) _ hq hrefl rfl rfl _ _,
    done_writeOperand _ hq hrefl rfl rfl _ _, fun hcs => ?_⟩
  · simp only [exec, execMovAccMoffs, readW_eq hq]
    exact done_onlyCpu _ ((noteReads_rest s _).withReg _ _ _) rfl rfl _ _
  · simp only [exec, execMovSregRm, if_neg hcs, readOperand_eq hq]
    exact done_onlyCpu _ ((noteReads_rest s _).withSreg _ _) rfl rfl _ _

/-! ## PUSH and POP -/

/-- A handler whose last act is a push, after reads at most, completes with the word pushed. -/
theorem done_push16 (i : Instr) (v : Word) {s u : State} (hq : s.QuietMemory) (hr : SameRest s u)
    (hb : u.bus = s.bus) (hc : u.cpu = s.cpu) (taken : Bool) (count : Nat) :
    ∃ t, done i (push16 v u) taken count = .next t ∧ SameRest s t ∧
      Pushed v { s.cpu with sp := s.cpu.sp - 2 } s t := by
  obtain ⟨hcpu, hstored, hframe⟩ := pushed_push16 v u
  rw [hc] at hcpu hstored hframe
  exact ⟨_, rfl, (hr.push16 hq v).withCost _, hcpu, fun h => hstored (hr.stores h),
    fun a ha => (hframe a ha).trans (State.peek_congr hb a)⟩

theorem Reg16.ofIx_eq_sp (r : RegIx) : Reg16.ofIx r = .sp ↔ r = 4 := by revert r; decide

/-- PUSH SP is the push of the decremented SP (R145). -/
theorem pushRegister_ofIx (r : RegIx) (s : State) :
    pushRegister (Reg16.ofIx r) s =
      push16 (if r = 4 then s.cpu.sp - 2 else getReg s.cpu .word r) s := by
  by_cases h : r = 4
  · rw [pushRegister, if_pos ((Reg16.ofIx_eq_sp r).mpr h), if_pos h, pushSp]
  · rw [pushRegister, if_neg (mt (Reg16.ofIx_eq_sp r).mp h), if_neg h, getReg]

/-- Settles O31: each is a push, of SP less 2 where the operand is SP. -/
theorem pushForms : Obligations.PushForms := by
  intro r m sr s hq
  have hrefl := SameRest.refl s
  refine ⟨?_, ?_, done_push16 _ _ hq hrefl rfl rfl _ _, done_push16 _ _ hq hrefl rfl rfl _ _⟩
  · simp only [exec, execPushReg, pushRegister_ofIx]
    exact done_push16 _ _ hq hrefl rfl rfl _ _
  · by_cases hsp : m = .reg 4
    · simp only [exec, execPushRm, if_pos hsp, pushSp]
      exact done_push16 _ _ hq hrefl rfl rfl _ _
    · simp only [exec, execPushRm, if_neg hsp, readOperand_eq hq]
      exact done_push16 _ _ hq (noteReads_rest s _) rfl rfl _ _

/-- Settles O32: each is a pop, after which the word read is written. -/
theorem popForms : Obligations.PopForms := by
  rintro r m sr s v hq rfl
  have hpop := (noteReads_rest s (bytesAt .word s.cpu.ss s.cpu.sp)).withSp (s.cpu.sp + 2)
  refine ⟨?_, ?_, fun hcs => ?_, ?_⟩
  · simp only [exec, execPopReg, pop16_eq hq]
    exact done_onlyCpu _ (hpop.withReg _ _ _) rfl rfl _ _
  · simp only [exec, execPopRm, pop16_eq hq]
    exact ⟨_, rfl, (hpop.writeOperand hq _ _ _).withCost _, (assigned_writeOperand rfl rfl).withCost _⟩
  · simp only [exec, execPopSreg, if_neg hcs, pop16_eq hq]
    exact done_onlyCpu _ (hpop.withSreg _ _) rfl rfl _ _
  · simp only [exec, execPopf, pop16_eq hq]
    exact done_onlyCpu _ (hpop.withFlags _) rfl rfl _ _

/-! ## XCHG, NOP and XLAT -/

/-- XCHG with a memory operand writes the register's value there and loads what it read (R151). -/
theorem exec_xchgRmReg_mem {m : RM} {seg off : Word} {s : State} (hq : s.QuietMemory) (hm : resolve m s = .mem seg off)
    (w : Width) (r : RegIx) :
    exec (.xchgRmReg w m r) s =
      done (.xchgRmReg w m r) ((writeW w seg off (getReg s.cpu w r) (s.noteReads (bytesAt w seg off))).withReg w r
        (s.peekW w seg off)) := by
  simp only [exec, execXchgRmReg, hm, readOperand, readW_eq hq, State.noteReads_cpu, writeOperand]

/-- Settles O33: XCHG reads both operands before it writes either, and the others write a register at most. -/
theorem xchgNopXlat : Obligations.XchgNopXlat := by
  intro w i r m seg off s hq
  have hrefl := SameRest.refl s
  refine ⟨done_onlyCpu _ ((hrefl.withReg w i _).withReg w r _) rfl rfl _ _, fun hm => ?_,
    done_onlyCpu _ ((hrefl.withReg .word 0 (getReg s.cpu .word r)).withReg .word r s.cpu.ax) rfl rfl _ _,
    done_onlyCpu _ hrefl rfl rfl _ _, ?_⟩
  · have hrest := (noteReads_rest s (bytesAt w seg off)).writeW hq w seg off (getReg s.cpu w r)
    have hcpu := cpu_writeW w seg off (getReg s.cpu w r) (s.noteReads (bytesAt w seg off))
    refine ⟨_, exec_xchgRmReg_mem hq hm w r, (hrest.withReg w r _).withCost _,
      congrArg (putReg · w r (s.peekW w seg off)) hcpu, fun hs => ?_, sameMemoryBut_writeW w seg off _ (s.noteReads _)⟩
    calc State.peekW _ w seg off
      _ = (writeW w seg off (getReg s.cpu w r) (s.noteReads (bytesAt w seg off))).peekW w seg off :=
        State.peekW_congr (by intro _; rfl) w seg off
      _ = getReg s.cpu w r := peekW_writeW w seg off _ ((noteReads_rest s _).stores hs)
  · simp only [exec, execXlat, read8_eq hq]
    exact done_onlyCpu _ ((noteReads_rest s _).withReg _ _ _) rfl rfl _ _

/-! ## Loads of addresses, and transfers of the flags -/

/-- Settles O36: LEA reads nothing, and LDS and LES read both words before they write either register. -/
theorem addressLoads : Obligations.AddressLoads := by
  intro r m seg off s hq hm
  obtain ⟨hmem, rfl, rfl⟩ := resolve_mem hm
  refine ⟨?_, ?_, ?_⟩
  · simp only [exec, execLea, if_pos hmem]
    exact ⟨_, rfl, ((SameRest.refl s).withReg _ _ _).withCost _, rfl, rfl, fun _ => rfl⟩
  · simp only [exec, execLds, if_pos hmem, readFar_eq hq]
    exact done_onlyCpu _ (((noteReads_rest s _).withReg _ _ _).withSreg _ _) rfl rfl _ _
  · simp only [exec, execLes, if_pos hmem, readFar_eq hq]
    exact done_onlyCpu _ (((noteReads_rest s _).withReg _ _ _).withSreg _ _) rfl rfl _ _

/-- SAHF keeps all but the five flags it loads (R161). -/
theorem flagsBut_loadLowFlags (ah : Byte) (fl : Word) :
    FlagsBut [.sf, .zf, .af, .pf, .cf] fl (loadLowFlags ah fl) :=
  (((((FlagsBut.refl _ fl).putFlag (by simp) _).putFlag (by simp) _).putFlag (by simp) _).putFlag (by simp) _).putFlag
    (by simp) _

/-- Settles O37: LAHF writes AH alone, and SAHF the five flags, one at a time. -/
theorem flagTransfers : Obligations.FlagTransfers := by
  intro s
  have hrefl := SameRest.refl s
  refine ⟨done_onlyCpu _ (hrefl.withReg .byte 4 _) rfl rfl _ _, ?_⟩
  obtain ⟨t, hexec, hrest, honly⟩ := done_onlyCpu .sahf
    (hrefl.withFlags (loadLowFlags (getReg8 s.cpu .ah) s.cpu.flags)) rfl rfl false 0
  refine ⟨t, _, hexec, hrest, honly, ?_, ?_, ?_, ?_, ?_, flagsBut_loadLowFlags _ _⟩ <;> simp [loadLowFlags]

end Sys2Proof.Machine
end

section
/-!
PROOFS. The ports: what one port call and a pair of them answer, and IN and OUT (20_memory.md R64, R72, R82;
40_data_movement.md R155, R156; 70_reset_and_hazards.md R399).
-/

namespace Sys2Proof.Machine

/-! ## One port call -/

/-- From `s` to `t` the port calls `l`, newest first, have been made: the registers, memory and the core's own state
are kept. -/
structure PortCalls (l : List BusCall) (s t : State) : Prop where
  core : SameCore s t
  cpu : t.cpu = s.cpu
  mem : t.bus.mem = s.bus.mem
  calls : t.calls = l ++ s.calls

theorem PortCalls.refl (s : State) : PortCalls [] s s := ⟨SameCore.refl s, rfl, rfl, rfl⟩

theorem PortCalls.trans {l k : List BusCall} {s t u : State} (h : PortCalls l s t) (h' : PortCalls k t u) :
    PortCalls (k ++ l) s u :=
  ⟨h.core.trans h'.core, h'.cpu.trans h.cpu, h'.mem.trans h.mem, by rw [h'.calls, h.calls, List.append_assoc]⟩

theorem PortCalls.peek {l : List BusCall} {s t : State} (h : PortCalls l s t) (a : Addr) : t.peek a = s.peek a := by
  simp only [State.peek, h.core.attached, h.mem]

theorem portCalls_record (s : State) (c : BusCall) : PortCalls [c] s (s.record c) :=
  ⟨⟨rfl, rfl, rfl, rfl, rfl, rfl⟩, rfl, rfl, rfl⟩

/-- A read of a passive port may have drawn a free value (log entry 8). -/
theorem portCalls_draw (s : State) (c : BusCall) :
    PortCalls [c] s ({ s with draws := s.draws + 1 }.record c) := ⟨⟨rfl, rfl, rfl, rfl, rfl, rfl⟩, rfl, rfl, rfl⟩

/-- The device at an active port changes no memory (R76, R399). -/
theorem portCalls_react (s : State) (r : HostRequest) (c : BusCall) : PortCalls [c] s ((s.react r).record c) :=
  ⟨⟨rfl, rfl, rfl, rfl, rfl, rfl⟩, rfl, rfl, rfl⟩

theorem State.PassivePort.not_active {s : State} {p : Word} (hp : s.PassivePort p) (ha : s.bus.attached = true) :
    ¬s.bus.devices.activePorts.contains p = true := by
  simpa using hp ha

theorem portAnswer_of_listed {s : State} {p : Word} {y : Byte} (h : s.bus.devices.portInputs.lookup p = some y) :
    portAnswer s p = y := by
  simp only [portAnswer, h]

section Passive

variable {s u : State} {p : Word} (hb : u.bus = s.bus) (ha : s.bus.attached = true) (hp : s.PassivePort p)
include hb ha hp

/-- A passive port that the host does not refuse answers, as listed where it lists an answer (R72, log entry 8). -/
theorem portIn8_passive (hr : p ∉ s.bus.devices.refusedIn) :
    ∃ x v, portIn8 p u = .ok (x, v) ∧ PortCalls [.portIn p x] u v ∧ v.bus = s.bus ∧
      ∀ y, s.bus.devices.portInputs.lookup p = some y → x = y := by
  refine ⟨_, _, ?_, portCalls_draw u _, hb, fun y hy => portAnswer_of_listed (hb ▸ hy)⟩
  rw [portIn8, hb, if_pos ha, if_neg (hp.not_active ha), if_neg (by simpa using hr)]

/-- A passive port that the host refuses to read (R82). -/
theorem portIn8_refused (hr : p ∈ s.bus.devices.refusedIn) :
    ∃ v, portIn8 p u = .error (.hostProtocolError v.hostSide) ∧ PortCalls [.portInRefused p] u v ∧ v.bus = s.bus := by
  refine ⟨_, ?_, portCalls_record u _, hb⟩
  rw [portIn8, hb, if_pos ha, if_neg (hp.not_active ha), if_pos (by simpa using hr)]

/-- A passive port that the host does not refuse takes the byte (R72). -/
theorem portOut8_passive {x : Byte} (hr : (p, x) ∉ s.bus.devices.refusedOut) :
    ∃ v, portOut8 p x u = .ok v ∧ PortCalls [.portOut p x] u v ∧ v.bus = s.bus := by
  refine ⟨_, ?_, portCalls_record u _, hb⟩
  rw [portOut8, hb, if_pos ha, if_neg (hp.not_active ha), if_neg (by simpa using hr)]

/-- A passive port at which the host refuses the byte (R82). -/
theorem portOut8_refused {x : Byte} (hr : (p, x) ∈ s.bus.devices.refusedOut) :
    ∃ v, portOut8 p x u = .error (.hostProtocolError v.hostSide) ∧ PortCalls [.portOutRefused p x] u v ∧
      v.bus = s.bus := by
  refine ⟨_, ?_, portCalls_record u _, hb⟩
  rw [portOut8, hb, if_pos ha, if_neg (hp.not_active ha), if_pos (by simpa using hr)]

end Passive

/-- Whatever stands at a port, its read is answered or refused, and it is one call (R82, R399). -/
theorem portIn8_attached {s : State} (ha : s.bus.attached = true) (p : Word) :
    (∃ x u, portIn8 p s = .ok (x, u) ∧ PortCalls [.portIn p x] s u) ∨
      ∃ u, portIn8 p s = .error (.hostProtocolError u.hostSide) ∧ PortCalls [.portInRefused p] s u := by
  by_cases hp : p ∈ s.bus.devices.activePorts
  · rw [portIn8, if_pos ha, if_pos (by simpa using hp)]
    split
    · exact .inr ⟨_, rfl, portCalls_react s _ _⟩
    · exact .inl ⟨_, _, rfl, portCalls_react s _ _⟩
  · by_cases hr : p ∈ s.bus.devices.refusedIn
    · obtain ⟨u, hin, hu, -⟩ := portIn8_refused rfl ha (fun _ => hp) hr
      exact .inr ⟨u, hin, hu⟩
    · obtain ⟨x, u, hin, hu, -⟩ := portIn8_passive rfl ha (fun _ => hp) hr
      exact .inl ⟨x, u, hin, hu⟩

/-- Whatever stands at a port, a byte for it is taken or refused, and it is one call (R82, R399). -/
theorem portOut8_attached {s : State} (ha : s.bus.attached = true) (p : Word) (x : Byte) :
    (∃ u, portOut8 p x s = .ok u ∧ PortCalls [.portOut p x] s u) ∨
      ∃ u, portOut8 p x s = .error (.hostProtocolError u.hostSide) ∧ PortCalls [.portOutRefused p x] s u := by
  by_cases hp : p ∈ s.bus.devices.activePorts
  · rw [portOut8, if_pos ha, if_pos (by simpa using hp)]
    split
    · exact .inr ⟨_, rfl, portCalls_react s _ _⟩
    · exact .inl ⟨_, rfl, portCalls_react s _ _⟩
  · by_cases hr : (p, x) ∈ s.bus.devices.refusedOut
    · obtain ⟨u, hout, hu, -⟩ := portOut8_refused rfl ha (fun _ => hp) hr
      exact .inr ⟨u, hout, hu⟩
    · obtain ⟨u, hout, hu, -⟩ := portOut8_passive rfl ha (fun _ => hp) hr
      exact .inl ⟨u, hout, hu⟩

/-! ## A pair of port calls -/

section Pair

variable {w : Width} {p : Word} {s u v : State}

theorem portInW_unattached (h : s.bus.attached = false) (w : Width) (p : Word) : portInW w p s = .ok (0, s) := by
  cases w with
  | byte => exact portIn8_unattached h p
  | word =>
    simp only [portInW, portIn16, portIn8_unattached h]
    rfl

theorem portOutW_unattached (h : s.bus.attached = false) (w : Width) (p : Word) (x : BitVec w.bits) :
    portOutW w p x s = .ok s := by
  cases w with
  | byte => exact portOut8_unattached h p x
  | word => simp only [portOutW, portOut16, portOut8_unattached h]

theorem portInW_of_error {e : Fault} (h : portIn8 p s = .error e) (w : Width) : portInW w p s = .error e := by
  cases w with
  | byte => exact h
  | word => simp only [portInW, portIn16, h]

/-- The low byte comes from the lower port, which is read first (R72). -/
theorem portIn16_of_ok {lo hi : Byte} (hlo : portIn8 p s = .ok (lo, u)) (hhi : portIn8 (p + 1) u = .ok (hi, v)) :
    portIn16 p s = .ok (wordOf lo hi, v) := by
  simp only [portIn16, hlo, hhi]

theorem portIn16_of_second_error {lo : Byte} {e : Fault} (hlo : portIn8 p s = .ok (lo, u))
    (hhi : portIn8 (p + 1) u = .error e) : portIn16 p s = .error e := by
  simp only [portIn16, hlo, hhi]

/-- The low byte goes to the lower port, which is written first (R72). -/
theorem portOut16_of_ok {x : Word} (hlo : portOut8 p (lowByte x) s = .ok u) :
    portOut16 p x s = portOut8 (p + 1) (highByte x) u := by
  simp only [portOut16, hlo]

theorem portOut16_of_error {x : Word} {e : Fault} (hlo : portOut8 p (lowByte x) s = .error e) :
    portOut16 p x s = .error e := by
  simp only [portOut16, hlo]

end Pair

/-! ## IN -/

section In

variable {i : Instr} {w : Width} {p : Word} {s u : State} {l : List BusCall}

theorem exec_eq_inFrom {b : Byte} (h : (i = .inImm w b ∧ p = b.zeroExtend 16) ∨ (i = .inDx w ∧ p = s.cpu.dx)) :
    exec i s = inFrom i w p s := by
  obtain ⟨rfl, rfl⟩ | ⟨rfl, rfl⟩ := h <;> rfl

theorem inFrom_of_error {e : Fault} (h : portInW w p s = .error e) : inFrom i w p s = .fault e := by
  rw [inFrom, h]

/-- IN completes with what the port read answered in the accumulator (R155). -/
theorem inFrom_of_ok {x : BitVec w.bits} (h : portInW w p s = .ok (x, u)) (hu : PortCalls l s u) :
    ∃ t, inFrom i w p s = .next t ∧ SameCore s t ∧ OnlyCpu (putReg s.cpu w 0 x) s t ∧ t.calls = l ++ s.calls ∧
      t.bus = u.bus := by
  rw [inFrom, h]
  exact ⟨_, rfl, hu.core.trans ⟨rfl, rfl, rfl, rfl, rfl, rfl⟩, ⟨congrArg (putReg · w 0 x) hu.cpu, hu.peek⟩,
    hu.calls, rfl⟩

/-- Once the first port has been read, IN completes or the second is refused (R72, R82). -/
theorem inFrom_word_after_first {lo : Byte} (ha : s.bus.attached = true) (hlo : portIn8 p s = .ok (lo, u))
    (hu : PortCalls [.portIn p lo] s u) :
    (∃ t hi, inFrom i .word p s = .next t ∧ SameCore s t ∧ OnlyCpu { s.cpu with ax := wordOf lo hi } s t ∧
        t.calls = .portIn (p + 1) hi :: .portIn p lo :: s.calls) ∨
      ∃ left, inFrom i .word p s = .fault (.hostProtocolError left) ∧ left.bus.mem = s.bus.mem ∧
        left.calls = .portInRefused (p + 1) :: .portIn p lo :: s.calls := by
  obtain ⟨hi, v, hhi, hv⟩ | ⟨v, hhi, hv⟩ := portIn8_attached (hu.core.attached.trans ha) (p + 1)
  · obtain ⟨t, hexec, hcore, honly, hcalls, -⟩ :=
      inFrom_of_ok (w := .word) (portIn16_of_ok hlo hhi) (hu.trans hv)
    exact .inl ⟨t, hi, hexec, hcore, honly, hcalls⟩
  · exact .inr ⟨_, inFrom_of_error (w := .word) (portIn16_of_second_error hlo hhi), (hu.trans hv).mem,
      (hu.trans hv).calls⟩

end In

/-- Settles O34: the first port is read or refused, and in the word form the second after it. -/
theorem inPort : Obligations.InPort := by
  intro i w b p s hform
  rw [exec_eq_inFrom hform]
  refine ⟨fun ha => ?_, ?_, ?_, fun ha hp hr => ?_, ?_, ?_, ?_, ?_⟩
  · obtain ⟨t, hexec, hcore, honly, hcalls, hbus⟩ := inFrom_of_ok (portInW_unattached ha w p) (PortCalls.refl s)
    exact ⟨t, hexec, hcore.rest (congrArg Bus.devices hbus), hcalls, honly⟩
  · rintro rfl ha hp hr
    obtain ⟨x, u, hin, hu, hsame, hlisted⟩ := portIn8_passive rfl ha hp hr
    obtain ⟨t, hexec, hcore, honly, hcalls, hbus⟩ := inFrom_of_ok (w := .byte) hin hu
    exact ⟨t, x, hexec, hcore.rest (congrArg Bus.devices (hbus.trans hsame)), honly, hcalls, hlisted⟩
  · rintro rfl ha hp hp' hr hr'
    obtain ⟨lo, u, hlo, hu, hsame, hlisted⟩ := portIn8_passive rfl ha hp hr
    obtain ⟨hi, v, hhi, hv, hsame', hlisted'⟩ := portIn8_passive hsame ha hp' hr'
    obtain ⟨t, hexec, hcore, honly, hcalls, hbus⟩ :=
      inFrom_of_ok (w := .word) (portIn16_of_ok hlo hhi) (hu.trans hv)
    exact ⟨t, lo, hi, hexec, hcore.rest (congrArg Bus.devices (hbus.trans hsame')), honly, hcalls, hlisted,
      hlisted'⟩
  · obtain ⟨u, hin, hu, hsame⟩ := portIn8_refused rfl ha hp hr
    exact ⟨_, inFrom_of_error (portInW_of_error hin w), hsame, hu.calls⟩
  · rintro rfl ha hp hp' hr hr'
    obtain ⟨lo, u, hlo, hu, hsame, hlisted⟩ := portIn8_passive rfl ha hp hr
    obtain ⟨v, hhi, hv, hsame'⟩ := portIn8_refused hsame ha hp' hr'
    exact ⟨_, lo, inFrom_of_error (w := .word) (portIn16_of_second_error hlo hhi), hsame', (hu.trans hv).calls,
      hlisted⟩
  · rintro rfl ha -
    obtain ⟨x, u, hin, hu⟩ | ⟨u, hin, hu⟩ := portIn8_attached ha p
    · obtain ⟨t, hexec, hcore, honly, hcalls, -⟩ := inFrom_of_ok (w := .byte) hin hu
      exact .inl ⟨t, x, hexec, hcore, honly, hcalls⟩
    · exact .inr ⟨_, inFrom_of_error (w := .byte) hin, hu.mem, hu.calls⟩
  · rintro rfl ha -
    obtain ⟨lo, u, hlo, hu⟩ | ⟨u, hlo, hu⟩ := portIn8_attached ha p
    · obtain ⟨t, hi, h⟩ | ⟨left, h⟩ := inFrom_word_after_first ha hlo hu
      · exact .inl ⟨t, lo, hi, h⟩
      · exact .inr (.inl ⟨left, lo, h⟩)
    · exact .inr (.inr ⟨_, inFrom_of_error (portInW_of_error hlo .word), hu.mem, hu.calls⟩)
  · rintro rfl ha hp hr -
    obtain ⟨lo, u, hlo, hu, -, hlisted⟩ := portIn8_passive rfl ha hp hr
    exact ⟨lo, hlisted, inFrom_word_after_first ha hlo hu⟩

/-! ## OUT -/

section Out

variable {i : Instr} {w : Width} {p : Word} {s u : State} {l : List BusCall}

theorem exec_eq_outTo {b : Byte} (h : (i = .outImm w b ∧ p = b.zeroExtend 16) ∨ (i = .outDx w ∧ p = s.cpu.dx)) :
    exec i s = outTo i w p s := by
  obtain ⟨rfl, rfl⟩ | ⟨rfl, rfl⟩ := h <;> rfl

theorem outTo_of_error {e : Fault} (h : portOutW w p (getReg s.cpu w 0) s = .error e) :
    outTo i w p s = .fault e := by
  rw [outTo, h]

/-- OUT completes with the registers and memory as they were (R156). -/
theorem outTo_of_ok (h : portOutW w p (getReg s.cpu w 0) s = .ok u) (hu : PortCalls l s u) :
    ∃ t, outTo i w p s = .next t ∧ SameCore s t ∧ OnlyCpu s.cpu s t ∧ t.calls = l ++ s.calls ∧ t.bus = u.bus := by
  rw [outTo, h]
  exact ⟨_, rfl, hu.core.trans ⟨rfl, rfl, rfl, rfl, rfl, rfl⟩, ⟨hu.cpu, hu.peek⟩, hu.calls, rfl⟩

/-- The first byte of the accumulator is AL at both widths, and where it is refused no other follows. -/
theorem portOutW_of_error {e : Fault} (h : portOut8 p (getReg8 s.cpu .al) s = .error e) (w : Width) :
    portOutW w p (getReg s.cpu w 0) s = .error e := by
  cases w with
  | byte => exact h
  | word => exact portOut16_of_error h

/-- Once AL has been taken the rest of the word form is the write of AH at the second port (R72). -/
theorem portOutW_word_after_first (h : portOut8 p (getReg8 s.cpu .al) s = .ok u) :
    portOutW .word p (getReg s.cpu .word 0) s = portOut8 (p + 1) (getReg8 s.cpu .ah) u :=
  portOut16_of_ok h

/-- Once the first port has been written, OUT completes or the second is refused (R72, R82). -/
theorem outTo_word_after_first (ha : s.bus.attached = true) (hlo : portOut8 p (getReg8 s.cpu .al) s = .ok u)
    (hu : PortCalls [.portOut p (getReg8 s.cpu .al)] s u) :
    (∃ t, outTo i .word p s = .next t ∧ SameCore s t ∧ OnlyCpu s.cpu s t ∧
        t.calls = .portOut (p + 1) (getReg8 s.cpu .ah) :: .portOut p (getReg8 s.cpu .al) :: s.calls) ∨
      ∃ left, outTo i .word p s = .fault (.hostProtocolError left) ∧ left.bus.mem = s.bus.mem ∧
        left.calls = .portOutRefused (p + 1) (getReg8 s.cpu .ah) :: .portOut p (getReg8 s.cpu .al) :: s.calls := by
  have hpair := portOutW_word_after_first hlo
  obtain ⟨v, hhi, hv⟩ | ⟨v, hhi, hv⟩ :=
    portOut8_attached (hu.core.attached.trans ha) (p + 1) (getReg8 s.cpu .ah)
  · obtain ⟨t, hexec, hcore, honly, hcalls, -⟩ := outTo_of_ok (hpair.trans hhi) (hu.trans hv)
    exact .inl ⟨t, hexec, hcore, honly, hcalls⟩
  · exact .inr ⟨_, outTo_of_error (hpair.trans hhi), (hu.trans hv).mem, (hu.trans hv).calls⟩

end Out

/-- Settles O35: the first port takes AL or is refused, and in the word form the second AH after it. -/
theorem outPort : Obligations.OutPort := by
  intro i w b p s hform
  rw [exec_eq_outTo hform]
  refine ⟨fun ha => ?_, ?_, ?_, fun ha hp hr => ?_, ?_, ?_, ?_⟩
  · obtain ⟨t, hexec, hcore, honly, hcalls, hbus⟩ :=
      outTo_of_ok (portOutW_unattached ha w p (getReg s.cpu w 0)) (PortCalls.refl s)
    exact ⟨t, hexec, hcore.rest (congrArg Bus.devices hbus), hcalls, honly⟩
  · rintro rfl ha hp hr
    obtain ⟨u, hout, hu, hsame⟩ := portOut8_passive rfl ha hp hr
    obtain ⟨t, hexec, hcore, honly, hcalls, hbus⟩ := outTo_of_ok (w := .byte) hout hu
    exact ⟨t, hexec, hcore.rest (congrArg Bus.devices (hbus.trans hsame)), honly, hcalls⟩
  · rintro rfl ha hp hp' hr hr'
    obtain ⟨u, hlo, hu, hsame⟩ := portOut8_passive rfl ha hp hr
    obtain ⟨v, hhi, hv, hsame'⟩ := portOut8_passive hsame ha hp' hr'
    obtain ⟨t, hexec, hcore, honly, hcalls, hbus⟩ :=
      outTo_of_ok ((portOutW_word_after_first hlo).trans hhi) (hu.trans hv)
    exact ⟨t, hexec, hcore.rest (congrArg Bus.devices (hbus.trans hsame')), honly, hcalls⟩
  · obtain ⟨u, hout, hu, hsame⟩ := portOut8_refused rfl ha hp hr
    exact ⟨_, outTo_of_error (portOutW_of_error hout w), hsame, hu.calls⟩
  · rintro rfl ha hp hp' hr hr'
    obtain ⟨u, hlo, hu, hsame⟩ := portOut8_passive rfl ha hp hr
    obtain ⟨v, hhi, hv, hsame'⟩ := portOut8_refused hsame ha hp' hr'
    exact ⟨_, outTo_of_error ((portOutW_word_after_first hlo).trans hhi), hsame', (hu.trans hv).calls⟩
  · rintro rfl ha -
    obtain ⟨u, hout, hu⟩ | ⟨u, hout, hu⟩ := portOut8_attached ha p (getReg8 s.cpu .al)
    · obtain ⟨t, hexec, hcore, honly, hcalls, -⟩ := outTo_of_ok (w := .byte) hout hu
      exact .inl ⟨t, hexec, hcore, honly, hcalls⟩
    · exact .inr ⟨_, outTo_of_error (w := .byte) hout, hu.mem, hu.calls⟩
  · rintro rfl ha (hactive | ⟨hp, hr, -⟩)
    · obtain ⟨u, hlo, hu⟩ | ⟨u, hlo, hu⟩ := portOut8_attached ha p (getReg8 s.cpu .al)
      · exact (outTo_word_after_first ha hlo hu).imp_right .inl
      · exact .inr (.inr ⟨hactive, _, outTo_of_error (portOutW_of_error hlo .word), hu.mem, hu.calls⟩)
    · obtain ⟨u, hlo, hu, -⟩ := portOut8_passive rfl ha hp hr
      exact (outTo_word_after_first ha hlo hu).imp_right .inl

end Sys2Proof.Machine
end

section
/-!
PROOFS. Words of the spec's examples (30_encoding.md R90 to R112).
-/

namespace Sys2Proof.Machine

/-- Settles O21: the decoder answers on each word by computation. -/
theorem decodeWords : Obligations.DecodeWords := by
  unfold Obligations.DecodeWords
  decide

end Sys2Proof.Machine
end

section
/-!
PROOFS. The two-operand forms and INC, DEC, NEG and NOT where memory is quiet (41_arithmetic.md R180 to R188;
42_logic_shift.md R234).
-/

namespace Sys2Proof.Machine

/-! ## ADD, ADC, SUB, SBB and CMP -/

/-- The flags of an addition, OF as the signed sum out of range (R33, R181). -/
theorem addFlags_signedStatus (w : Width) (a b : BitVec w.bits) (c : Bool) (fl : Word) :
    StatusFlags (decide (2 ^ w.bits ≤ a.toNat + b.toNat + c.toNat))
      (outOfRange w.bits (a.toInt + b.toInt + c.toNat)) (addFlags a b c fl).1 fl (addFlags a b c fl).2 :=
  addFlags_overflow w a b c fl ▸ addFlags_status a b c fl

/-- The flags of a subtraction, CF as the unsigned order and OF as the signed difference out of range (R34, R183). -/
theorem subFlags_signedStatus (w : Width) (a b : BitVec w.bits) (c : Bool) (fl : Word) :
    StatusFlags (decide (a.toNat < b.toNat + c.toNat))
      (outOfRange w.bits (a.toInt - b.toInt - c.toNat)) (subFlags a b c fl).1 fl (subFlags a b c fl).2 := by
  have hborrow : a.toNat < b.toNat + c.toNat ↔ (a.toNat : Int) - b.toNat - c.toNat < 0 := by omega
  rw [← subFlags_overflow w a b c fl, decide_eq_decide.mpr hborrow]
  exact subFlags_status a b c fl

/-- Settles O38: ADC is ADD with the old carry, and both assign the result of `AddFlags`. -/
theorem addAdc : Obligations.AddAdc := by
  intro f s i c hq h
  obtain ⟨op, hop, hexec, heval⟩ : ∃ op, op ≠ AluOp.cmp ∧ exec i s = done i (aluRun op f s) ∧
      ∀ a b : BitVec (aluWidth f).bits, aluEval op a b s.cpu.flags = addFlags a b c s.cpu.flags := by
    obtain ⟨rfl, rfl⟩ | ⟨rfl, rfl⟩ := h
    · exact ⟨.add, by decide, rfl, fun _ _ => rfl⟩
    · exact ⟨.adc, by decide, rfl, fun _ _ => rfl⟩
  obtain ⟨t, hdone, hrest, hassigned⟩ := done_aluRun i hop f hq (heval _ _)
  exact ⟨t, _, _, hexec.trans hdone, hrest, addFlags_toNat _ _ _ _, addFlags_signedStatus _ _ _ _ _, hassigned⟩

/-- Settles O39: SBB is SUB with the old carry, CMP is SUB without the write. -/
theorem subSbbCmp : Obligations.SubSbbCmp := by
  intro f s i c hq h
  obtain ⟨op, hop, hexec, hi, heval⟩ | ⟨rfl, rfl⟩ :
      (∃ op, op ≠ AluOp.cmp ∧ exec i s = done i (aluRun op f s) ∧ i ≠ .cmp f ∧
        ∀ a b : BitVec (aluWidth f).bits, aluEval op a b s.cpu.flags = subFlags a b c s.cpu.flags) ∨
      i = .cmp f ∧ c = false := by
    obtain ⟨rfl, rfl⟩ | ⟨rfl, rfl⟩ | hcmp := h
    · exact .inl ⟨.sub, by decide, rfl, by simp, fun _ _ => rfl⟩
    · exact .inl ⟨.sbb, by decide, rfl, by simp, fun _ _ => rfl⟩
    · exact .inr hcmp
  · obtain ⟨t, hdone, hrest, hassigned⟩ := done_aluRun i hop f hq (heval _ _)
    exact ⟨t, _, _, hexec.trans hdone, hrest, subFlags_toInt _ _ _ _, subFlags_signedStatus _ _ _ _ _,
      fun h => absurd h hi, fun _ => hassigned⟩
  · obtain ⟨t, hdone, hrest, honly⟩ := done_aluCmp (.cmp f) f hq
    exact ⟨t, _, _, hdone, hrest, subFlags_toInt _ _ _ _, subFlags_signedStatus _ _ _ _ _,
      fun _ => honly, fun h => absurd rfl h⟩

/-! ## INC, DEC, NEG and NOT -/

/-- Negation overflows at the least signed value alone (R188). -/
theorem outOfRange_zero_sub (w : Width) (a : BitVec w.bits) :
    outOfRange w.bits (0 - a.toInt) = decide (a = BitVec.ofNat w.bits (2 ^ (w.bits - 1))) := by
  rw [outOfRange, decide_eq_decide, ← BitVec.toInt_inj]
  have hlow := a.le_toInt
  have hhigh := a.toInt_lt
  cases w <;> simp [Width.bits] at * <;> omega

/-- The flags of NEG: those of subtracting from 0 (R188). -/
theorem subFlags_zero_status (w : Width) (a : BitVec w.bits) (fl : Word) :
    ∃ fl', subFlags 0 a false fl = (-a, fl') ∧
      StatusFlags (decide (a ≠ 0)) (decide (a = BitVec.ofNat w.bits (2 ^ (w.bits - 1)))) (-a) fl fl' := by
  have hresult : (subFlags 0 a false fl).1 = -a := by rw [fst_subFlags, zero_sub]
  have hborrow : decide ((0 : BitVec w.bits).toNat < a.toNat + false.toNat) = decide (a ≠ 0) := by
    simp [Nat.pos_iff_ne_zero, BitVec.toNat_eq]
  have hoverflow : outOfRange w.bits ((0 : BitVec w.bits).toInt - a.toInt - false.toNat) =
      decide (a = BitVec.ofNat w.bits (2 ^ (w.bits - 1))) := by
    rw [← outOfRange_zero_sub]
    simp
  have hstatus := subFlags_signedStatus w 0 a false fl
  rw [hresult, hborrow, hoverflow] at hstatus
  exact ⟨_, Prod.ext hresult rfl, hstatus⟩

/-- An instruction in the one-operand frame whose function gives its status flags (R186 to R188). -/
theorem exec_unaryRun {i : Instr} {w : Width} {o : Operand} {f : BitVec w.bits → Word → BitVec w.bits × Word}
    {s : State} {cf ov : Bool} {r : BitVec w.bits} (hq : s.QuietMemory) (hexec : exec i s = done i (unaryRun w o f s))
    (heval : ∃ fl, f (s.value w o) s.cpu.flags = (r, fl) ∧ StatusFlags cf ov r s.cpu.flags fl) :
    ∃ t fl, exec i s = .next t ∧ SameRest s t ∧ StatusFlags cf ov r s.cpu.flags fl ∧ Assigned w o r fl s t := by
  obtain ⟨fl, hfl, hstatus⟩ := heval
  obtain ⟨t, hdone, hrest, hassigned⟩ := done_unaryRun i w o f hq hfl
  exact ⟨t, fl, hexec.trans hdone, hrest, hstatus, hassigned⟩

/-- Settles O41: each assigns the result of its function to the operand it read. -/
theorem incDecNegNot : Obligations.IncDecNegNot := by
  intro w m s i o hq
  refine ⟨fun h => ?_, fun h => ?_, exec_unaryRun hq rfl (subFlags_zero_status w _ _), done_unaryRun _ w _ _ hq rfl⟩
  · refine exec_unaryRun hq ?_ (incEval_status w _ _)
    obtain ⟨rfl, rfl⟩ | ⟨r, rfl, rfl, rfl⟩ := h <;> rfl
  · refine exec_unaryRun hq ?_ (decEval_status w _ _)
    obtain ⟨rfl, rfl⟩ | ⟨r, rfl, rfl, rfl⟩ := h <;> rfl

end Sys2Proof.Machine
end

section
/-!
PROOFS. Multiplications and divisions where memory is quiet, and the divide error (41_arithmetic.md R189 to R192).
-/

namespace Sys2Proof.Machine

/-! ## Integers and their bit vectors -/

/-- The upper half of an unsigned product is not 0 where the product is above the lower half's range (R189). -/
theorem quotient_ne_zero (n p : Nat) : (p / 2 ^ n != 0) = decide (2 ^ n ≤ p) := by
  rw [Bool.eq_iff_iff, bne_iff_ne, decide_eq_true_iff, Nat.div_ne_zero_iff]
  simp

/-- A signed product is the sign extension of its lower half where it is in the range of that half (R190). -/
theorem not_fitsSigned (n : Nat) (p : Int) : (!fitsSigned n p) = outOfRange n p := by
  rw [fitsSigned, outOfRange, ← decide_not, decide_eq_decide]
  omega

/-- Reduction to `k` bits leaves the bit pattern at a width not above `k` as it is. -/
theorem ofNat_toNat_emod {n k : Nat} (h : n ≤ k) (p : Int) : BitVec.ofNat n (p % 2 ^ k).toNat = BitVec.ofInt n p := by
  have hdvd : ((2 ^ n : Nat) : Int) ∣ 2 ^ k := by exact_mod_cast pow_dvd_pow 2 h
  rw [← BitVec.ofInt_natCast, Int.toNat_of_nonneg (Int.emod_nonneg _ (by positivity))]
  apply BitVec.eq_of_toNat_eq
  rw [BitVec.toNat_ofInt, BitVec.toNat_ofInt, Int.emod_emod_of_dvd _ hdvd]

theorem toNat_dividend_word (c : Cpu) : (dividend .word c).toNat = c.dx.toNat * 65536 + c.ax.toNat := by
  show (c.dx ++ c.ax).toNat = _
  rw [BitVec.toNat_append, ← Nat.shiftLeft_add_eq_or_of_lt c.ax.isLt, Nat.shiftLeft_eq]

theorem toInt_dividend_word (c : Cpu) : (dividend .word c).toInt = c.dx.toInt * 65536 + c.ax.toNat := by
  show (c.dx ++ c.ax).toInt = _
  rw [BitVec.toInt_append, if_neg (by decide), Int.mul_comm]
  norm_num

/-! ## Multiplications -/

theorem flags_putProduct (w : Width) (p : Nat) (c : Cpu) : (putProduct w p c).flags = c.flags := by cases w <;> rfl

/-- A multiplication ends with its product written and one value in CF and OF, after reads at most (R189, R190, U1). -/
theorem done_product (i : Instr) (w : Width) (p : Nat) (upper : Bool) (l : List Addr) (s : State) :
    ∃ t fl, done i (multiplyFlags upper ((s.noteReads l).withCpu (putProduct w p s.cpu))) = .next t ∧
      SameRest s t ∧ OnlyCpu { putProduct w p s.cpu with flags := fl } s t ∧
      getFlag fl .cf = upper ∧ getFlag fl .of = upper ∧ FlagsBut [.cf, .of, .sf, .zf, .pf] s.cpu.flags fl := by
  obtain ⟨fl, hcpu, hbus, hrest, hcf, hof, hflags⟩ :=
    multiplyFlags_spec upper ((s.noteReads l).withCpu (putProduct w p s.cpu))
  obtain ⟨t, hdone, hrest, honly⟩ := done_onlyCpu i (((noteReads_rest s l).withCpu _).trans hrest) hbus hcpu false 0
  rw [State.withCpu_cpu, flags_putProduct] at hflags
  exact ⟨t, fl, hdone, hrest, honly, hcf, hof, hflags⟩

/-- MUL writes the product of the accumulator and the operand (R189). -/
theorem exec_mul {s : State} (hq : s.QuietMemory) (w : Width) (m : RM) {p : Nat}
    (hp : p = (getReg s.cpu w 0).toNat * (s.value w (resolve m s)).toNat) :
    ∃ t fl, exec (.mul w m) s = .next t ∧ SameRest s t ∧ OnlyCpu { putProduct w p s.cpu with flags := fl } s t ∧
      getFlag fl .cf = decide (2 ^ w.bits ≤ p) ∧ getFlag fl .of = decide (2 ^ w.bits ≤ p) ∧
      FlagsBut [.cf, .of, .sf, .zf, .pf] s.cpu.flags fl := by
  simp only [exec, execMul, readOperand_eq hq, State.noteReads_cpu, quotient_ne_zero, ← hp]
  exact done_product _ _ _ _ _ _

theorem putProduct_byte_signed (p : Int) (c : Cpu) :
    putProduct .byte (p % 2 ^ 16).toNat c = { c with ax := BitVec.ofInt 16 p } := by
  rw [putProduct, ofNat_toNat_emod le_rfl]

theorem putProduct_word_signed (p : Int) (c : Cpu) :
    putProduct .word (p % 2 ^ 32).toNat c = { c with dx := BitVec.ofInt 16 (p / 65536), ax := BitVec.ofInt 16 p } := by
  have hupper : (p % 2 ^ 32).toNat / 2 ^ 16 = (p / 65536 % 2 ^ 16).toNat := by omega
  rw [putProduct, hupper, ofNat_toNat_emod le_rfl, ofNat_toNat_emod (by decide)]

/-- IMUL writes the signed product of the accumulator and the operand, reduced to twice the width (R190). -/
theorem exec_imul {s : State} (hq : s.QuietMemory) (w : Width) (m : RM) {p : Int} {c : Cpu}
    (hp : p = (getReg s.cpu w 0).toInt * (s.value w (resolve m s)).toInt)
    (hc : putProduct w (p % 2 ^ (2 * w.bits)).toNat s.cpu = c) :
    ∃ t fl, exec (.imul w m) s = .next t ∧ SameRest s t ∧ OnlyCpu { c with flags := fl } s t ∧
      getFlag fl .cf = outOfRange w.bits p ∧ getFlag fl .of = outOfRange w.bits p ∧
      FlagsBut [.cf, .of, .sf, .zf, .pf] s.cpu.flags fl := by
  simp only [exec, execImul, readOperand_eq hq, State.noteReads_cpu, not_fitsSigned, ← hp, ← hc]
  exact done_product _ _ _ _ _ _

/-- Settles O42: MUL and IMUL at each width, the signed product as the halves of its bit pattern. -/
theorem mulImul : Obligations.MulImul := fun m s hq =>
  ⟨fun _ hp => exec_mul hq .byte m hp, fun _ hp => exec_mul hq .word m hp,
    fun p hp => exec_imul hq .byte m hp (putProduct_byte_signed p s.cpu),
    fun p hp => exec_imul hq .word m hp (putProduct_word_signed p s.cpu)⟩

/-! ## Divisions -/

theorem divResult_of_fits {n num : Nat} {b : BitVec n} (hb : b.toNat ≠ 0) (hfit : num / b.toNat ≤ 2 ^ n - 1) :
    divResult n num b = some (BitVec.ofNat n (num / b.toNat), BitVec.ofNat n (num % b.toNat)) := by
  rw [divResult, if_neg hb, if_neg (Nat.not_lt.mpr hfit)]

theorem divResult_of_error {n num : Nat} {b : BitVec n} (h : b = 0 ∨ 2 ^ n - 1 < num / b.toNat) :
    divResult n num b = none := by
  obtain rfl | hlarge := h
  · exact if_pos BitVec.toNat_zero
  · rw [divResult, if_pos hlarge, ite_self]

/-- The least quotient of IDIV (R192). -/
def leastQuotient (n : Nat) (symmetric : Bool) : Int :=
  if symmetric then -(2 ^ (n - 1)) + 1 else -(2 ^ (n - 1))

/-- The result of IDIV with its remainder as the one of truncation toward zero (R192). -/
theorem idivResult_eq (n : Nat) (symmetric : Bool) (num : Int) (b : BitVec n) :
    idivResult n symmetric num b =
      if b.toInt = 0 then none
      else if num.tdiv b.toInt > 2 ^ (n - 1) - 1 ∨ num.tdiv b.toInt < leastQuotient n symmetric then none
      else some (BitVec.ofInt n (num.tdiv b.toInt), BitVec.ofInt n (num.tmod b.toInt)) := by
  rw [Int.tmod_def, Int.mul_comm]
  rfl

theorem idivResult_of_fits {n : Nat} {symmetric : Bool} {num : Int} {b : BitVec n} (hb : b.toInt ≠ 0)
    (hhigh : num.tdiv b.toInt ≤ 2 ^ (n - 1) - 1) (hlow : leastQuotient n symmetric ≤ num.tdiv b.toInt) :
    idivResult n symmetric num b = some (BitVec.ofInt n (num.tdiv b.toInt), BitVec.ofInt n (num.tmod b.toInt)) := by
  rw [idivResult_eq, if_neg hb, if_neg (not_or.mpr ⟨Int.not_lt.mpr hhigh, Int.not_lt.mpr hlow⟩)]

theorem idivResult_of_error {n : Nat} {symmetric : Bool} {num : Int} {b : BitVec n}
    (h : b = 0 ∨ 2 ^ (n - 1) - 1 < num.tdiv b.toInt ∨ num.tdiv b.toInt < leastQuotient n symmetric) :
    idivResult n symmetric num b = none := by
  rw [idivResult_eq]
  obtain rfl | hunfit := h
  · exact if_pos BitVec.toInt_zero
  · rw [if_pos hunfit, ite_self]

theorem flags_putQuotient (w : Width) (q r : BitVec w.bits) (c : Cpu) : (putQuotient w q r c).flags = c.flags := by
  cases w <;> rfl

/-- A division whose quotient fits writes it and the remainder, after reads at most (R191, R192, U2). -/
theorem divideEnd_some (i : Instr) (w : Width) (q r : BitVec w.bits) (l : List Addr) (s : State) :
    ∃ t fl, divideEnd i w (some (q, r)) (s.noteReads l) = .next t ∧ SameRest s t ∧
      OnlyCpu { putQuotient w q r s.cpu with flags := fl } s t ∧
      FlagsBut [.cf, .of, .sf, .zf, .pf] s.cpu.flags fl := by
  obtain ⟨fl, hcpu, hbus, hrest, hflags⟩ := divideFlags_spec ((s.noteReads l).withCpu (putQuotient w q r s.cpu))
  obtain ⟨t, hdone, hrest, honly⟩ := done_onlyCpu i (((noteReads_rest s l).withCpu _).trans hrest) hbus hcpu false 0
  rw [State.withCpu_cpu, flags_putQuotient] at hflags
  exact ⟨t, fl, hdone, hrest, honly, hflags⟩

/-- DIV is a read of the operand and the end of a division (R191). -/
theorem exec_div {s : State} (hq : s.QuietMemory) (w : Width) (m : RM) :
    exec (.div w m) s =
      divideEnd (.div w m) w (divResult w.bits (dividend w s.cpu).toNat (s.value w (resolve m s)))
        (s.noteReads ((resolve m s).bytes w)) := by
  simp only [exec, execDiv, readOperand_eq hq, State.noteReads_cpu]

/-- IDIV is a read of the operand and the end of a signed division (R192). -/
theorem exec_idiv {s : State} (hq : s.QuietMemory) (w : Width) (m : RM) :
    exec (.idiv w m) s =
      divideEnd (.idiv w m) w
        (idivResult w.bits s.params.idivSymmetricMin (dividend w s.cpu).toInt (s.value w (resolve m s)))
        (s.noteReads ((resolve m s).bytes w)) := by
  simp only [exec, execIdiv, readOperand_eq hq, State.noteReads_cpu, State.noteReads_params]

/-! With the dividend `n` and the divisor named, as the rules name them (R191, R192). -/

section
variable {s : State} (hq : s.QuietMemory) (w : Width) (m : RM)
include hq

theorem exec_div_of_fits {n d : Nat} (hn : n = (dividend w s.cpu).toNat) (hd : d = (s.value w (resolve m s)).toNat)
    (hzero : d ≠ 0) (hfit : n / d ≤ 2 ^ w.bits - 1) :
    ∃ t fl, exec (.div w m) s = .next t ∧ SameRest s t ∧
      OnlyCpu { putQuotient w (BitVec.ofNat w.bits (n / d)) (BitVec.ofNat w.bits (n % d)) s.cpu with
                flags := fl } s t ∧
      FlagsBut [.cf, .of, .sf, .zf, .pf] s.cpu.flags fl := by
  subst hn hd
  rw [exec_div hq, divResult_of_fits hzero hfit]
  exact divideEnd_some _ _ _ _ _ _

theorem exec_idiv_of_fits {n d : Int} (hn : n = (dividend w s.cpu).toInt) (hd : d = (s.value w (resolve m s)).toInt)
    (hzero : d ≠ 0) (hhigh : n.tdiv d ≤ 2 ^ (w.bits - 1) - 1)
    (hlow : leastQuotient w.bits s.params.idivSymmetricMin ≤ n.tdiv d) :
    ∃ t fl, exec (.idiv w m) s = .next t ∧ SameRest s t ∧
      OnlyCpu { putQuotient w (BitVec.ofInt w.bits (n.tdiv d)) (BitVec.ofInt w.bits (n.tmod d)) s.cpu with
                flags := fl } s t ∧
      FlagsBut [.cf, .of, .sf, .zf, .pf] s.cpu.flags fl := by
  subst hn hd
  rw [exec_idiv hq, idivResult_of_fits hzero hhigh hlow]
  exact divideEnd_some _ _ _ _ _ _

theorem exec_div_of_error {n : Nat} (hn : n = (dividend w s.cpu).toNat)
    (h : s.value w (resolve m s) = 0 ∨ 2 ^ w.bits - 1 < n / (s.value w (resolve m s)).toNat) :
    exec (.div w m) s = interrupt 0 (s.noteReads ((resolve m s).bytes w)) := by
  subst hn
  rw [exec_div hq, divResult_of_error h]
  rfl

theorem exec_idiv_of_error {n q : Int} (hn : n = (dividend w s.cpu).toInt)
    (hquot : q = n.tdiv (s.value w (resolve m s)).toInt)
    (h : s.value w (resolve m s) = 0 ∨ 2 ^ (w.bits - 1) - 1 < q ∨
      q < leastQuotient w.bits s.params.idivSymmetricMin) :
    exec (.idiv w m) s = interrupt 0 (s.noteReads ((resolve m s).bytes w)) := by
  subst hn hquot
  rw [exec_idiv hq, idivResult_of_error h]
  rfl

end

/-- Settles O43: where the quotient fits, the result of the division is written. -/
theorem divIdiv : Obligations.DivIdiv := fun m s hq =>
  ⟨fun _ _ hn hd hzero hfit => exec_div_of_fits hq .byte m hn hd hzero hfit,
    fun _ _ hn hd hzero hfit =>
      exec_div_of_fits hq .word m (hn.trans (toNat_dividend_word s.cpu).symm) hd hzero hfit,
    fun _ _ hn hd hzero hhigh hlow => exec_idiv_of_fits hq .byte m hn hd hzero hhigh hlow,
    fun _ _ hn hd hzero hhigh hlow =>
      exec_idiv_of_fits hq .word m (hn.trans (toInt_dividend_word s.cpu).symm) hd hzero hhigh hlow⟩

/-- Settles O44: else the division has no result, and `Interrupt(0)` is taken in the state after the read. -/
theorem divideError : Obligations.DivideError := fun m s hq =>
  ⟨exec_div_of_error hq .byte m rfl, exec_div_of_error hq .word m (toNat_dividend_word s.cpu).symm,
    fun _ hquot h => exec_idiv_of_error hq .byte m rfl hquot h,
    fun _ hquot h => exec_idiv_of_error hq .word m (toInt_dividend_word s.cpu).symm hquot h, rfl⟩

end Sys2Proof.Machine
end

section
/-!
PROOFS. CBW, CWD, AAM and AAD (41_arithmetic.md R193 to R196).
-/

namespace Sys2Proof.Machine

/-- The sign of a byte as the high half of a word is its sign extension (R193). -/
theorem wordOf_sign (b : Byte) : wordOf b (if b.msb then 0xFF else 0x00) = b.signExtend 16 := by
  revert b; decide

/-! A write of each half of AX is a write of AX (R21). -/

theorem putReg_al_putReg_ah (c : Cpu) (lo hi : Byte) :
    putReg (putReg c .byte 4 hi) .byte 0 lo = { c with ax := wordOf lo hi } :=
  congrArg (fun h => { c with ax := wordOf lo h }) (highByte_wordOf _ hi)

theorem putReg_ah_putReg_al (c : Cpu) (lo hi : Byte) :
    putReg (putReg c .byte 0 lo) .byte 4 hi = { c with ax := wordOf lo hi } :=
  congrArg (fun l => { c with ax := wordOf l hi }) (lowByte_wordOf lo _)

/-- AAM and AAD end with the halves of AX written and the flags of AL (R195, R196, U3). -/
theorem done_adjustFlags (i : Instr) {lo hi : Byte} {s u : State} (hr : SameRest s u) (hb : u.bus = s.bus)
    (hc : u.cpu = { s.cpu with ax := wordOf lo hi }) :
    ∃ t fl, done i (adjustFlags u) = .next t ∧ SameRest s t ∧
      OnlyCpu { s.cpu with ax := wordOf lo hi, flags := fl } s t ∧ ResultFlags lo fl ∧
      FlagsBut [.cf, .of, .zf, .sf, .pf] s.cpu.flags fl := by
  obtain ⟨fl, hcpu, hbus, hrest, hresult, hflags⟩ := adjustFlags_spec u
  obtain ⟨t, hdone, hrest, honly⟩ := done_onlyCpu i (hr.trans hrest) (hbus.trans hb) hcpu false 0
  have hal : getReg8 u.cpu .al = lo := by rw [hc]; exact lowByte_wordOf lo hi
  rw [hc] at honly hflags
  rw [hal] at hresult
  exact ⟨t, fl, hdone, hrest, honly, hresult, hflags⟩

/-- Settles O45: each writes a half or both halves of AX, or DX, and the adjustments the flags of AL. -/
theorem extendAndAdjust : Obligations.ExtendAndAdjust := by
  intro imm s
  have hrefl := SameRest.refl s
  have hcwd := hrefl.withReg .word 2 (if s.cpu.ax.msb then 0xFFFF else 0x0000)
  refine ⟨?_, done_onlyCpu .cwd hcwd rfl rfl _ _, ?_, ?_⟩
  · rw [← wordOf_sign]
    exact done_onlyCpu .cbw (hrefl.withReg .byte 4 _) rfl rfl _ _
  · rintro q r himm rfl rfl
    have hzero : imm.toNat ≠ 0 := by simpa [BitVec.toNat_eq] using himm
    simp only [exec, execAam, if_neg hzero, ← BitVec.toNat_udiv, ← BitVec.toNat_umod, BitVec.ofNat_toNat,
      BitVec.setWidth_eq]
    exact done_adjustFlags _ ((hrefl.withReg .byte 4 _).withReg .byte 0 _) rfl (putReg_al_putReg_ah _ _ _)
  · rintro v rfl
    simp only [exec, execAad, BitVec.ofNat_add, BitVec.ofNat_mul, BitVec.ofNat_toNat, BitVec.setWidth_eq]
    exact done_adjustFlags _ ((hrefl.withReg .byte 0 _).withReg .byte 4 _) rfl (putReg_ah_putReg_al _ _ _)

end Sys2Proof.Machine
end

section
/-!
PROOFS. AND, OR, XOR and TEST, and the frame of the shifts and rotates, where memory is quiet (42_logic_shift.md R230
to R233, R235 to R242).
-/

namespace Sys2Proof.Machine

/-! ## AND, OR, XOR and TEST -/

/-- TEST writes the flags of the AND of its operands and nothing else (R233). -/
theorem exec_test {s : State} (hq : s.QuietMemory) (f : TestForm) :
    ∃ t, exec (.test f) s = .next t ∧ SameRest s t ∧
      OnlyCpu { s.cpu with
                flags := logicFlags (s.value (testWidth f) (testFst f s) &&& s.value (testWidth f) (testSnd f))
                  s.cpu.flags } s t := by
  simp only [exec, execTest, readOperand_eq hq, readOperand_eq (hq.noteReads _), State.value_noteReads,
    State.noteReads_noteReads, State.noteReads_cpu]
  exact done_onlyCpu _ ((noteReads_rest s _).withFlags _) rfl rfl _ _

/-- Settles O40: AND, OR and XOR assign their result with its `LogicFlags`, and TEST writes those of AND. -/
theorem andOrXorTest : Obligations.AndOrXorTest := by
  refine ⟨fun f s i r hq h => ?_, fun f s hq => ?_⟩
  · obtain ⟨op, hop, hexec, heval⟩ : ∃ op, op ≠ AluOp.cmp ∧ exec i s = done i (aluRun op f s) ∧
        aluEval op (s.value (aluWidth f) (aluDst f s)) (s.value (aluWidth f) (aluSrc f s)) s.cpu.flags =
          (r, logicFlags r s.cpu.flags) := by
      obtain ⟨rfl, rfl⟩ | ⟨rfl, rfl⟩ | ⟨rfl, rfl⟩ := h
      · exact ⟨.and, by decide, rfl, rfl⟩
      · exact ⟨.or, by decide, rfl, rfl⟩
      · exact ⟨.xor, by decide, rfl, rfl⟩
    obtain ⟨t, hdone, hrest, hassigned⟩ := done_aluRun i hop f hq heval
    exact ⟨t, _, hexec.trans hdone, hrest, logicFlags_status r _, hassigned⟩
  · obtain ⟨t, hexec, hrest, honly⟩ := exec_test hq f
    exact ⟨t, _, hexec, hrest, logicFlags_status _ _, honly⟩

/-! ## Shifts and rotates -/

/-- The count is 1 or the low byte of CX, not masked (R235). -/
theorem shiftCount_cl (s : State) : shiftCount .cl s = s.cpu.cx.toNat % 256 :=
  BitVec.extractLsb'_toNat 0 8 s.cpu.cx

/-- What group 2 writes in the flags word by `n` steps of `a` to `r` and the last bit out `cf` (R235). -/
structure ShiftFlags (op : ShiftOp) {w : Nat} (n : Nat) (a r : BitVec w) (cf : Bool) (x y : Word) : Prop where
  unchanged : n = 0 → y = x
  carry : 1 ≤ n → getFlag y .cf = cf
  overflow : n = 1 → getFlag y .of = shiftOverflow op a r cf
  shift : 1 ≤ n → op.isShift = true → ResultFlags r y ∧ FlagsBut [.cf, .of, .zf, .sf, .pf] x y
  rotate : 1 ≤ n → op.isShift = false → FlagsBut [.cf, .of] x y

/-- The result of a shift or rotate is that of the iterated step, by a count of 0 too. -/
theorem fst_shiftEval (op : ShiftOp) {w : Nat} (a : BitVec w) (n : Nat) (free : Bool) (fl : Word) :
    (shiftEval op a n free fl).1 = (shiftTimes op n a (getFlag fl .cf)).1 := by
  unfold shiftEval
  split
  · next hn => rw [hn, shiftTimes]
  · rfl

theorem shiftEval_flags (op : ShiftOp) {w : Nat} (a : BitVec w) (n : Nat) (free : Bool) (fl : Word) :
    ShiftFlags op n a (shiftTimes op n a (getFlag fl .cf)).1 (shiftTimes op n a (getFlag fl .cf)).2 fl
      (shiftEval op a n free fl).2 := by
  unfold shiftEval
  split
  · next hn => constructor <;> simp [hn]
  · next hn =>
    generalize shiftTimes op n a (getFlag fl .cf) = p
    dsimp only
    generalize hov : (if n = 1 then shiftOverflow op a p.1 p.2 else free) = ov
    have hoverflow : n = 1 → ov = shiftOverflow op a p.1 p.2 := fun h => by rw [← hov, if_pos h]
    cases hshift : op.isShift with
    | true =>
      obtain ⟨hcf, hof, hresult, hflags⟩ := statusFlags_of p.2 ov p.1 fl
      exact ⟨fun h => absurd h hn, fun _ => hcf, fun h => hof.trans (hoverflow h), fun _ _ => ⟨hresult, hflags⟩,
        fun _ h => absurd (hshift.symm.trans h) (by decide)⟩
    | false =>
      exact ⟨fun h => absurd h hn, fun _ => by simp, fun h => by simp [hoverflow h],
        fun _ h => absurd (hshift.symm.trans h) (by decide),
        fun _ _ => ((FlagsBut.refl _ fl).putFlag (f := .cf) (by simp) p.2).putFlag (f := .of) (by simp) ov⟩

/-- An instruction of group 2 assigns the iterated step of its operand (R235). -/
theorem exec_shift {s : State} (hq : s.QuietMemory) (op : ShiftOp) (w : Width) (m : RM) (c : ShiftCount)
    {r : BitVec w.bits} {cf : Bool}
    (h : shiftTimes op (shiftCount c s) (s.value w (resolve m s)) (getFlag s.cpu.flags .cf) = (r, cf)) :
    ∃ t fl, exec (shiftInstr op w m c) s = .next t ∧ SameRest s t ∧ Assigned w (resolve m s) r fl s t ∧
      ShiftFlags op (shiftCount c s) (s.value w (resolve m s)) r cf s.cpu.flags fl := by
  have hexec : exec (shiftInstr op w m c) s =
      done (shiftInstr op w m c) (shiftRun op w m c s) (count := shiftCount c s) := by
    cases op <;> rfl
  obtain ⟨u, free, hrest, hbus, hcpu, hrun⟩ := shiftRun_eq hq op w m c
  have hflags := shiftEval_flags op (s.value w (resolve m s)) (shiftCount c s) free s.cpu.flags
  rw [fst_shiftEval, h] at hrun
  rw [h] at hflags
  obtain ⟨t, hdone, hrest, hassigned⟩ :=
    done_writeOperand (shiftInstr op w m c) hq hrest hbus hcpu false (shiftCount c s)
  exact ⟨t, _, hexec.trans (hrun ▸ hdone), hrest, hassigned, hflags⟩

/-- Settles O46: the instruction takes the iterated step, and the flags are those that its frame writes. -/
theorem shiftRotate : Obligations.ShiftRotate := by
  intro op w m c s n a r cf hq hn ha hiterate
  have hcount : shiftCount c s = n := by
    rw [hn]
    cases c with
    | one => rfl
    | cl => exact shiftCount_cl s
  subst ha
  rw [← hcount, ← shiftTimes_eq] at hiterate
  obtain ⟨t, fl, hexec, hrest, hassigned, hflags⟩ := exec_shift hq op w m c hiterate.symm
  rw [hcount] at hflags
  refine ⟨t, fl, hexec, hrest, hassigned, hflags.unchanged,
    fun h => ⟨hflags.carry h, hflags.shift h, hflags.rotate h⟩, fun h => (hflags.overflow h).trans ?_⟩
  cases op <;> rfl

end Sys2Proof.Machine
end

section
/-!
PROOFS. The one-bit steps of group 2 iterated, in closed form (42_logic_shift.md R236 to R242).
-/

namespace Sys2Proof.Machine

variable {n : Nat}

/-! ## The bit that a step brings in -/

theorem getMsbD_lowBit (b : Bool) (i : Nat) : (lowBit n b).getMsbD i = (b && decide (i + 1 = n)) := by
  cases b with
  | false => simp [lowBit]
  | true =>
    rw [lowBit, if_pos rfl, BitVec.getMsbD, BitVec.ofNat_eq_ofNat, BitVec.getLsbD_one, Bool.true_and,
      ← Bool.decide_and, ← Bool.decide_and, decide_eq_decide]
    omega

theorem getLsbD_topBit (b : Bool) (i : Nat) : (topBit n b).getLsbD i = (b && decide (i + 1 = n)) := by
  cases b with
  | false => simp [topBit]
  | true =>
    rw [topBit, if_pos rfl, BitVec.getLsbD_ofNat, Nat.testBit_two_pow, Bool.true_and, ← Bool.decide_and,
      decide_eq_decide]
    omega

theorem setWidth_lowBit (b : Bool) : (lowBit (n + 1) b).setWidth n = lowBit n b := by
  cases b <;> simp [lowBit]

theorem getLsbD_zero_shiftLeft_or_lowBit (hn : 0 < n) (a : BitVec n) (b : Bool) :
    (a <<< 1 ||| lowBit n b).getLsbD 0 = b := by
  cases b <;> simp [lowBit, hn]

theorem msb_shiftRight_or_topBit (hn : 0 < n) (a : BitVec n) (b : Bool) : (a >>> 1 ||| topBit n b).msb = b := by
  rw [BitVec.msb_or, BitVec.msb_eq_getLsbD_last (topBit n b), getLsbD_topBit]
  simp [Nat.sub_add_cancel hn, BitVec.msb_ushiftRight]

/-! ## Rotation and signed shift by one more bit -/

/-- Rotation to the right reads the bits from the count on, around the width. -/
theorem getLsbD_rotateRight_mod (x : BitVec n) (k : Nat) {i : Nat} (hi : i < n) :
    (x.rotateRight k).getLsbD i = x.getLsbD ((k + i) % n) := by
  have hk : k % n < n := Nat.mod_lt k (by omega)
  rw [BitVec.getLsbD_rotateRight, ← Nat.mod_add_mod k]
  by_cases hwrap : i < n - k % n
  · rw [Nat.mod_eq_of_lt (by omega : k % n + i < n)]
    simp [hwrap]
  · rw [Nat.mod_eq_sub_mod (by omega : n ≤ k % n + i), Nat.mod_eq_of_lt (by omega : k % n + i - n < n),
      show i - (n - k % n) = k % n + i - n by omega]
    simp [hwrap, hi]

theorem rotateLeft_zero (x : BitVec n) : x.rotateLeft 0 = x :=
  BitVec.eq_of_getMsbD_eq fun i hi => by simp [BitVec.getMsbD_rotateLeft, hi, Nat.mod_eq_of_lt]

theorem rotateRight_zero (x : BitVec n) : x.rotateRight 0 = x :=
  BitVec.eq_of_getLsbD_eq fun i hi => by rw [getLsbD_rotateRight_mod x 0 hi, Nat.zero_add, Nat.mod_eq_of_lt hi]

theorem rotateLeft_succ (x : BitVec n) (k : Nat) :
    x.rotateLeft (k + 1) = x.rotateLeft k <<< 1 ||| lowBit n (x.rotateLeft k).msb := by
  refine BitVec.eq_of_getMsbD_eq fun i hi => ?_
  rw [BitVec.getMsbD_or, BitVec.getMsbD_shiftLeft, getMsbD_lowBit, BitVec.msb_rotateLeft,
    BitVec.getMsbD_rotateLeft, BitVec.getMsbD_rotateLeft, Nat.add_right_comm, Nat.add_assoc]
  obtain h | rfl := Nat.lt_or_eq_of_le (Nat.succ_le_of_lt hi)
  · simp [hi, h, h.ne]
  · simp

theorem rotateRight_succ (x : BitVec n) (k : Nat) :
    x.rotateRight (k + 1) = x.rotateRight k >>> 1 ||| topBit n ((x.rotateRight k).getLsbD 0) := by
  refine BitVec.eq_of_getLsbD_eq fun i hi => ?_
  rw [BitVec.getLsbD_or, BitVec.getLsbD_ushiftRight, getLsbD_topBit, getLsbD_rotateRight_mod x _ hi,
    getLsbD_rotateRight_mod x k (Nat.zero_lt_of_lt hi), Nat.add_assoc, Nat.add_comm 1 i]
  obtain h | rfl := Nat.lt_or_eq_of_le (Nat.succ_le_of_lt hi)
  · simp [getLsbD_rotateRight_mod x k h, h.ne]
  · simp

theorem sshiftRight_one (a : BitVec n) : a.sshiftRight 1 = a >>> 1 ||| topBit n a.msb := by
  refine BitVec.eq_of_getLsbD_eq fun i hi => ?_
  rw [BitVec.getLsbD_or, BitVec.getLsbD_ushiftRight, getLsbD_topBit, BitVec.getLsbD_sshiftRight, Nat.add_comm 1 i]
  obtain h | rfl := Nat.lt_or_eq_of_le (Nat.succ_le_of_lt hi)
  · simp [h, h.ne, hi]
  · simp

/-! ## The steps that take no carry in -/

theorem shiftStep_shl (a : BitVec n) (k : Nat) (c : Bool) :
    shiftStep .shl (a <<< k) c = (a <<< (k + 1), decide (k + 1 ≤ n) && a.getLsbD (n - (k + 1))) := by
  rw [shiftStep, BitVec.shiftLeft_add, BitVec.msb_shiftLeft, BitVec.getMsbD, Nat.sub_sub, Nat.add_comm 1 k]
  rfl

theorem shiftStep_shr (a : BitVec n) (k : Nat) (c : Bool) :
    shiftStep .shr (a >>> k) c = (a >>> (k + 1), a.getLsbD (k + 1 - 1)) := by
  rw [shiftStep, BitVec.shiftRight_add, BitVec.getLsbD_ushiftRight]
  rfl

theorem shiftStep_sar (a : BitVec n) (k : Nat) (c : Bool) :
    shiftStep .sar (a.sshiftRight k) c = (a.sshiftRight (k + 1), (a.sshiftRight (k + 1 - 1)).getLsbD 0) := by
  rw [shiftStep, BitVec.sshiftRight_add, sshiftRight_one]
  rfl

theorem shiftStep_rol (hn : 0 < n) (a : BitVec n) (k : Nat) (c : Bool) :
    shiftStep .rol (a.rotateLeft k) c = (a.rotateLeft (k + 1), (a.rotateLeft (k + 1)).getLsbD 0) := by
  rw [rotateLeft_succ, getLsbD_zero_shiftLeft_or_lowBit hn, shiftStep]

theorem shiftStep_ror (hn : 0 < n) (a : BitVec n) (k : Nat) (c : Bool) :
    shiftStep .ror (a.rotateRight k) c = (a.rotateRight (k + 1), (a.rotateRight (k + 1)).msb) := by
  rw [rotateRight_succ, msb_shiftRight_or_topBit hn, shiftStep]

/-- Where each step leads from one value to the next, whatever the carry before it, the iterated step is the value and
the carry at its count. -/
theorem iterate_shiftStep {op : ShiftOp} {value : Nat → BitVec n} (carry : Nat → Bool) {a : BitVec n}
    (hstep : ∀ k c, shiftStep op (value k) c = (value (k + 1), carry (k + 1))) (hzero : value 0 = a) (c : Bool)
    {k : Nat} (hk : 1 ≤ k) :
    (fun x : BitVec n × Bool => shiftStep op x.1 x.2)^[k] (a, c) = (value k, carry k) := by
  induction k, hk using Nat.le_induction with
  | base => exact hzero ▸ hstep 0 c
  | succ k _ ih => rw [Function.iterate_succ_apply', ih, hstep]

/-! ## Rotation through the carry -/

/-- The operand and the carry as one value of N + 1 bits, taken apart (R238, R239). -/
def splitCarry (x : BitVec (n + 1)) : BitVec n × Bool := (x.setWidth n, x.msb)

theorem splitCarry_cons (c : Bool) (a : BitVec n) : splitCarry (BitVec.cons c a) = (a, c) := by
  rw [splitCarry, BitVec.setWidth_cons, BitVec.msb_cons]

/-- The step of RCL is that of ROL over N + 1 bits. -/
theorem shiftStep_rcl (hn : 0 < n) (x : BitVec (n + 1)) (k : Nat) :
    shiftStep .rcl (splitCarry (x.rotateLeft k)).1 (splitCarry (x.rotateLeft k)).2 =
      splitCarry (x.rotateLeft (k + 1)) := by
  rw [rotateLeft_succ]
  generalize x.rotateLeft k = y
  have hvalue : (y <<< 1 ||| lowBit (n + 1) y.msb).setWidth n = y.setWidth n <<< 1 ||| lowBit n y.msb := by
    rw [BitVec.setWidth_or, setWidth_lowBit, BitVec.setWidth_shiftLeft_of_le (Nat.le_succ n)]
  have hcarry : (y <<< 1 ||| lowBit (n + 1) y.msb).msb = (y.setWidth n).msb := by
    rw [BitVec.msb, BitVec.getMsbD_or, getMsbD_lowBit]
    simp [BitVec.msb_eq_getLsbD_last (y.setWidth n), BitVec.getMsbD, hn, hn.ne']
  rw [splitCarry, splitCarry, hvalue, hcarry, shiftStep]

/-- The step of RCR is that of ROR over N + 1 bits. -/
theorem shiftStep_rcr (hn : 0 < n) (x : BitVec (n + 1)) (k : Nat) :
    shiftStep .rcr (splitCarry (x.rotateRight k)).1 (splitCarry (x.rotateRight k)).2 =
      splitCarry (x.rotateRight (k + 1)) := by
  rw [rotateRight_succ]
  generalize x.rotateRight k = y
  have hvalue : (y >>> 1 ||| topBit (n + 1) (y.getLsbD 0)).setWidth n = y.setWidth n >>> 1 ||| topBit n y.msb := by
    refine BitVec.eq_of_getLsbD_eq fun i hi => ?_
    simp only [BitVec.getLsbD_setWidth, BitVec.getLsbD_or, BitVec.getLsbD_ushiftRight, getLsbD_topBit,
      Nat.add_comm 1 i]
    obtain h | rfl := Nat.lt_or_eq_of_le (Nat.succ_le_of_lt hi)
    · simp [h, h.ne, hi, hi.ne]
    · simp [BitVec.msb_eq_getLsbD_last]
  have hcarry : (y.setWidth n).getLsbD 0 = y.getLsbD 0 := by simp [hn]
  rw [splitCarry, splitCarry, hvalue, msb_shiftRight_or_topBit n.succ_pos, shiftStep, hcarry]

/-- Where each step turns N + 1 bits one place on, the iterated step turns the operand and the carry by the count. -/
theorem iterate_throughCarry {op : ShiftOp} {rotate : Nat → BitVec (n + 1)} {a : BitVec n} {c : Bool}
    (hstep : ∀ k, shiftStep op (splitCarry (rotate k)).1 (splitCarry (rotate k)).2 = splitCarry (rotate (k + 1)))
    (hzero : rotate 0 = BitVec.cons c a) (k : Nat) :
    (fun x : BitVec n × Bool => shiftStep op x.1 x.2)^[k] (a, c) = splitCarry (rotate k) := by
  induction k with
  | zero => rw [hzero, splitCarry_cons, Function.iterate_zero, id]
  | succ k ih => rw [Function.iterate_succ_apply', ih, hstep]

/-- Settles O47: by the value and the carry after each step. -/
theorem shiftClosedForms : Obligations.ShiftClosedForms := by
  intro w a c k hk
  have hw : 0 < w.bits := by cases w <;> decide
  refine ⟨iterate_shiftStep (fun k => decide (k ≤ w.bits) && a.getLsbD (w.bits - k)) (shiftStep_shl a)
      (BitVec.shiftLeft_zero a) c hk,
    iterate_shiftStep (fun k => a.getLsbD (k - 1)) (shiftStep_shr a) (BitVec.ushiftRight_zero a) c hk,
    iterate_shiftStep (fun k => (a.sshiftRight (k - 1)).getLsbD 0) (shiftStep_sar a) BitVec.sshiftRight_zero c hk,
    iterate_shiftStep (fun k => (a.rotateLeft k).getLsbD 0) (shiftStep_rol hw a) (rotateLeft_zero a) c hk,
    iterate_shiftStep (fun k => (a.rotateRight k).msb) (shiftStep_ror hw a) (rotateRight_zero a) c hk, ?_, ?_⟩
  · rintro x rfl
    exact iterate_throughCarry (shiftStep_rcl hw (BitVec.cons c a)) (rotateLeft_zero _) k
  · rintro x rfl
    exact iterate_throughCarry (shiftStep_rcr hw (BitVec.cons c a)) (rotateRight_zero _) k

end Sys2Proof.Machine
end

section
/-!
PROOFS. One iteration of each string instruction where memory is quiet (43_string.md R260, R262 to R266).
-/

namespace Sys2Proof.Machine

/-- Without the repeat prefix a string instruction ends after one iteration (R261). -/
theorem exec_once {i : Instr} {iter : State → State} {untilNe : Bool} {s : State}
    (hexec : exec i s = stringDone i iter untilNe s) (hrep : s.repeatState = false) :
    exec i s = .next { iter s with cost := cyclesOf i false 1 } := by
  rw [hexec, stringDone, stringRun, hrep]
  rfl

theorem stringDelta_eq (w : Width) (s : State) : stringDelta w s.cpu.flags = elementStep w s := by
  unfold stringDelta elementStep
  cases w <;> cases getFlag s.cpu.flags .df <;> rfl

theorem cpu_movsIter {s : State} (hq : s.QuietMemory) (w : Width) :
    (movsIter w s).cpu =
      { s.cpu with si := s.cpu.si + elementStep w s, di := s.cpu.di + elementStep w s } := by
  simp [movsIter_eq hq, stepDi, stepSi, cpu_writeW, stringDelta_eq]

theorem cpu_stosIter (w : Width) (s : State) :
    (stosIter w s).cpu = { s.cpu with di := s.cpu.di + elementStep w s } := by
  simp [stosIter, stepDi, cpu_writeW, stringDelta_eq]

theorem cpu_lodsIter {s : State} (hq : s.QuietMemory) (w : Width) :
    (lodsIter w s).cpu =
      { putReg s.cpu w 0 (s.peekW w (segFor .ds s) s.cpu.si) with si := s.cpu.si + elementStep w s } := by
  have hsi : ∀ v, (putReg s.cpu w 0#3 v).si = s.cpu.si := fun v => by cases w <;> rfl
  simp [lodsIter_eq hq, stepSi, flags_putReg, hsi, stringDelta_eq]

/-- A step of DI after the flags have been written goes by DF as it was: no comparison writes it (R34, R260). -/
theorem stringDelta_subFlags (w : Width) {n : Nat} (a b : BitVec n) (s : State) :
    stringDelta w (subFlags a b false s.cpu.flags).2 = elementStep w s := by
  have hdf : getFlag (subFlags a b false s.cpu.flags).2 .df = getFlag s.cpu.flags .df :=
    (subFlags_status a b false s.cpu.flags).flagsBut.getFlag (by decide)
  rw [← stringDelta_eq]
  simp only [stringDelta, hdf]

theorem cpu_cmpsIter {s : State} (hq : s.QuietMemory) (w : Width) :
    (cmpsIter w s).cpu =
      { s.cpu with
        si := s.cpu.si + elementStep w s, di := s.cpu.di + elementStep w s
        flags := (subFlags (s.peekW w (segFor .ds s) s.cpu.si) (s.peekW w s.cpu.es s.cpu.di) false
          s.cpu.flags).2 } := by
  simp [cmpsIter_eq hq, stepDi, stepSi, stringDelta_subFlags]

theorem cpu_scasIter {s : State} (hq : s.QuietMemory) (w : Width) :
    (scasIter w s).cpu =
      { s.cpu with
        di := s.cpu.di + elementStep w s
        flags := (subFlags (getReg s.cpu w 0) (s.peekW w s.cpu.es s.cpu.di) false s.cpu.flags).2 } := by
  simp [scasIter_eq hq, stepDi, stringDelta_subFlags]

/-- The flags of a comparison (R34, R185). -/
theorem subFlags_compareStatus (w : Width) (a b : BitVec w.bits) (fl : Word) :
    StatusFlags (decide (a.toNat < b.toNat)) (outOfRange w.bits (a.toInt - b.toInt)) (a - b) fl
      (subFlags a b false fl).2 := by
  simpa [fst_subFlags] using subFlags_signedStatus w a b false fl

/-- Settles O48: each iteration reads at most, writes at ES:DI at most, and then steps its index registers. -/
theorem stringOnce : Obligations.StringOnce := by
  intro w s hq hrep
  refine ⟨?movs, ?cmps, ?stos, ?lods, ?scas⟩
  case movs =>
    refine ⟨_, exec_once (iter := movsIter w) (untilNe := false) (by cases w <;> rfl) hrep,
      (rest_movsIter hq w).withCost _, cpu_movsIter hq w, ?_⟩
    rw [movsIter_eq hq]
    exact ⟨fun hs => peekW_writeW w _ _ _ ((noteReads_rest s _).stores hs),
      sameMemoryBut_writeW w _ _ _ (s.noteReads _)⟩
  case cmps =>
    refine ⟨_, _, exec_once (iter := cmpsIter w) (untilNe := true) (by cases w <;> rfl) hrep,
      (rest_cmpsIter hq w).withCost _, ⟨cpu_cmpsIter hq w, ?_⟩, subFlags_compareStatus w _ _ _⟩
    rw [cmpsIter_eq hq]
    exact fun _ => rfl
  case stos =>
    exact ⟨_, exec_once (iter := stosIter w) (untilNe := false) (by cases w <;> rfl) hrep,
      (rest_stosIter hq w).withCost _, cpu_stosIter w s, peekW_writeW w _ _ _, sameMemoryBut_writeW w _ _ _ s⟩
  case lods =>
    refine ⟨_, exec_once (iter := lodsIter w) (untilNe := false) (by cases w <;> rfl) hrep,
      (rest_lodsIter hq w).withCost _, cpu_lodsIter hq w, ?_⟩
    rw [lodsIter_eq hq]
    exact fun _ => rfl
  case scas =>
    refine ⟨_, _, exec_once (iter := scasIter w) (untilNe := true) (by cases w <;> rfl) hrep,
      (rest_scasIter hq w).withCost _, ⟨cpu_scasIter hq w, ?_⟩, subFlags_compareStatus w _ _ _⟩
    rw [scasIter_eq hq]
    exact fun _ => rfl

end Sys2Proof.Machine
end

section
/-!
PROOFS. The repeat loop, whatever the host does, and the fill of REP STOSB (43_string.md R261, R264).
-/

namespace Sys2Proof.Machine

/-! ## What no iteration depends on -/

/-- The state under another repeat-prefix state and cost, neither of which an iteration reads or writes. -/
def State.withModes (s : State) (rep : Bool) (c : Cost) : State := { s with repeatState := rep, cost := c }

@[simp] theorem State.withModes_cpu (s : State) (rep : Bool) (c : Cost) : (s.withModes rep c).cpu = s.cpu := rfl
@[simp] theorem segFor_withModes (d : Sreg) (s : State) (rep : Bool) (c : Cost) :
    segFor d (s.withModes rep c) = segFor d s := rfl
@[simp] theorem State.withModes_withCpu (s : State) (rep : Bool) (c : Cost) (k : Cpu) :
    (s.withModes rep c).withCpu k = (s.withCpu k).withModes rep c := rfl
@[simp] theorem State.withModes_withFlags (s : State) (rep : Bool) (c : Cost) (fl : Word) :
    (s.withModes rep c).withFlags fl = (s.withFlags fl).withModes rep c := rfl
@[simp] theorem State.withModes_withReg (s : State) (rep : Bool) (c : Cost) (w : Width) (i : RegIx)
    (v : BitVec w.bits) : (s.withModes rep c).withReg w i v = (s.withReg w i v).withModes rep c := rfl
@[simp] theorem State.withModes_withCx (s : State) (rep : Bool) (c : Cost) (v : Word) :
    (s.withModes rep c).withCx v = (s.withCx v).withModes rep c := rfl

theorem readByte_withModes (a : Addr) (s : State) (rep : Bool) (c : Cost) :
    readByte a (s.withModes rep c) = ((readByte a s).1, (readByte a s).2.withModes rep c) := by
  have hkind : (s.withModes rep c).kindAt a = s.kindAt a := rfl
  have hattached : (s.withModes rep c).bus.attached = s.bus.attached := rfl
  unfold readByte
  rw [hkind, hattached]
  split
  · split <;> rfl
  · rfl

theorem writeByte_withModes (a : Addr) (v : Byte) (s : State) (rep : Bool) (c : Cost) :
    writeByte a v (s.withModes rep c) = (writeByte a v s).withModes rep c := by
  have hkind : (s.withModes rep c).kindAt a = s.kindAt a := rfl
  have hattached : (s.withModes rep c).bus.attached = s.bus.attached := rfl
  unfold writeByte
  rw [hkind, hattached]
  split
  · split <;> rfl
  · rfl

theorem readW_withModes (w : Width) (g o : Word) (s : State) (rep : Bool) (c : Cost) :
    readW w g o (s.withModes rep c) = ((readW w g o s).1, (readW w g o s).2.withModes rep c) := by
  cases w <;> simp [readW, read16, read8, readByte_withModes]

theorem writeW_withModes (w : Width) (g o : Word) (v : BitVec w.bits) (s : State) (rep : Bool) (c : Cost) :
    writeW w g o v (s.withModes rep c) = (writeW w g o v s).withModes rep c := by
  cases w <;> simp [writeW, write16, write8, writeByte_withModes]

/-- What the iterations of the five string instructions have in common, whatever the host does. -/
structure IsStringIter (iter : State → State) : Prop where
  runs : ∀ s, Runs s (iter s)
  rest : ∀ s : State, s.QuietMemory → SameRest s (iter s)
  cx : ∀ s, (iter s).cpu.cx = s.cpu.cx
  withModes : ∀ s rep c, iter (s.withModes rep c) = (iter s).withModes rep c

theorem isStringIter_movsIter (w : Width) : IsStringIter (movsIter w) where
  runs := runs_movsIter w
  rest _ hq := rest_movsIter hq w
  cx s := by simp [movsIter, stepDi, stepSi, cpu_writeW, (touches_readW w _ _ s).cpu]
  withModes s rep c := by simp [movsIter, stepDi, stepSi, readW_withModes, writeW_withModes]

theorem isStringIter_cmpsIter (w : Width) : IsStringIter (cmpsIter w) where
  runs := runs_cmpsIter w
  rest _ hq := rest_cmpsIter hq w
  cx s := by simp [cmpsIter, stepDi, stepSi, (touches_readW w _ _ _).cpu]
  withModes s rep c := by simp [cmpsIter, stepDi, stepSi, readW_withModes]

theorem isStringIter_stosIter (w : Width) : IsStringIter (stosIter w) where
  runs := runs_stosIter w
  rest _ hq := rest_stosIter hq w
  cx s := by rw [cpu_stosIter]
  withModes s rep c := by simp [stosIter, stepDi, writeW_withModes]

theorem isStringIter_lodsIter (w : Width) : IsStringIter (lodsIter w) where
  runs := runs_lodsIter w
  rest _ hq := rest_lodsIter hq w
  cx s := by
    have hcx : ∀ c v, (putReg c w 0#3 v).cx = c.cx := fun c v => by cases w <;> rfl
    simp [lodsIter, stepSi, hcx, (touches_readW w _ _ s).cpu]
  withModes s rep c := by simp [lodsIter, stepSi, readW_withModes]

theorem isStringIter_scasIter (w : Width) : IsStringIter (scasIter w) where
  runs := runs_scasIter w
  rest _ hq := rest_scasIter hq w
  cx s := by simp [scasIter, stepDi, (touches_readW w _ _ s).cpu]
  withModes s rep c := by simp [scasIter, stepDi, readW_withModes]

/-- A string instruction is one iteration or the repeat loop of it, which tests ZF for CMPS and SCAS (R261). -/
theorem exec_stringInstr {w : Width} {i : Instr} (hi : i ∈ stringInstrs w) :
    ∃ iter, IsStringIter iter ∧ ∀ s, exec i s = stringDone i iter (testsZf i) s := by
  cases w <;> simp only [stringInstrs, List.mem_cons, List.not_mem_nil, or_false] at hi <;>
    obtain rfl | rfl | rfl | rfl | rfl := hi
  · exact ⟨_, isStringIter_movsIter .byte, fun _ => rfl⟩
  · exact ⟨_, isStringIter_cmpsIter .byte, fun _ => rfl⟩
  · exact ⟨_, isStringIter_stosIter .byte, fun _ => rfl⟩
  · exact ⟨_, isStringIter_lodsIter .byte, fun _ => rfl⟩
  · exact ⟨_, isStringIter_scasIter .byte, fun _ => rfl⟩
  · exact ⟨_, isStringIter_movsIter .word, fun _ => rfl⟩
  · exact ⟨_, isStringIter_cmpsIter .word, fun _ => rfl⟩
  · exact ⟨_, isStringIter_stosIter .word, fun _ => rfl⟩
  · exact ⟨_, isStringIter_lodsIter .word, fun _ => rfl⟩
  · exact ⟨_, isStringIter_scasIter .word, fun _ => rfl⟩

/-! ## The repeat loop -/

/-- One turn of the repeat loop: an iteration, after which 1 is taken from CX (R261). -/
def repeatTurn (iter : State → State) (s : State) : State := (iter s).withCx ((iter s).cpu.cx - 1)

/-- Whether the repeat loop ends at a turn that leaves the flags word `fl` (R261). -/
def loopEnds (untilNe : Bool) (fl : Word) : Bool := untilNe && !getFlag fl .zf

theorem repeatLoop_succ (iter : State → State) (untilNe : Bool) (n : Nat) (s : State) :
    (repeatLoop iter untilNe (n + 1) s).1 =
      if loopEnds untilNe (repeatTurn iter s).cpu.flags then repeatTurn iter s
      else (repeatLoop iter untilNe n (repeatTurn iter s)).1 := by
  rw [repeatLoop, loopEnds, repeatTurn]
  split <;> rfl

theorem repeatTurn_withModes {iter : State → State} (h : IsStringIter iter) (s : State) (rep : Bool) (c : Cost) :
    repeatTurn iter (s.withModes rep c) = (repeatTurn iter s).withModes rep c := by
  simp [repeatTurn, h.withModes]

theorem repeatLoop_withModes {iter : State → State} (h : IsStringIter iter) (untilNe : Bool) (n : Nat) (s : State)
    (rep : Bool) (c : Cost) :
    (repeatLoop iter untilNe n (s.withModes rep c)).1 = (repeatLoop iter untilNe n s).1.withModes rep c := by
  induction n generalizing s with
  | zero => rfl
  | succ n ih =>
    simp only [repeatLoop_succ, repeatTurn_withModes h, State.withModes_cpu, ih]
    split <;> rfl

/-- Under the repeat prefix a string instruction is its loop over CX turns (R261). -/
theorem exec_repeated {i : Instr} {iter : State → State} {untilNe : Bool} {s : State}
    (hexec : exec i s = stringDone i iter untilNe s) (hrep : s.repeatState = true) :
    ∃ c, exec i s = .next { (repeatLoop iter untilNe s.cpu.cx.toNat s).1 with cost := c } := by
  rw [hexec, stringDone, stringRun, hrep]
  exact ⟨_, rfl⟩

theorem toNat_sub_one_of_eq_succ {x : Word} {n : Nat} (h : x.toNat = n + 1) : (x - 1).toNat = n := by
  have hone : (1 : Word).toNat = 1 := rfl
  have hlt := x.isLt
  rw [BitVec.toNat_sub]
  omega

theorem cx_repeatTurn {iter : State → State} (h : IsStringIter iter) (s : State) :
    (repeatTurn iter s).cpu.cx = s.cpu.cx - 1 :=
  congrArg (· - 1) (h.cx s)

/-- The first iteration, made without the prefix, leaves the state of the first turn but for CX, the cost and
whether the repeat prefix is set. -/
theorem exec_firstTurn {i : Instr} {iter : State → State} {untilNe : Bool} (h : IsStringIter iter)
    (hexec : ∀ s, exec i s = stringDone i iter untilNe s) (s : State) :
    ∃ u c, exec i { s with repeatState := false } = .next u ∧ u.cpu.flags = (repeatTurn iter s).cpu.flags ∧
      { u with repeatState := true, cpu := { u.cpu with cx := s.cpu.cx - 1 } } =
        (repeatTurn iter s).withModes true c := by
  have hiter : iter { s with repeatState := false } = (iter s).withModes false s.cost := h.withModes s false s.cost
  refine ⟨_, cyclesOf i false 1, exec_once (hexec _) rfl, ?_, ?_⟩
  · rw [hiter]
    rfl
  · rw [hiter, repeatTurn, h.cx]
    rfl

/-- Settles O49: neither the repeat-prefix state nor the cost matters to a turn of the loop, so the turns after the
first are the instruction's own loop at the state the first leaves. -/
theorem stringRepeat : Obligations.StringRepeat := by
  intro w i s hi hrep
  obtain ⟨iter, hiter, hexec⟩ := exec_stringInstr hi
  obtain ⟨c, hloop⟩ := exec_repeated (hexec s) hrep
  refine ⟨fun hcx => ?_, fun hcx => ?_⟩
  · rw [hcx] at hloop
    exact ⟨_, hloop, (SameRest.refl s).withCost c, ⟨rfl, fun _ => rfl⟩, rfl⟩
  · obtain ⟨n, hn⟩ := Nat.exists_eq_succ_of_ne_zero (mt (BitVec.eq_of_toNat_eq (y := 0)) hcx)
    obtain ⟨u, k, hfirst, hflags, hv⟩ := exec_firstTurn hiter hexec s
    refine ⟨u, _, _, hfirst, rfl, hloop, ((runs_repeatLoop hiter.runs _ _ s).withCost c).core,
      fun hq => (rest_repeatLoop hiter.rest _ _ hq).withCost c, ?_⟩
    rw [hv, hflags, hn, repeatLoop_succ]
    refine ⟨fun hends => ?_, fun hgoes => ?_⟩
    · rw [if_pos (by simpa [loopEnds] using hends)]
      exact ⟨rfl, rfl, rfl⟩
    · obtain ⟨c', hrest⟩ := exec_repeated (hexec ((repeatTurn iter s).withModes true k)) rfl
      rw [State.withModes_cpu, cx_repeatTurn hiter, toNat_sub_one_of_eq_succ hn, repeatLoop_withModes hiter] at hrest
      rw [if_neg (by simpa [loopEnds] using hgoes)]
      exact ⟨_, hrest, rfl, rfl, rfl⟩

/-! ## REP STOSB -/

/-- From `s` to `t` the listed bytes of memory have taken the value `v`, and no other byte has changed. -/
def Fills (v : Byte) (l : List Addr) (s t : State) : Prop := ∀ a, t.peek a = if a ∈ l then v else s.peek a

theorem Fills.cons {v : Byte} {a : Addr} {l : List Addr} {s t u : State} (h : Fills v [a] s t) (k : Fills v l t u) :
    Fills v (a :: l) s u := by
  intro b
  rw [k b, h b]
  by_cases hb : b ∈ l <;> simp [hb]

/-- A turn of STOSB with DF clear stores AL at ES:DI, in plain memory, and moves to the next byte (R264). -/
theorem fills_stosbTurn {s : State} (hs : s.Stores [phys s.cpu.es s.cpu.di]) :
    Fills (getReg8 s.cpu .al) [phys s.cpu.es s.cpu.di] s (repeatTurn (stosIter .byte) s) := by
  intro a
  have hplain : s.bus.attached = true ∧ s.kindAt (phys s.cpu.es s.cpu.di) = none :=
    ⟨hs.1, hs.2 _ List.mem_cons_self⟩
  have hpeek : (repeatTurn (stosIter .byte) s).peek a = _ :=
    peek_writeByte (phys s.cpu.es s.cpu.di) (getReg8 s.cpu .al) s a
  simpa only [hplain, and_self, true_and, List.mem_singleton] using hpeek

theorem cpu_stosbTurn {s : State} (hdf : getFlag s.cpu.flags .df = false) :
    (repeatTurn (stosIter .byte) s).cpu = { s.cpu with di := s.cpu.di + 1, cx := s.cpu.cx - 1 } := by
  have hstep : elementStep .byte s = 1 := by simp only [elementStep, hdf]
  simp [repeatTurn, cpu_stosIter, hstep]

/-- The loop of STOSB with DF clear stores AL at CX bytes from ES:DI (R261, R264). -/
theorem repeatLoop_stosb (n : Nat) {s : State} (hn : s.cpu.cx.toNat = n) (hdf : getFlag s.cpu.flags .df = false)
    (hs : s.Stores (codeAddrs s.cpu.es s.cpu.di n)) :
    (repeatLoop (stosIter .byte) false n s).1.cpu = { s.cpu with cx := 0, di := s.cpu.di + s.cpu.cx } ∧
      Fills (getReg8 s.cpu .al) (codeAddrs s.cpu.es s.cpu.di n) s (repeatLoop (stosIter .byte) false n s).1 := by
  induction n generalizing s with
  | zero =>
    have hcx : s.cpu.cx = 0 := BitVec.eq_of_toNat_eq hn
    refine ⟨?_, fun a => rfl⟩
    rw [hcx, add_zero, ← hcx]
    rfl
  | succ n ih =>
    rw [codeAddrs_succ] at hs ⊢
    have hcpu := cpu_stosbTurn hdf
    have hturn := fills_stosbTurn (hs.mono (by simp))
    have hruns : Runs s (repeatTurn (stosIter .byte) s) := (runs_stosIter .byte s).withCx _
    rw [repeatLoop_succ, if_neg (by simp [loopEnds])]
    generalize repeatTurn (stosIter .byte) s = u at hcpu hturn hruns
    have hrest := @ih u
    rw [hcpu] at hrest
    obtain ⟨hc, hf⟩ := hrest (toNat_sub_one_of_eq_succ hn) hdf (hruns.stores (hs.mono (by simp +contextual)))
    refine ⟨?_, hturn.cons hf⟩
    rw [hc]
    simp [add_assoc]

/-- Settles O50: by induction on the number of turns left, the first storing the first of the bytes left. -/
theorem repStosbFills : Obligations.RepStosbFills := by
  rintro s l hrep hq hdf rfl hs
  obtain ⟨c, hexec⟩ := exec_repeated (i := .stosb) (iter := stosIter .byte) (untilNe := false) rfl hrep
  obtain ⟨hcpu, hfills⟩ := repeatLoop_stosb _ rfl hdf hs
  refine ⟨_, hexec, (rest_repeatLoop (fun _ hq => rest_stosIter hq .byte) _ _ hq).withCost c, hcpu,
    fun a ha => (hfills a).trans (if_pos ha), fun a ha => (hfills a).trans (if_neg ha)⟩

end Sys2Proof.Machine
end

section
/-!
PROOFS. Control transfer: the jumps, calls, returns and loops, and IRET after the real path of an interrupt
(44_control_transfer.md R280 to R314, R318; 60_exceptions.md R363, R367).
-/

namespace Sys2Proof.Machine

/-! ## JMP -/

/-- Settles O51: each ends with IP, or CS and IP, written, after reads that make bus calls alone. -/
theorem jmpForms : Obligations.JmpForms := by
  intro d e off seg m g o s hq
  have hrefl := SameRest.refl s
  refine ⟨done_onlyCpu _ (hrefl.withIp (relTarget8 d s)) rfl rfl _ _,
    done_onlyCpu _ (hrefl.withIp (relTarget16 e s)) rfl rfl _ _,
    done_onlyCpu _ (hrefl.withCsIp seg off) rfl rfl _ _, ?_, fun hm => ?_⟩
  · simp only [exec, execJmpRm, readOperand_eq hq]
    exact done_onlyCpu _ ((noteReads_rest s _).withIp _) rfl rfl _ _
  · obtain ⟨hmem, rfl, rfl⟩ := resolve_mem hm
    simp only [exec, execJmpFarRm, if_pos hmem, readFar_eq hq]
    exact done_onlyCpu _ ((noteReads_rest s _).withCsIp _ _) rfl rfl _ _

/-! ## Conditional jumps and loops -/

/-- A conditional jump completes with IP alone written, and only where its condition holds (R290). -/
theorem jumpIf_onlyCpu (i : Instr) (cond : Bool) (d : Byte) {s u : State} (hr : SameRest s u) (hb : u.bus = s.bus) :
    ∃ t, jumpIf i cond d u = .next t ∧ SameRest s t ∧
      OnlyCpu { u.cpu with ip := if cond then u.cpu.ip + sext16 d else u.cpu.ip } s t := by
  cases cond with
  | true => exact done_onlyCpu i (hr.withIp (relTarget8 d u)) hb rfl true 0
  | false => exact done_onlyCpu i hr hb rfl false 0

/-- What is jumped on may be written in any form equal to the condition of the instruction. -/
theorem jumps_of_exec {i : Instr} {cond cond' : Bool} {d : Byte} {s : State} (hexec : exec i s = jumpIf i cond d s)
    (hcond : cond = cond') : Jumps i cond' d s := by
  subst hcond
  unfold Jumps
  rw [hexec]
  exact jumpIf_onlyCpu i cond d (SameRest.refl s) rfl

theorem condJa_eq (fl : Word) : condJa fl = (!getFlag fl .cf && !getFlag fl .zf) := Bool.and_comm _ _

theorem condJge_eq (fl : Word) : condJge fl = (getFlag fl .sf == getFlag fl .of) := Bool.not_not _

theorem condJle_eq (fl : Word) : condJle fl = (getFlag fl .zf || getFlag fl .sf != getFlag fl .of) := Bool.or_comm _ _

theorem condJg_eq (fl : Word) : condJg fl = (!getFlag fl .zf && getFlag fl .sf == getFlag fl .of) := by
  show (!condJle fl) = _
  rw [condJle_eq, Bool.not_or, bne, Bool.not_not]

/-- Settles O53: each is the one shape of a conditional jump, and its condition is that of its rule. -/
theorem conditionalJumps : Obligations.ConditionalJumps := by
  rintro d s cf pf zf sf ov rfl rfl rfl rfl rfl
  have hja := condJa_eq s.cpu.flags
  have hjge := condJge_eq s.cpu.flags
  have hjle := condJle_eq s.cpu.flags
  have hjg := condJg_eq s.cpu.flags
  exact ⟨jumps_of_exec rfl rfl, jumps_of_exec rfl rfl, jumps_of_exec rfl rfl, jumps_of_exec rfl rfl,
    jumps_of_exec rfl rfl, jumps_of_exec rfl rfl, jumps_of_exec rfl rfl, jumps_of_exec rfl hja,
    jumps_of_exec rfl rfl, jumps_of_exec rfl rfl, jumps_of_exec rfl rfl, jumps_of_exec rfl rfl,
    jumps_of_exec rfl rfl, jumps_of_exec rfl hjge, jumps_of_exec rfl hjle, jumps_of_exec rfl hjg⟩

/-- A loop instruction takes 1 from CX and then jumps on its condition (R311 to R313). -/
theorem loopIf_onlyCpu (i : Instr) (cond : Bool) (d : Byte) (s : State) :
    ∃ t, loopIf i cond d s = .next t ∧ SameRest s t ∧
      OnlyCpu { s.cpu with
                cx := s.cpu.cx - 1
                ip := if s.cpu.cx - 1 ≠ 0 ∧ cond = true then s.cpu.ip + sext16 d else s.cpu.ip } s t := by
  have h := jumpIf_onlyCpu i (decide (s.cpu.cx - 1 ≠ 0) && cond) d ((SameRest.refl s).withCx (s.cpu.cx - 1)) rfl
  simp only [Bool.and_eq_true, decide_eq_true_eq] at h
  exact h

/-- Settles O55: LOOP, LOOPZ and LOOPNZ are one loop with three conditions, and JCXZ is a conditional jump. -/
theorem loops : Obligations.Loops := by
  rintro d s zf rfl
  refine ⟨?_, jumps_of_exec rfl rfl⟩
  rintro i cond (⟨rfl, rfl⟩ | ⟨rfl, rfl⟩ | ⟨rfl, rfl⟩)
  · exact loopIf_onlyCpu (.loop d) _ d s
  · exact loopIf_onlyCpu (.loopz d) _ d s
  · exact loopIf_onlyCpu (.loopnz d) _ d s

/-! ## Words on the stack -/

/-- Within a segment different offsets are different physical addresses (R62). -/
theorem phys_inj {g o o' : Word} : phys g o = phys g o' ↔ o = o' := by
  refine ⟨fun h => BitVec.eq_of_toNat_eq ?_, congrArg _⟩
  have hnat := congrArg BitVec.toNat h
  rw [toNat_phys, toNat_phys] at hnat
  have := o.isLt
  have := o'.isLt
  omega

/-- A word of which neither byte is listed reads as it did. -/
theorem SameMemoryBut.peek16 {l : List Addr} {s t : State} (h : SameMemoryBut l s t) {g o : Word}
    (hlow : phys g o ∉ l) (hhigh : phys g (o + 1) ∉ l) : t.peek16 g o = s.peek16 g o :=
  congrArg₂ wordOf (h _ hlow) (h _ hhigh)

theorem phys_not_mem_bytesAt {g o o' : Word} (h : o ≠ o') (h' : o ≠ o' + 1) : phys g o ∉ bytesAt .word g o' := by
  simp only [bytesAt, List.mem_cons, List.not_mem_nil, or_false, phys_inj, not_or]
  exact ⟨h, h'⟩

theorem sub_two_sub_two (x : Word) : x - 2 - 2 = x - 4 := sub_sub x 2 2

theorem sub_two_sub_four (x : Word) : x - 2 - 4 = x - 6 := sub_sub x 2 4

/-- From `s` to `t` two words have been pushed, `x` and then `y`: each reads back at its slot where memory is plain
(log entry 1), and no byte outside the two slots has changed (R71). -/
def PushedPair (x y : Word) (s t : State) : Prop :=
  (s.Stores (bytesAt .word s.cpu.ss (s.cpu.sp - 2) ++ bytesAt .word s.cpu.ss (s.cpu.sp - 4)) →
    t.peek16 s.cpu.ss (s.cpu.sp - 2) = x ∧ t.peek16 s.cpu.ss (s.cpu.sp - 4) = y) ∧
  SameMemoryBut (bytesAt .word s.cpu.ss (s.cpu.sp - 2) ++ bytesAt .word s.cpu.ss (s.cpu.sp - 4)) s t

/-- The second push leaves the word that the first has written, also where SP wraps. -/
theorem pushedPair_push16 (x y : Word) (s : State) : PushedPair x y s (push16 y (push16 x s)) := by
  obtain ⟨hcpu, hword, hframe⟩ := pushed_push16 x s
  obtain ⟨-, hword', hframe'⟩ := pushed_push16 y (push16 x s)
  simp only [hcpu, sub_two_sub_two] at hword' hframe'
  refine ⟨fun hs => ⟨?_, hword' ((runs_push16 x s).stores (hs.mono (by simp +contextual)))⟩, fun a ha => ?_⟩
  · rw [hframe'.peek16 (phys_not_mem_bytesAt (by bv_omega) (by bv_omega))
      (phys_not_mem_bytesAt (by bv_omega) (by bv_omega))]
    exact hword (hs.mono (by simp +contextual))
  · rw [List.mem_append, not_or] at ha
    exact (hframe' a ha.2).trans (hframe a ha.1)

/-! ## CALL -/

/-- A near call ends with IP pushed and its target loaded (R286, R288). -/
theorem done_nearCall (i : Instr) (x : Word) {s u : State} (hq : s.QuietMemory) (hr : SameRest s u)
    (hb : u.bus = s.bus) (hc : u.cpu = s.cpu) :
    ∃ t, done i ((push16 s.cpu.ip u).withIp x) = .next t ∧ SameRest s t ∧
      Pushed s.cpu.ip { s.cpu with sp := s.cpu.sp - 2, ip := x } s t := by
  obtain ⟨t, hdone, hrest, hcpu, hword, hframe⟩ := done_push16 i s.cpu.ip hq hr hb hc false 0
  cases hdone
  exact ⟨_, rfl, hrest.withIp x, congrArg (fun c : Cpu => { c with ip := x }) hcpu, hword, hframe⟩

/-- A far call pushes CS and then IP, and loads both (R287, R289). -/
theorem farCall_eq (x y : Word) (s : State) :
    farCall x y s = (push16 s.cpu.ip (push16 s.cpu.cs s)).withCsIp y x := by
  simp only [farCall, cpu_push16]

theorem done_farCall (i : Instr) (x y : Word) {s u : State} (hq : s.QuietMemory) (hr : SameRest s u)
    (hb : u.bus = s.bus) (hc : u.cpu = s.cpu) :
    ∃ t, done i (farCall x y u) = .next t ∧ SameRest s t ∧
      t.cpu = { s.cpu with sp := s.cpu.sp - 4, cs := y, ip := x } ∧ PushedPair s.cpu.cs s.cpu.ip s t := by
  obtain ⟨hwords, hframe⟩ := pushedPair_push16 s.cpu.cs s.cpu.ip u
  rw [hc] at hwords hframe
  rw [farCall_eq, hc]
  refine ⟨_, rfl, (((hr.push16 hq _).push16 hq _).withCsIp y x).withCost _, ?_, fun hs => hwords (hr.stores hs),
    fun a ha => (hframe a ha).trans (State.peek_congr hb a)⟩
  show { (push16 _ _).cpu with cs := y, ip := x } = _
  rw [cpu_push16, cpu_push16, hc, sub_two_sub_two]

/-- Settles O52: the near forms push one word and the far forms two, after the target has been read. -/
theorem callForms : Obligations.CallForms := by
  intro e off seg m g o s hq
  have hrefl := SameRest.refl s
  refine ⟨done_nearCall _ _ hq hrefl rfl rfl, ?_, ?_⟩
  · simp only [exec, execCallRm, readOperand_eq hq]
    exact done_nearCall _ _ hq (noteReads_rest s _) rfl rfl
  · rintro i x y (⟨rfl, rfl, rfl⟩ | ⟨rfl, hm, rfl, rfl⟩)
    · exact done_farCall _ _ _ hq hrefl rfl rfl
    · obtain ⟨hmem, rfl, rfl⟩ := resolve_mem hm
      simp only [exec, execCallFarRm, if_pos hmem, readFar_eq hq]
      exact done_farCall _ _ _ hq (noteReads_rest s _) rfl rfl

/-! ## Returns -/

theorem add_two_add_two (x : Word) : x + 2 + 2 = x + 4 := add_assoc x 2 2

/-- A near return writes IP and SP alone (R307). -/
theorem nearReturn_spec {s : State} (hq : s.QuietMemory) :
    SameRest s (nearReturn s) ∧ (nearReturn s).bus = s.bus ∧
      (nearReturn s).cpu = { s.cpu with ip := s.peek16 s.cpu.ss s.cpu.sp, sp := s.cpu.sp + 2 } := by
  rw [nearReturn_eq hq]
  exact ⟨((noteReads_rest s _).withSp _).withIp _, rfl, rfl⟩

/-- A far return writes IP, CS and SP alone (R309). -/
theorem farReturn_spec {s : State} (hq : s.QuietMemory) :
    SameRest s (farReturn s) ∧ (farReturn s).bus = s.bus ∧
      (farReturn s).cpu = { s.cpu with ip := s.peek16 s.cpu.ss s.cpu.sp
                                       cs := s.peek16 s.cpu.ss (s.cpu.sp + 2), sp := s.cpu.sp + 4 } := by
  rw [farReturn_eq hq, add_two_add_two]
  exact ⟨((noteReads_rest s _).withSp _).withCsIp _ _, rfl, rfl⟩

/-- The return from an interrupt writes IP, CS, FLAGS, through the masks, and SP alone (R29, R318). -/
theorem interruptReturn_spec {s : State} (hq : s.QuietMemory) :
    SameRest s (interruptReturn s) ∧ (interruptReturn s).bus = s.bus ∧
      (interruptReturn s).cpu = { s.cpu with ip := s.peek16 s.cpu.ss s.cpu.sp
                                             cs := s.peek16 s.cpu.ss (s.cpu.sp + 2)
                                             flags := wordToFlags s.params (s.peek16 s.cpu.ss (s.cpu.sp + 4))
                                             sp := s.cpu.sp + 6 } := by
  have hsp : s.cpu.sp + 4 + 2 = s.cpu.sp + 6 := add_assoc _ 4 2
  rw [interruptReturn_eq hq, add_two_add_two, hsp]
  exact ⟨(((noteReads_rest s _).withSp _).withCsIp _ _).withFlags _, rfl, rfl⟩

/-- A return that releases `n` bytes ends with SP that much higher (R308, R310). -/
theorem done_release (i : Instr) (n : Word) {c : Cpu} {s u : State} (hr : SameRest s u) (hb : u.bus = s.bus)
    (hc : u.cpu = c) :
    ∃ t, done i (release n u) = .next t ∧ SameRest s t ∧ OnlyCpu { c with sp := c.sp + n } s t := by
  subst hc
  exact done_onlyCpu i (hr.withSp (u.cpu.sp + n)) hb rfl false 0

/-- Settles O54: each pops its words, and the releasing forms then move SP further. -/
theorem returns : Obligations.Returns := by
  intro n s hq
  obtain ⟨hrest, hbus, hcpu⟩ := nearReturn_spec hq
  obtain ⟨hrestFar, hbusFar, hcpuFar⟩ := farReturn_spec hq
  obtain ⟨hrestInt, hbusInt, hcpuInt⟩ := interruptReturn_spec hq
  exact ⟨done_onlyCpu _ hrest hbus hcpu _ _, done_release _ n hrest hbus hcpu,
    done_onlyCpu _ hrestFar hbusFar hcpuFar _ _, done_release _ n hrestFar hbusFar hcpuFar,
    done_onlyCpu _ hrestInt hbusInt hcpuInt _ _⟩

/-! ## IRET after the real path -/

/-- The three words that the real path pushes read back from a plain stack (R363; log entry 1). -/
theorem realPushes_words {s : State}
    (hs : s.Stores (bytesAt .word s.cpu.ss (s.cpu.sp - 2) ++ bytesAt .word s.cpu.ss (s.cpu.sp - 4) ++
      bytesAt .word s.cpu.ss (s.cpu.sp - 6))) :
    (realPushes s).peek16 s.cpu.ss (s.cpu.sp - 2) = s.cpu.flags ∧
      (realPushes s).peek16 s.cpu.ss (s.cpu.sp - 4) = s.cpu.cs ∧
      (realPushes s).peek16 s.cpu.ss (s.cpu.sp - 6) = s.cpu.ip := by
  obtain ⟨-, hflags, -⟩ := pushed_push16 s.cpu.flags s
  obtain ⟨hwords, hframe⟩ := pushedPair_push16 s.cpu.cs s.cpu.ip
    ((push16 s.cpu.flags s).withFlags (clearIfTf s.params s.cpu.flags))
  simp only [State.withFlags_cpu, cpu_push16, sub_two_sub_two, sub_two_sub_four] at hwords hframe
  have hkept : (realPushes s).peek16 s.cpu.ss (s.cpu.sp - 2) =
      (push16 s.cpu.flags s).peek16 s.cpu.ss (s.cpu.sp - 2) := by
    refine hframe.peek16 ?_ ?_ <;> rw [List.mem_append, not_or]
    all_goals exact ⟨phys_not_mem_bytesAt (by bv_omega) (by bv_omega),
      phys_not_mem_bytesAt (by bv_omega) (by bv_omega)⟩
  exact ⟨hkept.trans (hflags (hs.mono (by simp +contextual))),
    hwords (((runs_push16 _ s).withFlags _).stores (hs.mono (by simp +contextual)))⟩

/-- The registers at the handler's entry, where memory is quiet (R363). -/
theorem cpu_realPath {s : State} (hq : s.QuietMemory) (v : Byte) :
    (realPath v s).cpu =
      { s.cpu with sp := s.cpu.sp - 6
                   flags := clearIfTf s.params s.cpu.flags
                   ip := (realPushes s).peek16 0 (vectorOffset v)
                   cs := (realPushes s).peek16 0 (vectorOffset v + 2) } := by
  rw [realPath_eq hq, State.withCsIp_cpu, State.noteReads_cpu, realPushes_cpu, sub_two_sub_two, sub_two_sub_four]

/-- The reads of the table entry change no byte of memory. -/
theorem peek16_realPath {s : State} (hq : s.QuietMemory) (v : Byte) (g o : Word) :
    (realPath v s).peek16 g o = (realPushes s).peek16 g o := by
  rw [realPath_eq hq]
  rfl

/-- The handler's entry after INT on a plain stack: SP is 6 lower, and the three words stand above it (R315, R363). -/
theorem exec_int_real {v : Byte} {s : State} (hq : s.QuietMemory) (hv : s.NotOverridden v)
    (hs : s.Stores (bytesAt .word s.cpu.ss (s.cpu.sp - 2) ++ bytesAt .word s.cpu.ss (s.cpu.sp - 4) ++
      bytesAt .word s.cpu.ss (s.cpu.sp - 6))) :
    ∃ t, exec (.int v) s = .next t ∧ SameRest s t ∧
      t.cpu = { s.cpu with sp := s.cpu.sp - 6, cs := t.cpu.cs, ip := t.cpu.ip, flags := t.cpu.flags } ∧
      t.peek16 s.cpu.ss (s.cpu.sp - 2) = s.cpu.flags ∧ t.peek16 s.cpu.ss (s.cpu.sp - 4) = s.cpu.cs ∧
      t.peek16 s.cpu.ss (s.cpu.sp - 6) = s.cpu.ip := by
  have hqueried := queried_rest s v false
  have hcpu := queried_cpu s v false
  have hreal := interrupt_real hv
  generalize s.queried v false = q at hqueried hcpu hreal
  have hq' := hqueried.quiet hq
  have hwords := realPushes_words (s := q) (by rw [hcpu]; exact hqueried.stores hs)
  have hentry := cpu_realPath hq' v
  rw [hcpu] at hwords hentry
  simp only [← peek16_realPath hq' v] at hwords
  refine ⟨_, hreal, (hqueried.trans (realPath_rest hq' v)).withCost _, ?_, hwords⟩
  simp only [hentry]

/-- Settles O58: IRET pops the three words that the real path has pushed, in the opposite order. -/
theorem interruptReturn_restores : Obligations.InterruptReturn := by
  intro v s hq hv hs
  obtain ⟨t, hint, hrest, hcpu, hflags, hcs, hip⟩ := exec_int_real hq hv hs
  obtain ⟨hrest', hbus', hcpu'⟩ := interruptReturn_spec (hrest.quiet hq)
  obtain ⟨u, hiret, hrestU, hcpuU, hmem⟩ := done_onlyCpu .iret hrest' hbus' hcpu' false 0
  refine ⟨t, u, hint, hiret, ?_, hmem, hrest.trans hrestU⟩
  have hslot4 : s.cpu.sp - 6 + 2 = s.cpu.sp - 4 := by bv_omega
  have hslot2 : s.cpu.sp - 6 + 4 = s.cpu.sp - 2 := by bv_omega
  rw [hcpuU, hrest.params, hcpu]
  simp only [hslot4, hslot2, hflags, hcs, hip, sub_add_cancel, wordToFlags]

end Sys2Proof.Machine
end

section
/-!
PROOFS. The flag-control instructions (45_flag_control.md R330 to R336).
-/

namespace Sys2Proof.Machine

/-- An instruction that ends with one flag put writes that bit alone and makes no bus call (R28). -/
theorem done_putFlag (i : Instr) (f : Flag) (b : Bool) (s : State) :
    ∃ t fl, done i (s.putFlag f b) = .next t ∧ SameRest s t ∧ t.calls = s.calls ∧
      OnlyCpu { s.cpu with flags := fl } s t ∧ getFlag fl f = b ∧ FlagsBut [f] s.cpu.flags fl :=
  have hflag : getFlag (putFlag s.cpu.flags f b) f = b := by rw [getFlag_putFlag, if_pos rfl]
  have hframe : FlagsBut [f] s.cpu.flags (putFlag s.cpu.flags f b) :=
    (FlagsBut.refl _ _).putFlag (List.mem_singleton_self f) b
  ⟨_, _, rfl, ((SameRest.refl s).withFlags _).withCost _, rfl, ⟨rfl, State.peek_congr rfl⟩, hflag, hframe⟩

/-- Settles O59: the seven instructions all end with one flag put, each its own flag with its own value. -/
theorem flagControl : Obligations.FlagControl := by
  intro i f b s hrow
  simp only [List.mem_cons, List.not_mem_nil, or_false, Prod.mk.injEq] at hrow
  rcases hrow with ⟨rfl, rfl, rfl⟩ | ⟨rfl, rfl, rfl⟩ | ⟨rfl, rfl, rfl⟩ | ⟨rfl, rfl, rfl⟩ | ⟨rfl, rfl, rfl⟩ |
    ⟨rfl, rfl, rfl⟩ | ⟨rfl, rfl, rfl⟩
  all_goals exact done_putFlag _ _ _ s

end Sys2Proof.Machine
end

section
/-!
PROOFS. The disassembler counts and reads what the prefix loop fetches, and changes nothing of the core
(46_disassembler.md R340, R342, R343, R349, R350; 70_reset_and_hazards.md R399).
-/

namespace Sys2Proof.Machine

/-! ## What the disassembler changes -/

/-- The run changes nothing of the core (R340). -/
theorem sameCore_disassembled (s : State) (seg off : Word) : SameCore s (s.disassembled seg off) := by
  obtain ⟨hruns, -, -⟩ := disasmLoop_runs prefixBound false none 0 (s.atCursor seg off)
  exact ⟨rfl, rfl, rfl, rfl, hruns.core.attached, hruns.core.handlers⟩

/-- The run changes no byte of memory, whatever a device does on its reads (R76). -/
theorem mem_disassembled (s : State) (seg off : Word) : (s.disassembled seg off).bus.mem = s.bus.mem :=
  (disasmLoop_runs prefixBound false none 0 (s.atCursor seg off)).2.1

theorem onlyCpu_disassembled (s : State) (seg off : Word) : OnlyCpu s.cpu s (s.disassembled seg off) := by
  refine ⟨rfl, fun a => ?_⟩
  rw [State.peek, (sameCore_disassembled s seg off).attached, mem_disassembled, State.peek]

/-- Where no device has side effects on memory accesses the run changes nothing at all (R399). -/
theorem disassembled_of_quiet {s : State} (hq : s.QuietMemory) (seg off : Word) : s.disassembled seg off = s := by
  obtain ⟨-, -, hquiet⟩ := disasmLoop_runs prefixBound false none 0 (s.atCursor seg off)
  obtain ⟨hbus, hdraws⟩ := hquiet hq
  rw [State.disassembled, disasmRun, hbus, hdraws]
  rfl

/-! ## No fetch depends on the decode-time state -/

/-- The state under another decode-time state, which a prefix sets and the disassembler leaves (R92, R340). -/
def State.withPrefixes (s : State) (o : Option Sreg) (r : Bool) : State :=
  { s with segOverride := o, repeatState := r }

theorem readByte_withPrefixes (a : Addr) (s : State) (o : Option Sreg) (r : Bool) :
    readByte a (s.withPrefixes o r) = ((readByte a s).1, (readByte a s).2.withPrefixes o r) := by
  have hkind : (s.withPrefixes o r).kindAt a = s.kindAt a := rfl
  have hattached : (s.withPrefixes o r).bus.attached = s.bus.attached := rfl
  unfold readByte
  rw [hkind, hattached]
  split
  · split <;> rfl
  · rfl

theorem fetch8_withPrefixes (s : State) (o : Option Sreg) (r : Bool) :
    fetch8 (s.withPrefixes o r) = ((fetch8 s).1, (fetch8 s).2.withPrefixes o r) := by
  have hcpu : (s.withPrefixes o r).cpu = s.cpu := rfl
  rw [fetch8, hcpu, read8, readByte_withPrefixes]
  rfl

theorem fetchFrom_withPrefixes (l : List Slot) (n : Nat) (got : List Byte) (s : State) (o : Option Sreg) (r : Bool) :
    fetchFrom l n got (s.withPrefixes o r) =
      ((fetchFrom l n got s).1, (fetchFrom l n got s).2.withPrefixes o r) := by
  induction n generalizing got s with
  | zero => rfl
  | succ n ih =>
    simp only [fetchFrom, fetch8_withPrefixes]
    split
    · rfl
    · exact ih _ _

theorem fetchInstr_withPrefixes {s u : State} {d : Decoded} (h : fetchInstr s = (d, u)) (o : Option Sreg) (r : Bool) :
    fetchInstr (s.withPrefixes o r) = (d, u.withPrefixes o r) := by
  have hfetch : fetchFrom s.params.removedSlots 6 [] s = (d, u) := h
  have hslots : (s.withPrefixes o r).params = s.params := rfl
  rw [fetchInstr, hslots, fetchFrom_withPrefixes, hfetch]

/-! ## The disassembler's loop follows the prefix loop -/

/-- One turn on a prefix counts it and goes on (R350). -/
theorem disasmLoop_prefix {u t : State} {p : Instr} {len : Nat} (h : fetchInstr u = (.ok p len, t))
    (hp : p.isPrefix = true) (m : Nat) (rep : Bool) (o : Option Sreg) (n : Nat) :
    ∃ rep' o', disasmLoop (m + 1) rep o n u = disasmLoop m rep' o' (n + 1) t := by
  cases p with
  | segEs | segCs | segSs | segDs | rep => exact ⟨_, _, by rw [disasmLoop, h]⟩
  | _ => cases hp

/-- The last turn prints what has been fetched and counts its bytes (R343). -/
theorem disasmLoop_last {u t : State} {d : Decoded} (h : fetchInstr u = (d, t)) (hp : Decoded.isPrefix d = false)
    (m : Nat) (rep : Bool) (o : Option Sreg) (n : Nat) :
    disasmLoop (m + 1) rep o n u = (decodedText rep o t.cpu.ip d, n + d.length, t) := by
  rw [disasmLoop, h]
  split
  -- The sixth arm is the one for what is no prefix; `hp` rules out the others.
  case h_6 hd => cases hd; rfl
  all_goals next hd => cases hd; cases hp

/-- Where the prefix loop leads to `d`, so does the disassembler's, from any decode-time state: it makes the same
fetches and counts the prefixes and the bytes of `d` (R342, R343, R350). -/
theorem disasmLoop_of_reaches {k m : Nat} {s u : State} {d : Decoded} (hk : k < m) (h : Reaches k s d u)
    (rep : Bool) (o : Option Sreg) (n : Nat) (seg : Option Sreg) (r : Bool) :
    ∃ rep' o', disasmLoop m rep o n (s.withPrefixes seg r) =
      (decodedText rep' o' u.cpu.ip d, n + (k + d.length), u.withPrefixes seg r) := by
  obtain ⟨m, rfl⟩ : ∃ m', m = m' + 1 := ⟨m - 1, by omega⟩
  induction k generalizing m s rep o n with
  | zero =>
    obtain ⟨hfetch, hlast⟩ := h
    refine ⟨rep, o, ?_⟩
    rw [disasmLoop_last (fetchInstr_withPrefixes hfetch seg r) hlast, Nat.zero_add]
    rfl
  | succ k ih =>
    obtain ⟨p, len, v, t, hfetch, hp, hexec, hrest⟩ := h
    obtain ⟨o₁, r₁, hset⟩ := exec_prefix hp v
    rw [hset] at hexec
    cases hexec
    obtain ⟨rep₁, o₂, hturn⟩ := disasmLoop_prefix (fetchInstr_withPrefixes hfetch seg r) hp m rep o n
    obtain ⟨m, rfl⟩ : ∃ m', m = m' + 1 := ⟨m - 1, by omega⟩
    obtain ⟨rep', o', hloop⟩ := ih hrest rep₁ o₂ (n + 1) m (by omega)
    refine ⟨rep', o', ?_⟩
    calc disasmLoop (m + 1 + 1) rep o n (s.withPrefixes seg r)
      _ = disasmLoop (m + 1) rep₁ o₂ (n + 1) (v.withPrefixes seg r) := hturn
      _ = _ := hloop
      _ = _ := by rw [show n + 1 + (k + d.length) = n + (k + 1 + d.length) by omega]

/-- An absent row prints the unknown byte, with none of the prefixes' words (R349). -/
theorem decodedText_absentRow {i : Instr} (h : isAbsentRow i = true) (rep : Bool) (o : Option Sreg) (next : Word)
    (n : Nat) : decodedText rep o next (.ok i n) = "??? " ++ hex2 i.opcode := by
  cases i with
  | absentOpcode | absentSlot => rfl
  | _ => cases h

/-- `Disasm` at CS:IP, where the prefix loop leads to `d` at `u`. -/
theorem disasmRun_of_reaches {k : Nat} {s u : State} {d : Decoded} (hk : k < prefixBound)
    (h : Reaches k { s with calls := [] } d u) :
    ∃ rep o, disasmRun s s.cpu.cs s.cpu.ip =
      (decodedText rep o u.cpu.ip d, k + d.length, u.withPrefixes s.segOverride s.repeatState) := by
  obtain ⟨rep, o, hloop⟩ := disasmLoop_of_reaches hk h false none 0 s.segOverride s.repeatState
  rw [Nat.zero_add] at hloop
  exact ⟨rep, o, hloop⟩

/-- Settles O60: the moves keep what the disassembler's fetches keep, and its loop makes the turns of the prefix
loop. -/
theorem disassemblerParity : Obligations.DisassemblerParity := by
  refine ⟨fun s seg off => ⟨fun hrun => ?_, sameCore_disassembled s seg off, onlyCpu_disassembled s seg off,
    mem_disassembled s seg off, rfl, rfl, fun hq => disassembled_of_quiet hq seg off⟩, fun k s u d hk hreach => ?_⟩
  · simp [State.hostMove, State.whileRunning, hrun]
  · obtain ⟨rep, o, hrun⟩ := disasmRun_of_reaches hk hreach
    obtain ⟨-, -, -, -, -, hcpu⟩ := reaches_keeps hreach
    simp only [disasm, disasmCalls, hrun]
    refine ⟨trivial, by rw [hcpu], rfl, ?_, ?_, ?_⟩
    · rintro i n rfl -
      obtain ⟨b, hb⟩ := reaches_decodes hreach
      rw [← length_of_decodeStream hb]
      rfl
    · rintro i n rfl habsent
      exact decodedText_absentRow habsent _ _ _ _
    · rintro op slot n rfl
      rfl

end Sys2Proof.Machine
end

section
/-!
PROOFS. INT, INT3 and INTO: the real path from the query to the handler's entry, and the override path
(43_control_transfer.md R315 to R317; 60_exceptions.md R362 to R364, R371, R375).
-/

namespace Sys2Proof.Machine

/-! ## The instructions that take an interrupt -/

/-- INT, INT3 and INTO with OF set are `Interrupt(v)` and nothing else (R315 to R317). -/
theorem exec_softwareInterrupt {i : Instr} {v : Byte} {s : State}
    (h : i = .int v ∨ (i = .int3 ∧ v = 3) ∨ (i = .into ∧ v = 4 ∧ getFlag s.cpu.flags .of = true)) :
    exec i s = interrupt v s := by
  rcases h with rfl | ⟨rfl, rfl⟩ | ⟨rfl, rfl, hof⟩
  · rfl
  · rfl
  · exact if_pos hof

/-- INTO with OF clear only ends (R317). -/
theorem exec_into_of_clear {s : State} (h : getFlag s.cpu.flags .of = false) : exec .into s = done .into s := by
  rw [exec, execInto, h]
  rfl

/-! ## The real path -/

theorem sub_four_sub_two (x : Word) : x - 4 - 2 = x - 6 := sub_sub x 4 2

/-- The real path writes SP, FLAGS, IP and CS and no other register, whatever the host does (R363). -/
theorem cpu_realPath_frame (v : Byte) (s : State) :
    (realPath v s).cpu =
      { s.cpu with sp := s.cpu.sp - 6
                   flags := clearIfTf s.params s.cpu.flags
                   ip := (realPath v s).cpu.ip
                   cs := (realPath v s).cpu.cs } := by
  simp only [realPath_pushes, State.withCsIp_cpu, (touches_read16 _ _ _).cpu, realPushes_cpu, sub_two_sub_two,
    sub_four_sub_two]

/-- The pushes are FLAGS, CS and IP, each two byte writes (R66, R363). -/
theorem calls_realPushes (s : State) :
    (realPushes s).calls =
      writeCalls s .word s.cpu.ss (s.cpu.sp - 6) s.cpu.ip ++
        (writeCalls s .word s.cpu.ss (s.cpu.sp - 4) s.cpu.cs ++
          (writeCalls s .word s.cpu.ss (s.cpu.sp - 2) s.cpu.flags ++ s.calls)) := by
  have hflags : ((push16 s.cpu.flags s).withFlags (clearIfTf s.params s.cpu.flags)).bus.attached = s.bus.attached :=
    (runs_push16 _ s).core.attached
  have hcs := (runs_push16 s.cpu.cs ((push16 s.cpu.flags s).withFlags (clearIfTf s.params s.cpu.flags))).core.attached
  simp only [realPushes, calls_push16, cpu_push16, State.withFlags_cpu, State.withFlags_calls, sub_two_sub_two,
    sub_four_sub_two, writeCalls_congr hflags, writeCalls_congr (hcs.trans hflags)]

/-- No byte outside the three slots of the pushes changes, whatever the host does (R76). -/
theorem sameMemoryBut_realPushes (s : State) :
    SameMemoryBut (bytesAt .word s.cpu.ss (s.cpu.sp - 2) ++ bytesAt .word s.cpu.ss (s.cpu.sp - 4) ++
      bytesAt .word s.cpu.ss (s.cpu.sp - 6)) s (realPushes s) := by
  obtain ⟨-, -, hflags⟩ := pushed_push16 s.cpu.flags s
  obtain ⟨-, hpair⟩ := pushedPair_push16 s.cpu.cs s.cpu.ip
    ((push16 s.cpu.flags s).withFlags (clearIfTf s.params s.cpu.flags))
  simp only [State.withFlags_cpu, cpu_push16, sub_two_sub_two, sub_two_sub_four] at hpair
  intro a ha
  simp only [List.mem_append, not_or] at ha
  obtain ⟨⟨hslot2, hslot4⟩, hslot6⟩ := ha
  exact (hpair a (by simp only [List.mem_append, not_or]; exact ⟨hslot4, hslot6⟩)).trans (hflags a hslot2)

/-- The table entry is read after the pushes: IP's word, then CS's (R363, R375). -/
theorem calls_realPath {s : State} (hq : s.QuietMemory) (v : Byte) :
    (realPath v s).calls =
      readCalls (realPath v s) (bytesAt .word 0 (vectorOffset v) ++ bytesAt .word 0 (vectorOffset v + 2)) ++
        (realPushes s).calls := by
  rw [realPath_eq hq]
  rfl

/-- Where memory is quiet IP and CS are the words of the table entry as it stands after the pushes (R363). -/
theorem entry_realPath {s : State} (hq : s.QuietMemory) (v : Byte) :
    (realPath v s).cpu.ip = (realPath v s).peek16 0 (vectorOffset v) ∧
      (realPath v s).cpu.cs = (realPath v s).peek16 0 (vectorOffset v + 2) := by
  rw [peek16_realPath hq, peek16_realPath hq, cpu_realPath hq]
  exact ⟨rfl, rfl⟩

/-- The reads of the table entry change no byte of memory. -/
theorem peek_realPath (v : Byte) (s : State) (a : Addr) : (realPath v s).peek a = (realPushes s).peek a := by
  rw [realPath_pushes, State.peek_withCsIp]
  exact (peek_readW .word _ _ _ _).trans (peek_readW .word _ _ _ _)

/-- Settles O56: the query keeps registers and memory, and the rest is the real path after it. -/
theorem interruptRealPath : Obligations.InterruptRealPath := by
  intro i v s
  refine ⟨fun hi hv => ?_, fun hof => ?_⟩
  · rw [exec_softwareInterrupt hi, interrupt_real hv]
    have hquery := queried_rest s v false
    have hcalls := queried_calls s v false
    have hcpu := queried_cpu s v false
    have hbus := queried_bus s v false
    generalize s.queried v false = q at *
    have hruns := realPath_runs v q
    have hframe := cpu_realPath_frame v q
    have hpushes := calls_realPushes q
    have hmem := sameMemoryBut_realPushes q
    obtain ⟨hintf, htf, hkept⟩ := clearIfTf_spec s.params s.cpu.flags
    rw [hcpu] at hframe hpushes hmem
    rw [hquery.params] at hframe
    simp only [writeCalls_congr hquery.attached, hcalls] at hpushes
    refine ⟨_, _, rfl, hquery.core.trans (hruns.withCost _).core, hframe, hintf, htf, hkept, fun hq => ?_⟩
    have hquiet := hquery.quiet hq
    obtain ⟨hip, hcs⟩ := entry_realPath hquiet v
    refine ⟨(hquery.trans (realPath_rest hquiet v)).withCost _, hip, hcs, fun hs => ?_, fun a ha => ?_, ?_⟩
    · have hwords := realPushes_words (s := q) (by rw [hcpu]; exact hquery.stores hs)
      simp only [← peek16_realPath hquiet v, hcpu] at hwords
      exact hwords
    · exact ((peek_realPath v q a).trans (hmem a ha)).trans (State.peek_congr hbus a)
    · exact (calls_realPath hquiet v).trans (congrArg _ hpushes)
  · rw [exec_into_of_clear hof]
    exact ⟨_, rfl, (SameRest.refl s).withCost _, ⟨rfl, State.peek_congr rfl⟩, rfl⟩

/-! ## The override path -/

theorem queried_of_attached {s : State} (h : s.bus.attached = true) (v : Byte) (a : Bool) :
    s.queried v a = { s with draws := s.draws + 1 }.record (.query v a) := if_pos h

/-- The handler is not told of the bus calls. -/
theorem handlerAnswer_record (v : Byte) (s : State) (c : BusCall) :
    handlerAnswer v (s.record c) = handlerAnswer v s := rfl

/-- A handler that returns leaves registers, memory and devices as it says (R364). -/
theorem overridePath_returns {v : Byte} {s : State} {e : HostEffect} (h : handlerAnswer v s = .returns e) :
    overridePath v s =
      .ok (((s.record (.interruptOverride v)).hostActs e.writes e.devices).withCpu e.cpu) := by
  rw [overridePath, h]

/-- A handler that fails ends the step, and what it wrote stays (R82, R371). -/
theorem overridePath_fails {v : Byte} {s : State} {ws : List (Addr × Byte)} {d : Devices}
    (h : handlerAnswer v s = .fails ws d) :
    overridePath v s =
      .error (.hostProtocolError ((s.record (.interruptOverride v)).hostActs ws d).hostSide) := by
  rw [overridePath, h]

/-- Settles O57: the query and the handler's call are the two bus calls, and the handler's answer is the rest. -/
theorem interruptOverridePath : Obligations.InterruptOverridePath := by
  intro i v s hi ha hv
  rw [exec_softwareInterrupt hi, interrupt_overridden ha hv, queried_of_attached ha]
  refine ⟨fun e he => ?_, fun ws d hd => ?_⟩
  · rw [overridePath_returns ((handlerAnswer_record _ _ _).trans he)]
    exact ⟨_, rfl, rfl, rfl, rfl, ⟨rfl, rfl, rfl, rfl, rfl, rfl⟩, rfl⟩
  · rw [overridePath_fails ((handlerAnswer_record _ _ _).trans hd)]
    exact ⟨_, rfl, rfl, rfl, rfl⟩

end Sys2Proof.Machine
end

section
/-!
PROOFS. How a step and a call of `runInstruction` end: an endless run of prefixes, the two errors, the refusal after
them, and the instructions that always complete (10_state.md R43; 20_memory.md R82; 30_encoding.md R91, R92;
60_exceptions.md R370, R371; 70_reset_and_hazards.md R392, R393, R397).
-/

namespace Sys2Proof

/-- A prefix byte is decoded as a prefix whatever follows (R92). -/
theorem decodeStream_prefixByte {b : Nat → Byte} (h : b 0 ∈ prefixBytes) :
    ∃ p, decodeStream b = .ok p 1 ∧ p.isPrefix = true := by
  have hprefix : ∀ op ∈ prefixBytes, Machine.Decoded.isPrefix (decodeStream fun _ => op) = true := by decide
  have hp := hprefix (b 0) h
  cases hd : decodeStream fun _ => b 0 with
  | ok p n =>
    rw [hd] at hp
    have hn : n = 1 := Machine.prefix_length hd hp
    subst hn
    exact ⟨p, decodeStream_eq_single hd, hp⟩
  | refusedForm op slot n => rw [hd] at hp; cases hp
  | truncated => rw [hd] at hp; cases hp

/-- No prefix is looked up in `DISPATCH`, so that none can be taken out of it (R6, R91). -/
theorem decodeWith_prefixByte {b : Nat → Byte} (h : b 0 ∈ prefixBytes) (r : List Slot) :
    decodeWith r b = decodeStream b :=
  decodeWith_of_not_removed (by simp [isRemoved, h])

end Sys2Proof

namespace Sys2Proof.Machine

/-! ## A code segment of prefix bytes -/

/-- Every byte of the code segment reads as a prefix byte. -/
def AllPrefixes (s : State) : Prop := ∀ off : Word, s.peek8 s.cpu.cs off ∈ prefixBytes

theorem AllPrefixes.congr {s t : State} (h : AllPrefixes s) (hbus : t.bus = s.bus) (hcs : t.cpu.cs = s.cpu.cs) :
    AllPrefixes t := fun off => by
  rw [State.peek8, State.peek_congr hbus, hcs]
  exact h off

/-- There each turn of the prefix loop fetches one more prefix. -/
theorem fetchInstr_allPrefixes {s : State} (hq : s.QuietMemory) (h : AllPrefixes s) :
    ∃ p u, fetchInstr s = (.ok p 1, u) ∧ p.isPrefix = true := by
  have hbyte : s.code 0 ∈ prefixBytes := h _
  obtain ⟨p, hdecode, hp⟩ := decodeStream_prefixByte hbyte
  exact ⟨p, _, fetchInstr_of_code hq ((decodeWith_prefixByte hbyte _).trans hdecode), hp⟩

/-- The loop never leaves such a segment, however many turns it may take (R397). -/
theorem runLoop_allPrefixes (n : Nat) {s : State} (hq : s.QuietMemory) (h : AllPrefixes s) :
    runLoop n s = .fault .prefixLoop := by
  induction n generalizing s with
  | zero => rfl
  | succ n ih =>
    obtain ⟨p, u, hfetch, hp⟩ := fetchInstr_allPrefixes hq h
    obtain ⟨o, r, hexec⟩ := exec_prefix hp u
    obtain ⟨hruns, hcpu⟩ := fetchInstr_keeps hfetch
    obtain ⟨hbus, -⟩ := fetchInstr_quiet hq hfetch
    have hcs : u.cpu.cs = s.cpu.cs := by rw [hcpu]
    have hquiet : State.QuietMemory { u with segOverride := o, repeatState := r } := hruns.quiet hq
    rw [runLoop_prefix hfetch hp hexec]
    exact ih hquiet (h.congr hbus hcs)

/-- Settles O26: by induction on the turns of the prefix loop. -/
theorem prefixHang : Obligations.PrefixHang := by
  intro s hrun hq h
  rw [step_running hrun]
  exact runLoop_allPrefixes prefixBound (s := { s with calls := [] }) hq h

/-! ## How a step ends -/

/-- HostProtocolError comes from the host alone: an attached bus failed the last bus call (R371). -/
def Fault.FromHost (e : Fault) : Prop :=
  ∀ left, e = .hostProtocolError left → left.bus.attached = true ∧ HostFailed left.calls

/-- A step is made or ends in an error, and is not refused. -/
def Ends (out : Outcome) : Prop := (∃ t, out = .next t) ∨ ∃ e, out = .fault e ∧ e.FromHost

theorem ends_decodeError (op : Byte) (slot : Option RegIx) (u : State) : Ends (raiseDecodeError op slot u) :=
  .inr ⟨_, rfl, nofun⟩

theorem ends_lastTurn {d : Decoded} (hlast : Decoded.isPrefix d = false) (u : State) : Ends (lastTurn d u) := by
  cases d with
  | ok i n =>
    have hout := exec_outcome i u hlast
    cases hexec : exec i u with
    | next t => exact .inl ⟨_, by rw [lastTurn, hexec]⟩
    | fault e =>
      rw [hexec] at hout
      exact .inr ⟨e, by rw [lastTurn, hexec], hout.2⟩
    | refused r =>
      rw [hexec] at hout
      exact hout.elim
  | refusedForm op slot n => exact ends_decodeError op slot u
  | truncated => exact ends_decodeError 0x00 none u

/-- On a core that may run a step is not refused (R393). -/
theorem ends_step {s : State} (hrun : s.status = .running) : Ends (step s) := by
  obtain hloop | ⟨k, d, u, -, hreach, -, hstep⟩ := step_cases hrun
  · exact .inr ⟨_, hloop, nofun⟩
  · obtain ⟨-, -, -, -, hlast, -⟩ := reaches_keeps hreach
    rw [hstep]
    exact ends_lastTurn hlast u

/-- After an error or `shutdown` a step is refused (R392, R393). -/
theorem step_not_running {s : State} (h : s.status ≠ .running) : step s = .refused .notRunning := by
  unfold step runStep
  split
  · next hrun => exact absurd hrun h
  · rfl
  · rfl

theorem step_refused_iff (s : State) : (∃ r, step s = .refused r) ↔ s.status ≠ .running := by
  refine ⟨fun ⟨r, hr⟩ hrun => ?_, fun h => ⟨_, step_not_running h⟩⟩
  obtain ⟨t, ht⟩ | ⟨e, he, -⟩ := ends_step hrun
  · rw [hr] at ht; cases ht
  · rw [hr] at he; cases he

theorem fromHost_of_step {s : State} {e : Fault} (h : step s = .fault e) : e.FromHost := by
  have hrun : s.status = .running := by
    by_contra hne
    rw [step_not_running hne] at h
    cases h
  obtain ⟨t, ht⟩ | ⟨e', he, hfrom⟩ := ends_step hrun
  · rw [h] at ht; cases ht
  · rw [h] at he; cases he; exact hfrom

/-! ## How `runInstruction` ends -/

theorem runInstruction_next {s t : State} (h : step s = .next t) :
    s.runInstruction = some (.cost t.cost, t) := by
  rw [State.runInstruction, h]

theorem runInstruction_decodeError {s : State} {op : Byte} {slot : Option RegIx} {left : HostSide}
    (h : step s = .fault (.decodeError op slot left)) :
    s.runInstruction = some (.error (.decodeError op slot), s.failed (.decodeError op slot) left) := by
  rw [State.runInstruction, h]

theorem runInstruction_hostProtocolError {s : State} {left : HostSide}
    (h : step s = .fault (.hostProtocolError left)) :
    s.runInstruction = some (.error .hostProtocolError, s.failed .hostProtocolError left) := by
  rw [State.runInstruction, h]

/-- `runInstruction` is undefined where the step is refused or never ends (R393, R397). -/
theorem runInstruction_eq_none_iff (s : State) :
    s.runInstruction = none ↔ s.status ≠ .running ∨ step s = .fault .prefixLoop := by
  rw [← step_refused_iff]
  cases h : step s with
  | next t => simp [runInstruction_next h]
  | fault e =>
    cases e with
    | decodeError op slot left => simp [runInstruction_decodeError h]
    | hostProtocolError left => simp [runInstruction_hostProtocolError h]
    | prefixLoop => simp [State.runInstruction, h]
  | refused r => simp [State.runInstruction, h]

/-- After an error no step is made (R43, R393). -/
theorem runInstruction_failed (s : State) (e : StepError) (left : HostSide) :
    (s.failed e left).runInstruction = none :=
  (runInstruction_eq_none_iff _).mpr (.inl nofun)

/-! ## The instructions that always complete -/

theorem jumpIf_completes (i : Instr) (cond : Bool) (d : Byte) (s : State) : ∃ t, jumpIf i cond d s = .next t := by
  unfold jumpIf
  split <;> exact ⟨_, rfl⟩

/-- A row of the table raises DecodeError only as an absent row, and only a port call or an interrupt can fail at the
host; so every other instruction ends with a cost. -/
theorem exec_completes (i : Instr) (s : State) (hwf : i.WellFormed) (habsent : isAbsentRow i = false)
    (hport : accessesPort i = false) (hint : mayInterrupt i = false) : ∃ t, exec i s = .next t := by
  cases i with
  | absentOpcode | absentSlot => cases habsent
  | inImm | inDx | outImm | outDx => cases hport
  | div | idiv | aam | int | int3 | into => cases hint
  | movSregRm sr m =>
    obtain ⟨hsr, -⟩ := Bool.and_eq_true_iff.mp hwf
    exact ⟨_, if_neg (of_decide_eq_true hsr)⟩
  | popSreg sr => exact ⟨_, if_neg (of_decide_eq_true hwf)⟩
  | lea r m | lds r m | les r m | jmpFarRm m | callFarRm m =>
    obtain ⟨hmem, -⟩ := Bool.and_eq_true_iff.mp hwf
    exact ⟨_, if_pos hmem⟩
  | pushRm m =>
    simp only [exec, execPushRm]
    split <;> exact ⟨_, rfl⟩
  | jo | jno | jb | jae | je | jne | jbe | ja | js | jns | jp | jnp | jl | jge | jle | jg | loop | loopz | loopnz
  | jcxz => exact jumpIf_completes _ _ _ _
  | _ => exact ⟨_, rfl⟩

/-- Settles O27: the step is refused where the core may not run, and else ends as its last turn does. -/
theorem stepOutcomes : Obligations.StepOutcomes := by
  refine ⟨fun s => ⟨step_refused_iff s, runInstruction_eq_none_iff s, fun t => runInstruction_next,
    fun op slot left h => ?_, fun left h => ?_⟩, exec_completes⟩
  · exact ⟨_, runInstruction_decodeError h, rfl, rfl, rfl, rfl, runInstruction_failed s _ left⟩
  · obtain ⟨hattached, hfailed⟩ := fromHost_of_step h left rfl
    exact ⟨hattached, hfailed, _, runInstruction_hostProtocolError h, rfl, rfl, rfl, rfl,
      runInstruction_failed s _ left⟩

end Sys2Proof.Machine
end

section
/-!
PROOFS. `init`, `reset` and `shutdown`, and what is defined after `shutdown` (10_state.md R44;
70_reset_and_hazards.md R390 to R392, R399).
-/

namespace Sys2Proof.Machine

theorem hostMove_reset_of_live {s : State} (h : s.status ≠ .shutDown) (cs ip : Word) :
    s.hostMove (.reset cs ip) = some (.nothing, State.init cs ip s.bus s.params s.draws) := by
  rw [State.hostMove, State.hostReset]
  split
  · rfl
  · rfl
  · next hs => exact absurd hs h

theorem hostMove_shutdown_of_live {s : State} (h : s.status ≠ .shutDown) :
    s.hostMove .shutdown =
      some (.nothing,
        ({ s with bus := { s.bus with attached := false }, status := .shutDown } : State).undefineCore) := by
  rw [State.hostMove, State.shutdown]
  split
  · rfl
  · rfl
  · next hs => exact absurd hs h

theorem whileRunning_of_shutDown {s : State} (h : s.status = .shutDown) (r : HostReturn × State) :
    s.whileRunning r = none := by
  rw [State.whileRunning, h]

/-- After `shutdown` the core defines `init` alone (R392, R399). -/
theorem hostMove_of_shutDown {s : State} (h : s.status = .shutDown) {m : HostMove}
    (hinit : ∀ c i b, m ≠ .init c i b) (hedit : ∀ w d l, m ≠ .edit w d l) : s.hostMove m = none := by
  have hrun : s.runInstruction = none := (runInstruction_eq_none_iff s).mpr (.inl (by rw [h]; nofun))
  cases m with
  | init c i b => exact absurd rfl (hinit c i b)
  | edit w d l => exact absurd rfl (hedit w d l)
  | reset cs ip => simp [State.hostMove, State.hostReset, h]
  | shutdown => simp [State.hostMove, State.shutdown, h]
  | runInstruction => simp [State.hostMove, hrun]
  | get | set | getHalf | setHalf | setCarry | disasm | debugOutput => exact whileRunning_of_shutDown h _

/-- Settles O1: the registers of `init` are those of R44, and `reset` and `shutdown` are defined on a live core. -/
theorem initState : Obligations.InitState := by
  intro cs ip bus p n s
  exact ⟨rfl, rfl, rfl, rfl, rfl, rfl, rfl,
    fun hlive => ⟨hostMove_reset_of_live hlive cs ip, _, hostMove_shutdown_of_live hlive, rfl, rfl, rfl⟩,
    fun hs m hinit hedit => hostMove_of_shutDown hs hinit hedit⟩

end Sys2Proof.Machine
end
